-- ==== Sys2Proof/Word.lean ====
section
/-! DEFINITION. The octet, and four like things indexed by lane. -/

namespace Sys2Proof

/-- Eight bits (00, Terms). -/
abbrev Byte := BitVec 8

/-- A lane number, 0 to 3 (00, Lanes, channels and addresses). -/
abbrev LaneId := Fin 4

/-- One value for each of lanes 0 to 3. -/
structure Four (α : Type) where
  l0 : α
  l1 : α
  l2 : α
  l3 : α
  deriving DecidableEq, Repr

/-- The value of lane `i`. -/
def Four.get {α : Type} (f : Four α) (i : LaneId) : α :=
  match i with
  | 0 => f.l0
  | 1 => f.l1
  | 2 => f.l2
  | 3 => f.l3

/-- `f` with the value of lane `i` replaced. -/
def Four.set {α : Type} (f : Four α) (i : LaneId) (v : α) : Four α :=
  match i with
  | 0 => { f with l0 := v }
  | 1 => { f with l1 := v }
  | 2 => { f with l2 := v }
  | 3 => { f with l3 := v }

/-- Every lane made from its number. -/
def Four.make {α : Type} (g : LaneId → α) : Four α := ⟨g 0, g 1, g 2, g 3⟩

end Sys2Proof
end

