-- ==== Sys2Proof/Config.lean ====
section
/-! DEFINITION. What the spec leaves open, and the identity it fixes. -/

namespace Sys2Proof

/-- A FREE VALUE (log 4): the time in ms that a running timer still has to run when a status reads it. The table has no
clock, so the spec fixes nothing but that it lies within the timer's length. The first argument counts the status
reads, the second tells the timers of one read apart. -/
opaque Config.timeRemaining : Nat → Nat → Nat

/-- The part identity of the HELLO_NOTICE (R180). -/
def Config.identity : Nat := 0x0C04

/-- The revision code of the HELLO_NOTICE (R180). -/
def Config.revision : Nat := 0x01

end Sys2Proof
end

