-- ==== Sys2Proof/Syntax.lean ====
section
/-! DEFINITION. The commands of spec/opcode_table.json, one constructor per row, with the operands the spec gives each. -/

namespace Sys2Proof

/-- A frame without its sync octet and check value (11, section 11.1): what a receiver keeps and a record of the
upstream queue holds. The length octet is the payload's length. -/
structure Frame where
  addr : Byte
  kind : Byte
  tag : Byte
  payload : List Byte
  deriving DecidableEq, Repr

/-- An item record as its 25 octets carry it (R193). -/
structure RawItem where
  code : BitVec 48
  saleKind : Byte
  presence : Byte
  unitPrice : BitVec 32
  presetTare : BitVec 32
  expectedWeight : BitVec 32
  tolerance : BitVec 32
  bagRule : Byte
  deriving DecidableEq, Repr

/-- A range record as its 12 octets carry it (R193). -/
structure RawRange where
  low : BitVec 32
  high : BitVec 32
  cardClass : Byte
  keepFirst : Byte
  keepLast : Byte
  checkDigit : Byte
  deriving DecidableEq, Repr

/-- A calibration record as its 22 octets carry it (R193). -/
structure RawCal where
  max : BitVec 32
  d1 : BitVec 32
  m1 : BitVec 32
  d2 : BitVec 32
  zc : BitVec 32
  span : BitVec 16
  deriving DecidableEq, Repr

/-- One 15-octet lane block of the settings record (R193). -/
structure RawLaneSettings where
  displayInterval : BitVec 16
  weighTime : Byte
  baseTolerance : BitVec 32
  placementTime : Byte
  removalTime : Byte
  staffHold : BitVec 16
  polarity : Byte
  pulseTime : Byte
  leftOpenTime : BitVec 16
  deriving DecidableEq, Repr

/-- The 64-octet settings record (R193). -/
structure RawSettings where
  moneyDecimals : Byte
  linkSilence : Byte
  responseTime : Byte
  solenoidBudget : Byte
  lanes : Four RawLaneSettings
  deriving DecidableEq, Repr

/-- A lane's two weighing channels (00, Lanes, channels and addresses). -/
inductive Chan where
  | platter
  | bag
  deriving DecidableEq, Repr

/-- Why the trunk receiver discards a frame in progress (R169). -/
inductive TrunkDiscard where
  | gap
  | framing
  | length
  | check
  deriving DecidableEq, Repr

/-- Why the payment link receiver discards a frame (R104). A frame discarded for its kind or its payload length was
received whole, and stands with its cause. -/
inductive PaymentDiscard where
  | gap
  | length
  | check
  | kind (frame : Frame)
  | payloadLength (frame : Frame)
  deriving DecidableEq, Repr

/-- Why a printer port receiver discards a frame (R148). A frame discarded for its address, its kind, its payload length
or the status it reports was received whole, and stands with its cause. -/
inductive PrinterDiscard where
  | gap
  | length
  | check
  | address (frame : Frame)
  | kind (frame : Frame)
  | payloadLength (frame : Frame)
  | statusValue (frame : Frame)
  deriving DecidableEq, Repr

/-- The four values a PRINTER_STATUS frame that is kept may carry (R148, R183). -/
inductive PrinterReport where
  | ready
  | paperLow
  | paperOut
  | coverOpen
  deriving DecidableEq, Repr

/-- The self-check result of a start-up (R180). -/
inductive SelfCheck where
  | pass
  | printMemory
  | tableMemory
  | both
  deriving DecidableEq, Repr

/-- What a start-up that reads the straps finds at its inputs (R168, R179, R180): the two strap codes, the self-check
result, and whether the supply is below the warning threshold at its end. -/
structure StartInputs where
  rate : BitVec 2
  lanes : BitVec 2
  selfCheck : SelfCheck
  supplyLow : Bool
  deriving DecidableEq, Repr

/-- The commands. A request (the rows from `item` to `calRead`) is the host's frame of that kind: `addr` is its address
octet where the kind may go to a lane (a part kind goes to address 15), `tag` its tag octet, and the rest its payload
fields by R184. Every other row is an event at the part (95). `calEn` is the level of the CAL_EN input while the
command is taken (R178), on the three commands that can dispatch a CAL_WRITE. -/
inductive Instr where
  | item (addr tag : Byte) (code : BitVec 48) (quantity : Byte) (price : BitVec 32) (skip : Byte)
  | void (addr tag position : Byte)
  | cancelWeigh (addr tag : Byte)
  | tender (addr tag kind : Byte) (amount : BitVec 32)
  | newBasket (addr tag : Byte)
  | abandonBasket (addr tag : Byte)
  | basketRead (addr tag start : Byte)
  | laneMode (addr tag target : Byte)
  | channelStart (addr tag channel : Byte)
  | channelStop (addr tag channel : Byte)
  | channelSetup (addr tag channel filterLength stabilityLength : Byte)
  | zero (addr tag channel : Byte)
  | tareWeighed (addr tag channel : Byte) (value : BitVec 32)
  | tarePreset (addr tag channel form : Byte) (value : BitVec 32)
  | clearTare (addr tag channel : Byte)
  | bagOverride (addr tag : Byte)
  | cancelCard (addr tag : Byte)
  | drawerOpen (addr tag : Byte)
  | drawerClear (addr tag : Byte)
  | printBegin (addr tag : Byte)
  | printData (addr tag job : Byte) (octets : List Byte)
  | printEnd (addr tag job : Byte)
  | printCancel (addr tag job : Byte)
  | laneStatus (addr tag part : Byte)
  | laneReset (addr tag : Byte)
  | staffGrant (addr tag : Byte) (number : BitVec 32)
  | staffWithdraw (addr tag : Byte)
  | clearAttention (addr tag : Byte) (set : BitVec 16)
  | attentionMask (addr tag : Byte) (set : BitVec 16)
  | hello (tag : Byte)
  | partStatus (tag : Byte)
  | settingsWrite (tag : Byte) (record : RawSettings)
  | settingsRead (tag : Byte)
  | setDate (tag year month day : Byte)
  | restart (tag : Byte)
  | itemPut (tag : Byte) (records : List RawItem)
  | itemRemove (tag : Byte) (code : BitVec 48)
  | itemClear (tag : Byte)
  | itemGet (tag : Byte) (code : BitVec 48)
  | binPut (tag : Byte) (records : List RawRange)
  | binRemove (tag : Byte) (low : BitVec 32)
  | binClear (tag : Byte)
  | binRead (tag : Byte) (start : BitVec 32)
  | glyphPut (tag code : Byte) (pattern : List Byte)
  | glyphClear (tag code : Byte)
  | calWrite (tag lane channel : Byte) (record : RawCal) (calEn : Bool)
  | calRead (tag lane channel : Byte)
  | unknownKind (frame : Frame)
  | calWriteComplete
  | goodFrame (frame : Frame) (calEn : Bool)
  | frameError (cause : TrunkDiscard)
  | upstreamFrameSent (calEn : Bool)
  | restartReset (selfCheck : SelfCheck)
  | linkSilenceExpiry
  | powerOn (inputs : StartInputs)
  | brownOut
  | supplyLowSet
  | supplyLowClear
  | sampleArrival (lane : LaneId) (channel : Chan) (raw : BitVec 20)
  | channelSilenceExpiry (lane : LaneId) (channel : Chan)
  | initialZeroExpiry (lane : LaneId) (channel : Chan)
  | displayTimerExpiry (lane : LaneId) (channel : Chan)
  | weighTimerExpiry (lane : LaneId)
  | placementTimerExpiry (lane : LaneId)
  | removalTimerExpiry (lane : LaneId)
  | readerCharacter (lane : LaneId) (value : BitVec 4) (parity : Bool)
  | gapTimerExpiry (lane : LaneId)
  | result (addr tag outcome : Byte) (amount : BitVec 32) (approval : BitVec 48)
  | paymentFrameSent
  | responseTimerExpiry
  | drawerSensorLevel (lane : LaneId) (high : Bool)
  | debounceTimerExpiry (lane : LaneId)
  | pulseTimerExpiry (lane : LaneId)
  | checkTimerExpiry (lane : LaneId)
  | leftOpenExpiry (lane : LaneId)
  | lineDone (lane : LaneId) (tag : Byte)
  | lineFailed (lane : LaneId) (tag : Byte)
  | printerStatus (lane : LaneId) (report : PrinterReport)
  | printerSilenceExpiry (lane : LaneId)
  | answerTimerExpiry (lane : LaneId)
  | staffHoldExpiry (lane : LaneId)
  | supplyAboveBrownOut (inputs : StartInputs)
  | paymentFrameDiscarded (cause : PaymentDiscard)
  | printerFrameDiscarded (lane : LaneId) (cause : PrinterDiscard)
  deriving DecidableEq, Repr

end Sys2Proof
end

