-- ==== Sys2Proof/Machine/Types.lean ====
section
/-! DEFINITION. The records and enumerations the blocks of the part hold, as the chapters name them. -/

namespace Sys2Proof.Machine

/-- A timer (00, Time): stopped, or running with the length in ms it was started with. Its expiry is a command. -/
abbrev Timer := Option Nat

/-- Channel states (R2). -/
inductive ChanState where
  | stopped
  | starting
  | running
  | fault
  deriving DecidableEq, Repr

/-- Fault causes (R1, R183); `noCause` outside FAULT. -/
inductive FaultCause where
  | noCause
  | uncalibrated
  | noZero
  | sensor
  deriving DecidableEq, Repr

/-- The return state of FAULT with cause SENSOR (R7). -/
inductive ReturnState where
  | starting
  | running
  deriving DecidableEq, Repr

/-- Tare kinds (R183). -/
inductive TareKind where
  | noTare
  | weighed
  | preset
  | item
  deriving DecidableEq, Repr

/-- Reading statuses (R18). -/
inductive ReadStatus where
  | stable
  | motion
  | over
  | under
  deriving DecidableEq, Repr

/-- A calibration record (R11). Weights in mg, `zc` in counts, `span` in mg per 1,024 counts. -/
structure Calib where
  max : Nat
  d1 : Nat
  m1 : Nat
  d2 : Nat
  zc : Nat
  span : Nat
  deriving DecidableEq, Repr

/-- The latest evaluation (R1): W, G (absent where the evaluation ended at stage 4) and the stability result. -/
structure Eval where
  w : Int
  g : Option Int
  stable : Bool
  deriving DecidableEq, Repr

/-- A reading (R20). -/
structure Reading where
  status : ReadStatus
  nd : Option Int
  tare : Int
  tareKind : TareKind
  d : Option Nat
  net : Bool
  centre : Bool
  deriving DecidableEq, Repr

/-- What a WEIGHT_DISPLAY notice says beside lane and channel (R25). -/
structure Display where
  state : ChanState
  cause : FaultCause
  reading : Option Reading
  deriving DecidableEq, Repr

/-- The channel record (R1). -/
structure Channel where
  state : ChanState
  cause : FaultCause
  ret : Option ReturnState
  calib : Option Calib
  filterLength : Nat
  stabilityLength : Nat
  filter : List Nat
  stability : List Int
  zi : Option Int
  zo : Option Int
  tare : Int
  tareKind : TareKind
  latest : Option Eval
  reading : Option Reading
  silence : Timer
  initialZero : Timer
  display : Option Display
  displayTimer : Timer
  deriving DecidableEq, Repr

/-- The first test a platter reading failed while a weigh request was pending (R43). -/
inductive FailedTest where
  | noReading
  | laneClosed
  | notStable
  | disarmed
  | underMinimum
  | overCapacity
  | bagNotSettled
  | basketNotOpen
  | logFull
  deriving DecidableEq, Repr

/-- The weigh request (R26). -/
structure WeighRequest where
  code : Nat
  price : Nat
  itemTare : Option Nat
  tolerance : Option Nat
  exempt : Bool
  timer : Timer
  logFullReported : Bool
  failed : FailedTest
  deriving DecidableEq, Repr

/-- How a weigh request ends (R42). The two refusals carry their reason. -/
inductive WeighOutcome where
  | expired
  | cancelled
  | refusedTareRange
  | refusedPriceLimit
  deriving DecidableEq, Repr

/-- A filled record of the capture log (R37, R38). -/
structure Capture where
  number : Nat
  net : Int
  d : Nat
  tare : Int
  tareKind : TareKind
  unitPrice : Nat
  price : Nat
  basketHeld : Bool
  holds : Nat
  deriving DecidableEq, Repr

/-- Sale kinds and entry kinds (R44, R50). -/
inductive SaleKind where
  | counted
  | weighed
  deriving DecidableEq, Repr

/-- Bag rules (R44). -/
inductive BagRule where
  | check
  | exempt
  deriving DecidableEq, Repr

/-- An item record (R44). -/
structure ItemRecord where
  code : Nat
  kind : SaleKind
  unitPrice : Option Nat
  presetTare : Option Nat
  expectedWeight : Option Nat
  tolerance : Option Nat
  bagRule : BagRule
  deriving DecidableEq, Repr

/-- Bag states of an entry (R50). -/
inductive BagState where
  | notChecked
  | exempt
  | awaiting
  | placed
  | waived
  | removing
  | removed
  deriving DecidableEq, Repr

/-- A basket entry (R50); its position is its place in the entry list, from 1. -/
structure Entry where
  kind : SaleKind
  code : Nat
  quantity : Nat
  unitPrice : Nat
  linePrice : Nat
  capture : Option Nat
  net : Option Int
  voided : Bool
  bag : BagState
  expected : Option Int
  tolerance : Option Int
  deriving DecidableEq, Repr

/-- Tender kinds (R58). -/
inductive TenderKind where
  | cash
  | voucher
  | card
  deriving DecidableEq, Repr

/-- A tender (R58). `approval` is the 6-character approval code, first character highest. -/
structure Tender where
  kind : TenderKind
  amount : Nat
  approval : Option (BitVec 48)
  handoff : Option Nat
  overApproved : Bool
  lateAbort : Bool
  deriving DecidableEq, Repr

/-- Basket states (R51). -/
inductive BasketState where
  | empty
  | opened
  | tendering
  | settled
  deriving DecidableEq, Repr

/-- Bag check states (R65). -/
inductive BagCheckState where
  | suspended
  | arming
  | settled
  | awaitingPlace
  | awaitingRemoval
  | unexpected
  | held
  | faulted
  deriving DecidableEq, Repr

/-- The bag check record (R65). -/
structure BagCheck where
  state : BagCheckState
  b : Option Int
  awaiting : Option Nat
  e : Option Int
  a : Int
  placement : Timer
  removal : Timer
  excursion : Bool
  latestGross : Option Int
  latestStable : Option Int
  previousGross : Option Int
  deriving DecidableEq, Repr

/-- BAG_EVENT events (R83). -/
inductive BagEvent where
  | armed
  | placed
  | removed
  | wrongWeight
  | unexpected
  | restored
  | takenAway
  | held
  | overridden
  | faulted
  deriving DecidableEq, Repr

/-- Card classes (R91, R183). -/
inductive CardClass where
  | noClass
  | payment
  | loyalty
  | staff
  | blocked
  deriving DecidableEq, Repr

/-- A range record (R91). -/
structure CardRange where
  low : Nat
  high : Nat
  cardClass : CardClass
  keepFirst : Nat
  keepLast : Nat
  checkDigit : Bool
  deriving DecidableEq, Repr

/-- The masked form of an account (R99). -/
structure Masked where
  length : Nat
  lead : List Nat
  trail : List Nat
  hidden : Nat
  deriving DecidableEq, Repr

/-- How an account is shown on the trunk link: the four forms of the account block (R191). -/
inductive AccountView where
  | hiddenAll
  | lengthOnly (length : Nat)
  | masked (m : Masked)
  | full (digits : List Nat)
  deriving DecidableEq, Repr

/-- CARD_EVENT events (R102). -/
inductive CardEventKind where
  | accepted
  | loyalty
  | staff
  | refused
  deriving DecidableEq, Repr

/-- CARD_EVENT reasons (R102, R183). -/
inductive CardReason where
  | noReason
  | tooLong
  | incomplete
  | badParity
  | badLrc
  | badFormat
  | noRange
  | blocked
  | checkDigit
  | noDate
  | expired
  | laneClosed
  | linkDown
  | bagBusy
  | nothingDue
  | tenderFull
  deriving DecidableEq, Repr

/-- The content of a CARD_EVENT notice, which is also the last swipe (R102). -/
structure CardEvent where
  event : CardEventKind
  reason : CardReason
  cardClass : CardClass
  bagState : Option BagCheckState
  amount : Nat
  staff : Nat
  account : AccountView
  deriving DecidableEq, Repr

/-- The states of an occupied card slot (R103); EMPTY is the absence of a slot. -/
inductive SlotPhase where
  | waiting
  | inFlight
  | aborting
  deriving DecidableEq, Repr

/-- The slot record (R98). -/
structure Slot where
  phase : SlotPhase
  account : List Nat
  masked : Masked
  year : Nat
  month : Nat
  service : List Nat
  discretionary : List Nat
  amount : Nat
  second : Bool
  deriving DecidableEq, Repr

/-- The card unit record (R84). -/
structure CardUnit where
  assembling : Bool
  buffer : List (BitVec 4)
  parityError : Bool
  gap : Timer
  lastSwipe : Option CardEvent
  slot : Option Slot
  deriving DecidableEq, Repr

/-- Hand-off outcomes (R112). -/
inductive HandoffOutcome where
  | approved
  | declined
  | failed
  | cancelled
  | timedOut
  deriving DecidableEq, Repr

/-- The content of a CARD_RESULT notice beside its lane, which is also the lane's last result (R117). -/
structure CardResult where
  number : Nat
  outcome : HandoffOutcome
  received : Option Byte
  requested : Nat
  approved : Option Nat
  tender : Option Nat
  approval : Option (BitVec 48)
  overApproved : Bool
  lateAbort : Bool
  second : Bool
  masked : Masked
  basketState : BasketState
  tendered : Nat
  due : Int
  deriving DecidableEq, Repr

/-- The content of a STRAY_RESULT notice (R114). -/
structure Stray where
  addr : Byte
  number : Byte
  received : Byte
  used : HandoffOutcome
  approved : Nat
  approval : BitVec 48
  deriving DecidableEq, Repr

/-- A RESULT frame as the payment link unit uses it (R109, R195). -/
structure ResultFrame where
  addr : Byte
  tag : Byte
  received : Byte
  amount : Nat
  approval : BitVec 48
  deriving DecidableEq, Repr

/-- A printer frame: what the receiver of a printer port keeps (R148, R195). -/
inductive PrinterFrame where
  | lineDone (tag : Byte)
  | lineFailed (tag : Byte)
  | status (report : PrinterReport)
  deriving DecidableEq, Repr

/-- The in-flight record (R103). -/
structure InFlight where
  lane : LaneId
  number : Nat
  amount : Nat
  deriving DecidableEq, Repr

/-- A receiver of frames (R103, R148, R169). Frames arrive whole in this model, so between commands every receiver
is hunting (log 5). -/
inductive Receiver where
  | hunting
  | receiving
  deriving DecidableEq, Repr

/-- The payment link unit (R103). The link is BUSY exactly while `inFlight` is present. -/
structure PayLink where
  inFlight : Option InFlight
  response : Timer
  pointer : LaneId
  counter : Nat
  transmit : List Frame
  receiver : Receiver
  lastStray : Option Stray
  deriving DecidableEq, Repr

/-- Drawer states (R120). -/
inductive DrawerState where
  | closed
  | waitingPower
  | releasing
  | checking
  | opened
  | leftOpen
  | fault
  deriving DecidableEq, Repr

/-- The drawer record (R120). `rawHigh` is the sensor's level at the pin; `sensorOpen` the debounced sensor value. -/
structure Till where
  state : DrawerState
  sensorOpen : Bool
  rawHigh : Bool
  debounce : Timer
  retry : Bool
  cut : Bool
  forced : Bool
  pulse : Timer
  check : Timer
  leftOpen : Timer
  openCount : Nat
  deriving DecidableEq, Repr

/-- DRAWER_EVENT events (R133). -/
inductive DrawerEvent where
  | opened
  | retry
  | fault
  | leftOpen
  | closed
  deriving DecidableEq, Repr

/-- Job states (R134). -/
inductive JobState where
  | filling
  | ready
  | printing
  | suspended
  deriving DecidableEq, Repr

/-- The scan state of a job (R138): NORMAL, awaiting the first operand, or awaiting the second with the first taken. -/
inductive ScanState where
  | normal
  | first
  | second (high : Byte)
  deriving DecidableEq, Repr

/-- An item of a job's reference list (R134). -/
structure Reference where
  capture : Option Nat
  resolved : Bool
  hold : Bool
  deriving DecidableEq, Repr

/-- The attribute state (R134). -/
structure Attr where
  bold : Bool
  tall : Bool
  inverse : Bool
  underline : Bool
  deriving DecidableEq, Repr

/-- A printed cell (R143, R147): a character, or a glyph with the pattern it took. -/
inductive Cell where
  | char (c : Byte) (attr : Attr)
  | glyph (code : Byte) (attr : Attr) (pattern : List Byte)
  deriving DecidableEq, Repr

/-- A job's current frame (R134): the rendered line, with how many of its cells are in segments already done, or a CUT. `block2` is the
index of the reference whose second block line it is. -/
inductive JobFrame where
  | line (cells : List Cell) (column : Nat) (block2 : Option Nat) (done : Nat)
  | cut
  deriving DecidableEq, Repr

/-- The kind of the frame a job sent most recently (R141). -/
inductive SentKind where
  | nothing
  | line
  | cut
  deriving DecidableEq, Repr

/-- The three flags of a job (R134). -/
structure JobFlags where
  unknownCode : Bool
  glyphMissing : Bool
  weightMissing : Bool
  deriving DecidableEq, Repr

/-- A print job (R134), with the model's own `nextRef` (the next item of the reference list the renderer takes),
`lastSent` (R141) and `endCut` (the closing CUT of R145 has been produced). `pendingBlock` is the index of the
reference whose line 2 is still to be rendered. -/
structure Job where
  number : Nat
  state : JobState
  stream : List Byte
  scan : ScanState
  refs : List Reference
  flags : JobFlags
  position : Nat
  attr : Attr
  pendingBlock : Option Nat
  current : Option JobFrame
  lines : Nat
  nextRef : Nat
  lastSent : SentKind
  endCut : Bool
  deriving DecidableEq, Repr

/-- Printer states (R148). -/
inductive PrinterState where
  | unknown
  | ready
  | paperLow
  | paperOut
  | coverOpen
  | offline
  deriving DecidableEq, Repr

/-- The owner of an exchange (R148): a job, the owed cut, or no job any more (R141, R156). -/
inductive ExchangeOwner where
  | job (number : Nat)
  | owedCut
  | nobody
  deriving DecidableEq, Repr

/-- The exchange in flight (R148, R150): the frame on the port, its exchange number being the frame's tag. -/
structure Exchange where
  frame : Frame
  number : Nat
  owner : ExchangeOwner
  deriving DecidableEq, Repr

/-- The printer port record (R148). -/
structure Port where
  state : PrinterState
  receiver : Receiver
  silence : Timer
  exchange : Option Exchange
  answer : Timer
  cutOwed : Bool
  counter : Nat
  deriving DecidableEq, Repr

/-- Reasons of a suspension (R152). -/
inductive SuspendReason where
  | lineFailed
  | noAnswer
  | paperOut
  | coverOpen
  | offline
  deriving DecidableEq, Repr

/-- PRINT_EVENT events (R155) with their further fields. -/
inductive PrintEvent where
  | done
  | cancelled (before : JobState)
  | suspended (reason : SuspendReason) (line : Nat)
  | resumed (line : Nat)
  deriving DecidableEq, Repr

/-- Lane modes (R157). -/
inductive LaneMode where
  | attended
  | self
  | closed
  deriving DecidableEq, Repr

/-- The source of a staff authority (R159). -/
inductive AuthoritySource where
  | card
  | host
  deriving DecidableEq, Repr

/-- A present staff authority (R159). -/
structure Authority where
  source : AuthoritySource
  number : Nat
  timer : Timer
  deriving DecidableEq, Repr

/-- An attention record (R161): the conditions set and the mask, as condition sets (R184). -/
structure Attention where
  set : BitVec 16
  mask : BitVec 16
  deriving DecidableEq, Repr

/-- The conditions of a lane record, in the order of their bits (R184). -/
inductive LaneCond where
  | platterFault
  | bagFault
  | logFull
  | wrongWeight
  | unexpectedWeight
  | bagHeld
  | drawerFault
  | drawerLeftOpen
  | drawerForced
  | paperLow
  | paperOut
  | printerOffline
  | weightRefMissing
  | noticeWithheld
  deriving DecidableEq, Repr

/-- The conditions of the part record, in the order of their bits (R184). -/
inductive PartCond where
  | frameError
  | rxOverrun
  | linkSilent
  | supplyLow
  | strayResult
  | noticeWithheld
  deriving DecidableEq, Repr

/-- Tower lights (R165). -/
inductive Light where
  | off
  | red
  | amber
  | green
  deriving DecidableEq, Repr

/-- One lane's blocks. The basket's derived figures, its state and the hand-off outstanding part are functions of
these fields (R49, R51). `log` lists the filled records of the capture log from index 1; the others are EMPTY (R38). -/
structure Lane where
  platter : Channel
  bag : Channel
  weigh : Option WeighRequest
  armed : Bool
  nextCapture : Nat
  log : List Capture
  entries : List Entry
  tenders : List Tender
  token : Bool
  bagCheck : BagCheck
  card : CardUnit
  lastResult : Option CardResult
  till : Till
  jobs : List Job
  jobCounter : Nat
  port : Port
  mode : LaneMode
  authority : Option Authority
  attention : Attention
  deriving DecidableEq, Repr

/-- Sensor polarities (R121). -/
inductive Polarity where
  | openHigh
  | openLow
  deriving DecidableEq, Repr

/-- The per-lane settings (R174). -/
structure LaneSettings where
  displayInterval : Nat
  weighTime : Nat
  baseTolerance : Nat
  placementTime : Nat
  removalTime : Nat
  staffHold : Nat
  polarity : Polarity
  pulseTime : Nat
  leftOpenTime : Nat
  deriving DecidableEq, Repr

/-- The settings record (R174). -/
structure Settings where
  moneyDecimals : Nat
  linkSilence : Nat
  responseTime : Nat
  solenoidBudget : Nat
  lanes : Four LaneSettings
  deriving DecidableEq, Repr

/-- A calendar date (R175). -/
structure Date where
  year : Nat
  month : Nat
  day : Nat
  deriving DecidableEq, Repr

/-- A loaded glyph entry (R146). -/
structure Glyph where
  code : Nat
  pattern : List Byte
  deriving DecidableEq, Repr

/-- One channel's part of the calibration store (R177); an absent record is one that fails its check. -/
structure StoreEntry where
  record : Option Calib
  audit : Nat
  deriving DecidableEq, Repr

/-- One lane's part of the calibration store (R177). -/
structure StoreLane where
  platter : StoreEntry
  bag : StoreEntry
  deriving DecidableEq, Repr

/-- A calibration write in progress (R178), with the tag of the answer whose record is reserved. -/
structure CalWrite where
  lane : LaneId
  channel : Chan
  record : Calib
  tag : Byte
  deriving DecidableEq, Repr

/-- Reset causes (R180). -/
inductive ResetCause where
  | powerOn
  | brownOut
  | restart
  deriving DecidableEq, Repr

/-- The content of the last HELLO_NOTICE that later reads need (R173, R180): the eight audit counts at start-up. -/
structure Hello where
  audits : List Nat
  deriving DecidableEq, Repr

/-- Whether the part runs, or is held between a brown-out and the supply's rise (R179). -/
inductive Power where
  | running
  | held
  deriving DecidableEq, Repr

end Sys2Proof.Machine
end

