-- ==== Sys2Proof/Machine/Operands.lean ====
section
/-! DEFINITION. Byte order and rounding, the field encodings of R182 and R183, the records the host loads (R193) with
their validity, and the laid-out payloads of chapter 11. -/

namespace Sys2Proof.Machine

/-! ## Octets and rounding -/

/-- The octet of a number below 256 (the low eight bits of any number). -/
def octet (n : Nat) : Byte := BitVec.ofNat 8 n

/-- `n` in `w` octets, high octet first (R182). -/
def be : Nat → Nat → List Byte
  | 0, _ => []
  | w + 1, n => be w (n / 256) ++ [octet n]

/-- A signed number in `w` octets, two's complement, high octet first (R182). -/
def beInt (w : Nat) (i : Int) : List Byte := be w (i % (256 ^ w : Nat)).toNat

/-- The number that octets spell, high octet first (R182). -/
def unbe (l : List Byte) : Nat := l.foldl (fun n b => n * 256 + b.toNat) 0

/-- A flag named alone takes one octet, 0 or 1 (R182). -/
def flagOctet (b : Bool) : Byte := if b then 1 else 0

/-- An optional field of `w` octets: a presence octet, then the field, or zeros (R182). -/
def optional (w : Nat) (o : Option (List Byte)) : List Byte :=
  match o with
  | some l => 1 :: l
  | none => 0 :: List.replicate w 0

/-- A list in a detail or a notice is preceded by a count octet (R186). -/
def counted (l : List (List Byte)) : List Byte := octet l.length :: l.flatten

/-- Round half up of a quotient of non-negative numbers (00, Rounding). -/
def roundHalfUp (n d : Nat) : Nat := (2 * n + d) / (2 * d)

/-- Round half away from zero of `n / d` for `d` above 0 (00, Rounding). -/
def roundHalfAway (n : Int) (d : Nat) : Int :=
  if 0 ≤ n then (roundHalfUp n.natAbs d : Int) else -(roundHalfUp n.natAbs d : Int)

/-- Rounding to a division: the quotient rounded half away from zero, times the division (00, Rounding). -/
def roundTo (n : Int) (d : Nat) : Int := d * roundHalfAway n d

/-! ## Enumeration values (R183; for an enumeration outside its table, the order of its owning rule, R182) -/

def ChanState.value : ChanState → Byte
  | .stopped => 0
  | .starting => 1
  | .running => 2
  | .fault => 3

def FaultCause.value : FaultCause → Byte
  | .noCause => 0
  | .uncalibrated => 1
  | .noZero => 2
  | .sensor => 3

def TareKind.value : TareKind → Byte
  | .noTare => 0
  | .weighed => 1
  | .preset => 2
  | .item => 3

def ReadStatus.value : ReadStatus → Byte
  | .stable => 1
  | .motion => 2
  | .over => 3
  | .under => 4

def SaleKind.value : SaleKind → Byte
  | .counted => 0
  | .weighed => 1

def BagRule.value : BagRule → Byte
  | .check => 0
  | .exempt => 1

def BasketState.value : BasketState → Byte
  | .empty => 0
  | .opened => 1
  | .tendering => 2
  | .settled => 3

def BagState.value : BagState → Byte
  | .notChecked => 0
  | .exempt => 1
  | .awaiting => 2
  | .placed => 3
  | .waived => 4
  | .removing => 5
  | .removed => 6

def BagCheckState.value : BagCheckState → Byte
  | .suspended => 0
  | .arming => 1
  | .settled => 2
  | .awaitingPlace => 3
  | .awaitingRemoval => 4
  | .unexpected => 5
  | .held => 6
  | .faulted => 7

def TenderKind.value : TenderKind → Byte
  | .cash => 0
  | .voucher => 1
  | .card => 2

def CardClass.value : CardClass → Byte
  | .noClass => 0
  | .payment => 1
  | .loyalty => 2
  | .staff => 3
  | .blocked => 4

def CardEventKind.value : CardEventKind → Byte
  | .accepted => 0
  | .loyalty => 1
  | .staff => 2
  | .refused => 3

def CardReason.value : CardReason → Byte
  | .noReason => 0
  | .tooLong => 1
  | .incomplete => 2
  | .badParity => 3
  | .badLrc => 4
  | .badFormat => 5
  | .noRange => 6
  | .blocked => 7
  | .checkDigit => 8
  | .noDate => 9
  | .expired => 10
  | .laneClosed => 11
  | .linkDown => 12
  | .bagBusy => 13
  | .nothingDue => 14
  | .tenderFull => 15

def HandoffOutcome.value : HandoffOutcome → Byte
  | .approved => 1
  | .declined => 2
  | .failed => 3
  | .cancelled => 4
  | .timedOut => 5

/-- The slot state octet (R183); an absent slot is EMPTY. -/
def slotStateValue : Option Slot → Byte
  | none => 0
  | some s =>
    match s.phase with
    | .waiting => 1
    | .inFlight => 2
    | .aborting => 3

def DrawerState.value : DrawerState → Byte
  | .closed => 0
  | .waitingPower => 1
  | .releasing => 2
  | .checking => 3
  | .opened => 4
  | .leftOpen => 5
  | .fault => 6

def JobState.value : JobState → Byte
  | .filling => 0
  | .ready => 1
  | .printing => 2
  | .suspended => 3

def Polarity.value : Polarity → Byte
  | .openHigh => 0
  | .openLow => 1

def LaneMode.value : LaneMode → Byte
  | .attended => 0
  | .self => 1
  | .closed => 2

def printerReportValue : PrinterReport → Byte
  | .ready => 0
  | .paperLow => 1
  | .paperOut => 2
  | .coverOpen => 3

/-- Outside R183's table: in the order of R43. -/
def FailedTest.value : FailedTest → Byte
  | .noReading => 0
  | .laneClosed => 1
  | .notStable => 2
  | .disarmed => 3
  | .underMinimum => 4
  | .overCapacity => 5
  | .bagNotSettled => 6
  | .basketNotOpen => 7
  | .logFull => 8

/-- Outside R183's table: in the order of R83. -/
def BagEvent.value : BagEvent → Byte
  | .armed => 0
  | .placed => 1
  | .removed => 2
  | .wrongWeight => 3
  | .unexpected => 4
  | .restored => 5
  | .takenAway => 6
  | .held => 7
  | .overridden => 8
  | .faulted => 9

/-- Outside R183's table: in the order of R133. -/
def DrawerEvent.value : DrawerEvent → Byte
  | .opened => 0
  | .retry => 1
  | .fault => 2
  | .leftOpen => 3
  | .closed => 4

/-- Outside R183's table: in the order of R148. -/
def PrinterState.value : PrinterState → Byte
  | .unknown => 0
  | .ready => 1
  | .paperLow => 2
  | .paperOut => 3
  | .coverOpen => 4
  | .offline => 5

/-- Outside R183's table: in the order of R152. -/
def SuspendReason.value : SuspendReason → Byte
  | .lineFailed => 0
  | .noAnswer => 1
  | .paperOut => 2
  | .coverOpen => 3
  | .offline => 4

/-- Outside R183's table: in the order of R159. -/
def AuthoritySource.value : AuthoritySource → Byte
  | .card => 0
  | .host => 1

/-- Outside R183's table: in the order of R165. -/
def Light.value : Light → Byte
  | .off => 0
  | .red => 1
  | .amber => 2
  | .green => 3

/-- Outside R183's table: in the order of R180. -/
def ResetCause.value : ResetCause → Byte
  | .powerOn => 0
  | .brownOut => 1
  | .restart => 2

/-- Outside R183's table: in the order of R180. -/
def selfCheckValue : SelfCheck → Byte
  | .pass => 0
  | .printMemory => 1
  | .tableMemory => 2
  | .both => 3

/-- Channel numbers (00, Lanes, channels and addresses). -/
def chanValue : Chan → Byte
  | .platter => 0
  | .bag => 1

/-- The channel a channel field names; any other value is BAD_VALUE (R1). -/
def chanOf (b : Byte) : Option Chan :=
  match b.toNat with
  | 0 => some .platter
  | 1 => some .bag
  | _ => none

/-- The printer status an octet of a PRINTER_STATUS names; any other value discards the frame (R148, R183). -/
def printerReportOf (b : Byte) : Option PrinterReport :=
  match b.toNat with
  | 0 => some .ready
  | 1 => some .paperLow
  | 2 => some .paperOut
  | 3 => some .coverOpen
  | _ => none

/-- The lane mode an enumeration octet names (R183). -/
def laneModeOf (b : Byte) : Option LaneMode :=
  match b.toNat with
  | 0 => some .attended
  | 1 => some .self
  | 2 => some .closed
  | _ => none

/-- The tender kind a TENDER may carry (R58): CASH or VOUCHER. -/
def tenderKindOf (b : Byte) : Option TenderKind :=
  match b.toNat with
  | 0 => some .cash
  | 1 => some .voucher
  | _ => none

/-! ## Records the host loads -/

/-- The divisions a calibration may have (R11). -/
def divisions : List Nat := [500, 1000, 2000, 5000, 10000, 20000, 50000]

/-- The calibration record the octets spell (R193). -/
def calibOf (r : RawCal) : Calib :=
  { max := r.max.toNat, d1 := r.d1.toNat, m1 := r.m1.toNat, d2 := r.d2.toNat, zc := r.zc.toNat, span := r.span.toNat }

/-- Validity of a calibration record (R11). Neither quotient is truncated (00, Rounding): at most 10,000 divisions means at
most 10,000 times the division. -/
def Calib.valid (c : Calib) : Bool :=
  decide (1000000 ≤ c.max) && decide (c.max ≤ 60000000) && divisions.contains c.d1 && decide (c.d1 < c.m1) &&
  decide (c.m1 ≤ c.max) && c.m1 % c.d1 == 0 && divisions.contains c.d2 &&
  (if c.m1 = c.max then c.d2 == c.d1 else decide (c.d1 < c.d2)) &&
  decide (c.zc ≤ 1048575) && decide (1 ≤ c.span) && decide (c.span ≤ 65535) &&
  c.max % c.d2 == 0 && decide (c.m1 ≤ 10000 * c.d1) && decide (c.max - c.m1 ≤ 10000 * c.d2)

/-- The 22 octets of a calibration record (R193). -/
def calibOctets (c : Calib) : List Byte :=
  be 4 c.max ++ be 4 c.d1 ++ be 4 c.m1 ++ be 4 c.d2 ++ be 4 c.zc ++ be 2 c.span

/-- The largest item code (R44). -/
def maxItemCode : Nat := 9999999999999

/-- Item codes are 1 to 9,999,999,999,999 (R44). -/
def itemCodeOk (n : Nat) : Bool := decide (1 ≤ n) && decide (n ≤ maxItemCode)

/-- A present field within its range, or an absent one (R44). -/
def inRange (lo hi : Nat) : Option Nat → Bool
  | none => true
  | some n => decide (lo ≤ n) && decide (n ≤ hi)

/-- A field of an item record that bit `k` of the presence octet marks (R193). -/
def present (p : Byte) (k n : Nat) : Option Nat := if p.toNat.testBit k then some n else none

/-- Validity of an item record by its values and by the presence rules (R44). -/
def ItemRecord.valid (r : ItemRecord) : Bool :=
  itemCodeOk r.code && inRange 1 999999 r.unitPrice && inRange 1 60000000 r.presetTare &&
  inRange 1 60000000 r.expectedWeight && inRange 0 500000 r.tolerance &&
  (match r.kind with
   | .weighed => r.unitPrice.isSome && r.expectedWeight.isNone
   | .counted => r.unitPrice.isNone && r.presetTare.isNone)

/-- The item record the octets spell, if they spell a valid one (R44, R46 step 1). A presence bit that names nothing and
an enumeration value beyond the last make the record invalid (R182; log 25). -/
def itemOf (r : RawItem) : Option ItemRecord :=
  let kind : Option SaleKind := match r.saleKind.toNat with
    | 0 => some .counted
    | 1 => some .weighed
    | _ => none
  let rule : Option BagRule := match r.bagRule.toNat with
    | 0 => some .check
    | 1 => some .exempt
    | _ => none
  match kind, rule with
  | some k, some b =>
    let rec' : ItemRecord :=
      { code := r.code.toNat, kind := k, unitPrice := present r.presence 0 r.unitPrice.toNat,
        presetTare := present r.presence 1 r.presetTare.toNat,
        expectedWeight := present r.presence 2 r.expectedWeight.toNat,
        tolerance := present r.presence 3 r.tolerance.toNat, bagRule := b }
    if decide (r.presence.toNat < 16) && rec'.valid then some rec' else none
  | _, _ => none

/-- The 25 octets of an item record (R193, R48). -/
def itemOctets (r : ItemRecord) : List Byte :=
  let bit (o : Option Nat) (k : Nat) : Nat := if o.isSome then 2 ^ k else 0
  be 6 r.code ++ [r.kind.value, octet (bit r.unitPrice 0 + bit r.presetTare 1 + bit r.expectedWeight 2 + bit r.tolerance 3)] ++
  be 4 (r.unitPrice.getD 0) ++ be 4 (r.presetTare.getD 0) ++ be 4 (r.expectedWeight.getD 0) ++ be 4 (r.tolerance.getD 0) ++
  [r.bagRule.value]

/-- The card class an enumeration octet names in a range record, where `none` is not valid (R91, R193). -/
def cardClassOf (b : Byte) : Option CardClass :=
  match b.toNat with
  | 1 => some .payment
  | 2 => some .loyalty
  | 3 => some .staff
  | 4 => some .blocked
  | _ => none

/-- Validity of a range record by its values (R91). -/
def CardRange.valid (r : CardRange) : Bool :=
  decide (r.low ≤ r.high) && decide (r.high ≤ 99999999) && decide (r.keepFirst ≤ 8) && decide (r.keepLast ≤ 4)

/-- The range record the octets spell, if they spell a valid one (R91, R92 step 1). -/
def rangeOf (r : RawRange) : Option CardRange :=
  let test : Option Bool := match r.checkDigit.toNat with
    | 0 => some false
    | 1 => some true
    | _ => none
  match cardClassOf r.cardClass, test with
  | some c, some t =>
    let rec' : CardRange :=
      { low := r.low.toNat, high := r.high.toNat, cardClass := c, keepFirst := r.keepFirst.toNat,
        keepLast := r.keepLast.toNat, checkDigit := t }
    if rec'.valid then some rec' else none
  | _, _ => none

/-- The 12 octets of a range record (R193). -/
def rangeOctets (r : CardRange) : List Byte :=
  be 4 r.low ++ be 4 r.high ++ [r.cardClass.value, octet r.keepFirst, octet r.keepLast, flagOctet r.checkDigit]

/-- Two ranges overlap when some prefix is covered by both (R91). -/
def CardRange.overlaps (r t : CardRange) : Bool := decide (r.low ≤ t.high) && decide (t.low ≤ r.high)

/-- A value brought into a range (R174). -/
def clampTo (lo hi n : Nat) : Nat := if n < lo then lo else if hi < n then hi else n

/-- The money-decimals setting: 0, 2 or 3; 1 is brought to 2, more than 3 to 3 (R174). -/
def clampDecimals (n : Nat) : Nat := if n = 1 then 2 else if 3 < n then 3 else n

/-- The polarity an enumeration octet names (R183). -/
def polarityOf (b : Byte) : Option Polarity :=
  match b.toNat with
  | 0 => some .openHigh
  | 1 => some .openLow
  | _ => none

/-- One lane block with its numbers as sent (R193). -/
def laneSettingsOf (r : RawLaneSettings) (p : Polarity) : LaneSettings :=
  { displayInterval := r.displayInterval.toNat, weighTime := r.weighTime.toNat, baseTolerance := r.baseTolerance.toNat,
    placementTime := r.placementTime.toNat, removalTime := r.removalTime.toNat, staffHold := r.staffHold.toNat,
    polarity := p, pulseTime := r.pulseTime.toNat, leftOpenTime := r.leftOpenTime.toNat }

/-- One lane block brought into its ranges (R174). -/
def LaneSettings.clamp (t : LaneSettings) : LaneSettings :=
  { displayInterval := clampTo 50 1000 t.displayInterval, weighTime := clampTo 5 120 t.weighTime,
    baseTolerance := clampTo 0 100000 t.baseTolerance, placementTime := clampTo 2 60 t.placementTime,
    removalTime := clampTo 2 60 t.removalTime, staffHold := clampTo 5 300 t.staffHold, polarity := t.polarity,
    pulseTime := clampTo 20 200 t.pulseTime, leftOpenTime := clampTo 5 600 t.leftOpenTime }

/-- The settings record with its numbers as sent, or nothing where a polarity is neither value (R174). -/
def settingsOf (r : RawSettings) : Option Settings :=
  match polarityOf r.lanes.l0.polarity, polarityOf r.lanes.l1.polarity, polarityOf r.lanes.l2.polarity,
      polarityOf r.lanes.l3.polarity with
  | some p0, some p1, some p2, some p3 =>
    some { moneyDecimals := r.moneyDecimals.toNat, linkSilence := r.linkSilence.toNat,
           responseTime := r.responseTime.toNat, solenoidBudget := r.solenoidBudget.toNat,
           lanes := ⟨laneSettingsOf r.lanes.l0 p0, laneSettingsOf r.lanes.l1 p1, laneSettingsOf r.lanes.l2 p2,
             laneSettingsOf r.lanes.l3 p3⟩ }
  | _, _, _, _ => none

/-- The settings record brought into its ranges (R174). -/
def Settings.clamp (t : Settings) : Settings :=
  { moneyDecimals := clampDecimals t.moneyDecimals, linkSilence := clampTo 0 60 t.linkSilence,
    responseTime := clampTo 5 120 t.responseTime, solenoidBudget := clampTo 1 4 t.solenoidBudget,
    lanes := ⟨t.lanes.l0.clamp, t.lanes.l1.clamp, t.lanes.l2.clamp, t.lanes.l3.clamp⟩ }

/-- The 15 octets of a lane block (R193). -/
def laneSettingsOctets (t : LaneSettings) : List Byte :=
  be 2 t.displayInterval ++ [octet t.weighTime] ++ be 4 t.baseTolerance ++ [octet t.placementTime, octet t.removalTime] ++
  be 2 t.staffHold ++ [t.polarity.value, octet t.pulseTime] ++ be 2 t.leftOpenTime

/-- The 64 octets of the settings record (R193). -/
def settingsOctets (t : Settings) : List Byte :=
  [octet t.moneyDecimals, octet t.linkSilence, octet t.responseTime, octet t.solenoidBudget] ++
  laneSettingsOctets t.lanes.l0 ++ laneSettingsOctets t.lanes.l1 ++ laneSettingsOctets t.lanes.l2 ++
  laneSettingsOctets t.lanes.l3

/-- The per-lane defaults (R174). -/
def LaneSettings.default : LaneSettings :=
  { displayInterval := 200, weighTime := 30, baseTolerance := 10000, placementTime := 12, removalTime := 20,
    staffHold := 60, polarity := .openHigh, pulseTime := 60, leftOpenTime := 30 }

/-- The defaults (R174). -/
def Settings.default : Settings :=
  { moneyDecimals := 2, linkSilence := 10, responseTime := 60, solenoidBudget := 2,
    lanes := Four.make fun _ => LaneSettings.default }

/-- The last day of a month of the year 2000 + `y` (R175). -/
def lastDay (y m : Nat) : Nat :=
  if m = 4 ∨ m = 6 ∨ m = 9 ∨ m = 11 then 30 else if m = 2 then (if y % 4 = 0 then 29 else 28) else 31

/-- A date that exists (R175). -/
def Date.valid (d : Date) : Bool :=
  decide (d.year ≤ 99) && decide (1 ≤ d.month) && decide (d.month ≤ 12) && decide (1 ≤ d.day) &&
  decide (d.day ≤ lastDay d.year d.month)

/-- The three octets of a date (R182). -/
def dateOctets (d : Date) : List Byte := [octet d.year, octet d.month, octet d.day]

/-! ## Accounts, notices and payment frames -/

/-- Digits, one octet each, in `w` octets (R182). -/
def digitOctets (w : Nat) (l : List Nat) : List Byte :=
  (l.take w).map octet ++ List.replicate (w - l.length) 0

/-- The 24-octet account block (R191). -/
def accountBlock : AccountView → List Byte
  | .hiddenAll => List.replicate 24 0
  | .lengthOnly n => [1, octet n, 0, 0, 0] ++ List.replicate 19 0
  | .masked m =>
    [2, octet m.length, octet m.lead.length, octet m.trail.length, octet m.hidden] ++ digitOctets 19 (m.lead ++ m.trail)
  | .full d => [3, octet d.length, octet d.length, 0, 0] ++ digitOctets 19 d

/-- WEIGHT_DISPLAY, 18 octets (R189). -/
def displayPayload (c : Chan) (d : Display) : List Byte :=
  let r := d.reading
  [chanValue c, d.state.value, d.cause.value, (r.map fun x => x.status.value).getD 0] ++
  beInt 4 ((r.bind (·.nd)).getD 0) ++ beInt 4 ((r.map (·.tare)).getD 0) ++
  [(r.map fun x => x.tareKind.value).getD 0] ++ be 4 ((r.bind (·.d)).getD 0) ++
  [octet ((if (r.map (·.net)).getD false then 1 else 0) + (if (r.map (·.centre)).getD false then 2 else 0))]

/-- ATTENTION_NOTICE: the record (a lane, or 15 for the part), the condition's number, the set and the mask
(R161, R182; log 12). -/
def attentionPayload (record cond : Byte) (set mask : BitVec 16) : List Byte :=
  [record, cond] ++ be 2 set.toNat ++ be 2 mask.toNat

/-- HELLO_NOTICE: identity, revision, lanes enabled, rate, reset cause, self-check result, audit counts (R180; log 12). -/
def helloPayload (lanes rate : Nat) (cause : ResetCause) (check : SelfCheck) (audits : List Nat) : List Byte :=
  be 2 Config.identity ++ [octet Config.revision, octet lanes, octet rate, cause.value, selfCheckValue check] ++
  counted (audits.map (be 2))

/-- CARD_EVENT, 36 octets (R192). The class octet holds the swipe's class in every event that has one, and the octets of a
field the event does not carry are 0 (log 12). -/
def cardEventPayload (e : CardEvent) : List Byte :=
  [e.event.value, e.reason.value, e.cardClass.value, (e.bagState.map fun x => x.value).getD 0] ++
  be 4 e.amount ++ be 4 e.staff ++ accountBlock e.account

/-- CARD_RESULT, 55 octets (R192). -/
def cardResultPayload (r : CardResult) : List Byte :=
  let bit (b : Bool) (k : Nat) : Nat := if b then 2 ^ k else 0
  [octet r.number, r.outcome.value, r.received.getD 0,
    octet (bit r.overApproved 0 + bit r.lateAbort 1 + bit r.second 2 + bit r.received.isSome 3)] ++
  be 4 r.requested ++ be 4 (r.approved.getD 0) ++ be 4 (r.tender.getD 0) ++
  be 6 ((r.approval.map fun x => x.toNat).getD 0) ++ accountBlock (.masked r.masked) ++
  [r.basketState.value] ++ be 4 r.tendered ++ beInt 4 r.due

/-- STRAY_RESULT: address, number, outcome received, outcome used, approved amount, approval code (R114; log 12). -/
def strayPayload (x : Stray) : List Byte :=
  [x.addr, x.number, x.received, x.used.value] ++ be 4 x.approved ++ be 6 x.approval.toNat

/-- HANDOFF, 47 octets (R194). -/
def handoffPayload (s : Slot) : List Byte :=
  be 4 s.amount ++ [octet s.account.length] ++ digitOctets 19 s.account ++ [octet s.year, octet s.month] ++
  digitOctets 3 s.service ++ [octet s.discretionary.length] ++ digitOctets 17 s.discretionary

/-- The attribute octet of a cell (R195). -/
def attrOctet (a : Attr) : Byte :=
  octet ((if a.bold then 1 else 0) + (if a.tall then 2 else 0) + (if a.inverse then 4 else 0) + (if a.underline then 8 else 0))

/-- The octets of a cell: 2 for a character, 74 for a glyph (R195). -/
def cellOctets : Cell → List Byte
  | .char c a => [c, attrOctet a]
  | .glyph g a p => g :: attrOctet a :: p

/-- How many octets a cell takes in a segment (R150). -/
def cellWidth : Cell → Nat
  | .char _ _ => 2
  | .glyph _ _ _ => 74

/-! ## Answer codes (R187) -/

/-- The answer codes. -/
inductive Code where
  | ok
  | clamped
  | unknownKind
  | badLength
  | badValue
  | noLane
  | partFault
  | laneClosed
  | basketFull
  | basketActive
  | basketSettled
  | basketPaid
  | tenderStarted
  | tenderFull
  | handoffPending
  | priceLimit
  | unknownItem
  | weighPending
  | noWeigh
  | bagBusy
  | authorityNeeded
  | channelRunning
  | channelStopped
  | channelFault
  | notPlatter
  | motion
  | zeroRange
  | tareActive
  | tareRange
  | noEntry
  | alreadyVoid
  | nothingHeld
  | drawerBusy
  | drawerOpen
  | noFault
  | slotEmpty
  | laneBusy
  | jobQueueFull
  | jobOpen
  | noJob
  | bufferFull
  | tableFull
  | rangeOverlap
  | notFound
  | badCode
  | calLocked
  | calBusy
  | supplyLow
  | auditFull
  | badCalibration
  deriving DecidableEq, Repr

/-- The values of the answer codes (R187). -/
def Code.value : Code → Byte
  | .ok => 0x00
  | .clamped => 0x01
  | .unknownKind => 0x10
  | .badLength => 0x11
  | .badValue => 0x12
  | .noLane => 0x13
  | .partFault => 0x14
  | .laneClosed => 0x15
  | .basketFull => 0x16
  | .basketActive => 0x17
  | .basketSettled => 0x18
  | .basketPaid => 0x19
  | .tenderStarted => 0x1A
  | .tenderFull => 0x1B
  | .handoffPending => 0x1C
  | .priceLimit => 0x1D
  | .unknownItem => 0x1E
  | .weighPending => 0x1F
  | .noWeigh => 0x20
  | .bagBusy => 0x21
  | .authorityNeeded => 0x22
  | .channelRunning => 0x23
  | .channelStopped => 0x24
  | .channelFault => 0x25
  | .notPlatter => 0x26
  | .motion => 0x27
  | .zeroRange => 0x28
  | .tareActive => 0x29
  | .tareRange => 0x2A
  | .noEntry => 0x2B
  | .alreadyVoid => 0x2C
  | .nothingHeld => 0x2D
  | .drawerBusy => 0x2E
  | .drawerOpen => 0x2F
  | .noFault => 0x30
  | .slotEmpty => 0x31
  | .laneBusy => 0x32
  | .jobQueueFull => 0x33
  | .jobOpen => 0x34
  | .noJob => 0x35
  | .bufferFull => 0x36
  | .tableFull => 0x37
  | .rangeOverlap => 0x38
  | .notFound => 0x39
  | .badCode => 0x3A
  | .calLocked => 0x3B
  | .calBusy => 0x3C
  | .supplyLow => 0x3D
  | .auditFull => 0x3E
  | .badCalibration => 0x3F

/-- What an owner answers a request with (R170): an outcome, a code and a detail; or, for a CAL_WRITE whose store write
has started, nothing yet (R178). -/
inductive Reply where
  | answer (accept : Bool) (code : Code) (detail : List Byte)
  | deferred
  deriving DecidableEq, Repr

/-- The ANSWER payload: kind, outcome, code, detail (R186, R183). -/
def answerPayload (kind : Byte) (accept : Bool) (code : Code) (detail : List Byte) : List Byte :=
  kind :: (if accept then 0 else 1) :: code.value :: detail

/-- The frame kinds the part sends upstream (R185). -/
def kindAnswer : Byte := 0x80
def kindHello : Byte := 0x81
def kindDisplay : Byte := 0x82
def kindWeighEnded : Byte := 0x83
def kindBagEvent : Byte := 0x84
def kindCardEvent : Byte := 0x85
def kindCardResult : Byte := 0x86
def kindStray : Byte := 0x87
def kindDrawerEvent : Byte := 0x88
def kindPrintEvent : Byte := 0x89
def kindAttention : Byte := 0x8A

/-- The frame kinds of the payment link (R185). -/
def kindHandoff : Byte := 0xA0
def kindAbort : Byte := 0xA1
def kindResult : Byte := 0xA8

/-- The octets of a RESULT payload (R194). -/
def resultLength : Nat := 11

/-- The frame kinds of a printer port (R185). -/
def kindLine : Byte := 0xC0
def kindCut : Byte := 0xC1
def kindLineDone : Byte := 0xC8
def kindLineFailed : Byte := 0xC9
def kindPrinterStatus : Byte := 0xCA

/-- The payload length of each kind a printer sends, for the three printer kinds alone (R148, R195). -/
def printerLength (kind : Byte) : Option Nat :=
  if kind = kindLineDone ∨ kind = kindLineFailed then some 0 else if kind = kindPrinterStatus then some 1 else none

/-- The address octet of a lane (00, Lanes, channels and addresses). -/
def laneAddr (l : LaneId) : Byte := octet l.val

/-- The address octet of the part. -/
def partAddr : Byte := 15

end Sys2Proof.Machine
end

