-- ==== Sys2Proof/Decode.lean ====
section
/-! DEFINITION. Request frames (R184): from octets to a command, total on every frame, and back. And decodeTableWord,
which answers none: the table gives no row any bits (log 8). -/

namespace Sys2Proof

open Machine

/-- The kinds of a request on the wire (R184). TARE_WEIGHED and TARE_PRESET are one kind, TARE. -/
inductive ReqKind where
  | item | void | cancelWeigh | tender | newBasket | abandonBasket | basketRead | laneMode
  | channelStart | channelStop | channelSetup | zero | tare | clearTare
  | bagOverride | cancelCard | drawerOpen | drawerClear
  | printBegin | printData | printEnd | printCancel
  | laneStatus | laneReset | staffGrant | staffWithdraw | clearAttention | attentionMask
  | hello | settingsWrite | settingsRead | setDate | restart | partStatus
  | itemPut | itemRemove | itemClear | itemGet | binPut | binRemove | binClear | binRead
  | glyphPut | glyphClear | calWrite | calRead
  deriving DecidableEq, Repr

/-- The code of a kind (R184). -/
def ReqKind.code : ReqKind → Byte
  | .item => 0x10
  | .void => 0x11
  | .cancelWeigh => 0x12
  | .tender => 0x13
  | .newBasket => 0x14
  | .abandonBasket => 0x15
  | .basketRead => 0x16
  | .laneMode => 0x17
  | .channelStart => 0x20
  | .channelStop => 0x21
  | .channelSetup => 0x22
  | .zero => 0x23
  | .tare => 0x24
  | .clearTare => 0x25
  | .bagOverride => 0x28
  | .cancelCard => 0x30
  | .drawerOpen => 0x38
  | .drawerClear => 0x39
  | .printBegin => 0x40
  | .printData => 0x41
  | .printEnd => 0x42
  | .printCancel => 0x43
  | .laneStatus => 0x50
  | .laneReset => 0x51
  | .staffGrant => 0x52
  | .staffWithdraw => 0x53
  | .clearAttention => 0x54
  | .attentionMask => 0x55
  | .hello => 0x60
  | .settingsWrite => 0x61
  | .settingsRead => 0x62
  | .setDate => 0x63
  | .restart => 0x64
  | .partStatus => 0x65
  | .itemPut => 0x68
  | .itemRemove => 0x69
  | .itemClear => 0x6A
  | .itemGet => 0x6B
  | .binPut => 0x6C
  | .binRemove => 0x6D
  | .binClear => 0x6E
  | .binRead => 0x6F
  | .glyphPut => 0x70
  | .glyphClear => 0x71
  | .calWrite => 0x74
  | .calRead => 0x75

/-- The kind of a code (R184). -/
def ReqKind.ofCode (b : Byte) : Option ReqKind :=
  match b.toNat with
  | 0x10 => some .item
  | 0x11 => some .void
  | 0x12 => some .cancelWeigh
  | 0x13 => some .tender
  | 0x14 => some .newBasket
  | 0x15 => some .abandonBasket
  | 0x16 => some .basketRead
  | 0x17 => some .laneMode
  | 0x20 => some .channelStart
  | 0x21 => some .channelStop
  | 0x22 => some .channelSetup
  | 0x23 => some .zero
  | 0x24 => some .tare
  | 0x25 => some .clearTare
  | 0x28 => some .bagOverride
  | 0x30 => some .cancelCard
  | 0x38 => some .drawerOpen
  | 0x39 => some .drawerClear
  | 0x40 => some .printBegin
  | 0x41 => some .printData
  | 0x42 => some .printEnd
  | 0x43 => some .printCancel
  | 0x50 => some .laneStatus
  | 0x51 => some .laneReset
  | 0x52 => some .staffGrant
  | 0x53 => some .staffWithdraw
  | 0x54 => some .clearAttention
  | 0x55 => some .attentionMask
  | 0x60 => some .hello
  | 0x61 => some .settingsWrite
  | 0x62 => some .settingsRead
  | 0x63 => some .setDate
  | 0x64 => some .restart
  | 0x65 => some .partStatus
  | 0x68 => some .itemPut
  | 0x69 => some .itemRemove
  | 0x6A => some .itemClear
  | 0x6B => some .itemGet
  | 0x6C => some .binPut
  | 0x6D => some .binRemove
  | 0x6E => some .binClear
  | 0x6F => some .binRead
  | 0x70 => some .glyphPut
  | 0x71 => some .glyphClear
  | 0x74 => some .calWrite
  | 0x75 => some .calRead
  | _ => none

/-- A lane kind has a code from 0x10 to 0x55 and is addressed to a lane; a part kind has one from 0x60 to 0x75 and is
addressed to 15; CLEAR_ATTENTION and ATTENTION_MASK are both (R184). -/
def ReqKind.fits (toPart : Bool) (k : ReqKind) : Bool :=
  if toPart then decide (0x60 ≤ k.code.toNat) || k == .clearAttention || k == .attentionMask
  else decide (k.code.toNat ≤ 0x55)

/-- The request kind of a code for its address (R170 step 2). -/
def requestKind (addr code : Byte) : Option ReqKind :=
  (ReqKind.ofCode code).filter (ReqKind.fits (addr == 15))

/-- The payload lengths R184 gives for a kind (R170 step 3). -/
def ReqKind.lengthOk (k : ReqKind) (n : Nat) : Bool :=
  match k with
  | .item => n == 12
  | .void | .basketRead | .laneMode => n == 1
  | .cancelWeigh | .newBasket | .abandonBasket => n == 0
  | .tender => n == 5
  | .channelStart | .channelStop | .zero | .clearTare => n == 1
  | .channelSetup => n == 3
  | .tare => n == 6
  | .bagOverride | .cancelCard | .drawerOpen | .drawerClear | .printBegin => n == 0
  | .printData => decide (2 ≤ n) && decide (n ≤ 237)
  | .printEnd | .printCancel | .laneStatus => n == 1
  | .laneReset | .staffWithdraw => n == 0
  | .staffGrant => n == 4
  | .clearAttention | .attentionMask => n == 2
  | .hello | .settingsRead | .restart | .partStatus => n == 0
  | .settingsWrite => n == 64
  | .setDate => n == 3
  | .itemPut => n % 25 == 0 && decide (1 ≤ n / 25) && decide (n / 25 ≤ 6)
  | .itemRemove | .itemGet => n == 6
  | .itemClear | .binClear => n == 0
  | .binPut => n % 12 == 0 && decide (1 ≤ n / 12) && decide (n / 12 ≤ 4)
  | .binRemove | .binRead => n == 4
  | .glyphPut => n == 73
  | .glyphClear => n == 1
  | .calWrite => n == 24
  | .calRead => n == 2

/-- The octet at place `i`. -/
def octetAt (p : List Byte) (i : Nat) : Byte := p.getD i 0

/-- The number in `w` octets from place `i`, high octet first (R182). -/
def fieldAt (p : List Byte) (i w : Nat) : Nat := unbe ((p.drop i).take w)

/-- The item record whose 25 octets stand first in `p` (R193). -/
def rawItemAt (p : List Byte) : RawItem :=
  { code := .ofNat 48 (fieldAt p 0 6), saleKind := octetAt p 6, presence := octetAt p 7,
    unitPrice := .ofNat 32 (fieldAt p 8 4), presetTare := .ofNat 32 (fieldAt p 12 4),
    expectedWeight := .ofNat 32 (fieldAt p 16 4), tolerance := .ofNat 32 (fieldAt p 20 4), bagRule := octetAt p 24 }

/-- The range record whose 12 octets stand first in `p` (R193). -/
def rawRangeAt (p : List Byte) : RawRange :=
  { low := .ofNat 32 (fieldAt p 0 4), high := .ofNat 32 (fieldAt p 4 4), cardClass := octetAt p 8,
    keepFirst := octetAt p 9, keepLast := octetAt p 10, checkDigit := octetAt p 11 }

/-- The calibration record whose 22 octets stand first in `p` (R193). -/
def rawCalAt (p : List Byte) : RawCal :=
  { max := .ofNat 32 (fieldAt p 0 4), d1 := .ofNat 32 (fieldAt p 4 4), m1 := .ofNat 32 (fieldAt p 8 4),
    d2 := .ofNat 32 (fieldAt p 12 4), zc := .ofNat 32 (fieldAt p 16 4), span := .ofNat 16 (fieldAt p 20 2) }

/-- The lane block whose 15 octets stand first in `p` (R193). -/
def rawLaneSettingsAt (p : List Byte) : RawLaneSettings :=
  { displayInterval := .ofNat 16 (fieldAt p 0 2), weighTime := octetAt p 2, baseTolerance := .ofNat 32 (fieldAt p 3 4),
    placementTime := octetAt p 7, removalTime := octetAt p 8, staffHold := .ofNat 16 (fieldAt p 9 2),
    polarity := octetAt p 11, pulseTime := octetAt p 12, leftOpenTime := .ofNat 16 (fieldAt p 13 2) }

/-- The settings record that `p` holds (R193). -/
def rawSettingsAt (p : List Byte) : RawSettings :=
  { moneyDecimals := octetAt p 0, linkSilence := octetAt p 1, responseTime := octetAt p 2, solenoidBudget := octetAt p 3,
    lanes := ⟨rawLaneSettingsAt (p.drop 4), rawLaneSettingsAt (p.drop 19), rawLaneSettingsAt (p.drop 34),
      rawLaneSettingsAt (p.drop 49)⟩ }

/-- The `n` records of `w` octets that `p` holds in order. -/
def recordsAt {α : Type} (one : List Byte → α) (w : Nat) : Nat → List Byte → List α
  | 0, _ => []
  | n + 1, p => one p :: recordsAt one w n (p.drop w)

/-- The command a frame of kind `k` with a payload length of R184 spells. `calEn` is the level of the CAL_EN input,
which no octet carries. A TARE with form octet 0 is the weighed form; with any other it is the preset form, whose owner
tests the octet (R182). -/
def requestOf (calEn : Bool) (k : ReqKind) (f : Frame) : Instr :=
  let p := f.payload
  match k with
  | .item => .item f.addr f.tag (.ofNat 48 (fieldAt p 0 6)) (octetAt p 6) (.ofNat 32 (fieldAt p 7 4)) (octetAt p 11)
  | .void => .void f.addr f.tag (octetAt p 0)
  | .cancelWeigh => .cancelWeigh f.addr f.tag
  | .tender => .tender f.addr f.tag (octetAt p 0) (.ofNat 32 (fieldAt p 1 4))
  | .newBasket => .newBasket f.addr f.tag
  | .abandonBasket => .abandonBasket f.addr f.tag
  | .basketRead => .basketRead f.addr f.tag (octetAt p 0)
  | .laneMode => .laneMode f.addr f.tag (octetAt p 0)
  | .channelStart => .channelStart f.addr f.tag (octetAt p 0)
  | .channelStop => .channelStop f.addr f.tag (octetAt p 0)
  | .channelSetup => .channelSetup f.addr f.tag (octetAt p 0) (octetAt p 1) (octetAt p 2)
  | .zero => .zero f.addr f.tag (octetAt p 0)
  | .tare =>
    if octetAt p 1 = 0 then .tareWeighed f.addr f.tag (octetAt p 0) (.ofNat 32 (fieldAt p 2 4))
    else .tarePreset f.addr f.tag (octetAt p 0) (octetAt p 1) (.ofNat 32 (fieldAt p 2 4))
  | .clearTare => .clearTare f.addr f.tag (octetAt p 0)
  | .bagOverride => .bagOverride f.addr f.tag
  | .cancelCard => .cancelCard f.addr f.tag
  | .drawerOpen => .drawerOpen f.addr f.tag
  | .drawerClear => .drawerClear f.addr f.tag
  | .printBegin => .printBegin f.addr f.tag
  | .printData => .printData f.addr f.tag (octetAt p 0) (p.drop 1)
  | .printEnd => .printEnd f.addr f.tag (octetAt p 0)
  | .printCancel => .printCancel f.addr f.tag (octetAt p 0)
  | .laneStatus => .laneStatus f.addr f.tag (octetAt p 0)
  | .laneReset => .laneReset f.addr f.tag
  | .staffGrant => .staffGrant f.addr f.tag (.ofNat 32 (fieldAt p 0 4))
  | .staffWithdraw => .staffWithdraw f.addr f.tag
  | .clearAttention => .clearAttention f.addr f.tag (.ofNat 16 (fieldAt p 0 2))
  | .attentionMask => .attentionMask f.addr f.tag (.ofNat 16 (fieldAt p 0 2))
  | .hello => .hello f.tag
  | .settingsWrite => .settingsWrite f.tag (rawSettingsAt p)
  | .settingsRead => .settingsRead f.tag
  | .setDate => .setDate f.tag (octetAt p 0) (octetAt p 1) (octetAt p 2)
  | .restart => .restart f.tag
  | .partStatus => .partStatus f.tag
  | .itemPut => .itemPut f.tag (recordsAt rawItemAt 25 (p.length / 25) p)
  | .itemRemove => .itemRemove f.tag (.ofNat 48 (fieldAt p 0 6))
  | .itemClear => .itemClear f.tag
  | .itemGet => .itemGet f.tag (.ofNat 48 (fieldAt p 0 6))
  | .binPut => .binPut f.tag (recordsAt rawRangeAt 12 (p.length / 12) p)
  | .binRemove => .binRemove f.tag (.ofNat 32 (fieldAt p 0 4))
  | .binClear => .binClear f.tag
  | .binRead => .binRead f.tag (.ofNat 32 (fieldAt p 0 4))
  | .glyphPut => .glyphPut f.tag (octetAt p 0) (p.drop 1)
  | .glyphClear => .glyphClear f.tag (octetAt p 0)
  | .calWrite => .calWrite f.tag (octetAt p 0) (octetAt p 1) (rawCalAt (p.drop 2)) calEn
  | .calRead => .calRead f.tag (octetAt p 0) (octetAt p 1)

/-- What dispatch reads from a frame (R170 steps 2 and 3). -/
inductive Decoded where
  | unknownKind
  | badLength
  | request (i : Instr)
  deriving DecidableEq, Repr

/-- Decoding a frame, total on every frame: no request kind for its address, a length R184 does not give, or the
request it spells. -/
def decodeRequest (calEn : Bool) (f : Frame) : Decoded :=
  match requestKind f.addr f.kind with
  | none => .unknownKind
  | some k => if k.lengthOk f.payload.length then .request (requestOf calEn k f) else .badLength

/-- The octets of an item record (R193). -/
def rawItemOctets (r : RawItem) : List Byte :=
  be 6 r.code.toNat ++ [r.saleKind, r.presence] ++ be 4 r.unitPrice.toNat ++ be 4 r.presetTare.toNat ++
  be 4 r.expectedWeight.toNat ++ be 4 r.tolerance.toNat ++ [r.bagRule]

/-- The octets of a range record (R193). -/
def rawRangeOctets (r : RawRange) : List Byte :=
  be 4 r.low.toNat ++ be 4 r.high.toNat ++ [r.cardClass, r.keepFirst, r.keepLast, r.checkDigit]

/-- The octets of a calibration record (R193). -/
def rawCalOctets (r : RawCal) : List Byte :=
  be 4 r.max.toNat ++ be 4 r.d1.toNat ++ be 4 r.m1.toNat ++ be 4 r.d2.toNat ++ be 4 r.zc.toNat ++ be 2 r.span.toNat

/-- The octets of a lane block (R193). -/
def rawLaneSettingsOctets (r : RawLaneSettings) : List Byte :=
  be 2 r.displayInterval.toNat ++ [r.weighTime] ++ be 4 r.baseTolerance.toNat ++ [r.placementTime, r.removalTime] ++
  be 2 r.staffHold.toNat ++ [r.polarity, r.pulseTime] ++ be 2 r.leftOpenTime.toNat

/-- The octets of the settings record (R193). -/
def rawSettingsOctets (r : RawSettings) : List Byte :=
  [r.moneyDecimals, r.linkSilence, r.responseTime, r.solenoidBudget] ++ rawLaneSettingsOctets r.lanes.l0 ++
  rawLaneSettingsOctets r.lanes.l1 ++ rawLaneSettingsOctets r.lanes.l2 ++ rawLaneSettingsOctets r.lanes.l3

/-- A request frame. -/
def requestFrame (addr : Byte) (k : ReqKind) (tag : Byte) (payload : List Byte) : Frame := ⟨addr, k.code, tag, payload⟩

/-- The frame a request is sent in (R184); nothing for the rows that are not requests of the host, and for UNKNOWN_KIND
and GOOD_FRAME the frame they carry. -/
def encodeRequest : Instr → Option Frame
  | .item a t c q p k => some (requestFrame a .item t (be 6 c.toNat ++ [q] ++ be 4 p.toNat ++ [k]))
  | .void a t p => some (requestFrame a .void t [p])
  | .cancelWeigh a t => some (requestFrame a .cancelWeigh t [])
  | .tender a t k m => some (requestFrame a .tender t (k :: be 4 m.toNat))
  | .newBasket a t => some (requestFrame a .newBasket t [])
  | .abandonBasket a t => some (requestFrame a .abandonBasket t [])
  | .basketRead a t p => some (requestFrame a .basketRead t [p])
  | .laneMode a t m => some (requestFrame a .laneMode t [m])
  | .channelStart a t c => some (requestFrame a .channelStart t [c])
  | .channelStop a t c => some (requestFrame a .channelStop t [c])
  | .channelSetup a t c f m => some (requestFrame a .channelSetup t [c, f, m])
  | .zero a t c => some (requestFrame a .zero t [c])
  | .tareWeighed a t c v => some (requestFrame a .tare t ([c, 0] ++ be 4 v.toNat))
  | .tarePreset a t c f v => some (requestFrame a .tare t ([c, f] ++ be 4 v.toNat))
  | .clearTare a t c => some (requestFrame a .clearTare t [c])
  | .bagOverride a t => some (requestFrame a .bagOverride t [])
  | .cancelCard a t => some (requestFrame a .cancelCard t [])
  | .drawerOpen a t => some (requestFrame a .drawerOpen t [])
  | .drawerClear a t => some (requestFrame a .drawerClear t [])
  | .printBegin a t => some (requestFrame a .printBegin t [])
  | .printData a t j o => some (requestFrame a .printData t (j :: o))
  | .printEnd a t j => some (requestFrame a .printEnd t [j])
  | .printCancel a t j => some (requestFrame a .printCancel t [j])
  | .laneStatus a t n => some (requestFrame a .laneStatus t [n])
  | .laneReset a t => some (requestFrame a .laneReset t [])
  | .staffGrant a t n => some (requestFrame a .staffGrant t (be 4 n.toNat))
  | .staffWithdraw a t => some (requestFrame a .staffWithdraw t [])
  | .clearAttention a t c => some (requestFrame a .clearAttention t (be 2 c.toNat))
  | .attentionMask a t c => some (requestFrame a .attentionMask t (be 2 c.toNat))
  | .hello t => some (requestFrame 15 .hello t [])
  | .partStatus t => some (requestFrame 15 .partStatus t [])
  | .settingsWrite t r => some (requestFrame 15 .settingsWrite t (rawSettingsOctets r))
  | .settingsRead t => some (requestFrame 15 .settingsRead t [])
  | .setDate t y m d => some (requestFrame 15 .setDate t [y, m, d])
  | .restart t => some (requestFrame 15 .restart t [])
  | .itemPut t l => some (requestFrame 15 .itemPut t (l.map rawItemOctets).flatten)
  | .itemRemove t c => some (requestFrame 15 .itemRemove t (be 6 c.toNat))
  | .itemClear t => some (requestFrame 15 .itemClear t [])
  | .itemGet t c => some (requestFrame 15 .itemGet t (be 6 c.toNat))
  | .binPut t l => some (requestFrame 15 .binPut t (l.map rawRangeOctets).flatten)
  | .binRemove t n => some (requestFrame 15 .binRemove t (be 4 n.toNat))
  | .binClear t => some (requestFrame 15 .binClear t [])
  | .binRead t n => some (requestFrame 15 .binRead t (be 4 n.toNat))
  | .glyphPut t c p => some (requestFrame 15 .glyphPut t (c :: p))
  | .glyphClear t c => some (requestFrame 15 .glyphClear t [c])
  | .calWrite t l c r _ => some (requestFrame 15 .calWrite t ([l, c] ++ rawCalOctets r))
  | .calRead t l c => some (requestFrame 15 .calRead t [l, c])
  | .unknownKind f => some f
  | .goodFrame f _ => some f
  | .calWriteComplete => none
  | .frameError _ => none
  | .upstreamFrameSent _ => none
  | .restartReset _ => none
  | .linkSilenceExpiry => none
  | .powerOn _ => none
  | .brownOut => none
  | .supplyLowSet => none
  | .supplyLowClear => none
  | .sampleArrival _ _ _ => none
  | .channelSilenceExpiry _ _ => none
  | .initialZeroExpiry _ _ => none
  | .displayTimerExpiry _ _ => none
  | .weighTimerExpiry _ => none
  | .placementTimerExpiry _ => none
  | .removalTimerExpiry _ => none
  | .readerCharacter _ _ _ => none
  | .gapTimerExpiry _ => none
  | .result _ _ _ _ _ => none
  | .paymentFrameSent => none
  | .responseTimerExpiry => none
  | .drawerSensorLevel _ _ => none
  | .debounceTimerExpiry _ => none
  | .pulseTimerExpiry _ => none
  | .checkTimerExpiry _ => none
  | .leftOpenExpiry _ => none
  | .lineDone _ _ => none
  | .lineFailed _ _ => none
  | .printerStatus _ _ => none
  | .printerSilenceExpiry _ => none
  | .answerTimerExpiry _ => none
  | .staffHoldExpiry _ => none
  | .supplyAboveBrownOut _ => none
  | .paymentFrameDiscarded _ => none
  | .printerFrameDiscarded _ _ => none

/-- No row of the table has bits, so no word spells a command (log 8). -/
def decodeTableWord (_nbits _w : Nat) : Option Instr := none

end Sys2Proof
end

