-- ==== Sys2Proof/Machine/State.lean ====
section
/-! DEFINITION. The state of the part as plain data, the reasons it can stop, and the state after a power-on. -/

namespace Sys2Proof.Machine

/-- No command stops the part: the spec answers a bad request with a refusal code (R170, R187), discards a malformed
frame (R104, R148, R169), and turns a device failure into a state and an attention condition (R10, R126, R152). So there
is no fault reason, which is safe: no run ends by one. -/
inductive Fault where
  deriving DecidableEq, Repr

/-- Why a command has no meaning. -/
inductive Refusal where
  /-- Raised by the dispatch arm of a command that is not modelled, with its mnemonic (no arm raises it). Safe: the run
  stops where the part goes on. -/
  | notModelled (mnemonic : String)
  deriving DecidableEq, Repr

/-- The state of the part. -/
structure State where
  /-- The commands that are waiting, first in, first out (the model's own; log 7). -/
  pending : List Instr
  /-- Running, or held between a brown-out and the supply's rise (R179; log 21). -/
  power : Power
  /-- Counts the status reads that took a free value (the model's own; log 4). -/
  freeCount : Nat
  /-- The level of the CAL_EN input at the last command that could dispatch a CAL_WRITE (R178; log 2). -/
  calEn : Bool
  /-- The supply is below the warning threshold (R179). -/
  supplyBelow : Bool
  /-- The RATE and LANES straps as last read (R168). -/
  rateStrap : BitVec 2
  lanesStrap : BitVec 2
  /-- Reset cause and self-check result of the last start-up (R180). -/
  resetCause : ResetCause
  selfCheck : SelfCheck
  /-- What the last HELLO_NOTICE said that later reads need (R173). -/
  hello : Hello
  /-- The lanes' blocks; a lane the strap does not enable keeps its reset record (log 27). -/
  lanes : Four Lane
  /-- The item table, the card range table and the glyph table (R45, R91, R146). -/
  items : List ItemRecord
  ranges : List CardRange
  glyphs : List Glyph
  /-- The settings in force and the calendar date (R174, R175). -/
  settings : Settings
  date : Option Date
  /-- The calibration store, and the write in progress (R177, R178). -/
  store : Four StoreLane
  calWrite : Option CalWrite
  /-- The trunk link unit (R169 to R172). `reserved` counts records reserved for answers not yet produced; `restart` is
  how many upstream frames are still to be sent up to and including the RESTART answer (R176). -/
  receiver : Receiver
  receiveBuffer : List Frame
  upstream : List Frame
  reserved : Nat
  restart : Option Nat
  linkTimer : Timer
  silent : Bool
  /-- The part attention record (R161). -/
  attention : Attention
  /-- The supply-low flag (R179). -/
  supplyLow : Bool
  /-- The solenoid power queue, and the lanes RELEASING in order of admission (R123, R125). -/
  powerQueue : List LaneId
  releasing : List LaneId
  /-- The payment link unit (R103). -/
  pay : PayLink
  deriving DecidableEq, Repr

/-! ## Reset values -/

/-- A channel before the channels start (R3): no calibration, default lengths, empty windows, nothing set. -/
def Channel.blank : Channel :=
  { state := .stopped, cause := .noCause, ret := none, calib := none, filterLength := 8, stabilityLength := 16,
    filter := [], stability := [], zi := none, zo := none, tare := 0, tareKind := .noTare, latest := none, reading := none,
    silence := none, initialZero := none, display := none, displayTimer := none }

/-- The bag check after a reset (R66). -/
def BagCheck.blank : BagCheck :=
  { state := .suspended, b := none, awaiting := none, e := none, a := 0, placement := none, removal := none,
    excursion := false, latestGross := none, latestStable := none, previousGross := none }

/-- The card unit after a reset (R84). -/
def CardUnit.blank : CardUnit :=
  { assembling := false, buffer := [], parityError := false, gap := none, lastSwipe := none, slot := none }

/-- The drawer record before its sensor is read (R120), with the level at its pin. -/
def Till.blank (rawHigh : Bool) : Till :=
  { state := .closed, sensorOpen := false, rawHigh := rawHigh, debounce := none, retry := false, cut := false,
    forced := false, pulse := none, check := none, leftOpen := none, openCount := 0 }

/-- The printer port before its silence timer starts (R148). -/
def Port.blank : Port :=
  { state := .unknown, receiver := .hunting, silence := none, exchange := none, answer := none, cutOwed := false,
    counter := 0 }

/-- A clear attention record (R161). -/
def Attention.clear : Attention := { set := 0, mask := 0 }

/-- A lane's blocks at their reset values, before the start-up of R180 acts on them. -/
def Lane.blank (rawHigh : Bool) : Lane :=
  { platter := Channel.blank, bag := Channel.blank, weigh := none, armed := false, nextCapture := 1, log := [],
    entries := [], tenders := [], token := false, bagCheck := BagCheck.blank, card := CardUnit.blank, lastResult := none,
    till := Till.blank rawHigh, jobs := [], jobCounter := 0, port := Port.blank, mode := .attended, authority := none,
    attention := Attention.clear }

/-- The payment link unit after a reset (R103). -/
def PayLink.blank : PayLink :=
  { inFlight := none, response := none, pointer := 3, counter := 0, transmit := [], receiver := .hunting,
    lastStray := none }

/-- A store that has never been written: no record passes its check, every audit count 0 (R177). -/
def StoreLane.blank : StoreLane := { platter := ⟨none, 0⟩, bag := ⟨none, 0⟩ }

/-- A channel of a store never written, after the start-up's display check (R3, R25): FAULT, UNCALIBRATED. -/
def Channel.resetUncalibrated : Channel :=
  { Channel.blank with
    state := .fault
    cause := .uncalibrated
    display := some ⟨.fault, .uncalibrated, none⟩
    displayTimer := some 200 }

/-- A lane after a power-on with a store never written: both channels uncalibrated, their conditions raised (R3, R10),
the printer port's silence timer running (R148). -/
def Lane.reset : Lane :=
  { Lane.blank false with
    platter := Channel.resetUncalibrated
    bag := Channel.resetUncalibrated
    port := { Port.blank with silence := some 2000 }
    attention := ⟨3, 0⟩ }

/-- The start-up notices of a lane whose channels are uncalibrated (R3, R10, R25; order: log 9). -/
def resetNotices (l : LaneId) : List Frame :=
  [⟨laneAddr l, kindAttention, 0, attentionPayload (laneAddr l) 0 1 0⟩,
   ⟨laneAddr l, kindDisplay, 0, displayPayload .platter ⟨.fault, .uncalibrated, none⟩⟩,
   ⟨laneAddr l, kindAttention, 0, attentionPayload (laneAddr l) 1 3 0⟩,
   ⟨laneAddr l, kindDisplay, 0, displayPayload .bag ⟨.fault, .uncalibrated, none⟩⟩]

/-- The part right after a power-on (R180) with four lanes enabled at 115,200 baud, the self-check passed, the supply
good, every drawer sensor low and a calibration store that has never been written. The straps, the pins and the
self-check result are the model's choice (log 6); every other field is at the value the spec states. -/
def State.reset : State :=
  { pending := [], power := .running, freeCount := 0, calEn := false, supplyBelow := false, rateStrap := 0,
    lanesStrap := 2, resetCause := .powerOn, selfCheck := .pass, hello := ⟨[0, 0, 0, 0, 0, 0, 0, 0]⟩,
    lanes := Four.make fun _ => Lane.reset, items := [], ranges := [], glyphs := [], settings := Settings.default,
    date := none, store := Four.make fun _ => StoreLane.blank, calWrite := none, receiver := .hunting,
    receiveBuffer := [],
    upstream := ⟨partAddr, kindHello, 0, helloPayload 4 0 .powerOn .pass [0, 0, 0, 0, 0, 0, 0, 0]⟩ ::
      (resetNotices 0 ++ resetNotices 1 ++ resetNotices 2 ++ resetNotices 3),
    reserved := 0, restart := none, linkTimer := some 10000, silent := false, attention := Attention.clear,
    supplyLow := false, powerQueue := [], releasing := [], pay := PayLink.blank }

end Sys2Proof.Machine
end

