-- ==== Sys2Proof/Machine/Flags.lean ====
section
/-! DEFINITION. Conditions and flags: attention bits, the basket's derived figures and state, ATTN and the tower light. -/

namespace Sys2Proof.Machine

/-- The bit of a lane condition in a condition set (R184). -/
def LaneCond.bit : LaneCond → Nat
  | .platterFault => 0
  | .bagFault => 1
  | .logFull => 2
  | .wrongWeight => 3
  | .unexpectedWeight => 4
  | .bagHeld => 5
  | .drawerFault => 6
  | .drawerLeftOpen => 7
  | .drawerForced => 8
  | .paperLow => 9
  | .paperOut => 10
  | .printerOffline => 11
  | .weightRefMissing => 12
  | .noticeWithheld => 13

/-- The bit of a part condition in a condition set (R184). -/
def PartCond.bit : PartCond → Nat
  | .frameError => 0
  | .rxOverrun => 1
  | .linkSilent => 2
  | .supplyLow => 3
  | .strayResult => 4
  | .noticeWithheld => 5

/-- The condition set whose one member has bit `k`. -/
def condBit (k : Nat) : BitVec 16 := 1#16 <<< k

/-- Whether a condition set holds the condition of bit `k`. -/
def hasCond (s : BitVec 16) (k : Nat) : Bool := s.getLsbD k

/-- The condition set with the condition of bit `k`. -/
def addCond (s : BitVec 16) (k : Nat) : BitVec 16 := s ||| condBit k

/-- The names of a lane record (bits 0 to 13) and of the part record (bits 0 to 5), R184. -/
def laneCondNames : BitVec 16 := 0x3FFF
def partCondNames : BitVec 16 := 0x003F

/-- Whether a set names only conditions of a record (R162, R163). -/
def namesOnly (names s : BitVec 16) : Bool := s &&& ~~~names == 0#16

/-- At least one condition set and not masked (R164). -/
def Attention.unmasked (a : Attention) : Bool := a.set &&& ~~~a.mask != 0#16

/-- The conditions that light red, masked or not (R165): BAG_HELD, UNEXPECTED_WEIGHT, DRAWER_LEFT_OPEN, DRAWER_FORCED,
PLATTER_FAULT, BAG_FAULT. -/
def redConds : BitVec 16 := 0x01B3

/-- How many lanes the LANES strap code enables (R168). -/
def lanesEnabledBy (code : BitVec 2) : Nat :=
  match code.toNat with
  | 0 => 1
  | 1 => 2
  | _ => 4

/-- The number of lanes enabled (R168). -/
def State.lanesEnabled (s : State) : Nat := lanesEnabledBy s.lanesStrap

/-- Whether the LANES strap enables a lane (R168). -/
def State.enabled (s : State) (l : LaneId) : Bool := decide (l.val < s.lanesEnabled)

/-- DEGRADED: the self-check of the last start-up was not PASS (R181). -/
def State.degraded (s : State) : Bool := s.selfCheck != .pass

/-- ATTN: a condition set and not masked in the part record or in the record of an enabled lane (R164). -/
def State.attn (s : State) : Bool :=
  s.attention.unmasked ||
  (s.enabled 0 && s.lanes.l0.attention.unmasked) || (s.enabled 1 && s.lanes.l1.attention.unmasked) ||
  (s.enabled 2 && s.lanes.l2.attention.unmasked) || (s.enabled 3 && s.lanes.l3.attention.unmasked)

/-- The tower light of a lane (R165); a lane not enabled drives none. -/
def State.towerLight (s : State) (l : LaneId) : Light :=
  let n := s.lanes.get l
  if !s.enabled l || n.mode == .closed then .off
  else if s.silent || (n.attention.set &&& redConds != 0#16) then .red
  else if n.authority.isSome || (n.attention.set &&& ~~~redConds &&& ~~~n.attention.mask != 0#16) then .amber
  else .green

/-- The solenoid output is driven while the drawer is RELEASING (R120). -/
def Till.solenoid (t : Till) : Bool := t.state == .releasing

/-- The buzzer output is on while the drawer is LEFT_OPEN (R120). -/
def Till.buzzer (t : Till) : Bool := t.state == .leftOpen

/-- The sum of the line prices of the entries that are not voided (R51). -/
def Lane.total (n : Lane) : Nat := ((n.entries.filter fun e => !e.voided).map (·.linePrice)).sum

/-- The sum of the tender amounts (R51). -/
def Lane.tendered (n : Lane) : Nat := (n.tenders.map (·.amount)).sum

/-- Total minus tendered; negative when change is owed (R51). -/
def Lane.due (n : Lane) : Int := (n.total : Int) - n.tendered

/-- Hand-off outstanding: the card slot is not EMPTY (R49). -/
def Lane.handoffOutstanding (n : Lane) : Bool := n.card.slot.isSome

/-- The basket state by the first line that applies (R51). -/
def Lane.basketState (n : Lane) : BasketState :=
  if n.entries.isEmpty && n.tenders.isEmpty && !n.handoffOutstanding then .empty
  else if !n.tenders.isEmpty && decide (n.due ≤ 0) then .settled
  else if !n.tenders.isEmpty || n.handoffOutstanding then .tendering
  else .opened

/-- Staff authority is present (R159). -/
def Lane.staffed (n : Lane) : Bool := n.authority.isSome

/-- A record of the capture log is HELD (R38). -/
def Capture.held (c : Capture) : Bool := c.basketHeld || decide (0 < c.holds)

/-- A lane's print partition: 16,384 octets divided evenly among the enabled lanes (R135). -/
def State.partition (s : State) : Nat := 16384 / s.lanesEnabled

/-- The free octets of a lane: its partition minus the stream octets of its jobs (R135). -/
def State.freeOctets (s : State) (l : LaneId) : Nat :=
  s.partition - (((s.lanes.get l).jobs).map fun j => j.stream.length).sum

/-- A port is usable in READY and PAPER_LOW (R148). -/
def Port.usable (p : Port) : Bool := p.state == .ready || p.state == .paperLow

end Sys2Proof.Machine
end

