-- ==== Sys2Proof/Machine/Ops.lean ====
section
/-! DEFINITION. The named operations every block uses: lanes and channels, the upstream queue (R171), attention
conditions (R161), display checks (R25) and replies (R170). -/

namespace Sys2Proof.Machine

/-! ## Lanes and channels -/

/-- The blocks of a lane. -/
def State.lane (s : State) (l : LaneId) : Lane := s.lanes.get l

/-- The state with a lane's blocks replaced. -/
def State.setLane (s : State) (l : LaneId) (n : Lane) : State := { s with lanes := s.lanes.set l n }

/-- The state with a lane's blocks changed. -/
def State.modLane (s : State) (l : LaneId) (g : Lane → Lane) : State := s.setLane l (g (s.lane l))

/-- A channel of a lane. -/
def Lane.chan (n : Lane) (c : Chan) : Channel :=
  match c with
  | .platter => n.platter
  | .bag => n.bag

/-- The lane with a channel replaced. -/
def Lane.setChan (n : Lane) (c : Chan) (x : Channel) : Lane :=
  match c with
  | .platter => { n with platter := x }
  | .bag => { n with bag := x }

/-- A channel of the part. -/
def State.chan (s : State) (l : LaneId) (c : Chan) : Channel := (s.lane l).chan c

/-- The state with a channel replaced. -/
def State.setChan (s : State) (l : LaneId) (c : Chan) (x : Channel) : State := s.modLane l fun n => n.setChan c x

/-- The state with a channel changed. -/
def State.modChan (s : State) (l : LaneId) (c : Chan) (g : Channel → Channel) : State := s.setChan l c (g (s.chan l c))

/-- The state with a lane's drawer record replaced. -/
def State.setTill (s : State) (l : LaneId) (t : Till) : State := s.modLane l fun n => { n with till := t }

/-- The settings of a lane (R174). -/
def State.laneSettings (s : State) (l : LaneId) : LaneSettings := s.settings.lanes.get l

/-- Events reach a lane while the part runs and the strap enables the lane (00, Connections; log 23). -/
def State.live (s : State) (l : LaneId) : Bool := s.power == .running && s.enabled l

/-- An event at a lane: nothing happens at a lane that is not live. -/
def State.onLane (s : State) (l : LaneId) (g : State → State) : State := if s.live l then g s else s

/-- An event at a part-wide block: nothing happens while the part is held in reset. -/
def State.onPart (s : State) (g : State → State) : State := if s.power == .running then g s else s

/-- A time in seconds as a timer's length. -/
def seconds (n : Nat) : Timer := some (n * 1000)

/-- The time remaining on a timer for a status read (R182): 0 when it is not running, else a free value within its
length (log 4). -/
def State.remaining (s : State) (t : Timer) (which : Nat) : Nat :=
  match t with
  | none => 0
  | some n => min (Config.timeRemaining s.freeCount which) n

/-! ## The upstream queue -/

/-- The free records: 64 minus those held minus those reserved (R171). -/
def State.freeRecords (s : State) : Nat := 64 - s.upstream.length - s.reserved

/-- A frame joins the tail of the upstream queue. -/
def State.enqueue (s : State) (f : Frame) : State := { s with upstream := s.upstream ++ [f] }

/-- The state with a lane's attention record replaced. -/
def State.setAttention (s : State) (l : LaneId) (a : Attention) : State := s.modLane l fun n => { n with attention := a }

/-- Raising a lane condition (R161): a condition already set stays; a clear one becomes set and, when not masked, offers
an ATTENTION_NOTICE; a notice that finds no room leaves NOTICE_WITHHELD set. -/
def State.raiseLane (s : State) (l : LaneId) (c : LaneCond) : State :=
  let a := (s.lane l).attention
  if hasCond a.set c.bit then s
  else
    let a' : Attention := { a with set := addCond a.set c.bit }
    if hasCond a.mask c.bit then s.setAttention l a'
    else if 1 ≤ s.freeRecords then
      (s.setAttention l a').enqueue
        ⟨laneAddr l, kindAttention, 0, attentionPayload (laneAddr l) (octet c.bit) a'.set a'.mask⟩
    else s.setAttention l { a' with set := addCond a'.set LaneCond.noticeWithheld.bit }

/-- Raising a part condition (R161). -/
def State.raisePart (s : State) (c : PartCond) : State :=
  let a := s.attention
  if hasCond a.set c.bit then s
  else
    let a' : Attention := { a with set := addCond a.set c.bit }
    if hasCond a.mask c.bit then { s with attention := a' }
    else if 1 ≤ s.freeRecords then
      { s with attention := a' }.enqueue ⟨partAddr, kindAttention, 0, attentionPayload partAddr (octet c.bit) a'.set a'.mask⟩
    else { s with attention := { a' with set := addCond a'.set PartCond.noticeWithheld.bit } }

/-- Offering an event notice about a lane: it takes a record when one is free, else NOTICE_WITHHELD is raised in the
lane's record (R171). -/
def State.offerLane (s : State) (l : LaneId) (kind : Byte) (payload : List Byte) : State :=
  if 1 ≤ s.freeRecords then s.enqueue ⟨laneAddr l, kind, 0, payload⟩ else s.raiseLane l .noticeWithheld

/-- Offering an event notice about the part (R171). -/
def State.offerPart (s : State) (kind : Byte) (payload : List Byte) : State :=
  if 1 ≤ s.freeRecords then s.enqueue ⟨partAddr, kind, 0, payload⟩ else s.raisePart .noticeWithheld

/-- A frame is the display notice of a channel of a lane (R189). -/
def isDisplay (l : LaneId) (c : Chan) (f : Frame) : Bool :=
  f.kind == kindDisplay && f.addr == laneAddr l && f.payload.head? == some (chanValue c)

/-- The frames with the first display notice of a channel replaced in place, if there is one (R171). -/
def replaceDisplay (l : LaneId) (c : Chan) (f : Frame) : List Frame → Option (List Frame)
  | [] => none
  | x :: xs => if isDisplay l c x then some (f :: xs) else (replaceDisplay l c f xs).map (x :: ·)

/-- Offering a display notice (R171): it replaces the channel's notice not yet begun, else it takes a record when at
least 16 are free. The frame at the head of the queue has begun to be sent (log 3). Answers whether it was accepted. -/
def State.offerDisplay (s : State) (l : LaneId) (c : Chan) (d : Display) : Bool × State :=
  let f : Frame := ⟨laneAddr l, kindDisplay, 0, displayPayload c d⟩
  match s.upstream with
  | [] => if 16 ≤ s.freeRecords then (true, s.enqueue f) else (false, s)
  | h :: t =>
    match replaceDisplay l c f t with
    | some t' => (true, { s with upstream := h :: t' })
    | none => if 16 ≤ s.freeRecords then (true, s.enqueue f) else (false, s)

/-- What a channel's display notice would say now (R25). -/
def Channel.shown (x : Channel) : Display := { state := x.state, cause := x.cause, reading := x.reading }

/-- A display check (R25): a notice is produced when its content differs from the display record and the display timer
is not running; accepted or not, the timer then starts. -/
def State.displayCheck (s : State) (l : LaneId) (c : Chan) : State :=
  let x := s.chan l c
  let d := x.shown
  if x.displayTimer.isSome || x.display == some d then s
  else
    let r := s.offerDisplay l c d
    r.2.modChan l c fun y =>
      { y with display := if r.1 then some d else y.display, displayTimer := some (s.laneSettings l).displayInterval }

/-! ## Replies -/

/-- REFUSE with a code and no detail (R186). -/
def refuse (c : Code) (s : State) : Reply × State := (.answer false c [], s)

/-- ACCEPT with code OK and a detail, leaving a state. -/
def accept (detail : List Byte) (s : State) : Reply × State := (.answer true .ok detail, s)

/-- REFUSE with BAG_BUSY, which carries the bag check state (R186). -/
def refuseBagBusy (l : LaneId) (s : State) : Reply × State :=
  (.answer false .bagBusy [(s.lane l).bagCheck.state.value], s)

/-- The ANSWER frame of a request (R186). -/
def answerFrame (req : Frame) (acc : Bool) (c : Code) (detail : List Byte) : Frame :=
  ⟨req.addr, kindAnswer, req.tag, answerPayload req.kind acc c detail⟩

/-- A list with an item put in at place `n`. -/
def insertAt {α : Type} (n : Nat) (x : α) (l : List α) : List α := l.take n ++ x :: l.drop n

end Sys2Proof.Machine
end

