-- ==== Sys2Proof/Machine/Payment.lean ====
section
/-! DEFINITION. The payment link (chapter 6): grants, verdicts, timeouts, strays and CANCEL_CARD. -/

namespace Sys2Proof.Machine

/-! ## Granting the link -/

/-- The lanes in ascending circular order after the grant pointer, ending with the pointer's own (R105). -/
def circular (p : LaneId) : List LaneId := [p + 1, p + 2, p + 3, p]

/-- The number after a hand-off number: after 255 comes 1 (R105 step 1). -/
def nextHandoff (n : Nat) : Nat := if 255 ≤ n then 1 else n + 1

/-- A frame of the transmit list is a HANDOFF. -/
def isHandoff (f : Frame) : Bool := f.kind == kindHandoff

/-- A lane's card slot is WAITING (R103). -/
def Lane.slotWaiting (n : Lane) : Bool :=
  match n.card.slot with
  | none => false
  | some x => x.phase == .waiting

/-- The lane with its card slot replaced. -/
def Lane.setSlot (n : Lane) (o : Option Slot) : Lane := { n with card := { n.card with slot := o } }

/-- The HANDOFF of a slot (R106). -/
def handoffFrame (l : LaneId) (num : Nat) (x : Slot) : Frame := ⟨laneAddr l, kindHandoff, octet num, handoffPayload x⟩

/-- The ABORT of a hand-off (R104, R113, R115). -/
def abortFrame (l : LaneId) (num : Nat) : Frame := ⟨laneAddr l, kindAbort, octet num, []⟩

/-- A frame is produced onto the transmit list (R104). -/
def State.transmit (s : State) (f : Frame) : State := { s with pay := { s.pay with transmit := s.pay.transmit ++ [f] } }

/-- The grant of the link to a lane whose slot is `x` (R105 steps 1 to 6; R107). -/
def State.grant (s : State) (l : LaneId) (x : Slot) : State :=
  let num := nextHandoff s.pay.counter
  { s with
    pay := { s.pay with
      counter := num
      pointer := l
      inFlight := some { lane := l, number := num, amount := x.amount }
      transmit := s.pay.transmit ++ [handoffFrame l num x]
      response := seconds s.settings.responseTime }
  }.modLane l fun n => n.setSlot (some { x with phase := .inFlight })

/-- The link is granted when it is IDLE, a slot is WAITING and the transmit list holds no HANDOFF (R105). -/
def State.tryGrant (s : State) : State :=
  if s.pay.inFlight.isSome || s.pay.transmit.any isHandoff then s
  else
    match (circular s.pay.pointer).find? fun l => (s.lane l).slotWaiting with
    | none => s
    | some l =>
      match (s.lane l).card.slot with
      | none => s
      | some x => s.grant l x

/-! ## The end of a hand-off -/

/-- What an approval adds to a CARD_RESULT (R110, R116, R117). -/
structure Approval where
  approved : Nat
  tender : Nat
  code : BitVec 48
  overApproved : Bool
  lateAbort : Bool
  deriving DecidableEq, Repr

/-- The content of a CARD_RESULT (R117): the slot's fields, the verdict, and the basket after the end. -/
def cardResultOf (n : Lane) (x : Slot) (num : Nat) (o : HandoffOutcome) (rcv : Option Byte) (a : Option Approval) :
    CardResult :=
  { number := num, outcome := o, received := rcv, requested := x.amount, approved := a.map (·.approved),
    tender := a.map (·.tender), approval := a.map (·.code), overApproved := (a.map (·.overApproved)).getD false,
    lateAbort := (a.map (·.lateAbort)).getD false, second := x.second, masked := x.masked,
    basketState := n.basketState, tendered := n.tendered, due := n.due }

/-- A CARD_RESULT is offered and becomes the lane's last result (R117). -/
def State.offerResult (s : State) (l : LaneId) (r : CardResult) : State :=
  (s.modLane l fun n => { n with lastResult := some r }).offerLane l kindCardResult (cardResultPayload r)

/-- The transmit list without an ABORT of a hand-off not yet begun (R112 step 4); the frame at the head of the list has
begun to be sent (log 3). -/
def withdrawAbort (f : Frame) : List Frame → List Frame
  | [] => []
  | h :: t => h :: t.filter fun x => x != f

/-- A hand-off ends with an outcome (R112), after any tender. `rcv` is the RESULT's outcome, when a RESULT ends it. -/
def State.handoffEnd (s : State) (f : InFlight) (x : Slot) (o : HandoffOutcome) (rcv : Option Byte) (a : Option Approval) :
    State :=
  let s1 := s.modLane f.lane fun n => n.setSlot none
  let tx := if rcv.isSome then withdrawAbort (abortFrame f.lane f.number) s1.pay.transmit else s1.pay.transmit
  let s2 : State := { s1 with pay := { s1.pay with response := none, inFlight := none, transmit := tx } }
  (s2.offerResult f.lane (cardResultOf (s2.lane f.lane) x f.number o rcv a)).tryGrant

/-! ## The verdict -/

/-- The largest approved amount used or reported (R195). -/
def approvedLimit : Nat := 999999999

/-- The fields of a RESULT as the link unit uses them (R195). -/
def resultFrame (addr tag outcome : Byte) (amount : BitVec 32) (approval : BitVec 48) : ResultFrame :=
  { addr := addr, tag := tag, received := outcome, amount := min amount.toNat approvedLimit, approval := approval }

/-- The outcome used (R109, R195). -/
def ResultFrame.used (r : ResultFrame) : HandoffOutcome :=
  match r.received.toNat with
  | 1 => if r.amount = 0 then .failed else .approved
  | 2 => .declined
  | _ => .failed

/-- A RESULT matches a hand-off by its number and its lane (R108). -/
def InFlight.matches (f : InFlight) (r : ResultFrame) : Bool := r.tag.toNat == f.number && r.addr == laneAddr f.lane

/-- A RESULT that matches nothing (R114). -/
def State.stray (s : State) (r : ResultFrame) : State :=
  let x : Stray :=
    { addr := r.addr, number := r.tag, received := r.received, used := r.used, approved := r.amount, approval := r.approval }
  let s1 := s.offerPart kindStray (strayPayload x)
  { s1 with pay := { s1.pay with lastStray := some x } }.raisePart .strayResult

/-- The CARD tender of an approval (R61, R110, R116): never more than the requested amount. -/
def cardTender (f : InFlight) (r : ResultFrame) (late : Bool) : Tender :=
  { kind := .card, amount := min r.amount f.amount, approval := some r.approval, handoff := some f.number,
    overApproved := decide (f.amount < r.amount), lateAbort := late }

/-- What an approval reports (R117). -/
def approvalOf (f : InFlight) (r : ResultFrame) (late : Bool) : Approval :=
  { approved := r.amount, tender := min r.amount f.amount, code := r.approval, overApproved := decide (f.amount < r.amount),
    lateAbort := late }

/-- A matching RESULT (R110, R111, R116). -/
def State.verdict (s : State) (f : InFlight) (x : Slot) (r : ResultFrame) : State :=
  let late := x.phase == .aborting
  match r.used with
  | .approved =>
    (s.modLane f.lane fun n => { n with tenders := n.tenders ++ [cardTender f r late] }).handoffEnd f x .approved
      (some r.received) (some (approvalOf f r late))
  | .declined => s.handoffEnd f x (if late then .cancelled else .declined) (some r.received) none
  | .failed => s.handoffEnd f x (if late then .cancelled else .failed) (some r.received) none
  | .cancelled => s
  | .timedOut => s

/-- A RESULT frame is kept by the receiver (R108). -/
def State.takeResult (s : State) (r : ResultFrame) : State :=
  match s.pay.inFlight with
  | none => s.stray r
  | some f =>
    if f.matches r then
      match (s.lane f.lane).card.slot with
      | none => s
      | some x => s.verdict f x r
    else s.stray r

/-- The response timer expires (R113). -/
def State.responseExpires (s : State) : State :=
  if s.pay.response.isNone then s
  else
    match s.pay.inFlight with
    | none => s
    | some f =>
      match (s.lane f.lane).card.slot with
      | none => s
      | some x =>
        let s1 := if x.phase = .inFlight then s.transmit (abortFrame f.lane f.number) else s
        s1.handoffEnd f x .timedOut none none

/-- The last octet of the frame at the head of the transmit list is sent (R104); a HANDOFF that leaves while the link is
IDLE lets it be granted (R105). -/
def State.paymentSent (s : State) : State :=
  match s.pay.transmit with
  | [] => s
  | h :: t =>
    let s1 : State := { s with pay := { s.pay with transmit := t } }
    if isHandoff h then s1.tryGrant else s1

/-! ## CANCEL_CARD -/

/-- The answer of CANCEL_CARD carries the slot state after the request (R115). -/
def slotAnswer (l : LaneId) (s : State) : Reply × State := accept [slotStateValue (s.lane l).card.slot] s

/-- CANCEL_CARD (R115). -/
def takeCancelCard (l : LaneId) (s : State) : Reply × State :=
  match (s.lane l).card.slot with
  | none => refuse .slotEmpty s
  | some x =>
    match x.phase with
    | .waiting =>
      let s1 := s.modLane l fun n => n.setSlot none
      slotAnswer l (s1.offerResult l (cardResultOf (s1.lane l) x 0 .cancelled none none))
    | .inFlight =>
      match s.pay.inFlight with
      | none => slotAnswer l s
      | some f => slotAnswer l ((s.transmit (abortFrame f.lane f.number)).modLane l fun n =>
          n.setSlot (some { x with phase := .aborting }))
    | .aborting => slotAnswer l s

end Sys2Proof.Machine
end

