-- ==== Sys2Proof/Machine/BagCheck.lean ====
section
/-! DEFINITION. Bagging verification (chapter 4): the bag check of a lane. -/

namespace Sys2Proof.Machine

/-- The entry that holds a position, from 1 (R49). -/
def Lane.entryAt (n : Lane) (pos : Nat) : Option Entry := if pos = 0 then none else n.entries[pos - 1]?

/-- The lane with the bag state of the entry at a position changed (R50). -/
def Lane.setEntryBag (n : Lane) (pos : Nat) (b : BagState) : Lane :=
  { n with entries := n.entries.modify (pos - 1) fun e => { e with bag := b } }

/-- Entering a state (R65): both timers stopped, no excursion, the latest grosses none. -/
def BagCheck.enter (x : BagCheck) (st : BagCheckState) : BagCheck :=
  { x with state := st, placement := none, removal := none, excursion := false, latestGross := none, latestStable := none }

/-- The bag check without an awaiting entry; e and a are present only with one (R65). -/
def BagCheck.drop (x : BagCheck) : BagCheck := { x with awaiting := none, e := none, a := 0 }

/-- The state with a lane's bag check replaced. -/
def State.setBag (s : State) (l : LaneId) (x : BagCheck) : State := s.modLane l fun n => { n with bagCheck := x }

/-- BAG_EVENT: lane, event, state, B, D, position and bag state of the entry concerned (R83; log 12, log 16). -/
def bagEventPayload (l : LaneId) (ev : BagEvent) (n : Lane) (d : Option Int) (pos : Nat) : List Byte :=
  [laneAddr l, ev.value, n.bagCheck.state.value] ++ optional 4 (n.bagCheck.b.map (beInt 4)) ++
  optional 4 (d.map (beInt 4)) ++ [octet pos, ((n.entryAt pos).map fun e => e.bag.value).getD 0]

/-- Offering a BAG_EVENT after the event has taken effect (R83). -/
def State.offerBag (s : State) (l : LaneId) (ev : BagEvent) (d : Option Int) (pos : Nat) : State :=
  s.offerLane l kindBagEvent (bagEventPayload l ev (s.lane l) d pos)

/-- The base tolerance in force (R65). -/
def State.baseTolerance (s : State) (l : LaneId) : Int := (s.laneSettings l).baseTolerance

/-- An AWAITING entry is handed to the bag check (R71). -/
def State.expectPlacement (s : State) (l : LaneId) (pos : Nat) (e : Entry) : State :=
  let x := (s.lane l).bagCheck
  s.setBag l
    { x.enter .awaitingPlace with
      awaiting := some pos
      e := e.expected
      a := e.tolerance.getD 0 + s.baseTolerance l
      placement := seconds (s.laneSettings l).placementTime }

/-- A REMOVING entry is handed to the bag check (R73). -/
def State.expectRemoval (s : State) (l : LaneId) (pos : Nat) (e : Entry) : State :=
  let x := (s.lane l).bagCheck
  s.setBag l
    { x.enter .awaitingRemoval with
      awaiting := some pos
      e := e.expected
      a := e.tolerance.getD 0 + s.baseTolerance l
      removal := seconds (s.laneSettings l).removalTime }

/-- Entering HELD with the entry kept (R68, R75): the notice first, then the condition (R161). `d`: the weight difference of
the reading that caused it, none at an expiry (R83). -/
def State.bagHold (s : State) (l : LaneId) (b d : Option Int) : State :=
  let x := (s.lane l).bagCheck
  ((s.setBag l { x.enter .held with b := b }).offerBag l .held d (x.awaiting.getD 0)).raiseLane l .bagHeld

/-- The first stable reading in ARMING (R68). Its D is measured from the B held until then (R67, R83), and is absent while B
is unset (log 16). -/
def State.bagArmed (s : State) (l : LaneId) (g : Int) : State :=
  let x := (s.lane l).bagCheck
  let d := x.b.map (g - ·)
  match x.awaiting with
  | none => (s.setBag l { x.enter .settled with b := some g }).offerBag l .armed d 0
  | some _ => s.bagHold l (some g) d

/-- A stable reading in SETTLED (R69). -/
def State.bagSettled (s : State) (l : LaneId) (g : Int) : State :=
  let n := s.lane l
  let x := n.bagCheck
  let d := g - x.b.getD 0
  let base := s.baseTolerance l
  if |d| ≤ base then s.setBag l { x with b := some g }
  else if d < -base ∧ n.basketState = .empty then
    (s.setBag l { x with b := some g }).offerBag l .takenAway (some d) 0
  else ((s.setBag l (x.enter .unexpected)).offerBag l .unexpected (some d) 0).raiseLane l .unexpectedWeight

/-- A stable reading in UNEXPECTED (R70). -/
def State.bagUnexpected (s : State) (l : LaneId) (g : Int) : State :=
  let x := (s.lane l).bagCheck
  let d := g - x.b.getD 0
  if |d| ≤ s.baseTolerance l then (s.setBag l (x.enter .settled)).offerBag l .restored (some d) 0 else s

/-- Whether a change `m` of the bagged weight, measured in the expected direction, matches the expectation (R72, R74). -/
def bagMatches (x : BagCheck) (bag : Channel) (m : Int) : Bool :=
  match x.e with
  | some e => decide (|m - e| ≤ x.a)
  | none =>
    match bag.calib with
    | some c => decide ((5 * c.d1 : Nat) ≤ m)
    | none => false

/-- A stable reading in AWAITING_PLACE or AWAITING_REMOVAL (R72, R74): `m` is the change in the expected direction,
`after` and `ev` what a match gives. -/
def State.bagExpecting (s : State) (l : LaneId) (g m : Int) (after : BagState) (ev : BagEvent) : State :=
  let n := s.lane l
  let x := n.bagCheck
  let d := g - x.b.getD 0
  let pos := x.awaiting.getD 0
  if bagMatches x n.bag m then
    (s.modLane l fun n => { n.setEntryBag pos after with bagCheck := { (x.drop).enter .settled with b := some g } }).offerBag
      l ev (some d) pos
  else if |d| ≤ s.baseTolerance l then s.setBag l { x with excursion := false }
  else if x.excursion then s
  else ((s.setBag l { x with excursion := true }).offerBag l .wrongWeight (some d) pos).raiseLane l .wrongWeight

/-- A stable bag reading, by the state (R67 to R76). -/
def State.bagStable (s : State) (l : LaneId) (g : Int) : State :=
  let x := (s.lane l).bagCheck
  let d := g - x.b.getD 0
  match x.state with
  | .arming => s.bagArmed l g
  | .settled => s.bagSettled l g
  | .unexpected => s.bagUnexpected l g
  | .awaitingPlace => s.bagExpecting l g d .placed .placed
  | .awaitingRemoval => s.bagExpecting l g (-d) .removed .removed
  | .suspended => s
  | .held => s
  | .faulted => s

/-- Recording the gross of a reading (R67). -/
def BagCheck.record (x : BagCheck) (g : Int) (stable : Bool) : BagCheck :=
  if x.state == .suspended || x.state == .faulted then { x with previousGross := some g }
  else
    { x with
      previousGross := some g
      latestGross := some g
      latestStable := if stable then some g else x.latestStable }

/-- A bag reading is handed to the bag check with the gross of its evaluation (R67). -/
def State.bagReading (s : State) (l : LaneId) (g : Int) (stable : Bool) : State :=
  let s1 := s.setBag l ((s.lane l).bagCheck.record g stable)
  if stable then s1.bagStable l g else s1

/-- The placement timer expires (R75). -/
def State.placementExpires (s : State) (l : LaneId) : State :=
  if (s.lane l).bagCheck.placement.isSome then s.bagHold l (s.lane l).bagCheck.b none else s

/-- The removal timer expires (R75). -/
def State.removalExpires (s : State) (l : LaneId) : State :=
  if (s.lane l).bagCheck.removal.isSome then s.bagHold l (s.lane l).bagCheck.b none else s

/-- A VOID cancels the expectation of the awaiting entry (R77). -/
def State.bagCancel (s : State) (l : LaneId) (pos : Nat) : State :=
  let x := (s.lane l).bagCheck
  if x.awaiting = some pos then
    match x.state with
    | .awaitingPlace => s.setBag l (x.drop.enter .settled)
    | .held => s.setBag l (x.drop.enter .settled)
    | .faulted => s.setBag l x.drop
    | .arming => s.setBag l x.drop
    | .suspended => s
    | .settled => s
    | .awaitingRemoval => s
    | .unexpected => s
  else s

/-- What an override or a change of mode makes of an awaited entry's bag state (R78, R79). -/
def overridden : BagState → BagState
  | .awaiting => .waived
  | .removing => .removed
  | .notChecked => .notChecked
  | .exempt => .exempt
  | .placed => .placed
  | .waived => .waived
  | .removed => .removed

/-- The lane with its awaited entry ended by an override (R78 step 1). -/
def Lane.endAwaited (n : Lane) : Lane :=
  match n.bagCheck.awaiting with
  | none => n
  | some pos =>
    match n.entryAt pos with
    | none => n
    | some e => n.setEntryBag pos (overridden e.bag)

/-- The weight an override accepts (R78 step 2). -/
def BagCheck.accepted (x : BagCheck) : Option Int := (x.latestStable.or x.latestGross).or x.previousGross

/-- BAG_OVERRIDE's effect once its tests are passed (R78). In FAULTED and ARMING it offers no BAG_EVENT (log 34). -/
def State.bagOverridden (s : State) (l : LaneId) : State :=
  let n := s.lane l
  let x := n.bagCheck
  let pos := x.awaiting.getD 0
  let n1 := n.endAwaited
  if x.state == .faulted || x.state == .arming then
    s.setLane l { n1 with bagCheck := { x.drop with placement := none, removal := none } }
  else
    (s.setLane l { n1 with bagCheck := { x.drop.enter .settled with b := x.accepted } }).offerBag l .overridden none pos

/-- BAG_OVERRIDE (R78): tests in order, then the override; the detail carries the position of the entry ended, its bag
state, B and the bag check state (log 12, log 16). -/
def takeBagOverride (l : LaneId) (s : State) : Reply × State :=
  let n := s.lane l
  let x := n.bagCheck
  if !n.staffed then refuse .authorityNeeded s
  else if x.state == .suspended || x.state == .settled then refuse .nothingHeld s
  else if (x.state == .faulted || x.state == .arming) && x.awaiting.isNone then refuse .nothingHeld s
  else
    let s1 := s.bagOverridden l
    let n1 := s1.lane l
    let pos := x.awaiting.getD 0
    accept ([octet pos, ((n1.entryAt pos).map fun e => e.bag.value).getD 0] ++
      optional 4 (n1.bagCheck.b.map (beInt 4)) ++ [n1.bagCheck.state.value]) s1

/-- What the end of self mode makes of an awaited entry's bag state (R79). -/
def waivedBy : BagState → BagState
  | .awaiting => .waived
  | .removing => .waived
  | .notChecked => .notChecked
  | .exempt => .exempt
  | .placed => .placed
  | .waived => .waived
  | .removed => .removed

/-- The bag check follows a change of lane mode (R79). -/
def Lane.bagModeChange (n : Lane) (before after : LaneMode) : Lane :=
  match before, after with
  | .self, .attended => leaveSelf n
  | .self, .closed => leaveSelf n
  | .attended, .self => enterSelf n
  | .closed, .self => enterSelf n
  | .attended, .closed => n
  | .closed, .attended => n
  | .attended, .attended => n
  | .self, .self => n
  | .closed, .closed => n
where
  leaveSelf (n : Lane) : Lane :=
    let n1 := match n.bagCheck.awaiting with
      | none => n
      | some pos =>
        match n.entryAt pos with
        | none => n
        | some e => n.setEntryBag pos (waivedBy e.bag)
    { n1 with bagCheck := n.bagCheck.drop.enter .suspended }
  enterSelf (n : Lane) : Lane :=
    if n.bag.state == .running then { n with bagCheck := n.bagCheck.enter .arming }
    else { n with bagCheck := n.bagCheck.enter .faulted }

/-- The loss of the bag channel (R80). -/
def State.bagLoss (s : State) (l : LaneId) : State :=
  let x := (s.lane l).bagCheck
  if x.state == .suspended then s
  else (s.setBag l (x.enter .faulted)).offerBag l .faulted none (x.awaiting.getD 0)

/-- The recovery of the bag channel (R81). -/
def State.bagRecovery (s : State) (l : LaneId) : State :=
  let x := (s.lane l).bagCheck
  if x.state == .faulted then s.setBag l (x.enter .arming) else s

/-- A basket clear is told to the bag check (R82). -/
def BagCheck.basketCleared (x : BagCheck) : BagCheck :=
  match x.state with
  | .awaitingPlace => x.drop.enter .settled
  | .awaitingRemoval => x.drop.enter .settled
  | .held => x.drop.enter .settled
  | .settled => { x.drop with placement := none, removal := none }
  | .unexpected => { x.drop with placement := none, removal := none }
  | .arming => { x.drop with placement := none, removal := none }
  | .faulted => { x.drop with placement := none, removal := none }
  | .suspended => { x.drop with placement := none, removal := none }

/-- Lane Reset's part (R66). -/
def Lane.bagReset (n : Lane) : Lane :=
  let x := n.bagCheck.drop
  match n.mode with
  | .self => if n.bag.state == .running then { n with bagCheck := x.enter .arming } else { n with bagCheck := x.enter .faulted }
  | .attended => { n with bagCheck := x.enter .suspended }
  | .closed => { n with bagCheck := x.enter .suspended }

end Sys2Proof.Machine
end

