-- ==== Sys2Proof/Machine/WeighRequest.lean ====
section
/-! DEFINITION. The weigh request of a lane (sections 2.1 and 2.6): how it is made, how it ends, and WEIGH_ENDED. -/

namespace Sys2Proof.Machine

/-- The octet of a weigh outcome other than PRICED (R183). -/
def WeighOutcome.value : WeighOutcome → Byte
  | .expired => 1
  | .cancelled => 2
  | .refusedTareRange => 3
  | .refusedPriceLimit => 3

/-- The reason octet (R190). -/
def WeighOutcome.reason : WeighOutcome → Byte
  | .expired => 0
  | .cancelled => 0
  | .refusedTareRange => Code.value .tareRange
  | .refusedPriceLimit => Code.value .priceLimit

/-- WEIGH_ENDED for an outcome other than PRICED (R190): octets 8 to 32 are 0. -/
def weighEndedPayload (code : Nat) (o : WeighOutcome) : List Byte :=
  be 6 code ++ [o.value, o.reason] ++ List.replicate 25 0

/-- WEIGH_ENDED for PRICED (R190). -/
def weighPricedPayload (code pos : Nat) (c : Capture) (bag : BagState) : List Byte :=
  be 6 code ++ [0, 0, octet pos] ++ be 2 c.number ++ beInt 4 c.net ++ be 4 c.d ++ beInt 4 c.tare ++ [c.tareKind.value] ++
  be 4 c.unitPrice ++ be 4 c.price ++ [bag.value]

/-- The weigh request that a weighed ITEM creates (R26). `exempt`: the bag rule is EXEMPT or the flag was honoured. -/
def newWeigh (i : ItemRecord) (exempt : Bool) (weighTime : Nat) : WeighRequest :=
  { code := i.code, price := i.unitPrice.getD 0, itemTare := i.presetTare, tolerance := i.tolerance, exempt := exempt,
    timer := seconds weighTime, logFullReported := false, failed := .noReading }

/-- The request ends: it is removed with its timer, and WEIGH_ENDED is offered (R42). -/
def State.endWeigh (s : State) (l : LaneId) (o : WeighOutcome) : State :=
  match (s.lane l).weigh with
  | none => s
  | some w => (s.modLane l fun n => { n with weigh := none }).offerLane l kindWeighEnded (weighEndedPayload w.code o)

/-- The weigh timer expires (R27). -/
def State.weighExpires (s : State) (l : LaneId) : State :=
  match (s.lane l).weigh with
  | none => s
  | some w => if w.timer.isSome then s.endWeigh l .expired else s

/-- CANCEL_WEIGH (R28). -/
def takeCancelWeigh (l : LaneId) (s : State) : Reply × State :=
  if (s.lane l).weigh.isSome then accept [] (s.endWeigh l .cancelled) else refuse .noWeigh s

end Sys2Proof.Machine
end

