-- ==== Sys2Proof/Machine/Basket.lean ====
section
/-! DEFINITION. Lane baskets (chapter 3): entries, voids, tenders, clearing and reading. -/

namespace Sys2Proof.Machine

/-- An entry is appended, and an AWAITING one is handed to the bag check (R54). -/
def State.appendEntry (s : State) (l : LaneId) (e : Entry) : State :=
  let s1 := s.modLane l fun n => { n with entries := n.entries ++ [e] }
  if e.bag = .awaiting then s1.expectPlacement l (s1.lane l).entries.length e else s1

/-- The item table record of a code (R48). -/
def State.itemOf (s : State) (code : Nat) : Option ItemRecord := s.items.find? fun r => r.code == code

/-- The bag fields of a counted entry, by the first line that applies (R53). -/
def countedBag (mode : LaneMode) (i : Option ItemRecord) (skip : Bool) (q : Nat) : BagState × Option Int × Option Int :=
  match mode, i with
  | .self, some r =>
    if r.bagRule = .exempt || skip then (.exempt, none, none)
    else (.awaiting, r.expectedWeight.map (fun w => ((q * w : Nat) : Int)), some ((q * r.tolerance.getD 0 : Nat) : Int))
  | .self, none => (.notChecked, none, none)
  | .attended, _ => (.notChecked, none, none)
  | .closed, _ => (.notChecked, none, none)

/-- The counted entry of an ITEM (R53). -/
def countedEntry (mode : LaneMode) (i : Option ItemRecord) (code q price : Nat) (skip : Bool) : Entry :=
  let b := countedBag mode i skip q
  { kind := .counted, code := code, quantity := q, unitPrice := price, linePrice := q * price, capture := none,
    net := none, voided := false, bag := b.1, expected := b.2.1, tolerance := b.2.2 }

/-- ITEM (R52, R53, R55, R26). A skip-bagging flag octet other than 0 or 1 is refused first (R182). -/
def takeItem (l : LaneId) (code : BitVec 48) (quantity : Byte) (price : BitVec 32) (skip : Byte) (s : State) : Reply × State :=
  let n := s.lane l
  let c := code.toNat
  let q := quantity.toNat
  let i := s.itemOf c
  let self := n.mode == .self
  let flag := skip == 1
  let weighed := match i with
    | some r => r.kind == .weighed
    | none => false
  if 1 < skip.toNat then refuse .badValue s
  else if n.mode = .closed then refuse .laneClosed s
  else if n.basketState = .tendering then refuse .tenderStarted s
  else if n.basketState = .settled then refuse .basketSettled s
  else if 64 ≤ n.entries.length then refuse .basketFull s
  else if self && i.isNone then refuse .unknownItem s
  else if self && n.bagCheck.state != .settled then refuseBagBusy l s
  else if self && flag && !n.staffed then refuse .authorityNeeded s
  else if !itemCodeOk c || q < 1 || 99 < q || (weighed && q != 1) || (!weighed && 9999999 < price.toNat) then refuse .badValue s
  else if !weighed && 9999999 < q * price.toNat then refuse .priceLimit s
  else if weighed && n.weigh.isSome then refuse .weighPending s
  else
    match weighed, i with
    | true, some r =>
      let w := newWeigh r (r.bagRule == .exempt || (self && flag)) (s.laneSettings l).weighTime
      accept [1] (s.modLane l fun n => { n with weigh := some w })
    | _, _ =>
      let e := countedEntry n.mode i c q price.toNat flag
      let s1 := s.appendEntry l e
      let n1 := s1.lane l
      accept ([0, octet n1.entries.length] ++ be 4 e.linePrice ++ [e.bag.value] ++ be 4 n1.total ++ beInt 4 n1.due) s1

/-- VOID (R56, R57). -/
def takeVoid (l : LaneId) (position : Byte) (s : State) : Reply × State :=
  let n := s.lane l
  let pos := position.toNat
  let self := n.mode == .self
  match n.basketState with
  | .empty => refuse .noEntry s
  | .tendering => refuse .tenderStarted s
  | .settled => refuse .basketSettled s
  | .opened =>
    match n.entryAt pos with
    | none => refuse .noEntry s
    | some e =>
      if e.voided then refuse .alreadyVoid s
      else if self && !n.staffed then refuse .authorityNeeded s
      else if self && n.bagCheck.state != .settled && e.bag != .awaiting then refuseBagBusy l s
      else
        let s1 := s.modLane l fun n => { n with entries := n.entries.modify (pos - 1) fun e => { e with voided := true } }
        let s2 :=
          if self then
            match e.bag with
            | .awaiting => (s1.modLane l fun n => n.setEntryBag pos .waived).bagCancel l pos
            | .placed => (s1.modLane l fun n => n.setEntryBag pos .removing).expectRemoval l pos e
            | .notChecked => s1
            | .exempt => s1
            | .waived => s1
            | .removing => s1
            | .removed => s1
          else s1
        let n2 := s2.lane l
        accept ([octet pos, ((n2.entryAt pos).map fun e => e.bag.value).getD 0] ++ be 4 n2.total ++ beInt 4 n2.due) s2

/-- A CASH or VOUCHER tender (R58). -/
def plainTender (k : TenderKind) (amount : Nat) : Tender :=
  { kind := k, amount := amount, approval := none, handoff := none, overApproved := false, lateAbort := false }

/-- The lane with a tender appended; a CASH tender sets the drawer token (R58, R59). -/
def Lane.addTender (n : Lane) (t : Tender) : Lane :=
  { n with tenders := n.tenders ++ [t], token := n.token || t.kind == .cash }

/-- TENDER (R58). -/
def takeTender (l : LaneId) (kind : Byte) (amount : BitVec 32) (s : State) : Reply × State :=
  let n := s.lane l
  let a := amount.toNat
  match tenderKindOf kind with
  | none => refuse .badValue s
  | some k =>
    if a < 1 || 9999999 < a then refuse .badValue s
    else if n.basketState = .empty then refuse .badValue s
    else if n.basketState = .settled then refuse .basketSettled s
    else if n.handoffOutstanding then refuse .handoffPending s
    else if 8 ≤ n.tenders.length then refuse .tenderFull s
    else
      let n1 := n.addTender (plainTender k a)
      accept (be 4 n1.tendered ++ beInt 4 n1.due ++ [n1.basketState.value]) (s.setLane l n1)

/-- The basket clear of a lane but for the weigh request (R62): lists, token, basket-held flags, bag check. -/
def Lane.clearBasket (n : Lane) : Lane :=
  { n with
    entries := []
    tenders := []
    token := false
    log := n.log.map fun c => { c with basketHeld := false }
    bagCheck := n.bagCheck.basketCleared }

/-- NEW_BASKET (R63); the detail carries the bag check state (R82; log 13). -/
def takeNewBasket (l : LaneId) (s : State) : Reply × State :=
  let n := s.lane l
  match n.basketState with
  | .opened => refuse .basketActive s
  | .tendering => refuse .basketActive s
  | .empty => accept [n.bagCheck.state.value] (s.endWeigh l .cancelled)
  | .settled =>
    match n.till.state with
    | .releasing => refuse .drawerOpen s
    | .checking => refuse .drawerOpen s
    | .opened => refuse .drawerOpen s
    | .leftOpen => refuse .drawerOpen s
    | .closed => cleared
    | .waitingPower => cleared
    | .fault => cleared
where
  cleared : Reply × State :=
    let s1 := (s.modLane l Lane.clearBasket).endWeigh l .cancelled
    accept [(s1.lane l).bagCheck.state.value] s1

/-- ABANDON_BASKET (R63); the detail carries the bag check state (R82). -/
def takeAbandonBasket (l : LaneId) (s : State) : Reply × State :=
  let n := s.lane l
  if n.basketState = .empty then refuse .badValue s
  else if n.basketState = .settled then refuse .basketSettled s
  else if n.mode = .self && !n.staffed then refuse .authorityNeeded s
  else if n.tenders.any (fun t => t.kind == .card) then refuse .basketPaid s
  else if n.handoffOutstanding then refuse .handoffPending s
  else
    let s1 := (s.modLane l Lane.clearBasket).endWeigh l .cancelled
    accept [(s1.lane l).bagCheck.state.value] s1

/-- The 30 octets of an entry (R188). -/
def entryOctets (pos : Nat) (e : Entry) : List Byte :=
  [octet pos,
    octet ((if e.kind = .weighed then 128 else 0) + (if e.voided then 64 else 0) + (if e.expected.isSome then 32 else 0) +
      (if e.tolerance.isSome then 16 else 0) + e.bag.value.toNat)] ++
  be 6 e.code ++ [octet e.quantity] ++ be 3 e.unitPrice ++ be 3 e.linePrice ++ be 2 (e.capture.getD 0) ++
  beInt 4 (e.net.getD 0) ++ beInt 5 (e.expected.getD 0) ++ beInt 4 (e.tolerance.getD 0)

/-- The 12 octets of a tender (R188). -/
def tenderOctets (t : Tender) : List Byte :=
  [octet (t.kind.value.toNat + (if t.overApproved then 16 else 0) + (if t.lateAbort then 32 else 0))] ++ be 4 t.amount ++
  [octet (t.handoff.getD 0)] ++ be 6 ((t.approval.map fun x => x.toNat).getD 0)

/-- Entries with their positions, the first having position `p`. -/
def numbered : Nat → List Entry → List (List Byte)
  | _, [] => []
  | p, e :: es => entryOctets p e :: numbered (p + 1) es

/-- The BASKET_READ detail from a starting position (R64, R188). -/
def basketDetail (n : Lane) (start : Nat) : List Byte :=
  let es := (n.entries.drop (start - 1)).take 4
  [n.basketState.value, octet n.entries.length] ++ be 4 n.total ++ be 4 n.tendered ++ beInt 4 n.due ++
  [flagOctet n.token, flagOctet n.handoffOutstanding, octet es.length, octet n.tenders.length] ++
  (numbered start es).flatten ++ (n.tenders.map tenderOctets).flatten

/-- BASKET_READ (R64). -/
def takeBasketRead (l : LaneId) (start : Byte) (s : State) : Reply × State :=
  if start.toNat < 1 || 64 < start.toNat then refuse .badValue s else accept (basketDetail (s.lane l) start.toNat) s

end Sys2Proof.Machine
end

