-- ==== Sys2Proof/Machine/Capture.lean ====
section
/-! DEFINITION. Captures and weighed prices (sections 2.2 to 2.5): arming, the tests of a platter reading, the capture
and the capture log. -/

namespace Sys2Proof.Machine

/-- The capture log has 80 records (R38). -/
def logSize : Nat := 80

/-- The log with its lowest-indexed free record filled, or nothing when none is free (R37, R38). -/
def fillFree (c : Capture) : Nat → List Capture → Option (List Capture)
  | 0, _ => none
  | _ + 1, [] => some [c]
  | k + 1, x :: xs => if x.held then (fillFree c k xs).map (x :: ·) else some (c :: xs)

/-- The number after a capture number: after 65,535 comes 1 (R36). -/
def nextNumber (n : Nat) : Nat := if 65535 ≤ n then 1 else n + 1

/-- The number given to a capture: the counter's, passing over those held by filled records (R36). -/
def findNumber (log : List Capture) : Nat → Nat → Nat
  | 0, n => n
  | k + 1, n => if log.any (fun c => c.number == n) then findNumber log k (nextNumber n) else n

/-- The tare of a capture (R32): value and kind, the capture net, its rounded net and division; nothing when an item
tare does not fit the platter. -/
structure CaptureTare where
  tare : Int
  kind : TareKind
  net : Int
  d : Nat
  deriving DecidableEq, Repr

/-- The division of a net (R19, R32). -/
def divisionFor (c : Calib) (n : Int) : Nat := if |n| ≤ (c.m1 : Int) then c.d1 else c.d2

/-- The choice of the tare (R32) for a STABLE reading with gross `g`. -/
def captureTare (c : Calib) (r : Reading) (g : Int) (itemTare : Option Nat) : Option CaptureTare :=
  let asRead (k : TareKind) (t : Int) : CaptureTare := { tare := t, kind := k, net := r.nd.getD 0, d := r.d.getD c.d1 }
  match r.tareKind, itemTare with
  | .weighed, _ => some (asRead .weighed r.tare)
  | .preset, _ => some (asRead .preset r.tare)
  | .noTare, some t => withItem t
  | .item, some t => withItem t
  | .noTare, none => some (asRead .noTare 0)
  | .item, none => some (asRead .noTare 0)
where
  withItem (t : Nat) : Option CaptureTare :=
    let v := roundTo t c.d1
    if 0 < v ∧ v ≤ (c.max : Int) then
      let n := g - v
      let d := divisionFor c n
      some { tare := v, kind := .item, net := roundTo n d, d := d }
    else none

/-- What becomes of a platter reading while a weigh request is pending (R31 to R35). -/
inductive CaptureResult where
  | fails (t : FailedTest)
  | refused (o : WeighOutcome)
  | taken (t : CaptureTare) (price : Nat)
  deriving DecidableEq, Repr

/-- The price of a net (R35): round half up of net times P over 1,000,000. -/
def weighedPrice (net : Int) (p : Nat) : Nat := roundHalfUp (net.toNat * p) 1000000

/-- The tests of R31 to R35 in order, on one reading. -/
def captureTests (n : Lane) (c : Calib) (w : WeighRequest) (r : Reading) (g : Int) : CaptureResult :=
  if n.mode = .closed then .fails .laneClosed
  else if r.status ≠ .stable then .fails .notStable
  else if !n.armed then .fails .disarmed
  else
    match captureTare c r g w.itemTare with
    | none => .refused .refusedTareRange
    | some t =>
      if t.net < ((20 * c.d1 : Nat) : Int) then .fails .underMinimum
      else if (c.max : Int) < t.net then .fails .overCapacity
      else if n.mode = .self && n.bagCheck.state != .settled then .fails .bagNotSettled
      else if (n.basketState != .empty && n.basketState != .opened) || decide (64 ≤ n.entries.length) then .fails .basketNotOpen
      else if decide (logSize ≤ n.log.length) && n.log.all Capture.held then .fails .logFull
      else if 9999999 < weighedPrice t.net w.price then .refused .refusedPriceLimit
      else .taken t (weighedPrice t.net w.price)

/-- The WEIGHED entry of a capture (R37 step 4). -/
def weighedEntry (mode : LaneMode) (w : WeighRequest) (c : Capture) : Entry :=
  let base : Entry :=
    { kind := .weighed, code := w.code, quantity := 1, unitPrice := w.price, linePrice := c.price, capture := some c.number,
      net := some c.net, voided := false, bag := .notChecked, expected := none, tolerance := none }
  match mode with
  | .attended => base
  | .closed => base
  | .self =>
    if w.exempt then { base with bag := .exempt }
    else { base with bag := .awaiting, expected := some c.net, tolerance := some (w.tolerance.getD 0 : Nat) }

/-- The capture is taken (R36, R37). -/
def State.takeCapture (s : State) (l : LaneId) (w : WeighRequest) (t : CaptureTare) (price : Nat) : State :=
  let n := s.lane l
  let num := findNumber n.log (logSize + 1) n.nextCapture
  let c : Capture :=
    { number := num, net := t.net, d := t.d, tare := t.tare, tareKind := t.kind, unitPrice := w.price, price := price,
      basketHeld := true, holds := 0 }
  let s1 := s.setLane l
    { n with nextCapture := nextNumber num, log := (fillFree c logSize n.log).getD n.log, armed := false, weigh := none }
  let e := weighedEntry n.mode w c
  let s2 := s1.appendEntry l e
  s2.offerLane l kindWeighEnded (weighPricedPayload w.code (s2.lane l).entries.length c e.bag)

/-- A failed test is noted in the request; a full log raises LOG_FULL once per request (R34, R43). -/
def State.noteFailure (s : State) (l : LaneId) (w : WeighRequest) (f : FailedTest) : State :=
  let w1 := { w with failed := f }
  if f = .logFull && !w.logFullReported then
    (s.modLane l fun n => { n with weigh := some { w1 with logFullReported := true } }).raiseLane l .logFull
  else s.modLane l fun n => { n with weigh := some w1 }

/-- A platter reading is handed to the capture log (R30, R31): the arming test first, then the tests of a pending
request. -/
def State.platterReading (s : State) (l : LaneId) (c : Calib) (r : Reading) (g : Int) : State :=
  let s1 := if g ≤ ((5 * c.d1 : Nat) : Int) then s.modLane l fun n => { n with armed := true } else s
  match (s1.lane l).weigh with
  | none => s1
  | some w =>
    match captureTests (s1.lane l) c w r g with
    | .fails f => s1.noteFailure l w f
    | .refused o => s1.endWeigh l o
    | .taken t p => s1.takeCapture l w t p

/-! ## Print holds on the log (R40) -/

/-- The filled record of a capture number. -/
def Lane.captureOf (n : Lane) (num : Nat) : Option Capture := n.log.find? fun c => c.number == num

/-- The log with the print-hold count of the record of a number changed. -/
def Lane.modHolds (n : Lane) (num : Nat) (g : Nat → Nat) : Lane :=
  { n with log := n.log.map fun c => if c.number == num then { c with holds := g c.holds } else c }

end Sys2Proof.Machine
end

