-- ==== Sys2Proof/Machine/Glyphs.lean ====
section
/-! DEFINITION. The glyph table (section 8.5). -/

namespace Sys2Proof.Machine

/-- A glyph code (R146). -/
def isGlyphCode (b : Byte) : Bool := decide (0x80 ≤ b.toNat) && decide (b.toNat ≤ 0x9F)

/-- The table with an entry loaded, in ascending order of code (R146). -/
def putGlyph (g : Glyph) : List Glyph → List Glyph
  | [] => [g]
  | x :: xs => if g.code < x.code then g :: x :: xs else if g.code = x.code then g :: xs else x :: putGlyph g xs

/-- The pattern loaded for a code (R147). -/
def patternOf (t : List Glyph) (code : Byte) : Option (List Byte) := (t.find? fun g => g.code == code.toNat).map (·.pattern)

/-- The answer of both requests carries the number of entries loaded (R146). -/
def glyphAnswer (t : List Glyph) (s : State) : Reply × State := accept [octet t.length] { s with glyphs := t }

/-- GLYPH_PUT (R146). -/
def takeGlyphPut (code : Byte) (pattern : List Byte) (s : State) : Reply × State :=
  if isGlyphCode code then glyphAnswer (putGlyph { code := code.toNat, pattern := pattern } s.glyphs) s else refuse .badCode s

/-- GLYPH_CLEAR (R146). -/
def takeGlyphClear (code : Byte) (s : State) : Reply × State :=
  if isGlyphCode code then glyphAnswer (s.glyphs.filter fun g => g.code != code.toNat) s else refuse .badCode s

/-- The set of loaded entries: bit k for code 0x80 + k (R182). -/
def glyphSet (t : List Glyph) : Nat := (t.map fun g => 2 ^ (g.code - 0x80)).sum

end Sys2Proof.Machine
end

