-- ==== Sys2Proof/Machine/Render.lean ====
section
/-! DEFINITION. Rendering (sections 8.3 and 8.4): from a job's stream to its next line or cut. -/

namespace Sys2Proof.Machine

/-! ## The print stream -/

/-- The meanings of a stream octet (R142). -/
inductive Token where
  | char (c : Byte)
  | glyph (code : Byte)
  | lineEnd
  | bold (on : Bool)
  | tall (on : Bool)
  | inverse (on : Bool)
  | underline (on : Bool)
  | cut
  | centre
  | reference
  | dropped
  deriving DecidableEq, Repr

/-- The meaning of a stream octet outside a weight reference's operands (R142). -/
def tokenOf (b : Byte) : Token :=
  match b.toNat with
  | 0x0A => .lineEnd
  | 0x11 => .bold true
  | 0x12 => .bold false
  | 0x13 => .tall true
  | 0x14 => .tall false
  | 0x15 => .inverse true
  | 0x16 => .inverse false
  | 0x17 => .underline true
  | 0x18 => .underline false
  | 0x1C => .cut
  | 0x1D => .centre
  | 0x1E => .reference
  | n => if 0x20 ≤ n ∧ n ≤ 0x7E then .char b else if 0x80 ≤ n ∧ n ≤ 0x9F then .glyph b else .dropped

/-- The stream ends with a cut (R145). `skip`: operands of a weight reference still to pass; `after`: a cut stands so far
with nothing printable after it. -/
def endsWithCut : Nat → Bool → List Byte → Bool
  | _, after, [] => after
  | skip + 1, after, _ :: l => endsWithCut skip after l
  | 0, after, b :: l =>
    match tokenOf b with
    | .cut => endsWithCut 0 true l
    | .char _ => endsWithCut 0 false l
    | .glyph _ => endsWithCut 0 false l
    | .lineEnd => endsWithCut 0 false l
    | .reference => endsWithCut 2 false l
    | .bold _ => endsWithCut 0 after l
    | .tall _ => endsWithCut 0 after l
    | .inverse _ => endsWithCut 0 after l
    | .underline _ => endsWithCut 0 after l
    | .centre => endsWithCut 0 after l
    | .dropped => endsWithCut 0 after l

/-! ## Building a line -/

/-- Cells in a line (R143). -/
def lineCells : Nat := 48

/-- All attributes off (R140). -/
def Attr.off : Attr := { bold := false, tall := false, inverse := false, underline := false }

/-- A line being built (R143): the position read to, the attribute state, the cells, the centre mark, and the flags. -/
structure Build where
  pos : Nat
  attr : Attr
  cells : List Cell
  centre : Bool
  flags : JobFlags
  deriving DecidableEq, Repr

/-- Why the renderer stops reading (R143 to R145). -/
inductive ScanStop where
  | line
  | cut
  | reference
  | ended
  deriving DecidableEq, Repr

/-- The cell of a glyph octet: its loaded pattern, or a blank character cell (R147). -/
def glyphCell (t : List Glyph) (code : Byte) (a : Attr) : Cell :=
  match patternOf t code with
  | some p => .glyph code a p
  | none => .char 0x20 a

/-- A build that has read one octet more. -/
def Build.next (b : Build) : Build := { b with pos := b.pos + 1 }

/-- A build with a cell added. -/
def Build.add (b : Build) (c : Cell) : Build := { b.next with cells := b.cells ++ [c] }

/-- Reading until a line is complete, a cut or a reference is reached, or the stream ends (R143). An octet that completes
the line without belonging to it stays unread (log 18). -/
def scanLine (t : List Glyph) (b : Build) : List Byte → ScanStop × Build
  | [] => (.ended, b)
  | o :: l =>
    match tokenOf o with
    | .char c => if lineCells ≤ b.cells.length then (.line, b) else scanLine t (b.add (.char c b.attr)) l
    | .glyph g =>
      if lineCells ≤ b.cells.length then (.line, b)
      else
        scanLine t
          { b.add (glyphCell t g b.attr) with
            flags := if (patternOf t g).isSome then b.flags else { b.flags with glyphMissing := true } } l
    | .lineEnd => (.line, b.next)
    | .cut => if b.cells.isEmpty then (.cut, b.next) else (.line, b)
    | .reference => if b.cells.isEmpty then (.reference, b.next) else (.line, b)
    | .centre => scanLine t { b.next with centre := true } l
    | .bold on => scanLine t { b.next with attr := { b.attr with bold := on } } l
    | .tall on => scanLine t { b.next with attr := { b.attr with tall := on } } l
    | .inverse on => scanLine t { b.next with attr := { b.attr with inverse := on } } l
    | .underline on => scanLine t { b.next with attr := { b.attr with underline := on } } l
    | .dropped => scanLine t { b.next with flags := { b.flags with unknownCode := true } } l

/-- The column a line is printed from (R143). -/
def startColumn (cells : List Cell) (centre : Bool) : Nat := if centre then (lineCells - cells.length) / 2 else 0

/-! ## Certified blocks -/

/-- The last `w` decimal digits of `n`, as characters. -/
def padDigits : Nat → Nat → List Byte
  | 0, _ => []
  | w + 1, n => padDigits w (n / 10) ++ [octet (0x30 + n % 10)]

/-- A list of digits without its leading zeros, one digit at least. -/
def trimZeros : List Byte → List Byte
  | [] => []
  | [d] => [d]
  | d :: l => if d = 0x30 then trimZeros l else d :: l

/-- A number below 10,000,000,000 without leading zeros. -/
def number (n : Nat) : List Byte := trimZeros (padDigits 10 n)

/-- A weight in kilograms (R144). -/
def kgText (w : Nat) : List Byte :=
  number (w / 1000000) ++ [0x2E] ++
  (if w % 1000 = 0 then padDigits 3 (w % 1000000 / 1000) else padDigits 4 (w % 1000000 / 100))

/-- A money figure under the money-decimals setting (R144). -/
def moneyText (decimals n : Nat) : List Byte :=
  if decimals = 0 then number n else number (n / 10 ^ decimals) ++ [0x2E] ++ padDigits decimals n

/-- Characters as octets. -/
def chars (l : List Char) : List Byte := l.map fun c => octet c.toNat

/-- Line 1 of a certified block (R144). -/
def blockLine1 (c : Capture) : List Byte :=
  chars ['C', 'A', 'P', 'T', 'U', 'R', 'E', ' '] ++ padDigits 5 c.number ++ chars [' ', 'N', 'E', 'T', ' '] ++
  kgText c.net.toNat ++ chars [' ', 'k', 'g', ' ', 'T', 'A', 'R', 'E', ' '] ++ kgText c.tare.toNat ++ chars [' ', 'k', 'g']

/-- Line 2 of a certified block (R144). -/
def blockLine2 (decimals : Nat) (c : Capture) : List Byte :=
  chars ['P', 'R', 'I', 'C', 'E', '/', 'K', 'G', ' '] ++ moneyText decimals c.unitPrice ++
  chars [' ', 'P', 'R', 'I', 'C', 'E', ' '] ++ moneyText decimals c.price ++ chars [' ', 'D', 'I', 'V', ' '] ++
  kgText c.d ++ chars [' ', 'k', 'g']

/-- The line of a MISSING reference (R144). -/
def missingLine : List Byte :=
  chars ['*', '*', '*', ' ', 'W', 'E', 'I', 'G', 'H', 'T', ' ', 'N', 'O', 'T', ' ', 'C', 'E', 'R', 'T', 'I', 'F', 'I', 'E',
    'D', ' ', '*', '*', '*']

/-- A line of characters without attributes, from column 0; `block2` when it is line 2 of a block. -/
def plainLine (t : List Byte) (block2 : Option Nat) : JobFrame := .line (t.map fun c => .char c Attr.off) 0 block2 0

/-! ## The next frame -/

/-- What the renderer reads beside the job: the glyph table, the money-decimals setting and the lane's capture log. -/
structure RenderInputs where
  glyphs : List Glyph
  decimals : Nat
  log : List Capture
  deriving DecidableEq, Repr

/-- The capture record of the reference at an index of a job's list. -/
def RenderInputs.capture (r : RenderInputs) (j : Job) (idx : Nat) : Option Capture :=
  match j.refs[idx]? with
  | none => none
  | some x => if x.resolved then x.capture.bind fun num => r.log.find? fun c => c.number == num else none

/-- The job after a scan, with a frame made its current one. -/
def Job.built (j : Job) (b : Build) (f : JobFrame) : Job :=
  { j with position := b.pos, attr := b.attr, flags := b.flags, current := some f }

/-- The frame of a weight reference whose 0x1E has been read (R144): line 1 of a block, or the MISSING line. -/
def renderReference (r : RenderInputs) (j : Job) (b : Build) : Job :=
  let idx := j.nextRef
  let b1 : Build := { b with pos := min (b.pos + 2) j.stream.length }
  match r.capture j idx with
  | some c => { j.built b1 (plainLine (blockLine1 c) none) with nextRef := idx + 1, pendingBlock := some idx }
  | none => { j.built b1 (plainLine missingLine none) with nextRef := idx + 1 }

/-- The end of the stream is reached with no cell in the line being built (R145): a closing CUT, or the job is complete. -/
def renderEnd (j : Job) (b : Build) : Option Job :=
  if 0 < j.lines ∧ endsWithCut 0 false j.stream = false ∧ j.endCut = false then
    some { j.built b .cut with endCut := true }
  else none

/-- The renderer produces the job's next frame (R143 to R145): the job with its current frame, or nothing when the job is
complete. -/
def renderNext (r : RenderInputs) (j : Job) : Option Job :=
  match j.pendingBlock with
  | some idx =>
    match r.capture j idx with
    | some c => some { j with pendingBlock := none, current := some (plainLine (blockLine2 r.decimals c) (some idx)) }
    | none => some { j with pendingBlock := none, current := some (plainLine missingLine (some idx)) }
  | none =>
    let b0 : Build := { pos := j.position, attr := j.attr, cells := [], centre := false, flags := j.flags }
    let out := scanLine r.glyphs b0 (j.stream.drop j.position)
    let b := out.2
    let asLine : JobFrame := .line b.cells (startColumn b.cells b.centre) none 0
    match out.1 with
    | .line => some (j.built b asLine)
    | .cut => some (j.built b .cut)
    | .reference => some (renderReference r j b)
    | .ended => if b.cells.isEmpty then renderEnd j b else some (j.built b asLine)

/-! ## Segments -/

/-- The octets of cells a segment may hold (R150). -/
def segmentLimit : Nat := 236

/-- The cells a segment takes in order while the next still fits in `room` octets (R150). -/
def takeCells : Nat → List Cell → List Cell
  | _, [] => []
  | room, c :: l => if cellWidth c ≤ room then c :: takeCells (room - cellWidth c) l else []

/-- The next segment of a line: its cells, and whether it is the last (R150). -/
def segmentOf (cells : List Cell) (done : Nat) : List Cell × Bool :=
  let seg := takeCells segmentLimit (cells.drop done)
  (seg, done + seg.length == cells.length)

/-- The payload of a LINE frame: column of the first cell, last-segment flag, cells (R195). -/
def linePayload (cells : List Cell) (column done : Nat) : List Byte :=
  let seg := segmentOf cells done
  [octet (column + done), flagOctet seg.2] ++ (seg.1.map cellOctets).flatten

end Sys2Proof.Machine
end

