-- ==== Sys2Proof/Machine/Receipt.lean ====
section
/-! DEFINITION. Print jobs and the printer port (chapter 8): requests, references, exchanges, suspension and completion. -/

namespace Sys2Proof.Machine

/-! ## Jobs -/

/-- The jobs a lane may hold (R134). -/
def maxJobs : Nat := 4

/-- The number after a job number or an exchange number: after 255 comes 1 (R136, R150). -/
def nextJobNumber (n : Nat) : Nat := if 255 ≤ n then 1 else n + 1

/-- The lane's job of a number. -/
def Lane.job (n : Lane) (num : Nat) : Option Job := n.jobs.find? fun j => j.number == num

/-- The lane's FILLING job (R134). -/
def Lane.fillingJob (n : Lane) : Option Job := n.jobs.find? fun j => j.state == .filling

/-- The lane's PRINTING job (R140). -/
def Lane.printingJob (n : Lane) : Option Job := n.jobs.find? fun j => j.state == .printing

/-- The lane's SUSPENDED job (R153). -/
def Lane.suspendedJob (n : Lane) : Option Job := n.jobs.find? fun j => j.state == .suspended

/-- The lane with its job of a number changed. -/
def Lane.modJob (n : Lane) (num : Nat) (g : Job → Job) : Lane :=
  { n with jobs := n.jobs.map fun j => if j.number == num then g j else j }

/-- The lane with its job of a number removed. -/
def Lane.dropJob (n : Lane) (num : Nat) : Lane := { n with jobs := n.jobs.filter fun j => j.number != num }

/-- The number a new job takes: the counter's next, passing over those held (R136). -/
def findJobNumber (jobs : List Job) : Nat → Nat → Nat
  | 0, n => n
  | k + 1, n => if jobs.any (fun j => j.number == n) then findJobNumber jobs k (nextJobNumber n) else n

/-- A new job (R136). -/
def newJob (num : Nat) : Job :=
  { number := num, state := .filling, stream := [], scan := .normal, refs := [], flags := ⟨false, false, false⟩, position := 0,
    attr := Attr.off, pendingBlock := none, current := none, lines := 0, nextRef := 0, lastSent := .nothing, endCut := false }

/-! ## References -/

/-- The largest print-hold count (R38). -/
def maxHolds : Nat := 255

/-- A complete reference is resolved against the capture log (R138): the log, and the item of the reference list. -/
def Lane.resolve (n : Lane) (num : Nat) : Lane × Reference :=
  match n.captureOf num with
  | some c =>
    if c.holds < maxHolds then (n.modHolds num (· + 1), { capture := some num, resolved := true, hold := true })
    else (n, { capture := some num, resolved := false, hold := false })
  | none => (n, { capture := some num, resolved := false, hold := false })

/-- One octet scanned for references (R138): the scan state after it, and a capture number when it completes one. -/
def scanOctet (x : ScanState) (b : Byte) : ScanState × Option Nat :=
  match x with
  | .normal => if b = 0x1E then (.first, none) else (.normal, none)
  | .first => (.second b, none)
  | .second hi => (.normal, some (hi.toNat * 256 + b.toNat))

/-- A payload scanned for references (R138): the lane with its holds, the scan state, and the references it completes. -/
def scanOctets (n : Lane) (x : ScanState) : List Byte → Lane × ScanState × List Reference
  | [] => (n, x, [])
  | b :: l =>
    match scanOctet x b with
    | (x1, none) => scanOctets n x1 l
    | (x1, some num) =>
      let r := n.resolve num
      let rest := scanOctets r.1 x1 l
      (rest.1, rest.2.1, r.2 :: rest.2.2)

/-- The holds of a job's references are released (R141). -/
def Lane.releaseHolds (n : Lane) (refs : List Reference) : Lane :=
  refs.foldl (fun m r => match r.hold, r.capture with
    | true, some num => m.modHolds num (· - 1)
    | true, none => m
    | false, _ => m) n

/-! ## Notices -/

/-- The three flags in one octet (R155, R182). -/
def flagsOctet (f : JobFlags) : Byte :=
  octet ((if f.unknownCode then 1 else 0) + (if f.glyphMissing then 2 else 0) + (if f.weightMissing then 4 else 0))

/-- The event octet of a PRINT_EVENT, in the order of R155 (log 12). -/
def PrintEvent.value : PrintEvent → Byte
  | .done => 0
  | .cancelled _ => 1
  | .suspended _ _ => 2
  | .resumed _ => 3

/-- The further fields of a PRINT_EVENT (R155). They stand only in the notices of the event that has them, with no presence
octet, so the payload's length goes with the event (log 17). -/
def PrintEvent.further : PrintEvent → List Byte
  | .done => []
  | .cancelled before => [before.value]
  | .suspended reason line => reason.value :: be 2 line
  | .resumed line => be 2 line

/-- PRINT_EVENT: lane, job, event, lines printed, flags, further fields (R155; log 12). -/
def printEventPayload (l : LaneId) (j : Job) (e : PrintEvent) : List Byte :=
  [laneAddr l, octet j.number, e.value] ++ be 2 j.lines ++ [flagsOctet j.flags] ++ e.further

/-- A PRINT_EVENT is offered (R155). -/
def State.offerPrint (s : State) (l : LaneId) (j : Job) (e : PrintEvent) : State :=
  s.offerLane l kindPrintEvent (printEventPayload l j e)

/-! ## The port -/

/-- The printer silence time and the answer time in ms (R148). -/
def printerSilence : Nat := 2000
def answerTime : Nat := 2000

/-- The state with a lane's printer port replaced. -/
def State.setPort (s : State) (l : LaneId) (p : Port) : State := s.modLane l fun n => { n with port := p }

/-- The port without an exchange in flight. -/
def Port.free (p : Port) : Port := { p with exchange := none, answer := none }

/-- A frame is sent (R150): the exchange counter advances and the answer timer starts. -/
def Port.send (p : Port) (kind : Byte) (payload : List Byte) (owner : ExchangeOwner) : Port :=
  let num := nextJobNumber p.counter
  { p with
    counter := num
    exchange := some { frame := ⟨0, kind, octet num, payload⟩, number := num, owner := owner }
    answer := some answerTime }

/-- The exchange in flight is owned by a job. -/
def Port.ownedBy (p : Port) (o : ExchangeOwner) : Bool :=
  match p.exchange with
  | none => false
  | some x => x.owner == o

/-- The port without an exchange of one owner. -/
def Port.abandon (p : Port) (o : ExchangeOwner) : Port := if p.ownedBy o then p.free else p

/-- The reason a port state suspends a job entering PRINTING (R152, last row). -/
def stopReason : PrinterState → Option SuspendReason
  | .paperOut => some .paperOut
  | .coverOpen => some .coverOpen
  | .offline => some .offline
  | .unknown => none
  | .ready => none
  | .paperLow => none

/-- The condition a suspension raises (R152): PRINTER_OFFLINE for an OFFLINE port, PAPER_OUT for any other reason. -/
def SuspendReason.condition : SuspendReason → LaneCond
  | .lineFailed => .paperOut
  | .noAnswer => .paperOut
  | .paperOut => .paperOut
  | .coverOpen => .paperOut
  | .offline => .printerOffline

/-- A PRINTING job is suspended (R152): its exchange is abandoned, SUSPENDED is offered, and then the condition of the
reason is raised (R161). -/
def State.suspend (s : State) (l : LaneId) (j : Job) (why : SuspendReason) : State :=
  let s1 := s.modLane l fun n =>
    { n.modJob j.number (fun x => { x with state := .suspended }) with port := n.port.abandon (.job j.number) }
  (s1.offerPrint l j (.suspended why (j.lines + 1))).raiseLane l why.condition

/-- A job at its entry into PRINTING (R140). -/
def Job.enter (j : Job) : Job :=
  { j with
    state := .printing
    position := 0
    attr := Attr.off
    pendingBlock := none
    current := none
    lines := 0 }

/-- Job selection (R140): with no job PRINTING or SUSPENDED, the oldest READY job becomes PRINTING; a stopped port
suspends it at once. -/
def State.selectJob (s : State) (l : LaneId) : State :=
  let n := s.lane l
  if n.printingJob.isSome || n.suspendedJob.isSome then s
  else
    match n.jobs.find? fun j => j.state == .ready with
    | none => s
    | some j =>
      let s1 := s.modLane l fun n => n.modJob j.number Job.enter
      match stopReason n.port.state with
      | none => s1
      | some why => s1.suspend l j.enter why

/-- What the renderer reads at a lane. -/
def State.renderInputs (s : State) (l : LaneId) : RenderInputs :=
  { glyphs := s.glyphs, decimals := s.settings.moneyDecimals, log := (s.lane l).log }

/-- The frame kind a job's current frame is sent as. -/
def sentKind : JobFrame → SentKind
  | .line _ _ _ _ => .line
  | .cut => .cut

/-- The next frame of a job whose current frame is `f` is sent (R150). -/
def State.sendJobFrame (s : State) (l : LaneId) (j : Job) (f : JobFrame) : State :=
  s.modLane l fun n =>
    { n.modJob j.number (fun _ => { j with lastSent := sentKind f }) with
      port := match f with
        | .line cells column _ done => n.port.send kindLine (linePayload cells column done) (.job j.number)
        | .cut => n.port.send kindCut [] (.job j.number) }

/-- A job is complete (R154): removed, with DONE offered. -/
def State.completeJob (s : State) (l : LaneId) (j : Job) : State :=
  (s.modLane l fun n => n.dropJob j.number).offerPrint l j .done

/-- The port's choice of a frame (R150), with the selection of R140 before it and again after each job it completes. -/
def State.pump (l : LaneId) : Nat → State → State
  | 0, s => s
  | k + 1, s =>
    let s1 := s.selectJob l
    let n := s1.lane l
    if n.port.exchange.isSome || !n.port.usable then s1
    else if n.port.cutOwed then s1.setPort l (n.port.send kindCut [] .owedCut)
    else
      match n.printingJob with
      | none => s1
      | some j =>
        match j.current with
        | some f => s1.sendJobFrame l j f
        | none =>
          match renderNext (s1.renderInputs l) j with
          | some j1 =>
            match j1.current with
            | some f => s1.sendJobFrame l j1 f
            | none => s1
          | none => State.pump l k (s1.completeJob l (endFlags s1 j))
where
  /-- The job with the flags of the octets read up to the end of its stream. -/
  endFlags (s : State) (j : Job) : Job :=
    let b0 : Build := { pos := j.position, attr := j.attr, cells := [], centre := false, flags := j.flags }
    { j with flags := (scanLine s.glyphs b0 (j.stream.drop j.position)).2.flags }

/-- The port chooses its next frame (R150); a lane holds at most 4 jobs. -/
def State.port (s : State) (l : LaneId) : State := State.pump l (maxJobs + 1) s

/-- A printer frame restarts the silence timer (R149). -/
def Port.heard (p : Port) : Port := { p with silence := some printerSilence }

/-- A segment or a CUT of a job is done (R151): the lane after it. -/
def Lane.frameDone (n : Lane) (num : Nat) : Lane :=
  match n.job num with
  | none => n
  | some j =>
    match j.current with
    | none => n
    | some .cut => n.modJob num fun x => { x with current := none }
    | some (.line cells column block2 done) =>
      let seg := segmentOf cells done
      if seg.2 then
        let n1 := n.modJob num fun x => { x with current := none, lines := x.lines + 1 }
        match block2 with
        | none => n1
        | some idx => blockDone n1 num idx
      else n.modJob num fun x => { x with current := some (.line cells column block2 (done + seg.1.length)) }
where
  /-- Line 2 of a block is done: its reference's hold is released. -/
  blockDone (n : Lane) (num idx : Nat) : Lane :=
    match n.job num with
    | none => n
    | some j =>
      match j.refs[idx]? with
      | none => n
      | some r =>
        (n.releaseHolds [r]).modJob num fun x => { x with refs := x.refs.modify idx fun y => { y with hold := false } }

/-- The exchange in flight ends with LINE_DONE (R151). -/
def State.exchangeDone (s : State) (l : LaneId) (o : ExchangeOwner) : State :=
  match o with
  | .owedCut => s.modLane l fun n => { n with port := { n.port.free with cutOwed := false } }
  | .nobody => s.modLane l fun n => { n with port := n.port.free }
  | .job num => s.modLane l fun n => { n.frameDone num with port := n.port.free }

/-- The exchange in flight ends with LINE_FAILED or the answer timer's expiry (R151, R152). -/
def State.exchangeFailed (s : State) (l : LaneId) (o : ExchangeOwner) (why : SuspendReason) : State :=
  match o with
  | .owedCut => s.modLane l fun n => { n with port := { n.port.free with cutOwed := false } }
  | .nobody => s.modLane l fun n => { n with port := n.port.free }
  | .job num =>
    let s1 := s.modLane l fun n => { n with port := n.port.free }
    match (s1.lane l).job num with
    | none => s1
    | some j => s1.suspend l j why

/-- The owner of the exchange in flight that an answer with a tag answers (R151). -/
def Port.answered (p : Port) (tag : Byte) : Option ExchangeOwner :=
  match p.exchange with
  | none => none
  | some x => if tag.toNat = x.number then some x.owner else none

/-- A LINE_DONE frame (R151). -/
def State.lineDone (s : State) (l : LaneId) (tag : Byte) : State :=
  let s1 := s.setPort l (s.lane l).port.heard
  match (s1.lane l).port.answered tag with
  | none => s1
  | some o => (s1.exchangeDone l o).port l

/-- A LINE_FAILED frame (R151). -/
def State.lineFailed (s : State) (l : LaneId) (tag : Byte) : State :=
  let s1 := s.setPort l (s.lane l).port.heard
  match (s1.lane l).port.answered tag with
  | none => s1
  | some o => (s1.exchangeFailed l o .lineFailed).port l

/-- The answer timer expires: a LINE_FAILED for the exchange in flight, with reason NO_ANSWER (R151). -/
def State.answerExpires (s : State) (l : LaneId) : State :=
  let p := (s.lane l).port
  if p.answer.isNone then s
  else
    match p.exchange with
    | none => s
    | some x => (s.exchangeFailed l x.owner .noAnswer).port l

/-- A PRINTER_STATUS that stops the printer (R149, R152). -/
def State.statusStops (s : State) (l : LaneId) (st : PrinterState) (why : SuspendReason) : State :=
  let s1 := s.setPort l { ((s.lane l).port.heard.abandon .owedCut) with state := st }
  match (s1.lane l).printingJob with
  | none => s1
  | some j => s1.suspend l j why

/-- A SUSPENDED job at its resumption: its kept line is sent again from its first segment (R153). -/
def Job.resume (j : Job) : Job :=
  { j with
    state := .printing
    current := match j.current with
      | some (.line cells column block2 _) => some (.line cells column block2 0)
      | some .cut => some .cut
      | none => none }

/-- A PRINTER_STATUS of READY or PAPER_LOW (R149, R153). -/
def State.statusRuns (s : State) (l : LaneId) (st : PrinterState) : State :=
  let s1 := s.setPort l { (s.lane l).port.heard with state := st }
  let s2 := match (s1.lane l).suspendedJob with
    | none => s1
    | some j => (s1.modLane l fun n => n.modJob j.number Job.resume).offerPrint l j (.resumed (j.lines + 1))
  s2.port l

/-- A PRINTER_STATUS frame (R149); PAPER_LOW is raised after the notices of the same event (log 31). -/
def State.printerStatus (s : State) (l : LaneId) (r : PrinterReport) : State :=
  match r with
  | .ready => s.statusRuns l .ready
  | .paperLow => (s.statusRuns l .paperLow).raiseLane l .paperLow
  | .paperOut => s.statusStops l .paperOut .paperOut
  | .coverOpen => s.statusStops l .coverOpen .coverOpen

/-- The printer silence timer expires (R149): OFFLINE, the exchange abandoned, a PRINTING job suspended, PRINTER_OFFLINE. -/
def State.printerSilent (s : State) (l : LaneId) : State :=
  let p := (s.lane l).port
  if p.silence.isNone then s
  else
    let s1 := s.setPort l { p.free with state := .offline, silence := none }
    match (s1.lane l).printingJob with
    | none => s1.raiseLane l .printerOffline
    | some j => s1.suspend l j .offline

/-! ## Requests -/

/-- PRINT_BEGIN (R136). -/
def takePrintBegin (l : LaneId) (s : State) : Reply × State :=
  let n := s.lane l
  if n.fillingJob.isSome then refuse .jobOpen s
  else if maxJobs ≤ n.jobs.length then refuse .jobQueueFull s
  else
    let num := findJobNumber n.jobs maxJobs (nextJobNumber n.jobCounter)
    let s1 := s.setLane l { n with jobs := n.jobs ++ [newJob num], jobCounter := num }
    accept (octet num :: be 2 (s1.freeOctets l)) s1

/-- The lane's FILLING job, when it has the number a request carries (R137, R139). -/
def Lane.fillingOf (n : Lane) (job : Byte) : Option Job :=
  match n.fillingJob with
  | none => none
  | some j => if j.number = job.toNat then some j else none

/-- A job with octets appended and their references scanned (R137, R138). -/
def Job.append (j : Job) (octets : List Byte) (scan : ScanState) (refs : List Reference) : Job :=
  { j with
    stream := j.stream ++ octets
    scan := scan
    refs := j.refs ++ refs
    flags := if refs.all (·.resolved) then j.flags else { j.flags with weightMissing := true } }

/-- WEIGHT_REF_MISSING is raised when a reference is MISSING (R138, R139). -/
def State.noteMissing (s : State) (l : LaneId) (refs : List Reference) : State :=
  if refs.all (·.resolved) then s else s.raiseLane l .weightRefMissing

/-- PRINT_DATA (R137). -/
def takePrintData (l : LaneId) (job : Byte) (octets : List Byte) (s : State) : Reply × State :=
  let n := s.lane l
  match n.fillingOf job with
  | none => refuse .noJob s
  | some j =>
    if s.freeOctets l < octets.length then refuse .bufferFull s
    else
      let x := scanOctets n j.scan octets
      let refs := x.2.2
      let s1 := (s.setLane l (x.1.modJob j.number fun y => y.append octets x.2.1 refs)).noteMissing l refs
      let resolved := (refs.filter (·.resolved)).length
      accept (be 2 (s1.freeOctets l) ++ [octet resolved, octet (refs.length - resolved)]) s1

/-- The references a PRINT_END adds: an incomplete one is MISSING with no capture number (R139). -/
def endReferences (j : Job) : List Reference :=
  if j.scan = .normal then [] else [{ capture := none, resolved := false, hold := false }]

/-- The number of jobs ahead of a job in the queue (R139). -/
def Lane.jobsAhead (n : Lane) (num : Nat) : Nat := (n.jobs.takeWhile fun j => j.number != num).length

/-- PRINT_END (R139); the detail says PRINTING when this job is selected (log 14). WEIGHT_REF_MISSING is raised before the
selection and whatever notices follow from it (log 31). -/
def takePrintEnd (l : LaneId) (job : Byte) (s : State) : Reply × State :=
  let n := s.lane l
  match n.fillingOf job with
  | none => refuse .noJob s
  | some j =>
    let refs := endReferences j
    let selected := n.printingJob.isNone && n.suspendedJob.isNone && !n.jobs.any fun x => x.state == .ready
    let s1 := (s.modLane l fun n => n.modJob j.number fun y => { y.append [] .normal refs with state := .ready }).noteMissing l refs
    accept [(if selected then JobState.printing else JobState.ready).value, octet (n.jobsAhead j.number)] (s1.port l)

/-- A job is cancelled (R141): its holds released, the job removed; a PRINTING one leaves its exchange to no job and sets
cut owed unless it has sent no frame or a CUT last. -/
def Lane.cancelJob (n : Lane) (j : Job) : Lane :=
  let n1 := (n.releaseHolds j.refs).dropJob j.number
  match j.state with
  | .filling => n1
  | .ready => n1
  | .suspended => n1
  | .printing =>
    let p := n1.port
    { n1 with
      port := { p with
        exchange := p.exchange.map fun x => if x.owner = .job j.number then { x with owner := .nobody } else x
        cutOwed := p.cutOwed || j.lastSent == .line } }

/-- PRINT_CANCEL (R141). -/
def takePrintCancel (l : LaneId) (job : Byte) (s : State) : Reply × State :=
  match (s.lane l).job job.toNat with
  | none => refuse .noJob s
  | some j =>
    let s1 := (s.modLane l fun n => n.cancelJob j).offerPrint l j (.cancelled j.state)
    accept [j.state.value] (s1.port l)

/-- Lane Reset's part (R156): every job cancelled with no notice. -/
def State.printReset (s : State) (l : LaneId) : State :=
  (s.modLane l fun n => n.jobs.foldl Lane.cancelJob n).port l

end Sys2Proof.Machine
end

