-- ==== Sys2Proof/Machine/DeviceFrames.lean ====
section
/-! DEFINITION. What arrives from the payment terminal and from a receipt printer (R104, R148, R194, R195): the frames as
those devices lay them out, the receivers' tests, and the fields read from a frame that is kept. -/

namespace Sys2Proof.Machine

/-! ## The payment link -/

/-- A RESULT as the terminal lays it out (R194): outcome, approved amount, approval code. -/
def resultOnLine (addr tag outcome : Byte) (amount : BitVec 32) (approval : BitVec 48) : Frame :=
  ⟨addr, kindResult, tag, outcome :: (be 4 amount.toNat ++ be 6 approval.toNat)⟩

/-- What the receiver of the payment link makes of a frame whose length and check are good (R104): its fields (R194), or
nothing where the kind is not RESULT or the payload length not that of a RESULT. -/
def readResult (f : Frame) : Option ResultFrame :=
  if f.kind = kindResult ∧ f.payload.length = resultLength then
    some (resultFrame f.addr f.tag (octetAt f.payload 0) (.ofNat 32 (fieldAt f.payload 1 4))
      (.ofNat 48 (fieldAt f.payload 5 6)))
  else none

/-- A frame is discarded by the receiver, which returns to hunting (R104). -/
def State.paymentDiscarded (s : State) : State := { s with pay := { s.pay with receiver := .hunting } }

/-- A frame whose length and check are good arrives from the terminal (R104): it is kept as a RESULT and handled (R108), or
discarded. -/
def State.paymentArrive (s : State) (f : Frame) : State :=
  match readResult f with
  | none => s.paymentDiscarded
  | some r => s.takeResult r

/-- A frame is broken off, or arrives whole for the receiver's tests to refuse (R104). -/
def State.paymentBroken (s : State) (cause : PaymentDiscard) : State :=
  match cause with
  | .gap => s.paymentDiscarded
  | .length => s.paymentDiscarded
  | .check => s.paymentDiscarded
  | .kind f => s.paymentArrive f
  | .payloadLength f => s.paymentArrive f

/-! ## A printer port -/

/-- A PRINTER_STATUS as the printer lays it out (R195); the tag of a status means nothing. -/
def statusOnLine (report : PrinterReport) : Frame := ⟨0, kindPrinterStatus, 0, [printerReportValue report]⟩

/-- What a port's receiver makes of a frame whose length and check are good (R148): a printer frame, or nothing where the
address, the kind, the payload length or the status fails its test. -/
def readPrinter (f : Frame) : Option PrinterFrame :=
  if f.addr ≠ 0 ∨ printerLength f.kind ≠ some f.payload.length then none
  else if f.kind = kindLineDone then some (.lineDone f.tag)
  else if f.kind = kindLineFailed then some (.lineFailed f.tag)
  else (printerReportOf (octetAt f.payload 0)).map .status

/-- A frame is discarded by the receiver, which returns to hunting; the silence timer runs on (R148, R149). -/
def State.printerDiscarded (s : State) (l : LaneId) : State :=
  s.setPort l { (s.lane l).port with receiver := .hunting }

/-- A frame whose length and check are good arrives from the printer (R148): a printer frame is handled by R149 and R151,
any other is discarded. -/
def State.printerArrive (s : State) (l : LaneId) (f : Frame) : State :=
  match readPrinter f with
  | none => s.printerDiscarded l
  | some (.lineDone tag) => s.lineDone l tag
  | some (.lineFailed tag) => s.lineFailed l tag
  | some (.status report) => s.printerStatus l report

/-- A frame is broken off, or arrives whole for the receiver's tests to refuse (R148). -/
def State.printerBroken (s : State) (l : LaneId) (cause : PrinterDiscard) : State :=
  match cause with
  | .gap => s.printerDiscarded l
  | .length => s.printerDiscarded l
  | .check => s.printerDiscarded l
  | .address f => s.printerArrive l f
  | .kind f => s.printerArrive l f
  | .payloadLength f => s.printerArrive l f
  | .statusValue f => s.printerArrive l f

end Sys2Proof.Machine
end

