-- ==== Sys2Proof/Machine/Drawer.lean ====
section
/-! DEFINITION. Till drawers (chapter 7): the sensor, the solenoid power queue, the release and the open drawer. -/

namespace Sys2Proof.Machine

/-! ## The sensor -/

/-- The interpreted level is OPEN (R121). -/
def sensesOpen (p : Polarity) (high : Bool) : Bool :=
  match p with
  | .openHigh => high
  | .openLow => !high

/-- The debounce time in ms (R121). -/
def debounceTime : Nat := 20

/-- The check time in ms (R126). -/
def checkTime : Nat := 150

/-- The debounce timer after a change of the level or of the polarity (R121). -/
def Till.debounced (t : Till) (p : Polarity) : Till :=
  if sensesOpen p t.rawHigh = t.sensorOpen then { t with debounce := none }
  else if t.debounce.isSome then t
  else { t with debounce := some debounceTime }

/-- The polarity of a lane (R120). -/
def State.polarity (s : State) (l : LaneId) : Polarity := (s.laneSettings l).polarity

/-- The drawer record of a lane. -/
def State.till (s : State) (l : LaneId) : Till := (s.lane l).till

/-- The level at a lane's sensor pin (R121). -/
def State.sensorPin (s : State) (l : LaneId) (high : Bool) : State := s.setTill l { s.till l with rawHigh := high }

/-- The debounce follows the level at the pin (R121). -/
def State.debounceUpdate (s : State) (l : LaneId) : State := s.setTill l ((s.till l).debounced (s.polarity l))

/-! ## Notices -/

/-- DRAWER_EVENT: lane, event, drawer state, open count, token, forced flag, attempt (R133; log 12). -/
def drawerEventPayload (l : LaneId) (n : Lane) (e : DrawerEvent) (attempt : Option Nat) : List Byte :=
  [laneAddr l, e.value, n.till.state.value] ++ be 2 n.till.openCount ++ [flagOctet n.token, flagOctet n.till.forced] ++
  optional 1 (attempt.map (be 1))

/-- A DRAWER_EVENT is offered with the state after the event (R133). -/
def State.offerDrawer (s : State) (l : LaneId) (e : DrawerEvent) (attempt : Option Nat) : State :=
  s.offerLane l kindDrawerEvent (drawerEventPayload l (s.lane l) e attempt)

/-! ## The solenoid power queue -/

/-- The admission test (R123), with the head of the queue. -/
def State.admissible (s : State) : Option LaneId :=
  match s.powerQueue with
  | [] => none
  | l :: _ => if s.releasing.length < s.settings.solenoidBudget && !s.supplyLow then some l else none

/-- A lane at the head is admitted: it leaves the queue and enters RELEASING (R123, R124). -/
def State.admitOne (s : State) (l : LaneId) : State :=
  { s with powerQueue := s.powerQueue.tail, releasing := s.releasing ++ [l] }.setTill l
    { s.till l with state := .releasing, pulse := some (s.laneSettings l).pulseTime }

/-- Admissions from the head while the test holds (R123); the queue holds at most 4 lanes. -/
def State.admitHeads : Nat → State → State
  | 0, s => s
  | n + 1, s =>
    match s.admissible with
    | none => s
    | some l => State.admitHeads n (s.admitOne l)

/-- The admission test at one of its events (R123). -/
def State.admission (s : State) : State := State.admitHeads 4 s

/-! ## The release -/

/-- The open count advances; after 65,535 comes 0 (R130). -/
def nextOpen (n : Nat) : Nat := if 65535 ≤ n then 0 else n + 1

/-- The entry into OPEN: the left-open timer starts (R127). -/
def Till.toOpen (t : Till) (leftOpenTime : Nat) (forced : Bool) : Till :=
  { t with state := .opened, forced := forced, leftOpen := seconds leftOpenTime }

/-- A release is confirmed (R126). -/
def State.confirmRelease (s : State) (l : LaneId) : State :=
  let t := s.till l
  let attempt := if t.retry then 2 else 1
  let t1 := { t with check := none, retry := false, cut := false, openCount := nextOpen t.openCount }
  (s.setTill l (t1.toOpen (s.laneSettings l).leftOpenTime false)).offerDrawer l .opened (some attempt)

/-- A drawer leaves RELEASING for CHECKING (R124, R125, R126): confirmed at once when the sensor shows OPEN; then the
admission test. -/
def State.toChecking (s : State) (l : LaneId) (cut : Bool) : State :=
  let t := { s.till l with state := .checking, pulse := none, cut := cut }
  let s1 : State := { s with releasing := s.releasing.filter fun k => k != l }
  let s2 :=
    if t.sensorOpen then (s1.setTill l t).confirmRelease l else s1.setTill l { t with check := some checkTime }
  s2.admission

/-- The pulse timer expires (R124). -/
def State.pulseExpires (s : State) (l : LaneId) : State := if (s.till l).pulse.isSome then s.toChecking l false else s

/-- A RELEASING drawer is cut (R125). -/
def State.cutDrawer (s : State) (l : LaneId) : State := s.toChecking l true

/-- Every RELEASING drawer is cut (R125), in the order of admission (log 20). -/
def State.cutAll (s : State) : State := s.releasing.foldl State.cutDrawer s

/-- Drawers are cut, the most recently admitted first, until the budget holds (R125). -/
def State.cutToBudget (s : State) : State := (s.releasing.drop s.settings.solenoidBudget).reverse.foldl State.cutDrawer s

/-- The check timer expires (R126). -/
def State.checkExpires (s : State) (l : LaneId) : State :=
  let t := s.till l
  if t.check.isNone then s
  else if t.cut then
    ({ s with powerQueue := l :: s.powerQueue }.setTill l { t with check := none, cut := false, state := .waitingPower }).admission
  else if t.retry then
    ((s.setTill l { t with check := none, retry := false, state := .fault }).offerDrawer l .fault (some 2)).raiseLane l .drawerFault
  else
    (({ s with powerQueue := s.powerQueue ++ [l] }.setTill l
      { t with check := none, retry := true, state := .waitingPower }).offerDrawer l .retry (some 1)).admission

/-! ## The open drawer -/

/-- A forced opening (R128). -/
def State.forcedOpening (s : State) (l : LaneId) : State :=
  let t := { s.till l with retry := false }
  (({ s with powerQueue := s.powerQueue.filter fun k => k != l }.setTill l
    (t.toOpen (s.laneSettings l).leftOpenTime true)).offerDrawer l .opened (some 0)).raiseLane l .drawerForced

/-- A drawer in FAULT is found open (R129). -/
def State.foundOpen (s : State) (l : LaneId) : State :=
  let t := s.till l
  let t1 := { t with openCount := nextOpen t.openCount }
  (s.setTill l (t1.toOpen (s.laneSettings l).leftOpenTime false)).offerDrawer l .opened (some 0)

/-- The drawer is shut (R127). -/
def State.drawerCloses (s : State) (l : LaneId) : State :=
  (s.setTill l { s.till l with state := .closed, leftOpen := none, forced := false }).offerDrawer l .closed none

/-- A sensor change is handed to the drawer state machine (R121). -/
def State.sensorChange (s : State) (l : LaneId) : State :=
  let t := s.till l
  match t.state, t.sensorOpen with
  | .closed, true => s.forcedOpening l
  | .waitingPower, true => s.forcedOpening l
  | .checking, true => s.confirmRelease l
  | .fault, true => s.foundOpen l
  | .opened, false => s.drawerCloses l
  | .leftOpen, false => s.drawerCloses l
  | .releasing, _ => s
  | .closed, false => s
  | .waitingPower, false => s
  | .checking, false => s
  | .fault, false => s
  | .opened, true => s
  | .leftOpen, true => s

/-- The debounce timer expires (R121). -/
def State.debounceExpires (s : State) (l : LaneId) : State :=
  let t := s.till l
  if t.debounce.isSome then
    (s.setTill l { t with debounce := none, sensorOpen := sensesOpen (s.polarity l) t.rawHigh }).sensorChange l
  else s

/-- The left-open timer expires (R127). -/
def State.leftOpenExpires (s : State) (l : LaneId) : State :=
  let t := s.till l
  if t.leftOpen.isSome then
    ((s.setTill l { t with state := .leftOpen, leftOpen := none }).offerDrawer l .leftOpen none).raiseLane l .drawerLeftOpen
  else s

/-! ## Requests and resets -/

/-- A lane's place in the solenoid power queue, from 1 (R122). -/
def State.queuePlace (s : State) (l : LaneId) : Option Nat :=
  if s.powerQueue.contains l then some (s.powerQueue.idxOf l + 1) else none

/-- DRAWER_OPEN's effect once its tests are passed (R122, R123); `token`: on the token, which is consumed. -/
def State.joinQueue (s : State) (l : LaneId) (token : Bool) : State :=
  let s1 := s.modLane l fun n =>
    { n with token := if token then false else n.token, till := { n.till with state := .waitingPower, retry := false } }
  ({ s1 with powerQueue := s1.powerQueue ++ [l] }).admission

/-- The answer of an accepted DRAWER_OPEN: authority (TOKEN 0, STAFF 1), token, drawer state, place (R122; log 12). -/
def drawerOpened (l : LaneId) (token : Bool) (s : State) : Reply × State :=
  let n := s.lane l
  let place := if n.till.state = .waitingPower then s.queuePlace l else none
  accept ([if token then 0 else 1, flagOctet n.token, n.till.state.value] ++ optional 1 (place.map (be 1))) s

/-- DRAWER_OPEN (R122). -/
def takeDrawerOpen (l : LaneId) (s : State) : Reply × State :=
  let n := s.lane l
  let token := n.mode == .attended && n.token
  match n.till.state with
  | .waitingPower => refuse .drawerBusy s
  | .releasing => refuse .drawerBusy s
  | .checking => refuse .drawerBusy s
  | .fault => refuse .drawerBusy s
  | .opened => refuse .drawerOpen s
  | .leftOpen => refuse .drawerOpen s
  | .closed =>
    if token || n.staffed then drawerOpened l token (s.joinQueue l token) else refuse .authorityNeeded s

/-- DRAWER_CLEAR (R129). -/
def takeDrawerClear (l : LaneId) (s : State) : Reply × State :=
  if (s.till l).state = .fault then
    accept [] ((s.setTill l { s.till l with state := .closed }).offerDrawer l .closed none)
  else refuse .noFault s

/-- Lane Reset's part (R131). -/
def State.drawerReset (s : State) (l : LaneId) : State :=
  let t := s.till l
  if t.state = .waitingPower then
    { s with powerQueue := s.powerQueue.filter fun k => k != l }.setTill l { t with state := .closed, retry := false }
  else s

/-- The drawer record at a start-up, with the polarity at its default (R132). -/
def Till.start (rawHigh : Bool) (leftOpenTime : Nat) : Till :=
  let t := { Till.blank rawHigh with sensorOpen := sensesOpen .openHigh rawHigh }
  if t.sensorOpen then t.toOpen leftOpenTime false else t

end Sys2Proof.Machine
end

