-- ==== Sys2Proof/Machine/Weighing.lean ====
section
/-! DEFINITION. Weighing channels (chapter 1): states, faults, the evaluation of a sample, zero and tare. -/

namespace Sys2Proof.Machine

/-- The channel without a tare (R3, R5, R24). -/
def Channel.clearTare (x : Channel) : Channel := { x with tare := 0, tareKind := .noTare }

/-- The lane condition a channel raises at an entry into FAULT (R10). -/
def faultCond : Chan → LaneCond
  | .platter => .platterFault
  | .bag => .bagFault

/-- The channel record at an entry into FAULT (R2, R7, R9). -/
def Channel.toFault (x : Channel) (cause : FaultCause) (ret : Option ReturnState) : Channel :=
  { x with
    state := .fault
    cause := cause
    ret := ret
    filter := if cause = .uncalibrated then x.filter else []
    stability := []
    latest := none
    reading := none
    silence := none
    initialZero := none }

/-- An entry into FAULT (R10): the record, the condition, the loss told to the bag check, the display check (log 10). -/
def State.enterFault (s : State) (l : LaneId) (c : Chan) (cause : FaultCause) (ret : Option ReturnState) : State :=
  let s1 := (s.modChan l c fun x => x.toFault cause ret).raiseLane l (faultCond c)
  let s2 := if c = .bag then s1.bagLoss l else s1
  s2.displayCheck l c

/-- The channel record at an entry into STARTING by CHANNEL_START or a start-up (R3, R4). -/
def Channel.toStarting (x : Channel) : Channel :=
  { x with
    state := .starting
    cause := .noCause
    ret := none
    filter := []
    stability := []
    zi := none
    zo := none
    latest := none
    reading := none
    silence := some 250
    initialZero := some 10000 }

/-! ## Evaluation -/

/-- The filter stage (R13): the count enters at the tail, the oldest leaves when there are too many. -/
def Channel.filterIn (x : Channel) (raw : Nat) : Channel :=
  let w := x.filter ++ [raw]
  { x with filter := if x.filterLength < w.length then w.drop 1 else w }

/-- The filter average (R13). -/
def average (l : List Nat) : Nat := roundHalfUp l.sum l.length

/-- The filter average CAL_READ reports: absent with an empty window (R177). -/
def Channel.filterAverage (x : Channel) : Option Nat := if x.filter.isEmpty then none else some (average x.filter)

/-- The calibrated weight (R14). -/
def calibrated (c : Calib) (a : Nat) : Int := roundHalfAway (((a : Int) - c.zc) * c.span) 1024

/-- The stability window after a W enters it (R15). -/
def stabilityIn (l : List Int) (len : Nat) (w : Int) : List Int :=
  let v := l ++ [w]
  if len < v.length then v.drop 1 else v

/-- The stability result (R15): a full window whose spread is at most d1. -/
def windowStable (l : List Int) (len d1 : Nat) : Bool :=
  match l with
  | [] => false
  | h :: t => l.length == len && decide (t.foldl max h - t.foldl min h ≤ (d1 : Int))

/-- A converter limit (R13). -/
def isLimit (raw : Nat) : Bool := raw == 0 || raw == 1048575

/-- The reading status (R18). -/
def readStatus (c : Calib) (raw : Nat) (g : Int) (stable : Bool) : ReadStatus :=
  if raw = 0 then .under
  else if raw = 1048575 then .over
  else if ((c.max + 9 * c.d2 : Nat) : Int) < g then .over
  else if g < -((20 * c.d1 : Nat) : Int) then .under
  else if stable then .stable
  else .motion

/-- The reading (R18 to R20). -/
def formReading (c : Calib) (raw : Nat) (g tare : Int) (kind : TareKind) (stable : Bool) : Reading :=
  let st := readStatus c raw g stable
  let n := g - tare
  let d := divisionFor c n
  let shown := st = .stable ∨ st = .motion
  { status := st
    nd := if shown then some (roundTo n d) else none
    tare := tare
    tareKind := kind
    d := if shown then some d else none
    net := kind != .noTare
    centre := decide (shown ∧ |g| ≤ ((c.d1 / 4 : Nat) : Int)) }

/-- Zero tracking acts (R17) on a stable evaluation of a RUNNING channel. -/
def zeroTracks (c : Calib) (x : Channel) (w g : Int) : Bool :=
  x.tareKind == .noTare && decide (|g| ≤ ((c.d1 / 2 : Nat) : Int)) &&
  decide (|w - x.zi.getD 0| ≤ ((c.max / 50 : Nat) : Int))

/-- Stages 5 to 10 on a RUNNING channel (R17 to R20): the record with its new zero offset, evaluation and reading, and
the gross. -/
def Channel.finish (x : Channel) (c : Calib) (raw : Nat) (w : Int) (stable : Bool) : Channel × Reading × Int :=
  let g0 := w - x.zo.getD 0
  let tracks := stable && !isLimit raw && zeroTracks c x w g0
  let g := if tracks then 0 else g0
  let r := formReading c raw g x.tare x.tareKind stable
  ({ x with zo := if tracks then some w else x.zo, latest := some ⟨w, some g, stable⟩, reading := some r }, r, g)

/-- A formed reading is handed to the capture log or to the bag check (R20). -/
def State.handReading (s : State) (l : LaneId) (ch : Chan) (c : Calib) (r : Reading) (g : Int) : State :=
  match ch with
  | .platter => s.platterReading l c r g
  | .bag => s.bagReading l g (r.status == .stable)

/-- Stages 5 to 10 and the handing on of the reading. -/
def State.finishEvaluation (s : State) (l : LaneId) (ch : Chan) (c : Calib) (raw : Nat) (w : Int) (stable : Bool) : State :=
  let f := (s.chan l ch).finish c raw w stable
  (s.setChan l ch f.1).handReading l ch c f.2.1 f.2.2

/-- The entry into RUNNING from STARTING is reported: it arms the platter, it recovers the bag channel (R10, R30, R81). -/
def State.reportRunning (s : State) (l : LaneId) (ch : Chan) : State :=
  match ch with
  | .platter => s.modLane l fun n => { n with armed := true }
  | .bag => s.bagRecovery l

/-- The channel after stages 1 to 3: the filter, W, and the stability window (R13 to R15). -/
def Channel.weighIn (x : Channel) (c : Calib) (raw : Nat) : Channel × Int × Bool :=
  let x1 := x.filterIn raw
  let w := calibrated c (average x1.filter)
  let st := stabilityIn x1.stability x1.stabilityLength w
  let stable := windowStable st x1.stabilityLength c.d1
  ({ x1 with stability := st, latest := some ⟨w, none, stable⟩, silence := some 250 }, w, stable)

/-- The channel when its initial zero is taken (R16). -/
def Channel.takeZero (x : Channel) (w : Int) : Channel :=
  { x with state := .running, zi := some w, zo := some w, initialZero := none }

/-- An evaluation in STARTING or RUNNING (section 1.4). The state change to RUNNING and the completed evaluation make
one display check, after the reading is formed (R20, R25; log 11). -/
def State.evaluate (s : State) (l : LaneId) (ch : Chan) (raw : Nat) : State :=
  let x := s.chan l ch
  match x.calib with
  | none => s.setChan l ch (x.filterIn raw)
  | some c =>
    let e := x.weighIn c raw
    let w := e.2.1
    match x.state with
    | .starting =>
      if e.2.2 && !isLimit raw && decide (|w| ≤ ((c.max / 10 : Nat) : Int)) then
        (((s.setChan l ch (e.1.takeZero w)).reportRunning l ch).finishEvaluation l ch c raw w e.2.2).displayCheck l ch
      else s.setChan l ch e.1
    | .running => ((s.setChan l ch e.1).finishEvaluation l ch c raw w e.2.2).displayCheck l ch
    | .stopped => s.setChan l ch (x.filterIn raw)
    | .fault => s.setChan l ch (x.filterIn raw)

/-- A calibration write is in progress for a channel (R178). -/
def State.calWriting (s : State) (l : LaneId) (ch : Chan) : Bool :=
  match s.calWrite with
  | none => false
  | some w => w.lane == l && w.channel == ch

/-- A sample in FAULT with cause SENSOR returns the channel to its return state and is evaluated there (R8). -/
def State.sensorReturn (s : State) (l : LaneId) (ch : Chan) (raw : Nat) : State :=
  let x := s.chan l ch
  match x.ret with
  | none => s.setChan l ch (x.filterIn raw)
  | some .starting =>
    let x1 : Channel := { x with state := .starting, cause := .noCause, ret := none, silence := some 250, initialZero := some 10000 }
    ((s.setChan l ch x1).evaluate l ch raw).displayCheck l ch
  | some .running =>
    let x1 : Channel := { x with state := .running, cause := .noCause, ret := none, silence := some 250 }
    let s1 := s.setChan l ch x1
    let s2 := if ch = .bag then s1.bagRecovery l else s1
    (s2.evaluate l ch raw).displayCheck l ch

/-- A sample arrival (R2). -/
def State.sample (s : State) (l : LaneId) (ch : Chan) (raw : Nat) : State :=
  let x := s.chan l ch
  match x.state with
  | .starting => s.evaluate l ch raw
  | .running => s.evaluate l ch raw
  | .stopped => s.setChan l ch (x.filterIn raw)
  | .fault =>
    if x.cause = .sensor ∧ s.calWriting l ch = false then s.sensorReturn l ch raw else s.setChan l ch (x.filterIn raw)

/-! ## Timers -/

/-- The silence timer expires (R7). -/
def State.silenceExpires (s : State) (l : LaneId) (ch : Chan) : State :=
  let x := s.chan l ch
  if x.silence.isNone then s
  else
    match x.state with
    | .starting => s.enterFault l ch .sensor (some .starting)
    | .running => s.enterFault l ch .sensor (some .running)
    | .stopped => s
    | .fault => s

/-- The initial-zero timer expires (R9). -/
def State.initialZeroExpires (s : State) (l : LaneId) (ch : Chan) : State :=
  let x := s.chan l ch
  if x.initialZero.isSome && x.state == .starting then s.enterFault l ch .noZero none else s

/-- The display timer expires: a display check (R25). -/
def State.displayExpires (s : State) (l : LaneId) (ch : Chan) : State :=
  if (s.chan l ch).displayTimer.isSome then (s.modChan l ch fun x => { x with displayTimer := none }).displayCheck l ch
  else s

/-! ## Requests -/

/-- A request with a channel field: BAD_VALUE for a value other than 0 or 1, before every other refusal (R1). -/
def withChannel (channel : Byte) (s : State) (g : Chan → Reply × State) : Reply × State :=
  match chanOf channel with
  | none => refuse .badValue s
  | some c => g c

/-- CHANNEL_START (R4), refused with CAL_BUSY first while the channel's calibration is being written (R178). -/
def takeChannelStart (l : LaneId) (channel : Byte) (s : State) : Reply × State :=
  withChannel channel s fun c =>
    let x := s.chan l c
    if s.calWriting l c then refuse .calBusy s
    else
      match x.state with
      | .starting => refuse .channelRunning s
      | .running => refuse .channelRunning s
      | .stopped => started c
      | .fault =>
        match x.cause with
        | .noZero => started c
        | .sensor => refuse .channelFault s
        | .uncalibrated => if x.calib.isSome then started c else refuse .channelFault s
        | .noCause => refuse .channelFault s
where
  started (c : Chan) : Reply × State := accept [] ((s.modChan l c Channel.toStarting).displayCheck l c)

/-- The channel record when it is stopped (R5). -/
def Channel.toStopped (x : Channel) : Channel :=
  { x.clearTare with
    state := .stopped
    cause := .noCause
    ret := none
    filter := []
    stability := []
    latest := none
    reading := none
    silence := none
    initialZero := none }

/-- CHANNEL_STOP (R5); the stop of a working bag channel is a loss (R10), told to the bag check with its BAG_EVENT before the
display check (log 10). -/
def takeChannelStop (l : LaneId) (channel : Byte) (s : State) : Reply × State :=
  withChannel channel s fun c =>
    let x := s.chan l c
    if x.state = .stopped then accept [] s
    else if x.calib.isNone then
      accept [] (s.setChan l c { x.clearTare with filter := [], stability := [], silence := none, initialZero := none })
    else
      let s1 := s.modChan l c Channel.toStopped
      let s2 := if c = .bag ∧ (x.state = .starting ∨ x.state = .running) then s1.bagLoss l else s1
      accept [] (s2.displayCheck l c)

/-- CHANNEL_SETUP (R6). A filter length of 0, which R6 reads as 1, counts as brought into range: CLAMPED (log 33). -/
def takeChannelSetup (l : LaneId) (channel filterLength stabilityLength : Byte) (s : State) : Reply × State :=
  withChannel channel s fun c =>
    let x := s.chan l c
    if x.state = .starting ∨ x.state = .running then refuse .channelRunning s
    else
      let f := clampTo 1 32 filterLength.toNat
      let m := clampTo 4 64 stabilityLength.toNat
      let s1 := s.setChan l c { x with filter := [], stability := [], filterLength := f, stabilityLength := m }
      let code := if f = filterLength.toNat ∧ m = stabilityLength.toNat then Code.ok else Code.clamped
      (.answer true code [octet f, octet m], s1)

/-- ZERO (R21). -/
def takeZeroRequest (l : LaneId) (channel : Byte) (s : State) : Reply × State :=
  withChannel channel s fun c =>
    let x := s.chan l c
    match x.state with
    | .stopped => refuse .channelStopped s
    | .starting => refuse .channelStopped s
    | .fault => refuse .channelFault s
    | .running =>
      let st := x.reading.map (·.status)
      if st = some .motion then refuse .motion s
      else if st = some .over ∨ st = some .under then refuse .zeroRange s
      else if x.tareKind ≠ .noTare then refuse .tareActive s
      else
        match x.latest, x.calib with
        | some e, some k =>
          if ((k.max / 50 : Nat) : Int) < |e.w - x.zi.getD 0| then refuse .zeroRange s
          else if c = .bag ∧ (s.lane l).bagCheck.state ≠ .suspended then refuseBagBusy l s
          else accept [] (s.setChan l c { x with zo := some e.w })
        | _, _ => refuse .zeroRange s

/-- A tare is taken: its value and kind are the detail (R22, R23). -/
def tareTaken (l : LaneId) (c : Chan) (t : Int) (k : TareKind) (s : State) : Reply × State :=
  accept (beInt 4 t ++ [k.value]) (s.modChan l c fun x => { x with tare := t, tareKind := k })

/-- A tare value in range (R22, R23). -/
def tareInRange (k : Calib) (t : Int) : Bool := decide (0 < t) && decide (t ≤ (k.max : Int))

/-- TARE in its weighed form (R22). -/
def takeTareWeighed (l : LaneId) (channel : Byte) (s : State) : Reply × State :=
  withChannel channel s fun c =>
    let x := s.chan l c
    if c = .bag then refuse .notPlatter s
    else
      match x.state with
      | .stopped => refuse .channelStopped s
      | .starting => refuse .channelStopped s
      | .fault => refuse .channelFault s
      | .running =>
        let st := x.reading.map (·.status)
        if st = some .motion then refuse .motion s
        else if st = some .over ∨ st = some .under then refuse .tareRange s
        else
          match x.latest.bind (·.g), x.calib with
          | some g, some k =>
            if !tareInRange k g then refuse .tareRange s
            else if !tareInRange k (roundTo g k.d1) then refuse .tareRange s
            else tareTaken l c (roundTo g k.d1) .weighed s
          | _, _ => refuse .tareRange s

/-- TARE in its preset form (R23). Its form octet is tested right after the channel field (R182): 1 is the preset form. -/
def takeTarePreset (l : LaneId) (channel form : Byte) (value : BitVec 32) (s : State) : Reply × State :=
  withChannel channel s fun c =>
    let x := s.chan l c
    let v : Int := value.toNat
    if form ≠ 1 then refuse .badValue s
    else if c = .bag then refuse .notPlatter s
    else
      match x.state with
      | .stopped => refuse .channelStopped s
      | .starting => refuse .channelStopped s
      | .fault => refuse .channelFault s
      | .running =>
        match x.calib with
        | some k =>
          if !tareInRange k v then refuse .tareRange s
          else if !tareInRange k (roundTo v k.d1) then refuse .tareRange s
          else tareTaken l c (roundTo v k.d1) .preset s
        | none => refuse .tareRange s

/-- CLEAR_TARE (R24). -/
def takeClearTare (l : LaneId) (channel : Byte) (s : State) : Reply × State :=
  withChannel channel s fun c =>
    if c = .bag then refuse .notPlatter s else accept [] (s.modChan l c Channel.clearTare)

/-! ## Calibration -/

/-- The channel takes a new calibration copy when a CAL_WRITE completes (R12). -/
def Channel.newCopy (x : Channel) (c : Calib) : Channel :=
  let x1 := { x.clearTare with calib := some c, zi := none, zo := none, stability := [] }
  if x.state = .fault ∧ x.cause = .sensor then { x1 with cause := .noZero, ret := none } else x1

/-- Taking the copy, with the display check of a changed fault cause (R12, R25). -/
def State.takeCopy (s : State) (l : LaneId) (ch : Chan) (c : Calib) : State :=
  let x := s.chan l ch
  let s1 := s.setChan l ch (x.newCopy c)
  if x.state = .fault ∧ x.cause = .sensor then s1.displayCheck l ch else s1

/-- A channel starts afresh with the copy a start-up read from the store (R3). -/
def State.startChannel (s : State) (l : LaneId) (ch : Chan) (copy : Option Calib) : State :=
  match copy with
  | some c => (s.modChan l ch fun x => { x.toStarting with calib := some c }).displayCheck l ch
  | none => s.enterFault l ch .uncalibrated none

end Sys2Proof.Machine
end

