-- ==== Sys2Proof/Machine/Management.lean ====
section
/-! DEFINITION. Part requests (section 10.4) and the calibration store (section 10.5). -/

namespace Sys2Proof.Machine

/-! ## Settings and date -/

/-- A setting in seconds as a timer's length, 0 for a timer turned off (R172). -/
def silenceLength (n : Nat) : Timer := if n = 0 then none else seconds n

/-- The link-silence timer after a write of the settings (R172): restarted or stopped only by a change of its time. A write
that waited in the receive buffer past the timer's expiry leaves the link silent (log 35). -/
def State.linkSetting (s : State) (old : Settings) : State :=
  if s.settings.linkSilence = old.linkSilence then s else { s with linkTimer := silenceLength s.settings.linkSilence }

/-- A lane's debounce after a write of the settings (R121): the interpreted level follows the new polarity. -/
def State.polaritySetting (old : Settings) (s : State) (l : LaneId) : State :=
  if s.enabled l ∧ (old.lanes.get l).polarity ≠ s.polarity l then s.setTill l ((s.till l).debounced (s.polarity l)) else s

/-- The drawers after a write of the settings: a raised budget is an admission event, a lowered one cuts (R123, R125). -/
def State.budgetSetting (s : State) (old : Settings) : State :=
  if old.solenoidBudget < s.settings.solenoidBudget then s.admission
  else if s.settings.solenoidBudget < old.solenoidBudget then s.cutToBudget
  else s

/-- The lanes in order. -/
def allLanes : List LaneId := [0, 1, 2, 3]

/-- A settings record is written (R174). -/
def State.writeSettings (s : State) (t : Settings) : State :=
  let old := s.settings
  let s1 : State := { s with settings := t }
  (allLanes.foldl (State.polaritySetting old) (s1.linkSetting old)).budgetSetting old

/-- SETTINGS_WRITE (R174). -/
def takeSettingsWrite (raw : RawSettings) (s : State) : Reply × State :=
  match settingsOf raw with
  | none => refuse .badValue s
  | some t =>
    (.answer true (if t.clamp = t then .ok else .clamped) (settingsOctets t.clamp), s.writeSettings t.clamp)

/-- SETTINGS_READ (R174). -/
def takeSettingsRead (s : State) : Reply × State := accept (settingsOctets s.settings) s

/-- SET_DATE (R175). -/
def takeSetDate (year month day : Byte) (s : State) : Reply × State :=
  let d : Date := { year := year.toNat, month := month.toNat, day := day.toNat }
  if d.valid then accept (dateOctets d) { s with date := some d } else refuse .badValue s

/-- RESTART (R176): the answer is the next record to join the upstream queue. -/
def takeRestart (s : State) : Reply × State :=
  if s.calWrite.isSome then refuse .calBusy s else accept [] { s with restart := some (s.upstream.length + 1) }

/-! ## The calibration store -/

/-- The largest audit count (R177). -/
def maxAudit : Nat := 65535

/-- A channel's part of the store (R177). -/
def State.stored (s : State) (l : LaneId) (c : Chan) : StoreEntry :=
  match c with
  | .platter => (s.store.get l).platter
  | .bag => (s.store.get l).bag

/-- The state with a channel's part of the store replaced. -/
def State.setStored (s : State) (l : LaneId) (c : Chan) (e : StoreEntry) : State :=
  let x := s.store.get l
  { s with store := s.store.set l (match c with
      | .platter => { x with platter := e }
      | .bag => { x with bag := e }) }

/-- The eight audit counts, by lane and channel (R180). -/
def State.audits (s : State) : List Nat :=
  (allLanes.map fun l => [(s.stored l .platter).audit, (s.stored l .bag).audit]).flatten

/-- The lane a lane field names (R177). -/
def laneOf (b : Byte) : Option LaneId :=
  match b.toNat with
  | 0 => some 0
  | 1 => some 1
  | 2 => some 2
  | 3 => some 3
  | _ => none

/-- The channel is STARTING or RUNNING (R178 step 6). -/
def Channel.working (x : Channel) : Bool := x.state == .starting || x.state == .running

/-- CAL_WRITE (R178). A request that passes raises the audit count and starts the store write; its answer comes with
CAL_WRITE_COMPLETE (log 19). -/
def takeCalWrite (lane channel : Byte) (record : RawCal) (tag : Byte) (s : State) : Reply × State :=
  match laneOf lane, chanOf channel with
  | some l, some c =>
    let k := calibOf record
    let e := s.stored l c
    if !s.enabled l then refuse .noLane s
    else if !s.calEn then refuse .calLocked s
    else if s.supplyLow then refuse .supplyLow s
    else if s.calWrite.isSome then refuse .calBusy s
    else if (s.chan l c).working then refuse .channelRunning s
    else if !k.valid then refuse .badCalibration s
    else if maxAudit ≤ e.audit then refuse .auditFull s
    else
      (.deferred,
        { s.setStored l c { e with audit := e.audit + 1 } with
          calWrite := some { lane := l, channel := c, record := k, tag := tag } })
  | some _, none => refuse .badValue s
  | none, some _ => refuse .badValue s
  | none, none => refuse .badValue s

/-- CAL_READ (R177). The mark that the stored record fails its check is a clear presence octet where the record would stand,
with zeros in place of its 22 octets (log 17). -/
def takeCalRead (lane channel : Byte) (s : State) : Reply × State :=
  match laneOf lane, chanOf channel with
  | some l, some c =>
    let e := s.stored l c
    let a := if s.enabled l then (s.chan l c).filterAverage else none
    accept (optional 22 (e.record.map calibOctets) ++ be 2 e.audit ++ optional 4 (a.map (be 4))) s
  | some _, none => refuse .badValue s
  | none, some _ => refuse .badValue s
  | none, none => refuse .badValue s

/-- The ANSWER of a completed CAL_WRITE: lane, channel, audit count (R178). -/
def calWriteAnswer (w : CalWrite) (audit : Nat) : Frame :=
  ⟨partAddr, kindAnswer, w.tag, answerPayload 0x74 true .ok ([laneAddr w.lane, chanValue w.channel] ++ be 2 audit)⟩

/-- A CAL_WRITE's store write completes (R178, R12): the record, the answer in its reserved record, the copy (log 19). -/
def State.calWriteCompletes (s : State) : State :=
  match s.calWrite with
  | none => s
  | some w =>
    let e := s.stored w.lane w.channel
    let s1 := s.setStored w.lane w.channel { e with record := some w.record }
    let s2 : State := { s1 with calWrite := none, reserved := s1.reserved - 1 }
    (s2.enqueue (calWriteAnswer w e.audit)).takeCopy w.lane w.channel w.record

/-- The store after power is lost during a write (R178): the count stays raised and the record fails its check. -/
def State.storeAfterLoss (s : State) : State :=
  match s.calWrite with
  | none => s
  | some w => s.setStored w.lane w.channel { s.stored w.lane w.channel with record := none }

end Sys2Proof.Machine
end

