-- ==== Sys2Proof/Machine/StartUp.lean ====
section
/-! DEFINITION. The supply monitor, the resets of the part and start-up (section 10.6). -/

namespace Sys2Proof.Machine

/-- Every field at its reset value (R180 step 3) but those a reset keeps: the pins and straps, the calibration store as it
stands after a loss of power (R177, R178), and the model's own queue and counter. No start-up notice is queued yet. -/
def State.blank (s : State) (cause : ResetCause) (check : SelfCheck) : State :=
  { pending := s.pending, power := .running, freeCount := s.freeCount, calEn := s.calEn, supplyBelow := s.supplyBelow,
    rateStrap := s.rateStrap, lanesStrap := s.lanesStrap, resetCause := cause, selfCheck := check,
    hello := ⟨s.storeAfterLoss.audits⟩, lanes := Four.make fun l => Lane.blank (s.lane l).till.rawHigh, items := [],
    ranges := [], glyphs := [], settings := Settings.default, date := none, store := s.storeAfterLoss.store,
    calWrite := none, receiver := .hunting, receiveBuffer := [], upstream := [], reserved := 0, restart := none,
    linkTimer := silenceLength Settings.default.linkSilence, silent := false, attention := Attention.clear,
    supplyLow := false, powerQueue := [], releasing := [], pay := PayLink.blank }

/-- The HELLO_NOTICE of a start-up (R180 step 4). -/
def State.helloNotice (s : State) : Frame :=
  ⟨partAddr, kindHello, 0, helloPayload s.lanesEnabled s.rateStrap.toNat s.resetCause s.selfCheck s.hello.audits⟩

/-- An enabled lane starts (R180 step 3): its drawer from its sensor (R132), the printer silence timer (R148), its
channels from the store, platter first (R3, R12; log 9). A lane not enabled takes no part (R168; log 27). -/
def State.startLane (s : State) (l : LaneId) : State :=
  if s.enabled l then
    let s1 := s.modLane l fun n =>
      { n with
        till := Till.start n.till.rawHigh (s.laneSettings l).leftOpenTime
        port := { n.port with silence := some 2000 } }
    (s1.startChannel l .platter (s1.stored l .platter).record).startChannel l .bag (s1.stored l .bag).record
  else s

/-- The supply monitor's comparison at the end of start-up (R179, R180). -/
def State.compareSupply (s : State) : State :=
  if s.supplyBelow then { s with supplyLow := true }.raisePart .supplyLow else s

/-- Start-up (R180): reset values, the HELLO_NOTICE, the lanes in order, the supply. -/
def State.startUp (s : State) (cause : ResetCause) (check : SelfCheck) : State :=
  let s1 := s.blank cause check
  (allLanes.foldl State.startLane (s1.enqueue s1.helloNotice)).compareSupply

/-- The straps and the supply as a start-up finds them (R168, R179; log 30). -/
def State.readInputs (s : State) (i : StartInputs) : State :=
  { s with rateStrap := i.rate, lanesStrap := i.lanes, supplyBelow := i.supplyLow }

/-- Supply is applied (R180; log 21). -/
def State.powerOn (s : State) (i : StartInputs) : State := (s.readInputs i).startUp .powerOn i.selfCheck

/-- The supply falls below the brown-out threshold (R179): the part is held in reset until it rises (log 21). -/
def State.brownOut (s : State) : State := { s.blank .brownOut s.selfCheck with power := .held }

/-- The supply rises above the brown-out threshold (R179): the straps are read and start-up runs. -/
def State.aboveBrownOut (s : State) (i : StartInputs) : State :=
  match s.power with
  | .running => s
  | .held => (s.readInputs i).startUp .brownOut i.selfCheck

/-- The reset of an accepted RESTART, due once the last octet of its answer has been sent (R176; log 22). -/
def State.restartReset (s : State) (check : SelfCheck) : State :=
  if s.power = .running ∧ s.restart = some 0 then s.startUp .restart check else s

/-- The supply falls below the warning threshold (R179): the flag, the condition, then the cuts with their notices (R125;
log 20, log 28). -/
def State.supplyFalls (s : State) : State :=
  let s1 : State := { s with supplyBelow := true }
  if s1.power = .running ∧ s1.supplyLow = false then ({ s1 with supplyLow := true }.raisePart .supplyLow).cutAll else s1

/-- The supply rises above the warning threshold (R179): the flag is cleared, and lanes are admitted (R123; log 28). -/
def State.supplyRises (s : State) : State :=
  let s1 : State := { s with supplyBelow := false }
  if s1.power = .running ∧ s1.supplyLow = true then ({ s1 with supplyLow := false }).admission else s1

end Sys2Proof.Machine
end

