-- ==== Sys2Proof/Machine/Authority.lean ====
section
/-! DEFINITION. Staff authority (section 9.2): grant, withdrawal and the expiry of the hold timer. -/

namespace Sys2Proof.Machine

/-- A grant (R159): it replaces any authority present, with a fresh hold timer of the lane's staff hold time. -/
def State.grantStaff (s : State) (l : LaneId) (src : AuthoritySource) (number : Nat) : State :=
  s.modLane l fun n =>
    { n with authority := some { source := src, number := number, timer := seconds (s.laneSettings l).staffHold } }

/-- The authority becomes absent and its timer stops (R160). -/
def State.dropStaff (s : State) (l : LaneId) : State := s.modLane l fun n => { n with authority := none }

/-- The hold timer expires (R160). -/
def State.staffExpires (s : State) (l : LaneId) : State :=
  match (s.lane l).authority with
  | none => s
  | some a => if a.timer.isSome then s.dropStaff l else s

/-- The largest staff number (R159). -/
def maxStaff : Nat := 999999

/-- STAFF_GRANT (R159): the detail carries the source, the staff number and the hold time. -/
def takeStaffGrant (l : LaneId) (number : BitVec 32) (s : State) : Reply × State :=
  if maxStaff < number.toNat then refuse .badValue s
  else
    accept ([AuthoritySource.host.value] ++ be 4 number.toNat ++ be 2 (s.laneSettings l).staffHold)
      (s.grantStaff l .host number.toNat)

/-- STAFF_WITHDRAW (R160). -/
def takeStaffWithdraw (l : LaneId) (s : State) : Reply × State := accept [] (s.dropStaff l)

end Sys2Proof.Machine
end

