-- ==== Sys2Proof/Machine/Card.lean ====
section
/-! DEFINITION. Card reading (chapter 5): swipe assembly, the grammar, classification, masking and the class rules. -/

namespace Sys2Proof.Machine

/-! ## Assembly -/

/-- Odd parity of a reader character (R85): the number of one-bits of its value and its parity bit is odd. -/
def oddParity (v : BitVec 4) (p : Bool) : Bool :=
  (v.getLsbD 0).xor ((v.getLsbD 1).xor ((v.getLsbD 2).xor ((v.getLsbD 3).xor p)))

/-- The most characters of a swipe (R87). -/
def swipeLimit : Nat := 40

/-- The gap time in ms (R88). -/
def gapTime : Nat := 50

/-- The card unit back in HUNTING with an empty buffer (R84, R86); the last swipe and the slot stay. -/
def CardUnit.hunt (u : CardUnit) : CardUnit := { u with assembling := false, buffer := [], parityError := false, gap := none }

/-- The longitudinal check of the characters of a swipe (R89). -/
def longitudinal (l : List (BitVec 4)) : BitVec 4 := l.foldl (fun a b => a ^^^ b) 0

/-! ## The grammar -/

/-- The decoded fields of a swipe (R90). -/
structure Swipe where
  account : List Nat
  year : Nat
  month : Nat
  service : List Nat
  discretionary : List Nat
  deriving DecidableEq, Repr

/-- A digit value (R85). -/
def isDigit (v : BitVec 4) : Bool := decide (v.toNat ≤ 9)

/-- A string of digits as a number. -/
def digitsValue (l : List Nat) : Nat := l.foldl (fun n d => n * 10 + d) 0

/-- The grammar of the characters between the start and the end sentinel (R90). -/
def parseBody (mid : List (BitVec 4)) : Option Swipe :=
  let account := mid.takeWhile isDigit
  match mid.dropWhile isDigit with
  | [] => none
  | sep :: tail =>
    let d := tail.map (·.toNat)
    let month := digitsValue ((d.drop 2).take 2)
    if sep == 13 && tail.all isDigit && decide (12 ≤ account.length) && decide (account.length ≤ 19) &&
        decide (7 ≤ tail.length) && decide (1 ≤ month) && decide (month ≤ 12) then
      some { account := account.map (·.toNat), year := digitsValue (d.take 2), month := month, service := (d.drop 4).take 3,
             discretionary := d.drop 7 }
    else none

/-- The grammar of the characters from the start sentinel through the end sentinel (R90). -/
def parseSwipe (l : List (BitVec 4)) : Option Swipe :=
  if l.head? == some 11 && l.getLast? == some 15 then parseBody ((l.drop 1).dropLast) else none

/-- The prefix: the first eight digits as a number (R90). -/
def prefixOf (account : List Nat) : Nat := digitsValue (account.take 8)

/-! ## Classification -/

/-- A range covers a prefix (R91). -/
def CardRange.covers (r : CardRange) (p : Nat) : Bool := decide (r.low ≤ p) && decide (p ≤ r.high)

/-- The table range that covers a prefix (R94 step 1). -/
def State.rangeFor (s : State) (p : Nat) : Option CardRange := s.ranges.find? fun r => r.covers p

/-- The sum of the check digit test over the digits from the right; `dbl`: the next digit is doubled (R96). -/
def checkSum : Bool → List Nat → Nat
  | _, [] => 0
  | false, d :: l => d + checkSum true l
  | true, d :: l => (if 9 < 2 * d then 2 * d - 9 else 2 * d) + checkSum false l

/-- The account passes the check digit test (R96). -/
def checkDigitOk (account : List Nat) : Bool := checkSum false account.reverse % 10 == 0

/-- The masked form of an account by a range (R99). -/
def maskAccount (account : List Nat) (r : CardRange) : Masked :=
  let len := account.length
  let lead := min r.keepFirst (len - r.keepLast - 3)
  { length := len, lead := account.take lead, trail := account.drop (len - r.keepLast), hidden := len - lead - r.keepLast }

/-- The expiry test (R97): NO_DATE or EXPIRED, or nothing when the card is good. -/
def State.expiryTest (s : State) (w : Swipe) : Option CardReason :=
  match s.date with
  | none => some .noDate
  | some d => if w.year * 100 + w.month < d.year * 100 + d.month then some .expired else none

/-! ## Reporting -/

/-- A swipe ends: its CARD_EVENT is offered and becomes the last swipe (R102). -/
def State.reportSwipe (s : State) (l : LaneId) (e : CardEvent) : State :=
  (s.modLane l fun n => { n with card := { n.card with lastSwipe := some e } }).offerLane l kindCardEvent (cardEventPayload e)

/-- A refused swipe (R102). -/
def refusedSwipe (r : CardReason) (c : CardClass) (v : AccountView) : CardEvent :=
  { event := .refused, reason := r, cardClass := c, bagState := none, amount := 0, staff := 0, account := v }

/-- A swipe refused before classification carries nothing of the account (R102). -/
def State.refuseSwipe (s : State) (l : LaneId) (r : CardReason) : State := s.reportSwipe l (refusedSwipe r .noClass .hiddenAll)

/-! ## The class rules -/

/-- The first condition of R98 that refuses a payment swipe. -/
def State.paymentTests (s : State) (l : LaneId) : Option CardReason :=
  let n := s.lane l
  if n.mode = .closed then some .laneClosed
  else if s.silent then some .linkDown
  else if n.mode = .self ∧ n.bagCheck.state ≠ .settled then some .bagBusy
  else if n.basketState = .empty ∨ n.basketState = .settled ∨ n.due = 0 then some .nothingDue
  else if 8 ≤ n.tenders.length then some .tenderFull
  else none

/-- The slot of an accepted payment swipe (R98). -/
def newSlot (w : Swipe) (m : Masked) (amount : Nat) : Slot :=
  { phase := .waiting, account := w.account, masked := m, year := w.year, month := w.month, service := w.service,
    discretionary := w.discretionary, amount := amount, second := false }

/-- The class rule of PAYMENT (R98). -/
def State.paymentSwipe (s : State) (l : LaneId) (w : Swipe) (r : CardRange) : State :=
  let n := s.lane l
  let m := maskAccount w.account r
  match s.paymentTests l with
  | some why =>
    s.reportSwipe l
      { refusedSwipe why .payment (.masked m) with
        bagState := if why = .bagBusy then some n.bagCheck.state else none }
  | none =>
    let amount := n.due.toNat
    ((s.modLane l fun n => n.setSlot (some (newSlot w m amount))).reportSwipe l
      { event := .accepted, reason := .noReason, cardClass := .payment, bagState := none, amount := amount, staff := 0,
        account := .masked m }).tryGrant

/-- The class rule of LOYALTY (R100). -/
def State.loyaltySwipe (s : State) (l : LaneId) (w : Swipe) : State :=
  s.reportSwipe l
    { event := .loyalty, reason := .noReason, cardClass := .loyalty, bagState := none, amount := 0, staff := 0,
      account := .full w.account }

/-- The staff number: the last 6 digits (R101). -/
def staffNumber (account : List Nat) : Nat := digitsValue (account.drop (account.length - 6))

/-- The class rule of STAFF (R101). -/
def State.staffSwipe (s : State) (l : LaneId) (w : Swipe) (r : CardRange) : State :=
  let m := maskAccount w.account r
  if s.silent then s.reportSwipe l (refusedSwipe .linkDown .staff (.masked m))
  else
    (s.grantStaff l .card (staffNumber w.account)).reportSwipe l
      { event := .staff, reason := .noReason, cardClass := .staff, bagState := none, amount := 0,
        staff := staffNumber w.account, account := .masked m }

/-- A second swipe: discarded, the slot's flag set (R95). -/
def State.secondSwipe (s : State) (l : LaneId) (x : Slot) : State := s.modLane l fun n => n.setSlot (some { x with second := true })

/-- How the account of a refused swipe of a classified range is shown (R102). -/
def accountView (w : Swipe) (r : CardRange) : AccountView :=
  match r.cardClass with
  | .loyalty => .full w.account
  | .payment => .masked (maskAccount w.account r)
  | .staff => .masked (maskAccount w.account r)
  | .blocked => .masked (maskAccount w.account r)
  | .noClass => .lengthOnly w.account.length

/-- Steps 4 and 5 of R94. -/
def State.classRule (s : State) (l : LaneId) (w : Swipe) (r : CardRange) : State :=
  match r.cardClass with
  | .loyalty => s.loyaltySwipe l w
  | .payment =>
    match s.expiryTest w with
    | some why => s.reportSwipe l (refusedSwipe why .payment (accountView w r))
    | none => s.paymentSwipe l w r
  | .staff =>
    match s.expiryTest w with
    | some why => s.reportSwipe l (refusedSwipe why .staff (accountView w r))
    | none => s.staffSwipe l w r
  | .blocked => s.reportSwipe l (refusedSwipe .blocked .blocked (accountView w r))
  | .noClass => s.reportSwipe l (refusedSwipe .noRange .noClass (.lengthOnly w.account.length))

/-- Step 3 of R94, then the class rule. -/
def State.checkDigitStep (s : State) (l : LaneId) (w : Swipe) (r : CardRange) : State :=
  if r.checkDigit && !checkDigitOk w.account then s.reportSwipe l (refusedSwipe .checkDigit r.cardClass (accountView w r))
  else s.classRule l w r

/-- Classification (R94). -/
def State.classify (s : State) (l : LaneId) (w : Swipe) : State :=
  match s.rangeFor (prefixOf w.account) with
  | none => s.reportSwipe l (refusedSwipe .noRange .noClass (.lengthOnly w.account.length))
  | some r =>
    if r.cardClass = .blocked then s.reportSwipe l (refusedSwipe .blocked .blocked (accountView w r))
    else
      match r.cardClass, (s.lane l).card.slot with
      | .payment, some x => s.secondSwipe l x
      | .payment, none => s.checkDigitStep l w r
      | .loyalty, _ => s.checkDigitStep l w r
      | .staff, _ => s.checkDigitStep l w r
      | .blocked, _ => s.checkDigitStep l w r
      | .noClass, _ => s.checkDigitStep l w r

/-- A completed swipe is judged (R89, R90): parity, longitudinal check, grammar, then classification. -/
def State.judge (s : State) (l : LaneId) (body : List (BitVec 4)) (lrc : BitVec 4) (parityError : Bool) : State :=
  if parityError then s.refuseSwipe l .badParity
  else if longitudinal body != lrc then s.refuseSwipe l .badLrc
  else
    match parseSwipe body with
    | none => s.refuseSwipe l .badFormat
    | some w => s.classify l w

/-! ## Events -/

/-- A lane's card unit changed. -/
def State.setCard (s : State) (l : LaneId) (u : CardUnit) : State := s.modLane l fun n => { n with card := u }

/-- A reader character is taken (R86, R87). The buffer is emptied with the end of the assembly. -/
def State.readerChar (s : State) (l : LaneId) (v : BitVec 4) (p : Bool) : State :=
  let u := (s.lane l).card
  let wrong := !oddParity v p
  if !u.assembling then
    if v = 11 then s.setCard l { u with assembling := true, buffer := [v], parityError := wrong, gap := some gapTime } else s
  else if swipeLimit ≤ u.buffer.length then (s.setCard l u.hunt).refuseSwipe l .tooLong
  else if u.buffer.getLast? == some 15 then (s.setCard l u.hunt).judge l u.buffer v (u.parityError || wrong)
  else s.setCard l { u with buffer := u.buffer ++ [v], parityError := u.parityError || wrong, gap := some gapTime }

/-- The gap timer expires (R88). -/
def State.gapExpires (s : State) (l : LaneId) : State :=
  let u := (s.lane l).card
  if u.gap.isSome then (s.setCard l u.hunt).refuseSwipe l .incomplete else s

end Sys2Proof.Machine
end

