-- ==== Sys2Proof/Machine/LaneControl.lean ====
section
/-! DEFINITION. Lane control (chapter 9): the lane mode, the attention requests and Lane Reset. -/

namespace Sys2Proof.Machine

/-! ## Lane mode -/

/-- Whether a change of lane mode is accepted (R158): nothing, or the refusal. -/
def Lane.modeRefusal (n : Lane) (target : LaneMode) : Option Code :=
  let empty := n.basketState == .empty
  match n.mode, target with
  | .attended, .self => if empty then none else some .basketActive
  | .closed, .self => if empty then none else some .basketActive
  | .attended, .closed => toClosed empty
  | .self, .closed => toClosed empty
  | .closed, .attended => none
  | .self, .attended => if empty || n.staffed then none else some .basketActive
  | .attended, .attended => none
  | .self, .self => none
  | .closed, .closed => none
where
  toClosed (empty : Bool) : Option Code :=
    if !empty then some .basketActive else if n.till.state != .closed then some .drawerOpen else none

/-- The answer of LANE_MODE carries the mode and the bag check state (R158). -/
def modeAnswer (l : LaneId) (s : State) : Reply × State :=
  accept [(s.lane l).mode.value, (s.lane l).bagCheck.state.value] s

/-- LANE_MODE (R158). -/
def takeLaneMode (l : LaneId) (target : Byte) (s : State) : Reply × State :=
  match laneModeOf target with
  | none => refuse .badValue s
  | some m =>
    let n := s.lane l
    if n.mode = m then modeAnswer l s
    else
      match n.modeRefusal m with
      | some c => refuse c s
      | none => modeAnswer l (s.modLane l fun n => { n.bagModeChange n.mode m with mode := m })

/-! ## Attention -/

/-- The record with a set of conditions cleared (R162). -/
def Attention.clearing (a : Attention) (set : BitVec 16) : Attention := { a with set := a.set &&& ~~~set }

/-- The record with its mask replaced (R163). -/
def Attention.masking (a : Attention) (set : BitVec 16) : Attention := { a with mask := set }

/-- The set and mask that the attention requests answer with (R162, R163). -/
def attentionDetail (a : Attention) : List Byte := be 2 a.set.toNat ++ be 2 a.mask.toNat

/-- An attention request to a lane: a name foreign to the record is BAD_VALUE (R162, R163). -/
def laneAttention (l : LaneId) (set : BitVec 16) (g : Attention → BitVec 16 → Attention) (s : State) : Reply × State :=
  if namesOnly laneCondNames set then
    let a := g (s.lane l).attention set
    accept (attentionDetail a) (s.setAttention l a)
  else refuse .badValue s

/-- An attention request to the part. -/
def partAttention (set : BitVec 16) (g : Attention → BitVec 16 → Attention) (s : State) : Reply × State :=
  if namesOnly partCondNames set then
    let a := g s.attention set
    accept (attentionDetail a) { s with attention := a }
  else refuse .badValue s

/-! ## Lane Reset -/

/-- LANE_RESET is refused while the slot is IN_FLIGHT or ABORTING (R167). -/
def Lane.withTerminal (n : Lane) : Bool :=
  match n.card.slot with
  | none => false
  | some x => x.phase != .waiting

/-- The parts of Lane Reset that touch only the lane's own blocks (R167): tares, weigh request, basket, bag check, card
unit, staff authority. -/
def Lane.reset1 (n : Lane) : Lane :=
  let n1 := { n.clearBasket with
    platter := n.platter.clearTare
    bag := n.bag.clearTare
    weigh := none
    card := { n.card.hunt with slot := none }
    authority := none }
  n1.bagReset

/-- LANE_RESET (R167): the detail carries the mode, the basket, bag check and drawer states, and the jobs cancelled. -/
def takeLaneReset (l : LaneId) (s : State) : Reply × State :=
  let n := s.lane l
  if n.withTerminal then refuse .laneBusy s
  else
    let s1 := ((s.modLane l Lane.reset1).drawerReset l).printReset l
    let n1 := s1.lane l
    accept [n1.mode.value, n1.basketState.value, n1.bagCheck.state.value, n1.till.state.value, octet n.jobs.length] s1

end Sys2Proof.Machine
end

