-- ==== Sys2Proof/Machine/Status.lean ====
section
/-! DEFINITION. LANE_STATUS (R166), PART_STATUS and HELLO (R173): what they report, in the encodings of R182 (log 12). -/

namespace Sys2Proof.Machine

/-- A weight in mg (R182). -/
def weightOctets (w : Int) : List Byte := beInt 4 w

/-- An optional weight. -/
def weightField (o : Option Int) : List Byte := optional 4 (o.map weightOctets)

/-- A time remaining, in ms (R182; log 4). -/
def State.timeField (s : State) (t : Timer) (which : Nat) : List Byte := be 4 (s.remaining t which)

/-- A status read has taken its free values (log 4). -/
def State.counted (s : State) : State := { s with freeCount := s.freeCount + 1 }

/-! ## Lane sections -/

/-- The weigh request of section 0 (R43). -/
def weighField (s : State) (n : Lane) : List Byte :=
  optional 21 (n.weigh.map fun w =>
    be 6 w.code ++ be 4 w.price ++ optional 4 (w.itemTare.map (be 4)) ++ [flagOctet w.exempt] ++ s.timeField w.timer 1 ++
    [flagOctet w.logFullReported])

/-- Section 0, lane (R166). -/
def laneSection (s : State) (l : LaneId) : List Byte :=
  let n := s.lane l
  [n.mode.value, (s.towerLight l).value] ++
  optional 9 (n.authority.map fun a => a.source.value :: be 4 a.number ++ s.timeField a.timer 0) ++
  attentionDetail n.attention ++ [n.basketState.value] ++ be 4 n.total ++ be 4 n.tendered ++ beInt 4 n.due ++
  [flagOctet n.token, flagOctet n.handoffOutstanding] ++ weighField s n ++ [if n.armed then 0 else 1] ++
  optional 1 (n.weigh.map fun w => [w.failed.value])

/-- A reading as a record (R20). -/
def readingOctets (r : Reading) : List Byte :=
  [r.status.value] ++ weightField r.nd ++ weightOctets r.tare ++ [r.tareKind.value] ++ optional 4 (r.d.map (be 4)) ++
  [flagOctet r.net, flagOctet r.centre]

/-- One channel of section 1 (R166). -/
def channelOctets (x : Channel) : List Byte :=
  [x.state.value, x.cause.value, octet x.filterLength, octet x.stabilityLength] ++ weightField x.zi ++ weightField x.zo ++
  weightOctets x.tare ++ [x.tareKind.value] ++ optional 18 (x.reading.map readingOctets)

/-- The bag check of section 1 (R83); the allowance is present while there is an awaiting entry (R65), whose position and bag
state share one presence octet (log 12). -/
def bagCheckOctets (s : State) (n : Lane) : List Byte :=
  let b := n.bagCheck
  let t := if b.placement.isSome then b.placement else b.removal
  [b.state.value] ++ weightField b.b ++
  optional 2 (b.awaiting.map fun pos => [octet pos, ((n.entryAt pos).map fun e => e.bag.value).getD 0]) ++
  optional 5 (b.e.map (beInt 5)) ++ optional 4 (b.awaiting.map fun _ => weightOctets b.a) ++ s.timeField t 0 ++ [flagOctet b.excursion]

/-- Section 1, weighing (R166). -/
def weighingSection (s : State) (l : LaneId) : List Byte :=
  let n := s.lane l
  counted [channelOctets n.platter, channelOctets n.bag] ++ bagCheckOctets s n

/-- The hand-off of a lane with the terminal (R117). -/
def State.laneHandoff (s : State) (l : LaneId) : Option InFlight := s.pay.inFlight.filter fun f => f.lane == l

/-- The card slot of section 2 (R117). -/
def slotOctets (s : State) (l : LaneId) (n : Lane) : List Byte :=
  let view : AccountView := match n.card.slot with
    | none => .hiddenAll
    | some x => .masked x.masked
  let h := s.laneHandoff l
  [slotStateValue n.card.slot] ++ accountBlock view ++ be 4 ((n.card.slot.map (·.amount)).getD 0) ++
  [flagOctet ((n.card.slot.map (·.second)).getD false)] ++ optional 1 (h.map fun f => [octet f.number]) ++
  s.timeField (if h.isSome then s.pay.response else none) 0

/-- The drawer of section 2 (R133). -/
def drawerOctets (s : State) (l : LaneId) (n : Lane) : List Byte :=
  let t := n.till
  [t.state.value, flagOctet n.token] ++ be 2 t.openCount ++
  [octet ((if t.retry then 1 else 0) + (if t.cut then 2 else 0) + (if t.forced then 4 else 0))] ++
  optional 1 ((s.queuePlace l).map (be 1)) ++ s.timeField t.leftOpen 1

/-- The last swipe of section 2: a record whose fields stand in the order R102 lists them, an absent one behind a clear
presence octet (R182; log 12). -/
def lastSwipeOctets (l : LaneId) (e : CardEvent) : List Byte :=
  [laneAddr l, e.event.value] ++ accountBlock e.account ++
  optional 4 (if e.event = .accepted then some (be 4 e.amount) else none) ++
  optional 4 (if e.event = .staff then some (be 4 e.staff) else none) ++
  [e.reason.value, e.cardClass.value] ++ optional 1 (e.bagState.map fun x => [x.value])

/-- The last result of section 2: a record whose fields stand in the order R117 lists them, an absent one behind a clear
presence octet (R182; log 12). -/
def lastResultOctets (l : LaneId) (r : CardResult) : List Byte :=
  [laneAddr l, octet r.number, r.outcome.value] ++ optional 1 (r.received.map fun b => [b]) ++ be 4 r.requested ++
  optional 4 (r.approved.map (be 4)) ++ optional 4 (r.tender.map (be 4)) ++
  optional 6 (r.approval.map fun x => be 6 x.toNat) ++
  [octet ((if r.overApproved then 1 else 0) + (if r.lateAbort then 2 else 0)), flagOctet r.second] ++
  accountBlock (.masked r.masked) ++ [r.basketState.value] ++ be 4 r.tendered ++ beInt 4 r.due

/-- Section 2, card and drawer (R166). -/
def cardSection (s : State) (l : LaneId) : List Byte :=
  let n := s.lane l
  slotOctets s l n ++ optional 40 (n.card.lastSwipe.map (lastSwipeOctets l)) ++
  optional 61 (n.lastResult.map (lastResultOctets l)) ++ drawerOctets s l n

/-- One job of section 3 (R155). -/
def jobOctets (j : Job) : List Byte :=
  let resolved := (j.refs.filter (·.resolved)).length
  [octet j.number, j.state.value] ++ be 2 j.stream.length ++ be 2 j.lines ++ [flagsOctet j.flags] ++ be 2 resolved ++
  be 2 (j.refs.length - resolved) ++ be 2 (j.refs.filter (·.hold)).length

/-- Section 3, print (R166). -/
def printSection (s : State) (l : LaneId) : List Byte :=
  let n := s.lane l
  be 2 (s.freeOctets l) ++ [n.port.state.value, flagOctet n.port.cutOwed] ++ counted (n.jobs.map jobOctets)

/-- LANE_STATUS (R166). -/
def takeLaneStatus (l : LaneId) (part : Byte) (s : State) : Reply × State :=
  match part.toNat with
  | 0 => accept (laneSection s l) s.counted
  | 1 => accept (weighingSection s l) s.counted
  | 2 => accept (cardSection s l) s.counted
  | 3 => accept (printSection s l) s
  | _ => refuse .badValue s

/-! ## Part status -/

/-- The last stray (R114). -/
def lastStrayOctets (p : PayLink) : List Byte := optional 14 (p.lastStray.map strayPayload)

/-- The payment link fields (R173). -/
def payLinkOctets (p : PayLink) : List Byte :=
  [flagOctet p.inFlight.isSome] ++ optional 1 (p.inFlight.map fun f => [laneAddr f.lane]) ++
  optional 1 (p.inFlight.map fun f => [octet f.number]) ++ [laneAddr p.pointer, octet p.counter] ++ lastStrayOctets p

/-- The PART_STATUS detail (R173). -/
def partStatusDetail (s : State) : List Byte :=
  [s.resetCause.value, selfCheckValue s.selfCheck, flagOctet s.degraded, octet s.lanesEnabled, octet s.rateStrap.toNat] ++
  [flagOctet s.supplyLow, flagOctet s.silent] ++ s.timeField s.linkTimer 0 ++ attentionDetail s.attention ++
  optional 3 (s.date.map dateOctets) ++ be 2 s.items.length ++ [octet s.ranges.length] ++ be 4 (glyphSet s.glyphs) ++
  payLinkOctets s.pay ++ counted (s.powerQueue.map fun l => [laneAddr l]) ++
  [octet s.releasing.length, octet s.settings.solenoidBudget, octet s.receiveBuffer.length, octet s.freeRecords] ++
  optional 2 (s.calWrite.map fun w => [laneAddr w.lane, chanValue w.channel])

/-- PART_STATUS (R173). -/
def takePartStatus (s : State) : Reply × State := accept (partStatusDetail s) s.counted

/-- HELLO (R173): the content of the last HELLO_NOTICE, with the present DEGRADED state. -/
def takeHello (s : State) : Reply × State :=
  accept (helloPayload s.lanesEnabled s.rateStrap.toNat s.resetCause s.selfCheck s.hello.audits ++ [flagOctet s.degraded]) s

end Sys2Proof.Machine
end

