-- ==== Sys2Proof/Machine/Tables.lean ====
section
/-! DEFINITION. The item table (section 3.1) and the card range table (section 5.4): how the host loads and reads them. -/

namespace Sys2Proof.Machine

/-! ## The item table -/

/-- The item table holds at most 4,096 records (R45). -/
def maxItems : Nat := 4096

/-- The table with a record inserted at its place in the code order, or replaced there (R46). -/
def putItem (r : ItemRecord) : List ItemRecord → List ItemRecord
  | [] => [r]
  | x :: xs => if r.code < x.code then r :: x :: xs else if r.code = x.code then r :: xs else x :: putItem r xs

/-- One record tested and applied (R46): the table, or the refusal. -/
def applyItem (t : List ItemRecord) (raw : RawItem) : Except Code (List ItemRecord) :=
  match itemOf raw with
  | none => .error .badValue
  | some r =>
    if t.any (fun x => x.code == r.code) then .ok (putItem r t)
    else if maxItems ≤ t.length then .error .tableFull
    else .ok (putItem r t)

/-- How a load ended: the records applied, the table, and the code of the first refused record (R46, R92). -/
structure Load (α : Type) where
  applied : Nat
  table : List α
  refusal : Option Code
  deriving DecidableEq, Repr

/-- Records applied in order until one is refused (R46, R92). -/
def loadAll {α β : Type} (apply : List α → β → Except Code (List α)) (n : Nat) (t : List α) : List β → Load α
  | [] => { applied := n, table := t, refusal := none }
  | r :: rs =>
    match apply t r with
    | .ok t1 => loadAll apply (n + 1) t1 rs
    | .error c => { applied := n, table := t, refusal := some c }

/-- The answer of a load: records applied, index of the first refused, records held in `w` octets (R46, R92, R186). -/
def loadAnswer {α : Type} (x : Load α) (w : Nat) (s : State) : Reply × State :=
  let detail (first : Nat) : List Byte := [octet x.applied, octet first] ++ be w x.table.length
  match x.refusal with
  | none => (.answer true .ok (detail 0), s)
  | some c => (.answer false c (detail (x.applied + 1)), s)

/-- ITEM_PUT (R46). -/
def takeItemPut (records : List RawItem) (s : State) : Reply × State :=
  let x := loadAll applyItem 0 s.items records
  loadAnswer x 2 { s with items := x.table }

/-- ITEM_REMOVE (R47). -/
def takeItemRemove (code : BitVec 48) (s : State) : Reply × State :=
  let c := code.toNat
  if !itemCodeOk c then refuse .badValue s
  else if (s.itemOf c).isNone then refuse .notFound s
  else
    let t := s.items.filter fun r => r.code != c
    accept (be 2 t.length) { s with items := t }

/-- ITEM_CLEAR (R47). -/
def takeItemClear (s : State) : Reply × State := accept (be 2 0) { s with items := [] }

/-- ITEM_GET (R48). -/
def takeItemGet (code : BitVec 48) (s : State) : Reply × State :=
  if !itemCodeOk code.toNat then refuse .badValue s
  else
    match s.itemOf code.toNat with
    | none => refuse .notFound s
    | some r => accept (itemOctets r) s

/-! ## The card range table -/

/-- The range table holds at most 64 ranges (R91). -/
def maxRanges : Nat := 64

/-- The largest prefix (R91). -/
def maxPrefix : Nat := 99999999

/-- The table with a range inserted at its place in the order of low (R92). -/
def putRange (r : CardRange) : List CardRange → List CardRange
  | [] => [r]
  | x :: xs => if r.low < x.low then r :: x :: xs else x :: putRange r xs

/-- One record tested and applied (R92). -/
def applyRange (t : List CardRange) (raw : RawRange) : Except Code (List CardRange) :=
  match rangeOf raw with
  | none => .error .badValue
  | some r =>
    if t.any (fun x => r.overlaps x) then .error .rangeOverlap
    else if maxRanges ≤ t.length then .error .tableFull
    else .ok (putRange r t)

/-- BIN_PUT (R92). -/
def takeBinPut (records : List RawRange) (s : State) : Reply × State :=
  let x := loadAll applyRange 0 s.ranges records
  loadAnswer x 1 { s with ranges := x.table }

/-- BIN_REMOVE (R93). -/
def takeBinRemove (low : BitVec 32) (s : State) : Reply × State :=
  let p := low.toNat
  if maxPrefix < p then refuse .badValue s
  else if !s.ranges.any (fun r => r.low == p) then refuse .notFound s
  else
    let t := s.ranges.filter fun r => r.low != p
    accept [octet t.length] { s with ranges := t }

/-- BIN_CLEAR (R93). -/
def takeBinClear (s : State) : Reply × State := accept [octet 0] { s with ranges := [] }

/-- The most ranges BIN_READ returns (R93). -/
def binReadLimit : Nat := 4

/-- BIN_READ (R93). -/
def takeBinRead (start : BitVec 32) (s : State) : Reply × State :=
  if maxPrefix < start.toNat then refuse .badValue s
  else
    let t := (s.ranges.filter fun r => decide (start.toNat ≤ r.low)).take binReadLimit
    accept (octet s.ranges.length :: counted (t.map rangeOctets)) s

end Sys2Proof.Machine
end

