-- ==== Sys2Proof/Machine/Wire.lean ====
section
/-! DEFINITION. Frames on the wire (R104, R148, R168): the sync octet, the octets in order, and the CRC-16. -/

namespace Sys2Proof.Machine

/-- One bit of the check: shift left, and the generator x^16 + x^12 + x^5 + 1 when a one leaves (R168). -/
def crcBit (c : BitVec 16) : BitVec 16 := if c.getLsbD 15 then (c <<< 1) ^^^ 0x1021 else c <<< 1

/-- One octet of the check, most significant bit first (R168). -/
def crcOctet (c : BitVec 16) (b : Byte) : BitVec 16 :=
  crcBit (crcBit (crcBit (crcBit (crcBit (crcBit (crcBit (crcBit (c ^^^ (b.setWidth 16 <<< 8)))))))))

/-- The check value of octets, from the initial value 0xFFFF (R168). -/
def crc16 (l : List Byte) : BitVec 16 := l.foldl crcOctet 0xFFFF

/-- The sync octet (R168). -/
def syncOctet : Byte := 0xC5

/-- The octets the check covers: the address through the payload (R168). -/
def bodyOctets (f : Frame) : List Byte := [f.addr, f.kind, f.tag, octet f.payload.length] ++ f.payload

/-- A frame as it stands on a line (section 11.1). -/
def wireOctets (f : Frame) : List Byte := syncOctet :: (bodyOctets f ++ be 2 (crc16 (bodyOctets f)).toNat)

/-- What a receiver makes of the octets after a sync octet (R169): a length above 240, a wrong check, or a good frame;
`none` while octets are missing. -/
inductive Received where
  | tooLong
  | badCheck
  | good (f : Frame)
  deriving DecidableEq, Repr

/-- The longest payload (R168). -/
def maxPayload : Nat := 240

/-- The octets after a sync octet as a frame (R169). -/
def receive (l : List Byte) : Option Received :=
  match l with
  | a :: k :: t :: n :: rest =>
    if maxPayload < n.toNat then some .tooLong
    else
      let p := rest.take n.toNat
      match rest.drop n.toNat with
      | hi :: lo :: _ =>
        let f : Frame := { addr := a, kind := k, tag := t, payload := p }
        if unbe [hi, lo] = (crc16 (bodyOctets f)).toNat then some (.good f) else some .badCheck
      | [] => none
      | [_] => none
  | [] => none
  | [_] => none
  | [_, _] => none
  | [_, _, _] => none

end Sys2Proof.Machine
end

