-- ==== Sys2Proof/Machine/Trunk.lean ====
section
/-! DEFINITION. The trunk link unit (sections 10.1 to 10.3): arrival, dispatch, the upstream queue and link silence. -/

namespace Sys2Proof.Machine

/-! ## Owners -/

/-- A request to a lane goes to that lane's owner; dispatch has tested the address (R170 step 1; log 24). -/
def toLane (addr : Byte) (s : State) (g : LaneId → Reply × State) : Reply × State :=
  match laneOf addr with
  | some l => g l
  | none => refuse .noLane s

/-- A request kind that goes to a lane or to the part (R184). -/
def toRecord (addr : Byte) (set : BitVec 16) (g : Attention → BitVec 16 → Attention) (s : State) : Reply × State :=
  if addr = partAddr then partAttention set g s else toLane addr s fun l => laneAttention l set g s

/-- A request is taken by its owner (R170). The rows that are no request of the host never reach here. -/
def take (i : Instr) (s : State) : Reply × State :=
  match i with
  | .item a _ c q p k => toLane a s fun l => takeItem l c q p k s
  | .void a _ p => toLane a s fun l => takeVoid l p s
  | .cancelWeigh a _ => toLane a s fun l => takeCancelWeigh l s
  | .tender a _ k m => toLane a s fun l => takeTender l k m s
  | .newBasket a _ => toLane a s fun l => takeNewBasket l s
  | .abandonBasket a _ => toLane a s fun l => takeAbandonBasket l s
  | .basketRead a _ p => toLane a s fun l => takeBasketRead l p s
  | .laneMode a _ m => toLane a s fun l => takeLaneMode l m s
  | .channelStart a _ c => toLane a s fun l => takeChannelStart l c s
  | .channelStop a _ c => toLane a s fun l => takeChannelStop l c s
  | .channelSetup a _ c f m => toLane a s fun l => takeChannelSetup l c f m s
  | .zero a _ c => toLane a s fun l => takeZeroRequest l c s
  | .tareWeighed a _ c _ => toLane a s fun l => takeTareWeighed l c s
  | .tarePreset a _ c f v => toLane a s fun l => takeTarePreset l c f v s
  | .clearTare a _ c => toLane a s fun l => takeClearTare l c s
  | .bagOverride a _ => toLane a s fun l => takeBagOverride l s
  | .cancelCard a _ => toLane a s fun l => takeCancelCard l s
  | .drawerOpen a _ => toLane a s fun l => takeDrawerOpen l s
  | .drawerClear a _ => toLane a s fun l => takeDrawerClear l s
  | .printBegin a _ => toLane a s fun l => takePrintBegin l s
  | .printData a _ j o => toLane a s fun l => takePrintData l j o s
  | .printEnd a _ j => toLane a s fun l => takePrintEnd l j s
  | .printCancel a _ j => toLane a s fun l => takePrintCancel l j s
  | .laneStatus a _ n => toLane a s fun l => takeLaneStatus l n s
  | .laneReset a _ => toLane a s fun l => takeLaneReset l s
  | .staffGrant a _ n => toLane a s fun l => takeStaffGrant l n s
  | .staffWithdraw a _ => toLane a s fun l => takeStaffWithdraw l s
  | .clearAttention a _ c => toRecord a c Attention.clearing s
  | .attentionMask a _ c => toRecord a c Attention.masking s
  | .hello _ => takeHello s
  | .partStatus _ => takePartStatus s
  | .settingsWrite _ r => takeSettingsWrite r s
  | .settingsRead _ => takeSettingsRead s
  | .setDate _ y m d => takeSetDate y m d s
  | .restart _ => takeRestart s
  | .itemPut _ l => takeItemPut l s
  | .itemRemove _ c => takeItemRemove c s
  | .itemClear _ => takeItemClear s
  | .itemGet _ c => takeItemGet c s
  | .binPut _ l => takeBinPut l s
  | .binRemove _ n => takeBinRemove n s
  | .binClear _ => takeBinClear s
  | .binRead _ n => takeBinRead n s
  | .glyphPut _ c p => takeGlyphPut c p s
  | .glyphClear _ c => takeGlyphClear c s
  | .calWrite t l c r _ => takeCalWrite l c r t s
  | .calRead _ l c => takeCalRead l c s
  | .unknownKind _ => refuse .unknownKind s
  | .goodFrame _ _ => refuse .unknownKind s
  | .calWriteComplete => refuse .unknownKind s
  | .frameError _ => refuse .unknownKind s
  | .upstreamFrameSent _ => refuse .unknownKind s
  | .restartReset _ => refuse .unknownKind s
  | .linkSilenceExpiry => refuse .unknownKind s
  | .powerOn _ => refuse .unknownKind s
  | .brownOut => refuse .unknownKind s
  | .supplyLowSet => refuse .unknownKind s
  | .supplyLowClear => refuse .unknownKind s
  | .sampleArrival _ _ _ => refuse .unknownKind s
  | .channelSilenceExpiry _ _ => refuse .unknownKind s
  | .initialZeroExpiry _ _ => refuse .unknownKind s
  | .displayTimerExpiry _ _ => refuse .unknownKind s
  | .weighTimerExpiry _ => refuse .unknownKind s
  | .placementTimerExpiry _ => refuse .unknownKind s
  | .removalTimerExpiry _ => refuse .unknownKind s
  | .readerCharacter _ _ _ => refuse .unknownKind s
  | .gapTimerExpiry _ => refuse .unknownKind s
  | .result _ _ _ _ _ => refuse .unknownKind s
  | .paymentFrameSent => refuse .unknownKind s
  | .responseTimerExpiry => refuse .unknownKind s
  | .drawerSensorLevel _ _ => refuse .unknownKind s
  | .debounceTimerExpiry _ => refuse .unknownKind s
  | .pulseTimerExpiry _ => refuse .unknownKind s
  | .checkTimerExpiry _ => refuse .unknownKind s
  | .leftOpenExpiry _ => refuse .unknownKind s
  | .lineDone _ _ => refuse .unknownKind s
  | .lineFailed _ _ => refuse .unknownKind s
  | .printerStatus _ _ => refuse .unknownKind s
  | .printerSilenceExpiry _ => refuse .unknownKind s
  | .answerTimerExpiry _ => refuse .unknownKind s
  | .staffHoldExpiry _ => refuse .unknownKind s
  | .supplyAboveBrownOut _ => refuse .unknownKind s
  | .paymentFrameDiscarded _ => refuse .unknownKind s
  | .printerFrameDiscarded _ _ => refuse .unknownKind s

/-! ## Dispatch -/

/-- An address that names an enabled lane or the part (R170 step 1). -/
def State.addressed (s : State) (addr : Byte) : Bool :=
  match laneOf addr with
  | some l => s.enabled l
  | none => addr == partAddr

/-- The requests a DEGRADED part takes (R170 step 4). -/
def takenDegraded : ReqKind → Bool
  | .hello => true
  | .partStatus => true
  | .calRead => true
  | .restart => true
  | _ => false

/-- What dispatch makes of a frame (R170): the first test that fails, or the request. -/
def State.dispatchTests (s : State) (f : Frame) : Except Code Instr :=
  if !s.addressed f.addr then .error .noLane
  else
    match requestKind f.addr f.kind with
    | none => .error .unknownKind
    | some k =>
      if !k.lengthOk f.payload.length then .error .badLength
      else if s.degraded && !takenDegraded k then .error .partFault
      else .ok (requestOf s.calEn k f)

/-- The reply to a dispatched frame, with the state its owner leaves (R170). -/
def State.replyTo (s : State) (f : Frame) : Reply × State :=
  match s.dispatchTests f with
  | .error c => refuse c s
  | .ok i => take i s

/-- One record is reserved for an answer (R170). -/
def State.reserve (s : State) : State := { s with reserved := s.reserved + 1 }

/-- The receive buffer is replaced. -/
def State.setBuffer (s : State) (q : List Frame) : State := { s with receiveBuffer := q }

/-- An answer fills its reserved record, at a place of the queue (R170). -/
def State.putAnswer (s : State) (place : Nat) (f : Frame) : State :=
  { s with upstream := insertAt place f s.upstream, reserved := s.reserved - 1 }

/-- The answer fills its reserved record, ahead of the notices of the same action: it stands where the queue ended
before the request was taken (R170). A reply that is still to come keeps its record reserved (R178). -/
def settle (f : Frame) (place : Nat) (r : Reply × State) : State :=
  match r.1 with
  | .answer acc c detail => r.2.putAnswer place (answerFrame f acc c detail)
  | .deferred => r.2

/-- A frame that has left the receive buffer is dispatched (R170). -/
def State.dispatch (s : State) (f : Frame) : State := settle f s.upstream.length (s.reserve.replyTo f)

/-- Frames are dispatched oldest first while a record is free and no RESTART has been accepted (R170, R176). -/
def State.drain : Nat → State → State
  | 0, s => s
  | n + 1, s =>
    match s.receiveBuffer with
    | [] => s
    | f :: rest =>
      if s.restart.isSome || s.freeRecords = 0 then s else State.drain n ((s.setBuffer rest).dispatch f)

/-- The receive buffer holds at most 4 frames (R169). -/
def bufferSize : Nat := 4

/-! ## Events -/

/-- A frame is discarded by the receiver, which returns to hunting; FRAME_ERROR is raised (R169). -/
def State.discardFrame (s : State) : State := { s with receiver := .hunting }.raisePart .frameError

/-- A good frame restarts the link-silence timer and ends the silent state (R169, R172). -/
def State.heardHost (s : State) : State :=
  { s with linkTimer := silenceLength s.settings.linkSilence, silent := false }

/-- A frame arrives whole on the trunk link (R169): a length above 240 is discarded (log 29), a good frame enters the
receive buffer or overruns it, and dispatch follows (R170). -/
def State.arrive (s : State) (f : Frame) : State :=
  if maxPayload < f.payload.length then s.discardFrame
  else
    let s1 := s.heardHost
    if bufferSize ≤ s1.receiveBuffer.length then s1.raisePart .rxOverrun
    else State.drain bufferSize (s1.setBuffer (s1.receiveBuffer ++ [f]))

/-- The last octet of the frame at the head of the upstream queue is sent (R171); dispatch follows (R170). After the
RESTART answer nothing more is sent (R176). -/
def State.frameSent (s : State) : State :=
  match s.upstream with
  | [] => s
  | _ :: t =>
    match s.restart with
    | none => State.drain bufferSize { s with upstream := t }
    | some 0 => s
    | some (k + 1) => { s with upstream := t, restart := some k }

/-- The link-silence timer expires (R172). -/
def State.linkExpires (s : State) : State :=
  if s.linkTimer.isNone then s else { s with linkTimer := none, silent := true }.raisePart .linkSilent

/-- A request command: the arrival of its frame (log 1). -/
def State.request (s : State) (i : Instr) : State :=
  match encodeRequest i with
  | none => s
  | some f => s.onPart fun x => x.arrive f

/-- The level of the CAL_EN input (R178; log 2). -/
def State.withCalEn (s : State) (level : Bool) : State := { s with calEn := level }

end Sys2Proof.Machine
end

