-- ==== Sys2Proof/Machine/Events.lean ====
section
/-! DEFINITION. The events at the part: each is the effect its rule gives on the blocks it reaches. An event at a lane not
enabled, at a part held in reset, or of a timer that does not run has no effect (log 23). -/

namespace Sys2Proof.Machine

/-- CAL_WRITE_COMPLETE (R178, R12). -/
def execCalWriteComplete (s : State) : Host.Outcome State Fault Refusal :=
  .next (s.onPart State.calWriteCompletes)

/-- GOOD_FRAME (R169): any frame that passes the tests of the receiver. -/
def execGoodFrame (frame : Frame) (calEn : Bool) (s : State) : Host.Outcome State Fault Refusal :=
  .next ((s.withCalEn calEn).onPart fun x => x.arrive frame)

/-- FRAME_ERROR (R169): every cause has the same effect. -/
def execFrameError (_cause : TrunkDiscard) (s : State) : Host.Outcome State Fault Refusal :=
  .next (s.onPart State.discardFrame)

/-- UPSTREAM_FRAME_SENT (R171). -/
def execUpstreamFrameSent (calEn : Bool) (s : State) : Host.Outcome State Fault Refusal :=
  .next ((s.withCalEn calEn).onPart State.frameSent)

/-- RESTART_RESET (R176, R180). -/
def execRestartReset (selfCheck : SelfCheck) (s : State) : Host.Outcome State Fault Refusal :=
  .next (s.restartReset selfCheck)

/-- LINK_SILENCE_EXPIRY (R172). -/
def execLinkSilenceExpiry (s : State) : Host.Outcome State Fault Refusal :=
  .next (s.onPart State.linkExpires)

/-- POWER_ON (R180). -/
def execPowerOn (inputs : StartInputs) (s : State) : Host.Outcome State Fault Refusal :=
  .next (s.powerOn inputs)

/-- BROWN_OUT (R179). -/
def execBrownOut (s : State) : Host.Outcome State Fault Refusal :=
  .next (s.brownOut)

/-- SUPPLY_LOW_SET (R179, R125). -/
def execSupplyLowSet (s : State) : Host.Outcome State Fault Refusal :=
  .next (s.supplyFalls)

/-- SUPPLY_LOW_CLEAR (R179, R123). -/
def execSupplyLowClear (s : State) : Host.Outcome State Fault Refusal :=
  .next (s.supplyRises)

/-- SAMPLE_ARRIVAL (R2). -/
def execSampleArrival (lane : LaneId) (channel : Chan) (raw : BitVec 20)
    (s : State) : Host.Outcome State Fault Refusal :=
  .next (s.onLane lane fun x => x.sample lane channel raw.toNat)

/-- CHANNEL_SILENCE_EXPIRY (R7). -/
def execChannelSilenceExpiry (lane : LaneId) (channel : Chan) (s : State) : Host.Outcome State Fault Refusal :=
  .next (s.onLane lane fun x => x.silenceExpires lane channel)

/-- INITIAL_ZERO_EXPIRY (R9). -/
def execInitialZeroExpiry (lane : LaneId) (channel : Chan) (s : State) : Host.Outcome State Fault Refusal :=
  .next (s.onLane lane fun x => x.initialZeroExpires lane channel)

/-- DISPLAY_TIMER_EXPIRY (R25). -/
def execDisplayTimerExpiry (lane : LaneId) (channel : Chan) (s : State) : Host.Outcome State Fault Refusal :=
  .next (s.onLane lane fun x => x.displayExpires lane channel)

/-- WEIGH_TIMER_EXPIRY (R27). -/
def execWeighTimerExpiry (lane : LaneId) (s : State) : Host.Outcome State Fault Refusal :=
  .next (s.onLane lane fun x => x.weighExpires lane)

/-- PLACEMENT_TIMER_EXPIRY (R75). -/
def execPlacementTimerExpiry (lane : LaneId) (s : State) : Host.Outcome State Fault Refusal :=
  .next (s.onLane lane fun x => x.placementExpires lane)

/-- REMOVAL_TIMER_EXPIRY (R75). -/
def execRemovalTimerExpiry (lane : LaneId) (s : State) : Host.Outcome State Fault Refusal :=
  .next (s.onLane lane fun x => x.removalExpires lane)

/-- READER_CHARACTER (R86). -/
def execReaderCharacter (lane : LaneId) (value : BitVec 4) (parity : Bool)
    (s : State) : Host.Outcome State Fault Refusal :=
  .next (s.onLane lane fun x => x.readerChar lane value parity)

/-- GAP_TIMER_EXPIRY (R88). -/
def execGapTimerExpiry (lane : LaneId) (s : State) : Host.Outcome State Fault Refusal :=
  .next (s.onLane lane fun x => x.gapExpires lane)

/-- RESULT (R104, R108): the frame arrives at the payment link's receiver. -/
def execResult (addr : Byte) (tag : Byte) (outcome : Byte) (amount : BitVec 32) (approval : BitVec 48)
    (s : State) : Host.Outcome State Fault Refusal :=
  .next (s.onPart fun x => x.paymentArrive (resultOnLine addr tag outcome amount approval))

/-- PAYMENT_FRAME_SENT (R104, R105). -/
def execPaymentFrameSent (s : State) : Host.Outcome State Fault Refusal :=
  .next (s.onPart State.paymentSent)

/-- RESPONSE_TIMER_EXPIRY (R113). -/
def execResponseTimerExpiry (s : State) : Host.Outcome State Fault Refusal :=
  .next (s.onPart State.responseExpires)

/-- DRAWER_SENSOR_LEVEL (R121). The level stands at the pin whether or not the till unit runs. -/
def execDrawerSensorLevel (lane : LaneId) (high : Bool) (s : State) : Host.Outcome State Fault Refusal :=
  .next ((s.sensorPin lane high).onLane lane fun x => x.debounceUpdate lane)

/-- DEBOUNCE_TIMER_EXPIRY (R121). -/
def execDebounceTimerExpiry (lane : LaneId) (s : State) : Host.Outcome State Fault Refusal :=
  .next (s.onLane lane fun x => x.debounceExpires lane)

/-- PULSE_TIMER_EXPIRY (R124). -/
def execPulseTimerExpiry (lane : LaneId) (s : State) : Host.Outcome State Fault Refusal :=
  .next (s.onLane lane fun x => x.pulseExpires lane)

/-- CHECK_TIMER_EXPIRY (R126). -/
def execCheckTimerExpiry (lane : LaneId) (s : State) : Host.Outcome State Fault Refusal :=
  .next (s.onLane lane fun x => x.checkExpires lane)

/-- LEFT_OPEN_EXPIRY (R127). -/
def execLeftOpenExpiry (lane : LaneId) (s : State) : Host.Outcome State Fault Refusal :=
  .next (s.onLane lane fun x => x.leftOpenExpires lane)

/-- LINE_DONE (R148, R151): the frame arrives at the port's receiver. -/
def execLineDone (lane : LaneId) (tag : Byte) (s : State) : Host.Outcome State Fault Refusal :=
  .next (s.onLane lane fun x => x.printerArrive lane ⟨0, kindLineDone, tag, []⟩)

/-- LINE_FAILED (R148, R151): the frame arrives at the port's receiver. -/
def execLineFailed (lane : LaneId) (tag : Byte) (s : State) : Host.Outcome State Fault Refusal :=
  .next (s.onLane lane fun x => x.printerArrive lane ⟨0, kindLineFailed, tag, []⟩)

/-- PRINTER_STATUS (R148, R149): the frame arrives at the port's receiver. -/
def execPrinterStatus (lane : LaneId) (report : PrinterReport) (s : State) : Host.Outcome State Fault Refusal :=
  .next (s.onLane lane fun x => x.printerArrive lane (statusOnLine report))

/-- PRINTER_SILENCE_EXPIRY (R149). -/
def execPrinterSilenceExpiry (lane : LaneId) (s : State) : Host.Outcome State Fault Refusal :=
  .next (s.onLane lane fun x => x.printerSilent lane)

/-- ANSWER_TIMER_EXPIRY (R151). -/
def execAnswerTimerExpiry (lane : LaneId) (s : State) : Host.Outcome State Fault Refusal :=
  .next (s.onLane lane fun x => x.answerExpires lane)

/-- STAFF_HOLD_EXPIRY (R160). -/
def execStaffHoldExpiry (lane : LaneId) (s : State) : Host.Outcome State Fault Refusal :=
  .next (s.onLane lane fun x => x.staffExpires lane)

/-- SUPPLY_ABOVE_BROWN_OUT (R179, R180). -/
def execSupplyAboveBrownOut (inputs : StartInputs) (s : State) : Host.Outcome State Fault Refusal :=
  .next (s.aboveBrownOut inputs)

/-- PAYMENT_FRAME_DISCARDED (R104): a frame broken off, or one that the receiver's tests refuse. -/
def execPaymentFrameDiscarded (cause : PaymentDiscard) (s : State) : Host.Outcome State Fault Refusal :=
  .next (s.onPart fun x => x.paymentBroken cause)

/-- PRINTER_FRAME_DISCARDED (R148): a frame broken off, or one that the receiver's tests refuse. -/
def execPrinterFrameDiscarded (lane : LaneId) (cause : PrinterDiscard)
    (s : State) : Host.Outcome State Fault Refusal :=
  .next (s.onLane lane fun x => x.printerBroken lane cause)

end Sys2Proof.Machine
end

