-- ==== Sys2Proof/Machine/Requests.lean ====
section
/-! DEFINITION. The requests of the host: each is the arrival of its frame and, where a record is free, its dispatch
(R169, R170; log 1). What the owner does with it is its own definition, named by the rule. -/

namespace Sys2Proof.Machine

/-- ITEM (R52). -/
def execItem (addr : Byte) (tag : Byte) (code : BitVec 48) (quantity : Byte) (price : BitVec 32) (skip : Byte)
    (s : State) : Host.Outcome State Fault Refusal :=
  .next (s.request (.item addr tag code quantity price skip))

/-- VOID (R56). -/
def execVoid (addr : Byte) (tag : Byte) (position : Byte) (s : State) : Host.Outcome State Fault Refusal :=
  .next (s.request (.void addr tag position))

/-- CANCEL_WEIGH (R28). -/
def execCancelWeigh (addr : Byte) (tag : Byte) (s : State) : Host.Outcome State Fault Refusal :=
  .next (s.request (.cancelWeigh addr tag))

/-- TENDER (R58). -/
def execTender (addr : Byte) (tag : Byte) (kind : Byte) (amount : BitVec 32)
    (s : State) : Host.Outcome State Fault Refusal :=
  .next (s.request (.tender addr tag kind amount))

/-- NEW_BASKET (R63). -/
def execNewBasket (addr : Byte) (tag : Byte) (s : State) : Host.Outcome State Fault Refusal :=
  .next (s.request (.newBasket addr tag))

/-- ABANDON_BASKET (R63). -/
def execAbandonBasket (addr : Byte) (tag : Byte) (s : State) : Host.Outcome State Fault Refusal :=
  .next (s.request (.abandonBasket addr tag))

/-- BASKET_READ (R64). -/
def execBasketRead (addr : Byte) (tag : Byte) (start : Byte) (s : State) : Host.Outcome State Fault Refusal :=
  .next (s.request (.basketRead addr tag start))

/-- LANE_MODE (R158). -/
def execLaneMode (addr : Byte) (tag : Byte) (target : Byte) (s : State) : Host.Outcome State Fault Refusal :=
  .next (s.request (.laneMode addr tag target))

/-- CHANNEL_START (R4). -/
def execChannelStart (addr : Byte) (tag : Byte) (channel : Byte) (s : State) : Host.Outcome State Fault Refusal :=
  .next (s.request (.channelStart addr tag channel))

/-- CHANNEL_STOP (R5). -/
def execChannelStop (addr : Byte) (tag : Byte) (channel : Byte) (s : State) : Host.Outcome State Fault Refusal :=
  .next (s.request (.channelStop addr tag channel))

/-- CHANNEL_SETUP (R6). -/
def execChannelSetup (addr : Byte) (tag : Byte) (channel : Byte) (filterLength : Byte) (stabilityLength : Byte)
    (s : State) : Host.Outcome State Fault Refusal :=
  .next (s.request (.channelSetup addr tag channel filterLength stabilityLength))

/-- ZERO (R21). -/
def execZero (addr : Byte) (tag : Byte) (channel : Byte) (s : State) : Host.Outcome State Fault Refusal :=
  .next (s.request (.zero addr tag channel))

/-- TARE_WEIGHED (R22). -/
def execTareWeighed (addr : Byte) (tag : Byte) (channel : Byte) (value : BitVec 32)
    (s : State) : Host.Outcome State Fault Refusal :=
  .next (s.request (.tareWeighed addr tag channel value))

/-- TARE_PRESET (R23). -/
def execTarePreset (addr : Byte) (tag : Byte) (channel : Byte) (form : Byte) (value : BitVec 32)
    (s : State) : Host.Outcome State Fault Refusal :=
  .next (s.request (.tarePreset addr tag channel form value))

/-- CLEAR_TARE (R24). -/
def execClearTare (addr : Byte) (tag : Byte) (channel : Byte) (s : State) : Host.Outcome State Fault Refusal :=
  .next (s.request (.clearTare addr tag channel))

/-- BAG_OVERRIDE (R78). -/
def execBagOverride (addr : Byte) (tag : Byte) (s : State) : Host.Outcome State Fault Refusal :=
  .next (s.request (.bagOverride addr tag))

/-- CANCEL_CARD (R115). -/
def execCancelCard (addr : Byte) (tag : Byte) (s : State) : Host.Outcome State Fault Refusal :=
  .next (s.request (.cancelCard addr tag))

/-- DRAWER_OPEN (R122). -/
def execDrawerOpen (addr : Byte) (tag : Byte) (s : State) : Host.Outcome State Fault Refusal :=
  .next (s.request (.drawerOpen addr tag))

/-- DRAWER_CLEAR (R129). -/
def execDrawerClear (addr : Byte) (tag : Byte) (s : State) : Host.Outcome State Fault Refusal :=
  .next (s.request (.drawerClear addr tag))

/-- PRINT_BEGIN (R136). -/
def execPrintBegin (addr : Byte) (tag : Byte) (s : State) : Host.Outcome State Fault Refusal :=
  .next (s.request (.printBegin addr tag))

/-- PRINT_DATA (R137, R138). -/
def execPrintData (addr : Byte) (tag : Byte) (job : Byte) (octets : List Byte)
    (s : State) : Host.Outcome State Fault Refusal :=
  .next (s.request (.printData addr tag job octets))

/-- PRINT_END (R139). -/
def execPrintEnd (addr : Byte) (tag : Byte) (job : Byte) (s : State) : Host.Outcome State Fault Refusal :=
  .next (s.request (.printEnd addr tag job))

/-- PRINT_CANCEL (R141). -/
def execPrintCancel (addr : Byte) (tag : Byte) (job : Byte) (s : State) : Host.Outcome State Fault Refusal :=
  .next (s.request (.printCancel addr tag job))

/-- LANE_STATUS (R166). -/
def execLaneStatus (addr : Byte) (tag : Byte) (part : Byte) (s : State) : Host.Outcome State Fault Refusal :=
  .next (s.request (.laneStatus addr tag part))

/-- LANE_RESET (R167). -/
def execLaneReset (addr : Byte) (tag : Byte) (s : State) : Host.Outcome State Fault Refusal :=
  .next (s.request (.laneReset addr tag))

/-- STAFF_GRANT (R159). -/
def execStaffGrant (addr : Byte) (tag : Byte) (number : BitVec 32) (s : State) : Host.Outcome State Fault Refusal :=
  .next (s.request (.staffGrant addr tag number))

/-- STAFF_WITHDRAW (R160). -/
def execStaffWithdraw (addr : Byte) (tag : Byte) (s : State) : Host.Outcome State Fault Refusal :=
  .next (s.request (.staffWithdraw addr tag))

/-- CLEAR_ATTENTION (R162). -/
def execClearAttention (addr : Byte) (tag : Byte) (set : BitVec 16) (s : State) : Host.Outcome State Fault Refusal :=
  .next (s.request (.clearAttention addr tag set))

/-- ATTENTION_MASK (R163). -/
def execAttentionMask (addr : Byte) (tag : Byte) (set : BitVec 16) (s : State) : Host.Outcome State Fault Refusal :=
  .next (s.request (.attentionMask addr tag set))

/-- HELLO (R173). -/
def execHello (tag : Byte) (s : State) : Host.Outcome State Fault Refusal :=
  .next (s.request (.hello tag))

/-- PART_STATUS (R173). -/
def execPartStatus (tag : Byte) (s : State) : Host.Outcome State Fault Refusal :=
  .next (s.request (.partStatus tag))

/-- SETTINGS_WRITE (R174). -/
def execSettingsWrite (tag : Byte) (record : RawSettings) (s : State) : Host.Outcome State Fault Refusal :=
  .next (s.request (.settingsWrite tag record))

/-- SETTINGS_READ (R174). -/
def execSettingsRead (tag : Byte) (s : State) : Host.Outcome State Fault Refusal :=
  .next (s.request (.settingsRead tag))

/-- SET_DATE (R175). -/
def execSetDate (tag : Byte) (year : Byte) (month : Byte) (day : Byte)
    (s : State) : Host.Outcome State Fault Refusal :=
  .next (s.request (.setDate tag year month day))

/-- RESTART (R176). -/
def execRestart (tag : Byte) (s : State) : Host.Outcome State Fault Refusal :=
  .next (s.request (.restart tag))

/-- ITEM_PUT (R46). -/
def execItemPut (tag : Byte) (records : List RawItem) (s : State) : Host.Outcome State Fault Refusal :=
  .next (s.request (.itemPut tag records))

/-- ITEM_REMOVE (R47). -/
def execItemRemove (tag : Byte) (code : BitVec 48) (s : State) : Host.Outcome State Fault Refusal :=
  .next (s.request (.itemRemove tag code))

/-- ITEM_CLEAR (R47). -/
def execItemClear (tag : Byte) (s : State) : Host.Outcome State Fault Refusal :=
  .next (s.request (.itemClear tag))

/-- ITEM_GET (R48). -/
def execItemGet (tag : Byte) (code : BitVec 48) (s : State) : Host.Outcome State Fault Refusal :=
  .next (s.request (.itemGet tag code))

/-- BIN_PUT (R92). -/
def execBinPut (tag : Byte) (records : List RawRange) (s : State) : Host.Outcome State Fault Refusal :=
  .next (s.request (.binPut tag records))

/-- BIN_REMOVE (R93). -/
def execBinRemove (tag : Byte) (low : BitVec 32) (s : State) : Host.Outcome State Fault Refusal :=
  .next (s.request (.binRemove tag low))

/-- BIN_CLEAR (R93). -/
def execBinClear (tag : Byte) (s : State) : Host.Outcome State Fault Refusal :=
  .next (s.request (.binClear tag))

/-- BIN_READ (R93). -/
def execBinRead (tag : Byte) (start : BitVec 32) (s : State) : Host.Outcome State Fault Refusal :=
  .next (s.request (.binRead tag start))

/-- GLYPH_PUT (R146). -/
def execGlyphPut (tag : Byte) (code : Byte) (pattern : List Byte) (s : State) : Host.Outcome State Fault Refusal :=
  .next (s.request (.glyphPut tag code pattern))

/-- GLYPH_CLEAR (R146). -/
def execGlyphClear (tag : Byte) (code : Byte) (s : State) : Host.Outcome State Fault Refusal :=
  .next (s.request (.glyphClear tag code))

/-- CAL_WRITE (R178). -/
def execCalWrite (tag : Byte) (lane : Byte) (channel : Byte) (record : RawCal) (calEn : Bool)
    (s : State) : Host.Outcome State Fault Refusal :=
  .next ((s.withCalEn calEn).request (.calWrite tag lane channel record calEn))

/-- CAL_READ (R177). -/
def execCalRead (tag : Byte) (lane : Byte) (channel : Byte) (s : State) : Host.Outcome State Fault Refusal :=
  .next (s.request (.calRead tag lane channel))

/-- UNKNOWN_KIND (R170, R184): a frame whose kind is no request kind for its address arrives. -/
def execUnknownKind (frame : Frame) (s : State) : Host.Outcome State Fault Refusal :=
  .next (s.request (.unknownKind frame))

end Sys2Proof.Machine
end

