-- ==== Sys2Proof/Machine/Dispatch.lean ====
section
/-! DEFINITION. One arm per command, each a direct call of its meaning. -/

namespace Sys2Proof.Machine

def exec (i : Instr) (s : State) : Host.Outcome State Fault Refusal :=
  match i with
  | .item addr tag code quantity price skip => Sys2Proof.Machine.execItem addr tag code quantity price skip s
  | .void addr tag position => Sys2Proof.Machine.execVoid addr tag position s
  | .cancelWeigh addr tag => Sys2Proof.Machine.execCancelWeigh addr tag s
  | .tender addr tag kind amount => Sys2Proof.Machine.execTender addr tag kind amount s
  | .newBasket addr tag => Sys2Proof.Machine.execNewBasket addr tag s
  | .abandonBasket addr tag => Sys2Proof.Machine.execAbandonBasket addr tag s
  | .basketRead addr tag start => Sys2Proof.Machine.execBasketRead addr tag start s
  | .laneMode addr tag target => Sys2Proof.Machine.execLaneMode addr tag target s
  | .channelStart addr tag channel => Sys2Proof.Machine.execChannelStart addr tag channel s
  | .channelStop addr tag channel => Sys2Proof.Machine.execChannelStop addr tag channel s
  | .channelSetup addr tag channel filterLength stabilityLength => Sys2Proof.Machine.execChannelSetup addr tag channel filterLength stabilityLength s
  | .zero addr tag channel => Sys2Proof.Machine.execZero addr tag channel s
  | .tareWeighed addr tag channel value => Sys2Proof.Machine.execTareWeighed addr tag channel value s
  | .tarePreset addr tag channel form value => Sys2Proof.Machine.execTarePreset addr tag channel form value s
  | .clearTare addr tag channel => Sys2Proof.Machine.execClearTare addr tag channel s
  | .bagOverride addr tag => Sys2Proof.Machine.execBagOverride addr tag s
  | .cancelCard addr tag => Sys2Proof.Machine.execCancelCard addr tag s
  | .drawerOpen addr tag => Sys2Proof.Machine.execDrawerOpen addr tag s
  | .drawerClear addr tag => Sys2Proof.Machine.execDrawerClear addr tag s
  | .printBegin addr tag => Sys2Proof.Machine.execPrintBegin addr tag s
  | .printData addr tag job octets => Sys2Proof.Machine.execPrintData addr tag job octets s
  | .printEnd addr tag job => Sys2Proof.Machine.execPrintEnd addr tag job s
  | .printCancel addr tag job => Sys2Proof.Machine.execPrintCancel addr tag job s
  | .laneStatus addr tag part => Sys2Proof.Machine.execLaneStatus addr tag part s
  | .laneReset addr tag => Sys2Proof.Machine.execLaneReset addr tag s
  | .staffGrant addr tag number => Sys2Proof.Machine.execStaffGrant addr tag number s
  | .staffWithdraw addr tag => Sys2Proof.Machine.execStaffWithdraw addr tag s
  | .clearAttention addr tag set => Sys2Proof.Machine.execClearAttention addr tag set s
  | .attentionMask addr tag set => Sys2Proof.Machine.execAttentionMask addr tag set s
  | .hello tag => Sys2Proof.Machine.execHello tag s
  | .partStatus tag => Sys2Proof.Machine.execPartStatus tag s
  | .settingsWrite tag record => Sys2Proof.Machine.execSettingsWrite tag record s
  | .settingsRead tag => Sys2Proof.Machine.execSettingsRead tag s
  | .setDate tag year month day => Sys2Proof.Machine.execSetDate tag year month day s
  | .restart tag => Sys2Proof.Machine.execRestart tag s
  | .itemPut tag records => Sys2Proof.Machine.execItemPut tag records s
  | .itemRemove tag code => Sys2Proof.Machine.execItemRemove tag code s
  | .itemClear tag => Sys2Proof.Machine.execItemClear tag s
  | .itemGet tag code => Sys2Proof.Machine.execItemGet tag code s
  | .binPut tag records => Sys2Proof.Machine.execBinPut tag records s
  | .binRemove tag low => Sys2Proof.Machine.execBinRemove tag low s
  | .binClear tag => Sys2Proof.Machine.execBinClear tag s
  | .binRead tag start => Sys2Proof.Machine.execBinRead tag start s
  | .glyphPut tag code pattern => Sys2Proof.Machine.execGlyphPut tag code pattern s
  | .glyphClear tag code => Sys2Proof.Machine.execGlyphClear tag code s
  | .calWrite tag lane channel record calEn => Sys2Proof.Machine.execCalWrite tag lane channel record calEn s
  | .calRead tag lane channel => Sys2Proof.Machine.execCalRead tag lane channel s
  | .unknownKind frame => Sys2Proof.Machine.execUnknownKind frame s
  | .calWriteComplete => Sys2Proof.Machine.execCalWriteComplete s
  | .goodFrame frame calEn => Sys2Proof.Machine.execGoodFrame frame calEn s
  | .frameError cause => Sys2Proof.Machine.execFrameError cause s
  | .upstreamFrameSent calEn => Sys2Proof.Machine.execUpstreamFrameSent calEn s
  | .restartReset selfCheck => Sys2Proof.Machine.execRestartReset selfCheck s
  | .linkSilenceExpiry => Sys2Proof.Machine.execLinkSilenceExpiry s
  | .powerOn inputs => Sys2Proof.Machine.execPowerOn inputs s
  | .brownOut => Sys2Proof.Machine.execBrownOut s
  | .supplyLowSet => Sys2Proof.Machine.execSupplyLowSet s
  | .supplyLowClear => Sys2Proof.Machine.execSupplyLowClear s
  | .sampleArrival lane channel raw => Sys2Proof.Machine.execSampleArrival lane channel raw s
  | .channelSilenceExpiry lane channel => Sys2Proof.Machine.execChannelSilenceExpiry lane channel s
  | .initialZeroExpiry lane channel => Sys2Proof.Machine.execInitialZeroExpiry lane channel s
  | .displayTimerExpiry lane channel => Sys2Proof.Machine.execDisplayTimerExpiry lane channel s
  | .weighTimerExpiry lane => Sys2Proof.Machine.execWeighTimerExpiry lane s
  | .placementTimerExpiry lane => Sys2Proof.Machine.execPlacementTimerExpiry lane s
  | .removalTimerExpiry lane => Sys2Proof.Machine.execRemovalTimerExpiry lane s
  | .readerCharacter lane value parity => Sys2Proof.Machine.execReaderCharacter lane value parity s
  | .gapTimerExpiry lane => Sys2Proof.Machine.execGapTimerExpiry lane s
  | .result addr tag outcome amount approval => Sys2Proof.Machine.execResult addr tag outcome amount approval s
  | .paymentFrameSent => Sys2Proof.Machine.execPaymentFrameSent s
  | .responseTimerExpiry => Sys2Proof.Machine.execResponseTimerExpiry s
  | .drawerSensorLevel lane high => Sys2Proof.Machine.execDrawerSensorLevel lane high s
  | .debounceTimerExpiry lane => Sys2Proof.Machine.execDebounceTimerExpiry lane s
  | .pulseTimerExpiry lane => Sys2Proof.Machine.execPulseTimerExpiry lane s
  | .checkTimerExpiry lane => Sys2Proof.Machine.execCheckTimerExpiry lane s
  | .leftOpenExpiry lane => Sys2Proof.Machine.execLeftOpenExpiry lane s
  | .lineDone lane tag => Sys2Proof.Machine.execLineDone lane tag s
  | .lineFailed lane tag => Sys2Proof.Machine.execLineFailed lane tag s
  | .printerStatus lane report => Sys2Proof.Machine.execPrinterStatus lane report s
  | .printerSilenceExpiry lane => Sys2Proof.Machine.execPrinterSilenceExpiry lane s
  | .answerTimerExpiry lane => Sys2Proof.Machine.execAnswerTimerExpiry lane s
  | .staffHoldExpiry lane => Sys2Proof.Machine.execStaffHoldExpiry lane s
  | .supplyAboveBrownOut inputs => Sys2Proof.Machine.execSupplyAboveBrownOut inputs s
  | .paymentFrameDiscarded cause => Sys2Proof.Machine.execPaymentFrameDiscarded cause s
  | .printerFrameDiscarded lane cause => Sys2Proof.Machine.execPrinterFrameDiscarded lane cause s

end Sys2Proof.Machine
end

