-- ==== Sys2Proof/WellFormed.lean ====
section
/-! DEFINITION. Which terms are commands: the sizes R184 gives the lists of a request, the addresses of a lane kind, the
form octet of a TARE, the length of a frame, and what a frame of an unknown kind is. -/

namespace Sys2Proof

/-- The stream octets a PRINT_DATA may carry (R184). -/
def wellFormedPrintData (octets : List Byte) : Bool := decide (1 ≤ octets.length) && decide (octets.length ≤ 236)

/-- The records an ITEM_PUT may carry (R184). -/
def wellFormedItemPut (records : List RawItem) : Bool := decide (1 ≤ records.length) && decide (records.length ≤ 6)

/-- The records a BIN_PUT may carry (R184). -/
def wellFormedBinPut (records : List RawRange) : Bool := decide (1 ≤ records.length) && decide (records.length ≤ 4)

/-- A glyph pattern is 72 octets (R184). -/
def wellFormedPattern (pattern : List Byte) : Bool := pattern.length == 72

/-- A frame that passes the length test of the receiver (R169). -/
def wellFormedFrame (f : Frame) : Bool := decide (f.payload.length ≤ 240)

/-- A lane kind is not addressed to the part (R184). Any other address is a frame that dispatch tests (R170). -/
def laneAddressed (addr : Byte) : Bool := addr != 15

/-- A frame that a cause gives as discarded fails the test the cause names and passes those before it (R104). -/
def wellFormedPaymentDiscard : PaymentDiscard → Bool
  | .gap => true
  | .length => true
  | .check => true
  | .kind f => wellFormedFrame f && f.kind != Machine.kindResult
  | .payloadLength f => wellFormedFrame f && f.kind == Machine.kindResult && f.payload.length != Machine.resultLength

/-- The same at a printer port (R148). -/
def wellFormedPrinterDiscard : PrinterDiscard → Bool
  | .gap => true
  | .length => true
  | .check => true
  | .address f => wellFormedFrame f && f.addr != 0
  | .kind f => wellFormedFrame f && f.addr == 0 && (Machine.printerLength f.kind).isNone
  | .payloadLength f =>
    wellFormedFrame f && f.addr == 0 && (Machine.printerLength f.kind).isSome &&
    Machine.printerLength f.kind != some f.payload.length
  | .statusValue f =>
    f.addr == 0 && f.kind == Machine.kindPrinterStatus &&
    (match f.payload with
     | [b] => (Machine.printerReportOf b).isNone
     | [] => false
     | _ :: _ :: _ => false)

/-- The octets spell a command of the table. -/
def Instr.wellFormed : Instr → Bool
  | .item addr _ _ _ _ _ => laneAddressed addr
  | .void addr _ _ => laneAddressed addr
  | .cancelWeigh addr _ => laneAddressed addr
  | .tender addr _ _ _ => laneAddressed addr
  | .newBasket addr _ => laneAddressed addr
  | .abandonBasket addr _ => laneAddressed addr
  | .basketRead addr _ _ => laneAddressed addr
  | .laneMode addr _ _ => laneAddressed addr
  | .channelStart addr _ _ => laneAddressed addr
  | .channelStop addr _ _ => laneAddressed addr
  | .channelSetup addr _ _ _ _ => laneAddressed addr
  | .zero addr _ _ => laneAddressed addr
  | .tareWeighed addr _ _ _ => laneAddressed addr
  | .tarePreset addr _ _ form _ => laneAddressed addr && form != 0
  | .clearTare addr _ _ => laneAddressed addr
  | .bagOverride addr _ => laneAddressed addr
  | .cancelCard addr _ => laneAddressed addr
  | .drawerOpen addr _ => laneAddressed addr
  | .drawerClear addr _ => laneAddressed addr
  | .printBegin addr _ => laneAddressed addr
  | .printData addr _ _ octets => laneAddressed addr && wellFormedPrintData octets
  | .printEnd addr _ _ => laneAddressed addr
  | .printCancel addr _ _ => laneAddressed addr
  | .laneStatus addr _ _ => laneAddressed addr
  | .laneReset addr _ => laneAddressed addr
  | .staffGrant addr _ _ => laneAddressed addr
  | .staffWithdraw addr _ => laneAddressed addr
  | .clearAttention _ _ _ => true
  | .attentionMask _ _ _ => true
  | .hello _ => true
  | .partStatus _ => true
  | .settingsWrite _ _ => true
  | .settingsRead _ => true
  | .setDate _ _ _ _ => true
  | .restart _ => true
  | .itemPut _ records => wellFormedItemPut records
  | .itemRemove _ _ => true
  | .itemClear _ => true
  | .itemGet _ _ => true
  | .binPut _ records => wellFormedBinPut records
  | .binRemove _ _ => true
  | .binClear _ => true
  | .binRead _ _ => true
  | .glyphPut _ _ pattern => wellFormedPattern pattern
  | .glyphClear _ _ => true
  | .calWrite _ _ _ _ _ => true
  | .calRead _ _ _ => true
  | .unknownKind frame => wellFormedFrame frame && (requestKind frame.addr frame.kind).isNone
  | .calWriteComplete => true
  | .goodFrame frame _ => wellFormedFrame frame
  | .frameError _ => true
  | .upstreamFrameSent _ => true
  | .restartReset _ => true
  | .linkSilenceExpiry => true
  | .powerOn _ => true
  | .brownOut => true
  | .supplyLowSet => true
  | .supplyLowClear => true
  | .sampleArrival _ _ _ => true
  | .channelSilenceExpiry _ _ => true
  | .initialZeroExpiry _ _ => true
  | .displayTimerExpiry _ _ => true
  | .weighTimerExpiry _ => true
  | .placementTimerExpiry _ => true
  | .removalTimerExpiry _ => true
  | .readerCharacter _ _ _ => true
  | .gapTimerExpiry _ => true
  | .result _ _ _ _ _ => true
  | .paymentFrameSent => true
  | .responseTimerExpiry => true
  | .drawerSensorLevel _ _ => true
  | .debounceTimerExpiry _ => true
  | .pulseTimerExpiry _ => true
  | .checkTimerExpiry _ => true
  | .leftOpenExpiry _ => true
  | .lineDone _ _ => true
  | .lineFailed _ _ => true
  | .printerStatus _ _ => true
  | .printerSilenceExpiry _ => true
  | .answerTimerExpiry _ => true
  | .staffHoldExpiry _ => true
  | .supplyAboveBrownOut _ => true
  | .paymentFrameDiscarded cause => wellFormedPaymentDiscard cause
  | .printerFrameDiscarded _ cause => wellFormedPrinterDiscard cause

/-- The rows that are a request of the host with a kind of its own (R184). -/
def Instr.isRequest : Instr → Bool
  | .item _ _ _ _ _ _ => true
  | .void _ _ _ => true
  | .cancelWeigh _ _ => true
  | .tender _ _ _ _ => true
  | .newBasket _ _ => true
  | .abandonBasket _ _ => true
  | .basketRead _ _ _ => true
  | .laneMode _ _ _ => true
  | .channelStart _ _ _ => true
  | .channelStop _ _ _ => true
  | .channelSetup _ _ _ _ _ => true
  | .zero _ _ _ => true
  | .tareWeighed _ _ _ _ => true
  | .tarePreset _ _ _ _ _ => true
  | .clearTare _ _ _ => true
  | .bagOverride _ _ => true
  | .cancelCard _ _ => true
  | .drawerOpen _ _ => true
  | .drawerClear _ _ => true
  | .printBegin _ _ => true
  | .printData _ _ _ _ => true
  | .printEnd _ _ _ => true
  | .printCancel _ _ _ => true
  | .laneStatus _ _ _ => true
  | .laneReset _ _ => true
  | .staffGrant _ _ _ => true
  | .staffWithdraw _ _ => true
  | .clearAttention _ _ _ => true
  | .attentionMask _ _ _ => true
  | .hello _ => true
  | .partStatus _ => true
  | .settingsWrite _ _ => true
  | .settingsRead _ => true
  | .setDate _ _ _ _ => true
  | .restart _ => true
  | .itemPut _ _ => true
  | .itemRemove _ _ => true
  | .itemClear _ => true
  | .itemGet _ _ => true
  | .binPut _ _ => true
  | .binRemove _ _ => true
  | .binClear _ => true
  | .binRead _ _ => true
  | .glyphPut _ _ _ => true
  | .glyphClear _ _ => true
  | .calWrite _ _ _ _ _ => true
  | .calRead _ _ _ => true
  | .unknownKind _ => false
  | .calWriteComplete => false
  | .goodFrame _ _ => false
  | .frameError _ => false
  | .upstreamFrameSent _ => false
  | .restartReset _ => false
  | .linkSilenceExpiry => false
  | .powerOn _ => false
  | .brownOut => false
  | .supplyLowSet => false
  | .supplyLowClear => false
  | .sampleArrival _ _ _ => false
  | .channelSilenceExpiry _ _ => false
  | .initialZeroExpiry _ _ => false
  | .displayTimerExpiry _ _ => false
  | .weighTimerExpiry _ => false
  | .placementTimerExpiry _ => false
  | .removalTimerExpiry _ => false
  | .readerCharacter _ _ _ => false
  | .gapTimerExpiry _ => false
  | .result _ _ _ _ _ => false
  | .paymentFrameSent => false
  | .responseTimerExpiry => false
  | .drawerSensorLevel _ _ => false
  | .debounceTimerExpiry _ => false
  | .pulseTimerExpiry _ => false
  | .checkTimerExpiry _ => false
  | .leftOpenExpiry _ => false
  | .lineDone _ _ => false
  | .lineFailed _ _ => false
  | .printerStatus _ _ => false
  | .printerSilenceExpiry _ => false
  | .answerTimerExpiry _ => false
  | .staffHoldExpiry _ => false
  | .supplyAboveBrownOut _ => false
  | .paymentFrameDiscarded _ => false
  | .printerFrameDiscarded _ _ => false

/-- The CAL_EN level a CAL_WRITE carries beside its frame; any level for every other command (log 2). -/
def Instr.calEnIs (level : Bool) : Instr → Bool
  | .item _ _ _ _ _ _ => true
  | .void _ _ _ => true
  | .cancelWeigh _ _ => true
  | .tender _ _ _ _ => true
  | .newBasket _ _ => true
  | .abandonBasket _ _ => true
  | .basketRead _ _ _ => true
  | .laneMode _ _ _ => true
  | .channelStart _ _ _ => true
  | .channelStop _ _ _ => true
  | .channelSetup _ _ _ _ _ => true
  | .zero _ _ _ => true
  | .tareWeighed _ _ _ _ => true
  | .tarePreset _ _ _ _ _ => true
  | .clearTare _ _ _ => true
  | .bagOverride _ _ => true
  | .cancelCard _ _ => true
  | .drawerOpen _ _ => true
  | .drawerClear _ _ => true
  | .printBegin _ _ => true
  | .printData _ _ _ _ => true
  | .printEnd _ _ _ => true
  | .printCancel _ _ _ => true
  | .laneStatus _ _ _ => true
  | .laneReset _ _ => true
  | .staffGrant _ _ _ => true
  | .staffWithdraw _ _ => true
  | .clearAttention _ _ _ => true
  | .attentionMask _ _ _ => true
  | .hello _ => true
  | .partStatus _ => true
  | .settingsWrite _ _ => true
  | .settingsRead _ => true
  | .setDate _ _ _ _ => true
  | .restart _ => true
  | .itemPut _ _ => true
  | .itemRemove _ _ => true
  | .itemClear _ => true
  | .itemGet _ _ => true
  | .binPut _ _ => true
  | .binRemove _ _ => true
  | .binClear _ => true
  | .binRead _ _ => true
  | .glyphPut _ _ _ => true
  | .glyphClear _ _ => true
  | .calWrite _ _ _ _ e => e == level
  | .calRead _ _ _ => true
  | .unknownKind _ => true
  | .calWriteComplete => true
  | .goodFrame _ _ => true
  | .frameError _ => true
  | .upstreamFrameSent _ => true
  | .restartReset _ => true
  | .linkSilenceExpiry => true
  | .powerOn _ => true
  | .brownOut => true
  | .supplyLowSet => true
  | .supplyLowClear => true
  | .sampleArrival _ _ _ => true
  | .channelSilenceExpiry _ _ => true
  | .initialZeroExpiry _ _ => true
  | .displayTimerExpiry _ _ => true
  | .weighTimerExpiry _ => true
  | .placementTimerExpiry _ => true
  | .removalTimerExpiry _ => true
  | .readerCharacter _ _ _ => true
  | .gapTimerExpiry _ => true
  | .result _ _ _ _ _ => true
  | .paymentFrameSent => true
  | .responseTimerExpiry => true
  | .drawerSensorLevel _ _ => true
  | .debounceTimerExpiry _ => true
  | .pulseTimerExpiry _ => true
  | .checkTimerExpiry _ => true
  | .leftOpenExpiry _ => true
  | .lineDone _ _ => true
  | .lineFailed _ _ => true
  | .printerStatus _ _ => true
  | .printerSilenceExpiry _ => true
  | .answerTimerExpiry _ => true
  | .staffHoldExpiry _ => true
  | .supplyAboveBrownOut _ => true
  | .paymentFrameDiscarded _ => true
  | .printerFrameDiscarded _ _ => true

end Sys2Proof
end

