-- ==== Sys2Proof/Safety.lean ====
section
/-! DEFINITION. The terms claims use: when the part takes a request at once, what an answered request leaves, the laws of
the blocks, and the state with the card digits erased. -/

namespace Sys2Proof.Machine

/-! ## Taking a request -/

/-- The part takes a request at once: it runs, no frame waits, no RESTART has been accepted, and a record is free (R170,
R176). -/
abbrev State.Ready (s : State) : Prop :=
  s.power = .running ∧ s.receiveBuffer = [] ∧ s.restart = none ∧ s.upstream.length + s.reserved < 64

/-- A lane whose requests reach their owner: enabled, in a part that is not DEGRADED (R170 steps 1 and 4). -/
abbrev State.Serves (s : State) (l : LaneId) : Prop := s.Ready ∧ s.enabled l = true ∧ s.selfCheck = .pass

/-- The part's requests reach their owner (R170 step 4). -/
abbrev State.ServesPart (s : State) : Prop := s.Ready ∧ s.selfCheck = .pass

/-- An event reaches an enabled lane of a part that runs (R168; log 23). -/
abbrev State.Runs (s : State) (l : LaneId) : Prop := s.power = .running ∧ s.enabled l = true

/-- What dispatch leaves an owner (R169, R170): the link-silence timer restarted with the length in force, the silent state
ended (R172), and one record reserved for the answer. -/
def State.taken (s : State) : State :=
  { s with
    linkTimer := if s.settings.linkSilence = 0 then none else some (s.settings.linkSilence * 1000)
    silent := false
    reserved := s.reserved + 1 }

/-- A request answered at dispatch (R170): the owner's action on the state dispatch leaves it, and the answer in its
reserved record, where the queue ended before the action, ahead of the action's own notices. -/
def State.answers (s : State) (addr kind tag : Byte) (acc : Bool) (code : Code) (detail : List Byte)
    (action : State → State) : State :=
  let t := action s.taken
  let n := s.upstream.length
  let answer : Frame := ⟨addr, 0x80, tag, [kind, if acc then 0 else 1, code.value] ++ detail⟩
  { t with upstream := t.upstream.take n ++ answer :: t.upstream.drop n, reserved := t.reserved - 1 }

/-- A request accepted with code OK. -/
def State.accepts (s : State) (addr kind tag : Byte) (detail : List Byte) (action : State → State) : State :=
  s.answers addr kind tag true .ok detail action

/-- A request refused with a code and no detail: nothing else changes. -/
def State.refuses (s : State) (addr kind tag : Byte) (code : Code) : State := s.answers addr kind tag false code [] id

/-! ## Laws of the trunk link, the drawers and the payment link -/

/-- The law of the upstream queue (R171): at most 64 records, reservations counted, and at most one display notice of a
channel not yet begun, the head having begun (log 3). The receive buffer holds at most 4 frames (R169), and one record is
reserved exactly while a CAL_WRITE's answer is still to come (R170, R178). -/
def QueueLaw (s : State) : Prop :=
  s.upstream.length + s.reserved ≤ 64 ∧ s.receiveBuffer.length ≤ 4 ∧
  s.reserved = (if s.calWrite.isSome then 1 else 0) ∧
  ∀ l c, ((s.upstream.drop 1).filter (isDisplay l c)).length ≤ 1

/-- The timers of a drawer run in their states (R120): pulse in RELEASING, check in CHECKING, left-open in OPEN. -/
def TillLaw (t : Till) : Prop :=
  (t.pulse.isSome = true ↔ t.state = .releasing) ∧ (t.check.isSome = true ↔ t.state = .checking) ∧
  (t.leftOpen.isSome = true ↔ t.state = .opened)

/-- The law of the solenoid power queue (R125): never more drawers RELEASING than the budget, none while the supply-low
flag is set; a lane is in the queue exactly while WAITING_POWER, once (R123); the timers run in their states (R120). -/
def SolenoidLaw (s : State) : Prop :=
  s.releasing.length ≤ s.settings.solenoidBudget ∧ (s.supplyLow = true → s.releasing = []) ∧
  s.releasing.Nodup ∧ s.powerQueue.Nodup ∧
  (∀ l, l ∈ s.releasing ↔ (s.till l).state = .releasing) ∧
  (∀ l, l ∈ s.powerQueue ↔ (s.till l).state = .waitingPower) ∧
  ∀ l, TillLaw (s.till l)

/-- A slot is in the terminal's hands: IN_FLIGHT or ABORTING (R103). -/
abbrev Slot.out (x : Slot) : Prop := x.phase ≠ .waiting

/-- A frame is the ABORT of a hand-off with a number (R104). -/
def isAbort (num : Nat) (x : Frame) : Prop := x.kind = kindAbort ∧ x.payload = [] ∧ x.tag = octet num

/-- The transmit list (R104): the ABORT of the hand-off that ended before the last grant, the HANDOFF of that grant, and the
ABORT of its own hand-off, each perhaps gone, in that order; the first is gone when the HANDOFF is. The last two name one
hand-off: the counter's number, and its lane while it is with the terminal. No ABORT of its own while the slot is
IN_FLIGHT (R113, R115). -/
def TransmitLaw (s : State) : Prop :=
  ∃ before handoff after : List Frame, s.pay.transmit = before ++ handoff ++ after ∧
    before.length ≤ 1 ∧ handoff.length ≤ 1 ∧ after.length ≤ 1 ∧ (handoff = [] → before = []) ∧
    (∀ x ∈ before, ∃ num : Fin 256, nextHandoff num = s.pay.counter ∧ isAbort num x) ∧
    (∀ x ∈ handoff, isHandoff x = true ∧ x.tag = octet s.pay.counter) ∧
    (∀ x ∈ after, isAbort s.pay.counter x ∧ ∀ h ∈ handoff, x.addr = h.addr) ∧
    (∀ f ∈ s.pay.inFlight, ∀ x ∈ handoff ++ after, x.addr = laneAddr f.lane) ∧
    ((∃ f ∈ s.pay.inFlight, ∃ x ∈ (s.lane f.lane).card.slot, x.phase = .inFlight) → after = [])

/-- The law of the payment link (R103): a slot is IN_FLIGHT or ABORTING exactly when the link is BUSY with that lane, for
the slot's amount and with the counter's number (R105); the response timer runs while BUSY; and the transmit list's order
(R104). -/
def LinkLaw (s : State) : Prop :=
  (∀ l, ∀ x ∈ (s.lane l).card.slot, x.out → ∃ f ∈ s.pay.inFlight, f.lane = l) ∧
  (∀ f ∈ s.pay.inFlight, f.number = s.pay.counter ∧ ∃ x ∈ (s.lane f.lane).card.slot, x.out ∧ x.amount = f.amount) ∧
  s.pay.counter ≤ 255 ∧ s.pay.response.isSome = s.pay.inFlight.isSome ∧ TransmitLaw s

/-! ## Laws of the lanes -/

/-- The law of a basket: at most 64 entries and 8 tenders (R49); a line price is the quantity times the unit price, or the
price of the net (R33, R53); while a hand-off is outstanding the due is the slot's amount and there is room for its
tender (R60, R61). -/
def BasketLaw (s : State) : Prop :=
  ∀ l, (s.lane l).entries.length ≤ 64 ∧ (s.lane l).tenders.length ≤ 8 ∧
    (∀ e ∈ (s.lane l).entries, e.linePrice =
      match e.kind with
      | .counted => e.quantity * e.unitPrice
      | .weighed => weighedPrice (e.net.getD 0) e.unitPrice) ∧
    ∀ x ∈ (s.lane l).card.slot, (s.lane l).tenders.length ≤ 7 ∧ 1 ≤ x.amount ∧ (s.lane l).due = x.amount

/-- The law of the zero offset (R21): a RUNNING channel, or one that will return to RUNNING (R8), has a calibration, and its
zero offset differs from its initial zero by at most Max / 50. -/
def ZeroLaw (x : Channel) : Prop :=
  x.state = .running ∨ (x.state = .fault ∧ x.cause = .sensor ∧ x.ret = some .running) →
    ∃ k ∈ x.calib, ∃ zi ∈ x.zi, ∃ zo ∈ x.zo, |zo - zi| ≤ ((k.max / 50 : Nat) : Int)

/-- The zero law on every channel, and no channel works while its calibration is being written (R178). -/
def ChannelLaw (s : State) : Prop :=
  (∀ l c, ZeroLaw (s.chan l c)) ∧ ∀ w ∈ s.calWrite, (s.chan w.lane w.channel).working = false

/-- An entry's bag state says it is expected to arrive or to leave (R65). -/
def Entry.expecting (e : Entry) : Bool := e.bag == .awaiting || e.bag == .removing

/-- The law of the awaiting entry (R71): an entry AWAITING or REMOVING is the bag check's awaiting entry, so there is at most
one; AWAITING_PLACE and AWAITING_REMOVAL have one, with their timers (R65); SUSPENDED, SETTLED and UNEXPECTED have none;
the bag check is SUSPENDED exactly outside self mode (R66, R79). -/
def BagLaw (s : State) : Prop :=
  ∀ l, let n := s.lane l
    let b := n.bagCheck
    (∀ k, ∀ e ∈ n.entries[k]?, e.expecting = true → b.awaiting = some (k + 1)) ∧
    (b.state = .awaitingPlace → ∃ pos ∈ b.awaiting, ∃ e ∈ n.entryAt pos, e.bag = .awaiting) ∧
    (b.state = .awaitingRemoval → ∃ pos ∈ b.awaiting, ∃ e ∈ n.entryAt pos, e.bag = .removing) ∧
    (b.state = .suspended ∨ b.state = .settled ∨ b.state = .unexpected → b.awaiting = none) ∧
    (b.placement.isSome = true ↔ b.state = .awaitingPlace) ∧
    (b.removal.isSome = true ↔ b.state = .awaitingRemoval) ∧
    (b.state = .suspended ↔ n.mode ≠ .self)

/-- The law of the partition (R135): a lane's jobs hold at most its partition of the print memory, there are at most 4, and
at most one is FILLING; at most one is PRINTING or SUSPENDED (R140); no two have one number (R136); and the exchange in flight is a PRINTING job's,
or an owed cut's, or no job's any more (R141, R150, R152). -/
def PrintLaw (s : State) : Prop :=
  ∀ l, let jobs := (s.lane l).jobs
    (jobs.map fun j => j.stream.length).sum ≤ s.partition ∧ jobs.length ≤ 4 ∧
    (jobs.filter fun j => j.state == .filling).length ≤ 1 ∧
    (jobs.filter fun j => j.state == .printing || j.state == .suspended).length ≤ 1 ∧
    (jobs.map (·.number)).Nodup ∧
    ∀ x ∈ (s.lane l).port.exchange,
      x.owner = .nobody ∨ x.owner = .owedCut ∨ ∃ j ∈ jobs, x.owner = .job j.number ∧ j.state = .printing

/-- The law of the capture log (R36, R38): at most 80 filled records, each with a number of its own from 1 to 65,535, and
the counter in that range. -/
def LogLaw (s : State) : Prop :=
  ∀ l, (s.lane l).log.length ≤ 80 ∧ ((s.lane l).log.map (·.number)).Nodup ∧
    (∀ c ∈ (s.lane l).log, 1 ≤ c.number ∧ c.number ≤ 65535) ∧
    1 ≤ (s.lane l).nextCapture ∧ (s.lane l).nextCapture ≤ 65535

/-- The law of the tables: item records valid and in strictly ascending order of code, at most 4,096 (R44, R45); ranges
valid, in ascending order, no two overlapping, at most 64 (R91). -/
def TableLaw (s : State) : Prop :=
  s.items.Pairwise (fun a b => a.code < b.code) ∧ s.items.length ≤ 4096 ∧ (∀ r ∈ s.items, r.valid = true) ∧
  s.ranges.Pairwise (fun a b => a.high < b.low) ∧ s.ranges.length ≤ 64 ∧ ∀ r ∈ s.ranges, r.valid = true

/-- A run is safe when the laws hold in every state it reaches. -/
def Safe (s : State) : Prop :=
  QueueLaw s ∧ SolenoidLaw s ∧ LinkLaw s ∧ BasketLaw s ∧ ChannelLaw s ∧ BagLaw s ∧ PrintLaw s ∧ LogLaw s ∧ TableLaw s

/-- The certified fields of a record of the capture log (R38). -/
def Capture.certified (c : Capture) : Nat × Int × Nat × Int × TareKind × Nat × Nat :=
  (c.number, c.net, c.d, c.tare, c.tareKind, c.unitPrice, c.price)

/-- The commands that start the part afresh (R179, R180). -/
def restartsPart : Instr → Bool
  | .powerOn _ => true
  | .brownOut => true
  | .supplyAboveBrownOut _ => true
  | .restartReset _ => true
  | _ => false

/-- A lane right after a start-up (R180): every block at its reset value, each channel as its stored record has it (R3,
R12), the drawer from its sensor's level (R132), the printer port UNKNOWN with its silence timer running (R148). -/
def FreshLane (t : State) (l : LaneId) (rawHigh : Bool) : Prop :=
  let n := t.lane l
  n.mode = .attended ∧ n.authority = none ∧ n.entries = [] ∧ n.tenders = [] ∧ n.token = false ∧ n.weigh = none ∧
  n.armed = false ∧ n.log = [] ∧ n.nextCapture = 1 ∧ n.bagCheck = BagCheck.blank ∧ n.card = CardUnit.blank ∧
  n.lastResult = none ∧ n.jobs = [] ∧ n.jobCounter = 0 ∧ n.port = { Port.blank with silence := some 2000 } ∧
  n.till =
    (if rawHigh then
      { Till.blank true with state := .opened, sensorOpen := true, leftOpen := some 30000 }
    else Till.blank false) ∧
  (∀ c, n.chan c =
    match (t.stored l c).record with
    | some k =>
      { Channel.blank with
        state := .starting, calib := some k, silence := some 250, initialZero := some 10000
        display := some ⟨.starting, .noCause, none⟩, displayTimer := some 200 }
    | none => Channel.resetUncalibrated) ∧
  n.attention =
    ⟨(if (t.stored l .platter).record.isNone then 1 else 0) ||| (if (t.stored l .bag).record.isNone then 2 else 0), 0⟩

/-! ## What the host may not learn -/

/-- A card slot without the account, the expiry, the service code and the discretionary digits; the masked form stays
(R99). -/
def Slot.redact (x : Slot) : Slot := { x with account := [], year := 0, month := 0, service := [], discretionary := [] }

/-- A frame for the terminal without the payload of a HANDOFF (R106). -/
def redactFrame (f : Frame) : Frame := if isHandoff f then { f with payload := [] } else f

/-- A lane without the digits its card slot hides. -/
def Lane.redact (n : Lane) : Lane := n.setSlot (n.card.slot.map Slot.redact)

/-- The state without the digits of an accepted payment swipe, which the slot and the HANDOFF alone hold (R98, R106). -/
def State.redact (s : State) : State :=
  { s with
    lanes := Four.make fun l => (s.lane l).redact
    pay := { s.pay with transmit := s.pay.transmit.map redactFrame } }

end Sys2Proof.Machine
end

