-- ==== Sys2Proof/Certificates/Slice0/Obligations.lean ====
section
/-! DEFINITION. What is claimed of the part, stated from the numbered rules of its description. Where a statement rests on a
choice of the model, its text names the entry of the assumption log. -/

open Sys2Proof Sys2Proof.Machine

/-- A step carries out the command at the front of the queue, and idles on an empty queue. For every command c, queue
rest and state s: step of s with c at the front of its queue is exec of c on s with the rest as its queue. On an empty
queue the step answers s itself (the model's choice, log 7). -/
def Obligations.StepRunsTheFrontCommand : Prop :=
  (∀ (c : Instr) (rest : List Instr) (s : State),
    step { s with pending := c :: rest } = exec c { s with pending := rest }) ∧
  (∀ (s : State),
    s.pending = [] →
    step s = .next s)

/-- Every command answers a next state and leaves the queue of commands as it is. For every command and every state,
reachable or not, exec answers a next state (never a fault or a refusal), and the queue of waiting commands is
unchanged in it. That the queue is the model's own field is log 7. -/
def Obligations.EveryCommandKeepsTheQueue : Prop :=
  ∀ (c : Instr) (s : State),
    ∃ t, exec c s = .next t ∧ t.pending = s.pending

/-- The state after a power-on meets every law of the part. State.reset meets the laws of the upstream queue, the
solenoid power queue, the payment link, the baskets, the zero offsets, the awaiting entry, the print partition, the
capture log and the tables. State.reset rests on the power-on choices of log 6. -/
def Obligations.ResetMeetsEveryLaw : Prop :=
  Safe State.reset

/-- The state after a power-on holds the reset values the chapters state. State.reset: every lane ATTENDED with no
authority, an empty basket, token 0, no weigh request, arming DISARMED, an empty log with its counter at 1, the bag
check SUSPENDED with nothing set, the card unit hunting with an EMPTY slot, no last swipe and no last result, no job,
job counter 0, the printer UNKNOWN with its silence timer running, an empty mask; the settings at their defaults, no
date, empty tables; the receive buffer empty, nothing reserved, the link not silent with its timer at 10 s; the
payment link IDLE with pointer 3 and counter 0; the HELLO_NOTICE first in the upstream queue. The channels are in
FAULT with cause UNCALIBRATED, because the store was never written (log 6). The octets of the HELLO_NOTICE (the rate
as its strap code, the count before the audit counts) are log 12. -/
def Obligations.ResetHoldsTheSpecValues : Prop :=
  (∀ (l : LaneId),
    let n := State.reset.lane l
    n.mode = .attended ∧ n.authority = none ∧ n.attention.mask = 0 ∧ n.entries = [] ∧ n.tenders = [] ∧ n.token = false ∧
    n.weigh = none ∧ n.armed = false ∧ n.log = [] ∧ n.nextCapture = 1 ∧
    n.bagCheck = ⟨.suspended, none, none, none, 0, none, none, false, none, none, none⟩ ∧
    n.card = ⟨false, [], false, none, none, none⟩ ∧ n.lastResult = none ∧ n.jobs = [] ∧ n.jobCounter = 0 ∧
    n.port = ⟨.unknown, .hunting, some 2000, none, none, false, 0⟩ ∧ n.till.openCount = 0 ∧
    ∀ c, (n.chan c).state = .fault ∧ (n.chan c).cause = .uncalibrated ∧ (n.chan c).filterLength = 8 ∧
      (n.chan c).stabilityLength = 16 ∧ (n.chan c).filter = [] ∧ (n.chan c).zi = none ∧ (n.chan c).tareKind = .noTare) ∧
  (State.reset.settings = ⟨2, 10, 60, 2, Four.make fun _ => ⟨200, 30, 10000, 12, 20, 60, .openHigh, 60, 30⟩⟩ ∧
    State.reset.date = none ∧ State.reset.items = [] ∧ State.reset.ranges = [] ∧ State.reset.glyphs = [] ∧
    State.reset.receiveBuffer = [] ∧ State.reset.reserved = 0 ∧ State.reset.linkTimer = some 10000 ∧
    State.reset.silent = false ∧ State.reset.attention = ⟨0, 0⟩ ∧ State.reset.supplyLow = false ∧
    State.reset.powerQueue = [] ∧ State.reset.releasing = [] ∧ State.reset.calWrite = none ∧
    State.reset.pay = ⟨none, none, 3, 0, [], .hunting, none⟩ ∧
    State.reset.upstream.head? = some ⟨15, 0x81, 0, [0x0C, 0x04, 0x01, 4, 0, 0, 0, 8] ++ List.replicate 16 0⟩)

/-- Reading the frame of a request gives the request back, for every request and every operand. For every well-formed
request of the host and every level of CAL_EN that it carries, encodeRequest gives a frame of at most 240 payload
octets, and decodeRequest reads exactly that request from it: no octet of a payload layout is dropped or misplaced. -/
def Obligations.RequestFramesRoundTrip : Prop :=
  ∀ (i : Instr) (level : Bool),
    i.wellFormed = true →
    i.isRequest = true →
    i.calEnIs level = true →
    ∃ f, encodeRequest i = some f ∧ f.payload.length ≤ 240 ∧ decodeRequest level f = .request i

/-- The receiver reads back every frame the sender lays on the line, and discards the two malformed kinds. For every
frame of at most 240 payload octets: its octets on the line begin with 0xC5, and the receiver that takes the octets
after it, whatever follows, reads the frame as a good frame. With any other check value it finds a wrong check. A
length octet above 240 is refused whatever follows. -/
def Obligations.WireFramesRoundTrip : Prop :=
  (∀ (f : Frame) (tail : List Byte),
    f.payload.length ≤ 240 →
    (wireOctets f).head? = some 0xC5 ∧ receive ((wireOctets f).drop 1 ++ tail) = some (.good f)) ∧
  (∀ (f : Frame) (check : BitVec 16) (tail : List Byte),
    f.payload.length ≤ 240 →
    check ≠ crc16 ([f.addr, f.kind, f.tag, octet f.payload.length] ++ f.payload) →
    receive ([f.addr, f.kind, f.tag, octet f.payload.length] ++ f.payload ++ be 2 check.toNat ++
      tail) = some .badCheck) ∧
  (∀ (a k t n : Byte) (rest : List Byte),
    240 < n.toNat →
    receive (a :: k :: t :: n :: rest) = some .tooLong)

/-- Every step keeps the law of the upstream queue. From every state that meets it, a step keeps: at most 64 upstream
records, reservations counted; at most 4 frames in the receive buffer; one record reserved exactly while a CAL_WRITE's
answer is to come; at most one display notice of a channel not yet begun (the head of the queue counts as begun, log
3). -/
def Obligations.QueueLawKept : Prop :=
  ∀ (s t : State),
    QueueLaw s →
    step s = .next t →
    QueueLaw t

/-- Every step keeps the law of the solenoid power queue. From every state that meets it, a step keeps: no more
drawers RELEASING than the solenoid budget, none while the supply-low flag is set; a lane in the queue exactly while
WAITING_POWER and once; the pulse, check and left-open timers running exactly in RELEASING, CHECKING and OPEN. -/
def Obligations.SolenoidLawKept : Prop :=
  ∀ (s t : State),
    SolenoidLaw s →
    step s = .next t →
    SolenoidLaw t

/-- Every step keeps the law of the payment link and of its transmit list. From every state that meets it, a step
keeps: a slot is IN_FLIGHT or ABORTING exactly when the link is BUSY with its lane, for the slot's amount; the
response timer runs while BUSY; the transmit list is at most the ABORT of the hand-off before the last grant, the
HANDOFF of that grant and the ABORT of its own hand-off, in this order, each with its hand-off's number, and with the
in-flight lane while BUSY; the number in flight is the counter's. That an ABORT at the head counts as begun is log 3. -/
def Obligations.LinkLawKept : Prop :=
  ∀ (s t : State),
    LinkLaw s →
    step s = .next t →
    LinkLaw t

/-- Every step keeps the law of the baskets. From every state that meets it, a step keeps in every lane: at most 64
entries and 8 tenders; each line price the quantity times the unit price, or the rounded price of the certified net;
and while a hand-off is outstanding, the due is the slot's amount, above 0, with room for its tender. -/
def Obligations.BasketLawKept : Prop :=
  ∀ (s t : State),
    BasketLaw s →
    step s = .next t →
    BasketLaw t

/-- Every step keeps each running channel's zero within one fiftieth of its capacity. From every state that meets it,
a step keeps: a channel RUNNING, or in FAULT with cause SENSOR and return state RUNNING, has a calibration and a zero
offset within Max / 50 of its initial zero; and no channel works while its calibration is being written. -/
def Obligations.ZeroLawKept : Prop :=
  ∀ (s t : State),
    ChannelLaw s →
    step s = .next t →
    ChannelLaw t

/-- Every step keeps the law of the awaiting entry. From every state that meets it, a step keeps in every lane: an
entry AWAITING or REMOVING is the bag check's awaiting entry, so there is at most one; AWAITING_PLACE and
AWAITING_REMOVAL have such an entry and their timer; SUSPENDED, SETTLED and UNEXPECTED have none; the bag check is
SUSPENDED exactly outside self mode. -/
def Obligations.AwaitingLawKept : Prop :=
  ∀ (s t : State),
    BagLaw s →
    step s = .next t →
    BagLaw t

/-- Every step keeps the law of the print partition. From every state that meets it, a step keeps in every lane: the
octets of the jobs within the partition, at most 4 jobs, at most one FILLING, at most one PRINTING or SUSPENDED, no
two with one number, and an exchange in flight that is a PRINTING job's, an owed cut's or no job's any more. -/
def Obligations.PrintLawKept : Prop :=
  ∀ (s t : State),
    PrintLaw s →
    step s = .next t →
    PrintLaw t

/-- Every step keeps the capture log, and a held record keeps its certified fields and its number to itself. From
every state that meets the law of the capture log, a step keeps it: at most 80 filled records with numbers of their
own from 1 to 65,535, and the counter in that range. For every command but a power-on, brown-out or restart of the
part, a record whose basket-held flag is set or whose print-hold count is above zero stays at its index with its
certified fields unchanged, and no other record has its number. -/
def Obligations.CaptureLogKept : Prop :=
  (∀ (s t : State),
    LogLaw s →
    step s = .next t →
    LogLaw t) ∧
  (∀ (c : Instr) (s t : State) (l : LaneId) (k : Nat) (r : Capture),
    restartsPart c = false →
    LogLaw s →
    exec c s = .next t →
    (s.lane l).log[k]? = some r →
    r.held = true →
    (∃ r', (t.lane l).log[k]? = some r' ∧ r'.certified = r.certified) ∧
    ∀ k' q, (t.lane l).log[k']? = some q → q.number = r.number → k' = k)

/-- Every step keeps the item table and the range table valid, ordered and within their sizes. From every state that
meets it, a step keeps: item records valid, in strictly ascending order of code, at most 4,096; range records valid,
in ascending order, no two overlapping, at most 64. -/
def Obligations.TableLawKept : Prop :=
  ∀ (s t : State),
    TableLaw s →
    step s = .next t →
    TableLaw t

/-- Nothing the host can see depends on the digits of an accepted card that its masked form hides. Erase from a state
the account, expiry, service code and discretionary digits of the card slots, and the payloads of HANDOFF frames for
the terminal. Two states equal but for these go, under any one command, to two states equal but for these: every trunk
frame is the same. Two payment swipes with one masked form leave such states. The masked form of an account of at
least 12 digits by a valid range hides at least three digits, and shows only leading and trailing digits of the
account, at most as many as the range allows. -/
def Obligations.HiddenDigitsStayHidden : Prop :=
  (∀ (c : Instr) (s s' : State),
    s.redact = s'.redact →
    ∃ t t', exec c s = .next t ∧ exec c s' = .next t' ∧ t.redact = t'.redact) ∧
  (∀ (s : State) (l : LaneId) (w w' : Swipe) (r : CardRange),
    maskAccount w.account r = maskAccount w'.account r →
    (s.paymentSwipe l w r).redact = (s.paymentSwipe l w' r).redact) ∧
  (∀ (account : List Nat) (r : CardRange),
    12 ≤ account.length →
    r.valid = true →
    let m := maskAccount account r
    m.length = account.length ∧ 3 ≤ m.hidden ∧ m.lead.length + m.hidden + m.trail.length = account.length ∧
      m.lead = account.take m.lead.length ∧ m.trail = account.drop (account.length - m.trail.length) ∧
      m.lead.length ≤ r.keepFirst ∧ m.trail.length = r.keepLast)

/-- Averages, weights and rounded nets are the exact quotients rounded half up or half away from zero. The filter
average is within half of the exact mean and rounds a half up; the calibrated weight is within half a milligram of (A
- Zc) S / 1,024 and rounds a half away from zero; a net rounded to a division is a multiple of it, at most half a
division away, away from zero at exactly half; the price of a net is round half up of net times unit price over
1,000,000. -/
def Obligations.RoundingAndWeights : Prop :=
  (∀ (w : List Nat),
    w ≠ [] →
    2 * w.sum < (2 * average w + 1) * w.length ∧ 2 * average w * w.length ≤ 2 * w.sum + w.length) ∧
  (∀ (k : Calib) (a : Nat),
    let exact : Int := ((a : Int) - k.zc) * k.span
    2 * |1024 * calibrated k a - exact| ≤ 1024 ∧ (2 * |1024 * calibrated k a - exact| = 1024 →
      |exact| ≤ |1024 * calibrated k a|)) ∧
  (∀ (n : Int) (d : Nat),
    0 < d →
    (d : Int) ∣ roundTo n d ∧ 2 * |roundTo n d - n| ≤ d ∧ (2 * |roundTo n d - n| = d → |n| ≤ |roundTo n d|)) ∧
  (∀ (net p : Nat),
    weighedPrice (net : Int) p = (net * p + 500000) / 1000000)

/-- The expiry of a display timer sends, replaces, withholds or omits the channel's display notice.
DISPLAY_TIMER_EXPIRY at an enabled lane with the timer running. Content equal to the display record: the timer stops
and nothing is sent. Different content: a notice of the channel held behind the head of the queue is replaced in
place; with none held and at least 16 free records the notice joins the tail; with fewer it is not accepted and the
display record stays. In the last three the timer starts again with the lane's interval. That the head of the queue
has begun to be sent is log 3. -/
def Obligations.DisplayChecksFollowTheTimer : Prop :=
  (∀ (s : State) (l : LaneId) (c : Chan),
    s.Runs l →
    (s.chan l c).displayTimer.isSome = true →
    (s.chan l c).display = some ⟨(s.chan l c).state, (s.chan l c).cause, (s.chan l c).reading⟩ →
    exec (.displayTimerExpiry l c) s = .next
      (s.setChan l c { s.chan l c with displayTimer := none })) ∧
  (∀ (s : State) (l : LaneId) (c : Chan) (h g : Frame) (a b : List Frame),
    s.Runs l →
    (s.chan l c).displayTimer.isSome = true →
    (s.chan l c).display ≠ some ⟨(s.chan l c).state, (s.chan l c).cause, (s.chan l c).reading⟩ →
    s.upstream = h :: (a ++ g :: b) →
    isDisplay l c g = true →
    (∀ x ∈ a, isDisplay l c x = false) →
    let d : Display := ⟨(s.chan l c).state, (s.chan l c).cause, (s.chan l c).reading⟩
    exec (.displayTimerExpiry l c) s = .next
      ({ s with upstream := h :: (a ++ (⟨laneAddr l, 0x82, 0, displayPayload c d⟩ : Frame) :: b) }.setChan l c
        { s.chan l c with display := some d, displayTimer := some (s.laneSettings l).displayInterval })) ∧
  (∀ (s : State) (l : LaneId) (c : Chan),
    s.Runs l →
    (s.chan l c).displayTimer.isSome = true →
    (s.chan l c).display ≠ some ⟨(s.chan l c).state, (s.chan l c).cause, (s.chan l c).reading⟩ →
    (∀ x ∈ s.upstream.drop 1, isDisplay l c x = false) →
    let d : Display := ⟨(s.chan l c).state, (s.chan l c).cause, (s.chan l c).reading⟩
    exec (.displayTimerExpiry l c) s = .next
      (if s.upstream.length + s.reserved ≤ 48 then
        { s with upstream := s.upstream ++ [(⟨laneAddr l, 0x82, 0, displayPayload c d⟩ : Frame)] }.setChan l c
          { s.chan l c with display := some d, displayTimer := some (s.laneSettings l).displayInterval }
      else s.setChan l c { s.chan l c with displayTimer := some (s.laneSettings l).displayInterval }))

/-- The admission test admits lanes from the head of the solenoid power queue, and only the head, until the budget or
the supply holds it. In every state that meets the solenoid law, the admission test moves some number k of lanes from
the head of the queue to the end of the RELEASING drawers, in order, each with its pulse timer started for the lane's
pulse time, and changes no other drawer and no frame. No drawer is admitted while the supply-low flag is set, and
never more are RELEASING than the budget. Afterwards the queue is empty, the budget is used up, or the supply-low flag
is set. -/
def Obligations.AdmissionTakesTheHead : Prop :=
  ∀ (s : State),
    SolenoidLaw s →
    ∃ k, s.admission.powerQueue = s.powerQueue.drop k ∧ s.admission.releasing = s.releasing ++ s.powerQueue.take k ∧
      (∀ l, s.admission.till l =
        if l ∈ s.powerQueue.take k then { s.till l with state := .releasing, pulse := some (s.laneSettings l).pulseTime } else s.till l) ∧
      s.admission.releasing.length ≤ s.settings.solenoidBudget ∧ (s.supplyLow = true → k = 0) ∧
      (s.admission.powerQueue = [] ∨ s.admission.releasing.length = s.settings.solenoidBudget ∨ s.supplyLow = true) ∧
      s.admission.upstream = s.upstream

/-- The payment link is granted to the first waiting lane after the grant pointer, and to none while it is BUSY or a
HANDOFF waits to be sent. With the link IDLE and no HANDOFF in the transmit list, the grant goes to the lane whose
slot is WAITING and that comes first in ascending circular order after the pointer: the counter advances (after 255
comes 1), the pointer, the in-flight record, the HANDOFF, the slot and the response timer are set. With the link BUSY
or a HANDOFF in the list there is no grant. PAYMENT_FRAME_SENT takes the head off the list, and makes the grant test
when it was a HANDOFF. -/
def Obligations.LinkIsGrantedInCircularOrder : Prop :=
  (∀ (s : State) (l : LaneId) (x : Slot),
    s.pay.inFlight = none →
    (∀ f ∈ s.pay.transmit, f.kind ≠ 0xA0) →
    (s.lane l).card.slot = some x →
    x.phase = .waiting →
    (∀ k, (s.lane k).slotWaiting = true → (l - s.pay.pointer - 1).val ≤ (k - s.pay.pointer - 1).val) →
    s.tryGrant = { s with
      pay := { s.pay with
        counter := (if 255 ≤ s.pay.counter then 1 else s.pay.counter + 1)
        pointer := l
        inFlight := some ⟨l, (if 255 ≤ s.pay.counter then 1 else s.pay.counter + 1), x.amount⟩
        transmit := s.pay.transmit ++ [(⟨laneAddr l, 0xA0, octet (if 255 ≤ s.pay.counter then 1 else s.pay.counter + 1), handoffPayload x⟩ : Frame)]
        response := some (s.settings.responseTime * 1000) } }.setLane l ((s.lane l).setSlot (some { x with phase := .inFlight }))) ∧
  (∀ (s : State),
    (s.pay.inFlight.isSome = true ∨ ∃ f ∈ s.pay.transmit, f.kind = 0xA0) →
    s.tryGrant = s) ∧
  (∀ (s : State) (h : Frame) (t : List Frame),
    s.power = .running →
    s.pay.transmit = h :: t →
    exec (.paymentFrameSent) s = .next
      (if h.kind = 0xA0 then { s with pay := { s.pay with transmit := t } }.tryGrant
      else { s with pay := { s.pay with transmit := t } }))

/-- A good frame is dispatched, waits behind a full upstream queue or an accepted RESTART, or overruns a full receive
buffer. GOOD_FRAME of at most 240 payload octets at a running part. With 4 frames waiting it is discarded and
RX_OVERRUN is raised, and the silent state ends and the timer restarts all the same. With fewer waiting and no free
record, or after an accepted RESTART, it joins the tail of the receive buffer and nothing else happens. The good frame
that spells a request is that request's row of the table. -/
def Obligations.GoodFramesArrive : Prop :=
  (∀ (s : State) (f : Frame) (level : Bool),
    s.power = .running →
    f.payload.length ≤ 240 →
    4 ≤ s.receiveBuffer.length →
    exec (.goodFrame f level) s = .next
      ({ s with
        calEn := level
        linkTimer := if s.settings.linkSilence = 0 then none else some (s.settings.linkSilence * 1000)
        silent := false }.raisePart .rxOverrun)) ∧
  (∀ (s : State) (f : Frame) (level : Bool),
    s.power = .running →
    f.payload.length ≤ 240 →
    s.receiveBuffer.length < 4 →
    64 ≤ s.upstream.length + s.reserved ∨ s.restart.isSome = true →
    exec (.goodFrame f level) s = .next
      ({ s with
        calEn := level
        linkTimer := if s.settings.linkSilence = 0 then none else some (s.settings.linkSilence * 1000)
        silent := false
        receiveBuffer := s.receiveBuffer ++ [f] })) ∧
  (∀ (s : State) (i : Instr) (f : Frame) (level : Bool),
    i.wellFormed = true →
    i.isRequest = true →
    i.calEnIs level = true →
    encodeRequest i = some f →
    exec (.goodFrame f level) s = exec i { s with calEn := level })

/-- Dispatch refuses a frame with NO_LANE, UNKNOWN_KIND, BAD_LENGTH or PART_FAULT, in that order, and reaches no
owner. At a part that takes requests at once, a good frame is refused with NO_LANE when its address is no enabled lane
and not the part; with UNKNOWN_KIND, on the row UNKNOWN_KIND, when its kind is no request kind for its address; with
BAD_LENGTH when its length is not one of its kind; with PART_FAULT when the part is DEGRADED and the kind is not
HELLO, PART_STATUS, CAL_READ or RESTART. The refusal is the ANSWER, the restarted link-silence timer, and nothing
else. -/
def Obligations.DispatchRefusesInOrder : Prop :=
  (∀ (s : State) (f : Frame) (level : Bool),
    s.Ready →
    f.payload.length ≤ 240 →
    (f.addr ≠ 15 ∧ ∀ l, s.enabled l = true → f.addr ≠ laneAddr l) →
    exec (.goodFrame f level) s = .next
      ({ s.refuses f.addr f.kind f.tag .noLane with calEn := level })) ∧
  (∀ (s : State) (f : Frame),
    s.Ready →
    f.payload.length ≤ 240 →
    (f.addr = 15 ∨ ∃ l, s.enabled l = true ∧ f.addr = laneAddr l) →
    requestKind f.addr f.kind = none →
    exec (.unknownKind f) s = .next
      (s.refuses f.addr f.kind f.tag .unknownKind)) ∧
  (∀ (s : State) (f : Frame) (k : ReqKind) (level : Bool),
    s.Ready →
    f.payload.length ≤ 240 →
    (f.addr = 15 ∨ ∃ l, s.enabled l = true ∧ f.addr = laneAddr l) →
    requestKind f.addr f.kind = some k →
    k.lengthOk f.payload.length = false →
    exec (.goodFrame f level) s = .next
      ({ s.refuses f.addr f.kind f.tag .badLength with calEn := level })) ∧
  (∀ (s : State) (f : Frame) (k : ReqKind) (level : Bool),
    s.Ready →
    f.payload.length ≤ 240 →
    (f.addr = 15 ∨ ∃ l, s.enabled l = true ∧ f.addr = laneAddr l) →
    requestKind f.addr f.kind = some k →
    k.lengthOk f.payload.length = true →
    s.selfCheck ≠ .pass →
    k ≠ .hello ∧ k ≠ .partStatus ∧ k ≠ .calRead ∧ k ≠ .restart →
    exec (.goodFrame f level) s = .next
      ({ s.refuses f.addr f.kind f.tag .partFault with calEn := level }))

/-- A discarded trunk frame raises FRAME_ERROR by the four rows of raising; payment and printer frames are kept by
their tests, and a discarded one does nothing. FRAME_ERROR at a running part, whatever its cause: the receiver hunts
again, and the condition FRAME_ERROR (bit 0 of the part record) is raised: already set, nothing more; clear and
masked, it is set; clear, unmasked and a record free, it is set and an ATTENTION_NOTICE with the set and mask joins
the queue; with no record free, it is set and so is NOTICE_WITHHELD (bit 5). A well-formed PAYMENT_FRAME_DISCARDED or
PRINTER_FRAME_DISCARDED, whatever its cause, sets its receiver hunting and changes nothing else. The payment receiver
keeps exactly the frames of kind 0xA8 with 11 octets, and reads the outcome, the amount (at most 999,999,999) and the
approval code from them; RESULT is the arrival of such a frame. A printer port keeps exactly LINE_DONE 0xC8 and
LINE_FAILED 0xC9 without payload and PRINTER_STATUS 0xCA with one octet 0 to 3 (READY, PAPER_LOW, PAPER_OUT,
COVER_OPEN), at address 0; the three commands are the arrival of such frames. A frame that is not kept is discarded.
That a frame is discarded whole is log 5; the octets of the notice are log 12. -/
def Obligations.DiscardedFramesAndTheirCondition : Prop :=
  (∀ (s : State) (cause : TrunkDiscard),
    s.power = .running →
    s.attention.set.getLsbD 0 = true →
    exec (.frameError cause) s = .next
      ({ s with receiver := .hunting })) ∧
  (∀ (s : State) (cause : TrunkDiscard),
    s.power = .running →
    s.attention.set.getLsbD 0 = false →
    s.attention.mask.getLsbD 0 = true →
    exec (.frameError cause) s = .next
      ({ { s with receiver := .hunting } with attention := ⟨s.attention.set ||| 1, s.attention.mask⟩ })) ∧
  (∀ (s : State) (cause : TrunkDiscard),
    s.power = .running →
    s.attention.set.getLsbD 0 = false →
    s.attention.mask.getLsbD 0 = false →
    s.upstream.length + s.reserved < 64 →
    exec (.frameError cause) s = .next
      ({ s with
        receiver := .hunting
        attention := ⟨s.attention.set ||| 1, s.attention.mask⟩
        upstream := s.upstream ++ [⟨15, 0x8A, 0, [15, 0] ++ be 2 (s.attention.set ||| 1).toNat ++
          be 2 s.attention.mask.toNat⟩] })) ∧
  (∀ (s : State) (cause : TrunkDiscard),
    s.power = .running →
    s.attention.set.getLsbD 0 = false →
    s.attention.mask.getLsbD 0 = false →
    64 ≤ s.upstream.length + s.reserved →
    exec (.frameError cause) s = .next
      ({ { s with receiver := .hunting } with attention := ⟨s.attention.set ||| 0x21, s.attention.mask⟩ })) ∧
  (∀ (s : State) (cause : PaymentDiscard),
    s.power = .running →
    (Instr.paymentFrameDiscarded cause).wellFormed = true →
    exec (.paymentFrameDiscarded cause) s = .next
      ({ s with pay := { s.pay with receiver := .hunting } })) ∧
  (∀ (s : State) (l : LaneId) (cause : PrinterDiscard),
    s.Runs l →
    (Instr.printerFrameDiscarded l cause).wellFormed = true →
    exec (.printerFrameDiscarded l cause) s = .next
      (s.setLane l { s.lane l with port := { (s.lane l).port with receiver := .hunting } })) ∧
  (∀ (s : State) (f : Frame),
    ((readResult f).isSome = true ↔ f.kind = 0xA8 ∧ f.payload.length = 11) ∧
    (readResult f = none → s.paymentArrive f = { s with pay := { s.pay with receiver := .hunting } })) ∧
  (∀ (s : State) (addr tag outcome : Byte) (amount : BitVec 32) (approval : BitVec 48),
    s.power = .running →
    let f : Frame := ⟨addr, 0xA8, tag, outcome :: (be 4 amount.toNat ++ be 6 approval.toNat)⟩
    readResult f = some ⟨addr, tag, outcome, min amount.toNat 999999999, approval⟩ ∧
      exec (.result addr tag outcome amount approval) s = .next (s.paymentArrive f)) ∧
  (∀ (f : Frame),
    readPrinter f =
      if f.addr ≠ 0 then none
      else if f.kind = 0xC8 ∧ f.payload = [] then some (.lineDone f.tag)
      else if f.kind = 0xC9 ∧ f.payload = [] then some (.lineFailed f.tag)
      else if f.kind = 0xCA ∧ f.payload = [0] then some (.status .ready)
      else if f.kind = 0xCA ∧ f.payload = [1] then some (.status .paperLow)
      else if f.kind = 0xCA ∧ f.payload = [2] then some (.status .paperOut)
      else if f.kind = 0xCA ∧ f.payload = [3] then some (.status .coverOpen)
      else none) ∧
  (∀ (s : State) (l : LaneId) (tag : Byte) (report : PrinterReport) (f : Frame),
    s.Runs l →
    let value : Byte := match report with
      | .ready => 0
      | .paperLow => 1
      | .paperOut => 2
      | .coverOpen => 3
    exec (.lineDone l tag) s = .next (s.printerArrive l ⟨0, 0xC8, tag, []⟩) ∧
    exec (.lineFailed l tag) s = .next (s.printerArrive l ⟨0, 0xC9, tag, []⟩) ∧
    exec (.printerStatus l report) s = .next (s.printerArrive l ⟨0, 0xCA, tag, [value]⟩) ∧
    (readPrinter f = none → s.printerArrive l f = s.setLane l { s.lane l with port := { (s.lane l).port with receiver := .hunting } }))

/-- A sent upstream frame frees its record, dispatches the waiting frames in order and counts toward a RESTART; a
silent link is marked and raised. UPSTREAM_FRAME_SENT at a running part takes the head off the upstream queue. With no
frame waiting nothing else happens. With frames waiting and a record free, the oldest is dispatched, and then the next
while a record is free and no RESTART has been accepted. Dispatch is that of an arrival: a GOOD_FRAME at a part that
takes requests at once is the restarted link-silence timer, the silent state ended, and the dispatch of its frame. A
frame that spells a request reaches its owner with one record reserved, on the state as it stands, and the answer
joins where the queue ended before, or comes later (CAL_WRITE); one whose address names no enabled lane is answered
NO_LANE. Dispatch keeps the silent state, and the link-silence timer but for a SETTINGS_WRITE (log 35). After an
accepted RESTART no frame is dispatched, and one frame fewer is to be sent before the reset. LINK_SILENCE_EXPIRY with
the timer running stops it, makes the link silent and raises LINK_SILENT. -/
def Obligations.TrunkLineEvents : Prop :=
  (∀ (s : State) (level : Bool) (h : Frame) (t : List Frame),
    s.power = .running →
    s.upstream = h :: t →
    s.restart = none →
    s.receiveBuffer = [] →
    exec (.upstreamFrameSent level) s = .next
      ({ s with calEn := level, upstream := t })) ∧
  (∀ (s : State) (level : Bool) (h f : Frame) (t : List Frame),
    s.power = .running →
    s.upstream = h :: t →
    t.length + s.reserved < 64 →
    s.restart = none →
    s.receiveBuffer = [f] →
    (f.addr ≠ 15 ∧ ∀ l, s.enabled l = true → f.addr ≠ laneAddr l) →
    exec (.upstreamFrameSent level) s = .next
      ({ s with calEn := level, receiveBuffer := [], upstream := t ++ [⟨f.addr, 0x80, f.tag, [f.kind, 1, 0x13]⟩] })) ∧
  (∀ (s : State) (level : Bool) (h : Frame) (t : List Frame) (k : Nat),
    s.power = .running →
    s.upstream = h :: t →
    s.restart = some (k + 1) →
    exec (.upstreamFrameSent level) s = .next
      ({ s with calEn := level, upstream := t, restart := some k })) ∧
  (∀ (s : State) (level : Bool) (h f : Frame) (t rest : List Frame),
    s.power = .running →
    s.upstream = h :: t →
    t.length + s.reserved < 64 →
    s.restart = none →
    s.receiveBuffer = f :: rest →
    exec (.upstreamFrameSent level) s = .next
      (State.drain 3 ({ s with calEn := level, upstream := t, receiveBuffer := rest }.dispatch f))) ∧
  (∀ (s : State) (k : Nat),
    s.receiveBuffer = [] ∨ s.restart.isSome = true ∨ 64 ≤ s.upstream.length + s.reserved →
    State.drain k s = s) ∧
  (∀ (s : State) (f : Frame) (rest : List Frame) (k : Nat),
    s.receiveBuffer = f :: rest →
    s.restart = none →
    s.upstream.length + s.reserved < 64 →
    State.drain (k + 1) s = State.drain k ({ s with receiveBuffer := rest }.dispatch f)) ∧
  (∀ (s : State) (f : Frame) (level : Bool),
    s.Ready →
    f.payload.length ≤ 240 →
    exec (.goodFrame f level) s = .next
      ({ s with
        calEn := level
        linkTimer := if s.settings.linkSilence = 0 then none else some (s.settings.linkSilence * 1000)
        silent := false }.dispatch f)) ∧
  (∀ (s : State) (i : Instr) (f : Frame),
    i.wellFormed = true →
    i.isRequest = true →
    i.calEnIs s.calEn = true →
    encodeRequest i = some f →
    s.selfCheck = .pass →
    (f.addr = 15 ∨ ∃ l, s.enabled l = true ∧ f.addr = laneAddr l) →
    let n := s.upstream.length
    let r := take i { s with reserved := s.reserved + 1 }
    s.dispatch f = match r.1 with
      | .answer acc code detail =>
        { r.2 with
          upstream := r.2.upstream.take n ++
            ⟨f.addr, 0x80, f.tag, [f.kind, if acc then 0 else 1, code.value] ++ detail⟩ :: r.2.upstream.drop n
          reserved := r.2.reserved - 1 }
      | .deferred => r.2) ∧
  (∀ (s : State) (f : Frame),
    (s.dispatch f).silent = s.silent ∧ (f.kind ≠ 0x61 → (s.dispatch f).linkTimer = s.linkTimer)) ∧
  (∀ (s : State),
    s.power = .running →
    s.linkTimer.isSome = true →
    exec (.linkSilenceExpiry) s = .next
      ({ s with linkTimer := none, silent := true }.raisePart .linkSilent))

/-- Start-up leaves every block at its reset value, the HELLO_NOTICE first in the queue, and each channel as its
stored record has it. POWER_ON in any state, SUPPLY_ABOVE_BROWN_OUT while held, and RESTART_RESET once its answer is
sent: the reset cause and the self-check result as given, tables, date, baskets, logs, jobs, hand-offs and link gone,
the settings at their defaults, the HELLO_NOTICE at the head of the upstream queue, the store and its audit counts
kept but for a record whose write was cut, each enabled lane fresh: its channels in STARTING with the stored record or
in FAULT, UNCALIBRATED, its drawer from its sensor. The part record holds SUPPLY_LOW alone where the supply is low,
and nothing else, with an empty mask; the trunk receiver hunts; the CAL_EN level is as it was. The first two read the
straps and the supply, the third keeps them. BROWN_OUT holds the part with the store so kept. What the held part does
is log 21; the straps and the supply as operands are log 30; the layout of the HELLO_NOTICE's fields is log 12. -/
def Obligations.StartUpLeavesTheResetValues : Prop :=
  (∀ (s : State) (i : StartInputs),
    ∃ t, exec (.powerOn i) s = .next t ∧ t.rateStrap = i.rate ∧ t.lanesStrap = i.lanes ∧ t.supplyLow = i.supplyLow ∧
      t.power = .running ∧ t.pending = s.pending ∧ t.resetCause = .powerOn ∧ t.selfCheck = i.selfCheck ∧ t.items = [] ∧
        t.ranges = [] ∧
      t.glyphs = [] ∧ t.settings = ⟨2, 10, 60, 2, Four.make fun _ => ⟨200, 30, 10000, 12, 20, 60, .openHigh, 60, 30⟩⟩ ∧
      t.date = none ∧ t.calWrite = none ∧ t.receiver = .hunting ∧ t.calEn = s.calEn ∧
      t.attention = ⟨if t.supplyLow then 8 else 0, 0⟩ ∧ t.receiveBuffer = [] ∧ t.reserved = 0 ∧ t.restart = none ∧
      t.linkTimer = some 10000 ∧ t.silent = false ∧ t.powerQueue = [] ∧ t.releasing = [] ∧
      t.pay = ⟨none, none, 3, 0, [], .hunting, none⟩ ∧
      (∃ rest, t.upstream = ⟨15, 0x81, 0, [0x0C, 0x04, 0x01, octet t.lanesEnabled, octet t.rateStrap.toNat, t.resetCause.value,
        selfCheckValue i.selfCheck] ++ counted (t.audits.map (be 2))⟩ :: rest) ∧
      (∀ l c, t.stored l c = if s.calWriting l c then { s.stored l c with record := none } else s.stored l c) ∧
      ∀ l, t.enabled l = true → FreshLane t l (s.lane l).till.rawHigh) ∧
  (∀ (s : State) (i : StartInputs),
    s.power = .held →
    ∃ t, exec (.supplyAboveBrownOut i) s = .next t ∧ t.rateStrap = i.rate ∧ t.lanesStrap = i.lanes ∧
      t.supplyLow = i.supplyLow ∧
      t.power = .running ∧ t.pending = s.pending ∧ t.resetCause = .brownOut ∧ t.selfCheck = i.selfCheck ∧ t.items = [] ∧
        t.ranges = [] ∧
      t.glyphs = [] ∧ t.settings = ⟨2, 10, 60, 2, Four.make fun _ => ⟨200, 30, 10000, 12, 20, 60, .openHigh, 60, 30⟩⟩ ∧
      t.date = none ∧ t.calWrite = none ∧ t.receiver = .hunting ∧ t.calEn = s.calEn ∧
      t.attention = ⟨if t.supplyLow then 8 else 0, 0⟩ ∧ t.receiveBuffer = [] ∧ t.reserved = 0 ∧ t.restart = none ∧
      t.linkTimer = some 10000 ∧ t.silent = false ∧ t.powerQueue = [] ∧ t.releasing = [] ∧
      t.pay = ⟨none, none, 3, 0, [], .hunting, none⟩ ∧
      (∃ rest, t.upstream = ⟨15, 0x81, 0, [0x0C, 0x04, 0x01, octet t.lanesEnabled, octet t.rateStrap.toNat, t.resetCause.value,
        selfCheckValue i.selfCheck] ++ counted (t.audits.map (be 2))⟩ :: rest) ∧
      (∀ l c, t.stored l c = if s.calWriting l c then { s.stored l c with record := none } else s.stored l c) ∧
      ∀ l, t.enabled l = true → FreshLane t l (s.lane l).till.rawHigh) ∧
  (∀ (s : State) (check : SelfCheck),
    s.power = .running →
    s.restart = some 0 →
    ∃ t, exec (.restartReset check) s = .next t ∧ t.rateStrap = s.rateStrap ∧ t.lanesStrap = s.lanesStrap ∧
      t.supplyLow = s.supplyBelow ∧
      t.power = .running ∧ t.pending = s.pending ∧ t.resetCause = .restart ∧ t.selfCheck = check ∧ t.items = [] ∧
        t.ranges = [] ∧
      t.glyphs = [] ∧ t.settings = ⟨2, 10, 60, 2, Four.make fun _ => ⟨200, 30, 10000, 12, 20, 60, .openHigh, 60, 30⟩⟩ ∧
      t.date = none ∧ t.calWrite = none ∧ t.receiver = .hunting ∧ t.calEn = s.calEn ∧
      t.attention = ⟨if t.supplyLow then 8 else 0, 0⟩ ∧ t.receiveBuffer = [] ∧ t.reserved = 0 ∧ t.restart = none ∧
      t.linkTimer = some 10000 ∧ t.silent = false ∧ t.powerQueue = [] ∧ t.releasing = [] ∧
      t.pay = ⟨none, none, 3, 0, [], .hunting, none⟩ ∧
      (∃ rest, t.upstream = ⟨15, 0x81, 0, [0x0C, 0x04, 0x01, octet t.lanesEnabled, octet t.rateStrap.toNat, t.resetCause.value,
        selfCheckValue check] ++ counted (t.audits.map (be 2))⟩ :: rest) ∧
      (∀ l c, t.stored l c = if s.calWriting l c then { s.stored l c with record := none } else s.stored l c) ∧
      ∀ l, t.enabled l = true → FreshLane t l (s.lane l).till.rawHigh) ∧
  (∀ (s : State),
    ∃ t, exec .brownOut s = .next t ∧ t.power = .held ∧ t.pending = s.pending ∧ t.upstream = [] ∧ t.releasing = [] ∧
      t.powerQueue = [] ∧
      t.items = [] ∧ t.pay.inFlight = none ∧
      ∀ l c, t.stored l c = if s.calWriting l c then { s.stored l c with record := none } else s.stored l c)

/-- A low supply sets its flag, raises SUPPLY_LOW and cuts every RELEASING drawer; its end clears the flag and admits
the queue. SUPPLY_LOW_SET at a running part with the flag clear. With no drawer RELEASING the flag is set and
SUPPLY_LOW raised, and nothing else changes. In every state, SUPPLY_LOW is raised in the part record first (bit 3:
already set, nothing; masked, set; a record free, set with its ATTENTION_NOTICE; no record free, set with
NOTICE_WITHHELD), and then the RELEASING drawers are cut in the order of admission (both orders: log 20): one whose
sensor is OPEN has its release confirmed, its open count advanced, and its DRAWER_EVENT OPENED offered (octets: log
12); one whose sensor is SHUT is CHECKING. In every state that meets the solenoid law, no drawer stays RELEASING, the
queue is as before, and each drawer cut whose sensor is SHUT is CHECKING with the cut flag set and its check timer
running, while one whose sensor is OPEN has its release confirmed. SUPPLY_LOW_CLEAR with the flag set clears it and
makes the admission test. -/
def Obligations.SupplyWarningCutsAndReadmits : Prop :=
  (∀ (s : State),
    s.power = .running →
    s.supplyLow = false →
    s.releasing = [] →
    exec (.supplyLowSet) s = .next
      ({ s with supplyBelow := true, supplyLow := true }.raisePart .supplyLow)) ∧
  (∀ (s : State),
    s.power = .running →
    s.supplyLow = false →
    SolenoidLaw s →
    ∃ t, exec .supplyLowSet s = .next t ∧ t.supplyLow = true ∧ t.releasing = [] ∧ t.powerQueue = s.powerQueue ∧
      ∀ l, t.till l =
        if l ∈ s.releasing then
          if (s.till l).sensorOpen then
            { s.till l with
              state := .opened, pulse := none, check := none, retry := false, cut := false, forced := false
              openCount := nextOpen (s.till l).openCount, leftOpen := some ((s.laneSettings l).leftOpenTime * 1000) }
          else { s.till l with state := .checking, pulse := none, cut := true, check := some 150 }
        else s.till l) ∧
  (∀ (s : State),
    s.power = .running →
    s.supplyLow = false →
    let set := s.attention.set ||| 8
    let known := s.attention.set.getLsbD 3 = true
    let masked := s.attention.mask.getLsbD 3 = true
    let room := s.upstream.length + s.reserved < 64
    let warned : State := { s with
      supplyBelow := true, supplyLow := true, releasing := []
      attention := ⟨if known then s.attention.set else if masked ∨
        room then set else s.attention.set ||| 0x28, s.attention.mask⟩
      upstream := if ¬ known ∧ ¬ masked ∧ room then
          s.upstream ++ [⟨15, 0x8A, 0, [15, 3] ++ be 2 set.toNat ++ be 2 s.attention.mask.toNat⟩]
        else s.upstream }
    exec .supplyLowSet s = .next (s.releasing.foldl (fun z l =>
      let n := z.lane l
      let count := if 65535 ≤ n.till.openCount then 0 else n.till.openCount + 1
      if n.till.sensorOpen then
        (z.setLane l { n with till := { n.till with
          state := .opened, pulse := none, check := none, retry := false, cut := false, forced := false, openCount := count
          leftOpen := some ((z.laneSettings l).leftOpenTime * 1000) } }).offerLane l 0x88
          ([laneAddr l, 0, 4] ++ be 2 count ++ [flagOctet n.token, 0] ++ [1, if n.till.retry then 2 else 1])
      else z.setLane l { n with till := { n.till with state := .checking, pulse := none, cut := true, check := some 150 } }) warned)) ∧
  (∀ (s : State),
    s.power = .running →
    s.supplyLow = true →
    exec (.supplyLowClear) s = .next
      ({ s with supplyBelow := false, supplyLow := false }.admission))

/-- Each status request answers from the state as it stands and changes nothing else. HELLO and PART_STATUS at any
part that takes requests, DEGRADED or not, SETTINGS_READ and CAL_READ, LANE_STATUS with section 0 to 3 and BASKET_READ
from position 1 to 64 are accepted with the detail their rules give, taken when the request is; another section or
position, lane or channel is refused with BAD_VALUE. Nothing but the answer and the restarted link-silence timer
changes, the model's own counter of free timer readings aside (log 4). The field order of the details is log 12; the
mark of a stored record that fails its check is log 17. -/
def Obligations.StatusReadsChangeNothing : Prop :=
  (∀ (s : State) (tag : Byte),
    s.Ready →
    exec (.hello tag) s = .next
      (s.accepts 15 0x60 tag ([0x0C, 0x04, 0x01, octet s.lanesEnabled, octet s.rateStrap.toNat, s.resetCause.value, selfCheckValue s.selfCheck] ++
        counted (s.hello.audits.map (be 2)) ++ [if s.selfCheck = .pass then 0 else 1]) (id))) ∧
  (∀ (s : State) (tag : Byte),
    s.Ready →
    exec (.partStatus tag) s = .next
      (s.accepts 15 0x65 tag (partStatusDetail s.taken) (fun x => { x with freeCount := x.freeCount + 1 }))) ∧
  (∀ (s : State) (tag : Byte),
    s.ServesPart →
    exec (.settingsRead tag) s = .next
      (s.accepts 15 0x62 tag (settingsOctets s.settings) (id))) ∧
  (∀ (s : State) (l : LaneId) (c : Chan) (tag : Byte),
    s.Ready →
    exec (.calRead tag (laneAddr l) (chanValue c)) s = .next
      (s.accepts 15 0x75 tag (optional 22 ((s.stored l c).record.map calibOctets) ++ be 2 (s.stored l c).audit ++
        optional 4 (if s.enabled l = true ∧
          (s.chan l c).filter ≠ [] then some (be 4 (average (s.chan l c).filter)) else none)) (id))) ∧
  (∀ (s : State) (lane channel tag : Byte),
    s.Ready →
    3 < lane.toNat ∨ 1 < channel.toNat →
    exec (.calRead tag lane channel) s = .next
      (s.refuses 15 0x75 tag .badValue)) ∧
  (∀ (s : State) (l : LaneId) (tag part : Byte),
    s.Serves l →
    exec (.laneStatus (laneAddr l) tag part) s = .next
      (if part = 0 then s.accepts (laneAddr l) 0x50 tag (laneSection s.taken l) (fun x => { x with freeCount := x.freeCount + 1 })
      else if part = 1 then s.accepts (laneAddr l) 0x50 tag (weighingSection s.taken l) (fun x => { x with freeCount := x.freeCount + 1 })
      else if part = 2 then s.accepts (laneAddr l) 0x50 tag (cardSection s.taken l) (fun x => { x with freeCount := x.freeCount + 1 })
      else if part = 3 then s.accepts (laneAddr l) 0x50 tag (printSection s l) id
      else s.refuses (laneAddr l) 0x50 tag .badValue)) ∧
  (∀ (s : State) (l : LaneId) (tag start : Byte),
    s.Serves l →
    exec (.basketRead (laneAddr l) tag start) s = .next
      (if 1 ≤ start.toNat ∧ start.toNat ≤ 64 then s.accepts (laneAddr l) 0x16 tag (basketDetail (s.lane l) start.toNat) id
      else s.refuses (laneAddr l) 0x16 tag .badValue))

/-- ITEM_GET answers the one record of a code, and BIN_READ up to four ranges from a starting value. In a state that
meets the table law, ITEM_GET of the code of a held record answers its 25 octets; of a code in range that no record
has, NOT_FOUND; of a code outside 1 to 9,999,999,999,999, BAD_VALUE. BIN_READ from 0 to 99,999,999 answers the number
of ranges held and, with their count first (log 12), the first four in table order whose low is at least the starting
value; above that, BAD_VALUE. Nothing else changes. -/
def Obligations.TableReadsFindTheRecord : Prop :=
  (∀ (s : State) (code : BitVec 48) (tag : Byte) (r : ItemRecord),
    s.ServesPart →
    TableLaw s →
    r ∈ s.items →
    code.toNat = r.code →
    exec (.itemGet tag code) s = .next
      (s.accepts 15 0x6B tag (itemOctets r) (id))) ∧
  (∀ (s : State) (code : BitVec 48) (tag : Byte),
    s.ServesPart →
    (∀ r ∈ s.items, r.code ≠ code.toNat) →
    exec (.itemGet tag code) s = .next
      (if 1 ≤ code.toNat ∧ code.toNat ≤ 9999999999999 then s.refuses 15 0x6B tag .notFound else s.refuses 15 0x6B tag .badValue)) ∧
  (∀ (s : State) (start : BitVec 32) (tag : Byte),
    s.ServesPart →
    exec (.binRead tag start) s = .next
      (if start.toNat ≤ 99999999 then
        s.accepts 15 0x6F tag (octet s.ranges.length ::
          counted (((s.ranges.filter fun r => start.toNat ≤ r.low).take 4).map rangeOctets)) (id)
      else s.refuses 15 0x6F tag .badValue))

/-- SETTINGS_WRITE brings each value into its range, answers the record in force, and hands a changed budget, polarity
and silence time on. SETTINGS_WRITE with valid polarities is accepted, CLAMPED when a value was brought into range and
OK otherwise, with the record in force as detail: the settings become it, the link-silence timer takes its length or
stops for 0, each enabled lane whose polarity changed has its debounce follow the new interpreted level, and then a
raised budget makes the admission test and a lowered one cuts. A polarity that is neither value refuses with
BAD_VALUE. The cut takes the most recently admitted RELEASING drawers first, until their number is the new budget: one
whose sensor is OPEN has its release confirmed with its DRAWER_EVENT OPENED (octets: log 12), one whose sensor is SHUT
is CHECKING. A clamped record lies in every range, and clamping leaves a record that does. -/
def Obligations.SettingsAreClampedAndTakenUp : Prop :=
  (∀ (s : State) (tag : Byte) (raw : RawSettings) (t : Settings),
    s.ServesPart →
    settingsOf raw = some t →
    let c := t.clamp
    let old := s.settings
    exec (.settingsWrite tag raw) s = .next
      (s.answers 15 0x61 tag true (if c = t then .ok else .clamped) (settingsOctets c) (fun x =>
        let y := [0, 1, 2, 3].foldl (fun (z : State) l =>
            if s.enabled l = true ∧ (old.lanes.get l).polarity ≠ (c.lanes.get l).polarity then
              z.setTill l ((z.till l).debounced (c.lanes.get l).polarity)
            else z)
          { x with settings := c, linkTimer := if c.linkSilence = 0 then none else some (c.linkSilence * 1000) }
        if old.solenoidBudget < c.solenoidBudget then y.admission
        else if c.solenoidBudget < old.solenoidBudget then y.cutToBudget else y))) ∧
  (∀ (s : State) (tag : Byte) (raw : RawSettings),
    s.ServesPart →
    (∃ l, 1 < (raw.lanes.get l).polarity.toNat) →
    exec (.settingsWrite tag raw) s = .next
      (s.refuses 15 0x61 tag .badValue)) ∧
  (∀ (raw : Settings),
    let t := raw.clamp
    (t.clamp = t) ∧ (t.moneyDecimals = 0 ∨ t.moneyDecimals = 2 ∨ t.moneyDecimals = 3) ∧ t.linkSilence ≤ 60 ∧
      5 ≤ t.responseTime ∧ t.responseTime ≤ 120 ∧
      1 ≤ t.solenoidBudget ∧ t.solenoidBudget ≤ 4 ∧ ∀ l, let b := t.lanes.get l
        50 ≤ b.displayInterval ∧ b.displayInterval ≤ 1000 ∧ 5 ≤ b.weighTime ∧ b.weighTime ≤ 120 ∧
          b.baseTolerance ≤ 100000 ∧
        2 ≤ b.placementTime ∧ b.placementTime ≤ 60 ∧ 2 ≤ b.removalTime ∧ b.removalTime ≤ 60 ∧ 5 ≤ b.staffHold ∧
          b.staffHold ≤ 300 ∧
        20 ≤ b.pulseTime ∧ b.pulseTime ≤ 200 ∧ 5 ≤ b.leftOpenTime ∧ b.leftOpenTime ≤ 600) ∧
  (∀ (y : State),
    y.releasing.Nodup →
    y.cutToBudget = (y.releasing.drop y.settings.solenoidBudget).reverse.foldl (fun z l =>
      let n := z.lane l
      let count := if 65535 ≤ n.till.openCount then 0 else n.till.openCount + 1
      if n.till.sensorOpen then
        (z.setLane l { n with till := { n.till with
          state := .opened, pulse := none, check := none, retry := false, cut := false, forced := false, openCount := count
          leftOpen := some ((z.laneSettings l).leftOpenTime * 1000) } }).offerLane l 0x88
          ([laneAddr l, 0, 4] ++ be 2 count ++ [flagOctet n.token, 0] ++ [1, if n.till.retry then 2 else 1])
      else z.setLane l { n with till := { n.till with state := .checking, pulse := none, cut := true, check := some 150 } })
      { y with releasing := y.releasing.take y.settings.solenoidBudget }) ∧
  (∀ (t : Settings),
    ((t.moneyDecimals = 0 ∨ t.moneyDecimals = 2 ∨ t.moneyDecimals = 3) ∧ t.linkSilence ≤ 60 ∧ 5 ≤ t.responseTime ∧
      t.responseTime ≤ 120 ∧
      1 ≤ t.solenoidBudget ∧ t.solenoidBudget ≤ 4 ∧ ∀ l, let b := t.lanes.get l
        50 ≤ b.displayInterval ∧ b.displayInterval ≤ 1000 ∧ 5 ≤ b.weighTime ∧ b.weighTime ≤ 120 ∧
          b.baseTolerance ≤ 100000 ∧
        2 ≤ b.placementTime ∧ b.placementTime ≤ 60 ∧ 2 ≤ b.removalTime ∧ b.removalTime ≤ 60 ∧ 5 ≤ b.staffHold ∧
          b.staffHold ≤ 300 ∧
        20 ≤ b.pulseTime ∧ b.pulseTime ≤ 200 ∧ 5 ≤ b.leftOpenTime ∧ b.leftOpenTime ≤ 600) →
    t.clamp = t)

/-- SET_DATE holds a date that exists and refuses one that does not; RESTART stops dispatch until its answer is sent.
SET_DATE with a year 0 to 99, a month 1 to 12 and a day that exists in that month of the year 2000 + year becomes the
date held, with the date as detail; any other date is refused with BAD_VALUE and the date is unchanged. RESTART is
refused with CAL_BUSY during a calibration write; otherwise it is accepted, and the reset is due once the frames now
in the queue and its answer are sent. -/
def Obligations.DateAndRestartRequests : Prop :=
  (∀ (s : State) (tag year month day : Byte),
    s.ServesPart →
    exec (.setDate tag year month day) s = .next
      (if year.toNat ≤ 99 ∧ 1 ≤ month.toNat ∧ month.toNat ≤ 12 ∧ 1 ≤ day.toNat ∧
        day.toNat ≤ (if month.toNat ∈ [4, 6, 9, 11] then 30
        else if month.toNat = 2 then (if year.toNat % 4 = 0 then 29 else 28) else 31) then
        s.accepts 15 0x63 tag ([year, month, day]) (fun x => { x with date := some ⟨year.toNat, month.toNat, day.toNat⟩ })
      else s.refuses 15 0x63 tag .badValue)) ∧
  (∀ (s : State) (tag : Byte),
    s.Ready →
    exec (.restart tag) s = .next
      (if s.calWrite.isSome then s.refuses 15 0x64 tag .calBusy else s.accepts 15 0x64 tag ([]) (fun x => { x with restart := some (s.upstream.length + 1) })))

/-- ITEM_PUT and BIN_PUT apply their records in order up to the first that is refused, and keep the records applied
before it. ITEM_PUT of 1 to 6 records, BIN_PUT of 1 to 4. With every record valid and, in the table as it stands after
the records before it, room for it or (an item) its code held, or (a range) no overlap and room, all are inserted at
their places, or replace the record of their code, a full item table too, and the answer carries the count, 0 and the
number held. After such records, a first record that is invalid is refused with BAD_VALUE, an item of a new code with
the table full with TABLE_FULL, a range that overlaps one then held with RANGE_OVERLAP, and a range with the table
full with TABLE_FULL: the records before it stay applied, it and the rest are not, and the answer carries the count,
the record's index and the number held. Inserting an item makes it the one found under its code, and leaves every
other code as it was; inserting a range puts it after the ranges of no higher low, keeps the others in order, and adds
no other. -/
def Obligations.LoadsApplyRecordsInOrder : Prop :=
  (∀ (s : State) (tag : Byte) (raws : List RawItem) (rs : List ItemRecord),
    s.ServesPart →
    1 ≤ raws.length ∧ raws.length ≤ 6 →
    raws.map itemOf = rs.map some →
    (∀ k, (hk : k < rs.length) → ((rs.take k).foldl (fun t r => putItem r t) s.items).length < 4096 ∨
      ∃ x ∈ (rs.take k).foldl (fun t r => putItem r t) s.items, x.code = rs[k].code) →
    exec (.itemPut tag raws) s = .next
      (s.accepts 15 0x68 tag ([octet rs.length, 0] ++
        be 2 (rs.foldl (fun t r => putItem r t) s.items).length) (fun x => { x with items := (rs.foldl (fun t r => putItem r t) s.items) }))) ∧
  (∀ (s : State) (tag : Byte) (raws rest : List RawItem) (bad : RawItem) (rs : List ItemRecord),
    s.ServesPart →
    raws.length + 1 + rest.length ≤ 6 →
    raws.map itemOf = rs.map some →
    itemOf bad = none →
    (∀ k, (hk : k < rs.length) → ((rs.take k).foldl (fun t r => putItem r t) s.items).length < 4096 ∨
      ∃ x ∈ (rs.take k).foldl (fun t r => putItem r t) s.items, x.code = rs[k].code) →
    exec (.itemPut tag (raws ++ bad :: rest)) s = .next
      (s.answers 15 0x68 tag false .badValue ([octet rs.length, octet (rs.length + 1)] ++
        be 2 (rs.foldl (fun t r => putItem r t) s.items).length)
        (fun x => { x with items := (rs.foldl (fun t r => putItem r t) s.items) }))) ∧
  (∀ (s : State) (tag : Byte) (raws rest : List RawItem) (raw : RawItem) (rs : List ItemRecord) (r : ItemRecord),
    s.ServesPart →
    raws.length + 1 + rest.length ≤ 6 →
    raws.map itemOf = rs.map some →
    itemOf raw = some r →
    (∀ k, (hk : k < rs.length) → ((rs.take k).foldl (fun t r => putItem r t) s.items).length < 4096 ∨
      ∃ x ∈ (rs.take k).foldl (fun t r => putItem r t) s.items, x.code = rs[k].code) →
    4096 ≤ (rs.foldl (fun t r => putItem r t) s.items).length →
    (∀ x ∈ (rs.foldl (fun t r => putItem r t) s.items), x.code ≠ r.code) →
    exec (.itemPut tag (raws ++ raw :: rest)) s = .next
      (s.answers 15 0x68 tag false .tableFull ([octet rs.length, octet (rs.length + 1)] ++
        be 2 (rs.foldl (fun t r => putItem r t) s.items).length)
        (fun x => { x with items := (rs.foldl (fun t r => putItem r t) s.items) }))) ∧
  (∀ (t : List ItemRecord) (r : ItemRecord) (code : Nat),
    (putItem r t).find? (fun x => x.code == code) = if code = r.code then some r else t.find? (fun x => x.code == code)) ∧
  (∀ (t : List CardRange) (r x : CardRange),
    putRange r t =
      (t.takeWhile fun y => decide (y.low ≤ r.low)) ++ r :: (t.dropWhile fun y => decide (y.low ≤ r.low)) ∧
    (x ∈ putRange r t ↔ x = r ∨ x ∈ t)) ∧
  (∀ (s : State) (tag : Byte) (raws : List RawRange) (rs : List CardRange),
    s.ServesPart →
    1 ≤ raws.length ∧ raws.length ≤ 4 →
    raws.map rangeOf = rs.map some →
    (∀ k, (hk : k < rs.length) → ((rs.take k).foldl (fun t r => putRange r t) s.ranges).length < 64 ∧
      ∀ x ∈ (rs.take k).foldl (fun t r => putRange r t) s.ranges, x.high < rs[k].low ∨ rs[k].high < x.low) →
    exec (.binPut tag raws) s = .next
      (s.accepts 15 0x6C tag ([octet rs.length, 0, octet (rs.foldl (fun t r => putRange r t) s.ranges).length]) (fun x => { x with ranges := (rs.foldl (fun t r => putRange r t) s.ranges) }))) ∧
  (∀ (s : State) (tag : Byte) (raws rest : List RawRange) (bad : RawRange) (rs : List CardRange),
    s.ServesPart →
    raws.length + 1 + rest.length ≤ 4 →
    raws.map rangeOf = rs.map some →
    rangeOf bad = none →
    (∀ k, (hk : k < rs.length) → ((rs.take k).foldl (fun t r => putRange r t) s.ranges).length < 64 ∧
      ∀ x ∈ (rs.take k).foldl (fun t r => putRange r t) s.ranges, x.high < rs[k].low ∨ rs[k].high < x.low) →
    exec (.binPut tag (raws ++ bad :: rest)) s = .next
      (s.answers 15 0x6C tag false .badValue [octet rs.length, octet (rs.length + 1), octet (rs.foldl (fun t r => putRange r t) s.ranges).length]
        (fun x => { x with ranges := (rs.foldl (fun t r => putRange r t) s.ranges) }))) ∧
  (∀ (s : State) (tag : Byte) (raws rest : List RawRange) (raw : RawRange) (rs : List CardRange) (r : CardRange),
    s.ServesPart →
    raws.length + 1 + rest.length ≤ 4 →
    raws.map rangeOf = rs.map some →
    rangeOf raw = some r →
    (∀ k, (hk : k < rs.length) → ((rs.take k).foldl (fun t r => putRange r t) s.ranges).length < 64 ∧
      ∀ x ∈ (rs.take k).foldl (fun t r => putRange r t) s.ranges, x.high < rs[k].low ∨ rs[k].high < x.low) →
    (∃ x ∈ (rs.foldl (fun t r => putRange r t) s.ranges), r.low ≤ x.high ∧ x.low ≤ r.high) →
    exec (.binPut tag (raws ++ raw :: rest)) s = .next
      (s.answers 15 0x6C tag false .rangeOverlap [octet rs.length, octet (rs.length + 1), octet (rs.foldl (fun t r => putRange r t) s.ranges).length]
        (fun x => { x with ranges := (rs.foldl (fun t r => putRange r t) s.ranges) }))) ∧
  (∀ (s : State) (tag : Byte) (raws rest : List RawRange) (raw : RawRange) (rs : List CardRange) (r : CardRange),
    s.ServesPart →
    raws.length + 1 + rest.length ≤ 4 →
    raws.map rangeOf = rs.map some →
    rangeOf raw = some r →
    (∀ k, (hk : k < rs.length) → ((rs.take k).foldl (fun t r => putRange r t) s.ranges).length < 64 ∧
      ∀ x ∈ (rs.take k).foldl (fun t r => putRange r t) s.ranges, x.high < rs[k].low ∨ rs[k].high < x.low) →
    64 ≤ (rs.foldl (fun t r => putRange r t) s.ranges).length →
    (∀ x ∈ (rs.foldl (fun t r => putRange r t) s.ranges), x.high < r.low ∨ r.high < x.low) →
    exec (.binPut tag (raws ++ raw :: rest)) s = .next
      (s.answers 15 0x6C tag false .tableFull [octet rs.length, octet (rs.length + 1), octet (rs.foldl (fun t r => putRange r t) s.ranges).length]
        (fun x => { x with ranges := (rs.foldl (fun t r => putRange r t) s.ranges) })))

/-- ITEM_REMOVE removes the record of its code and keeps the others in order; ITEM_CLEAR removes every record.
ITEM_REMOVE: a code outside 1 to 9,999,999,999,999 is refused with BAD_VALUE, a code not in the table with NOT_FOUND;
otherwise the record is removed, the others keep their order, and the detail is the number of records now held.
ITEM_CLEAR empties the table in every case, with detail 0. Nothing else changes. -/
def Obligations.ItemRemovalIsExact : Prop :=
  (∀ (s : State) (tag : Byte) (code : BitVec 48),
    s.ServesPart →
    let rest := s.items.filter fun r => r.code != code.toNat
    exec (.itemRemove tag code) s = .next
      (if code.toNat < 1 ∨ 9999999999999 < code.toNat then s.refuses 15 0x69 tag .badValue
      else if ∀ r ∈ s.items, r.code ≠ code.toNat then s.refuses 15 0x69 tag .notFound
      else s.accepts 15 0x69 tag (be 2 rest.length) (fun x => { x with items := rest }))) ∧
  (∀ (s : State) (tag : Byte),
    s.ServesPart →
    exec (.itemClear tag) s = .next
      (s.accepts 15 0x6A tag ([0, 0]) (fun x => { x with items := [] })))

/-- BIN_REMOVE removes the range of its low bound and keeps the others in order; BIN_CLEAR removes every range.
BIN_REMOVE: a value above 99,999,999 is refused with BAD_VALUE, a value that is no held range's low with NOT_FOUND,
even when a range covers it; otherwise that range is removed, the others keep their order, and the detail is the
number now held. BIN_CLEAR empties the table in every case, with detail 0. Nothing else changes. -/
def Obligations.RangeRemovalIsExact : Prop :=
  (∀ (s : State) (tag : Byte) (low : BitVec 32),
    s.ServesPart →
    let rest := s.ranges.filter fun r => r.low != low.toNat
    exec (.binRemove tag low) s = .next
      (if 99999999 < low.toNat then s.refuses 15 0x6D tag .badValue
      else if ∀ r ∈ s.ranges, r.low ≠ low.toNat then s.refuses 15 0x6D tag .notFound
      else s.accepts 15 0x6D tag ([octet rest.length]) (fun x => { x with ranges := rest }))) ∧
  (∀ (s : State) (tag : Byte),
    s.ServesPart →
    exec (.binClear tag) s = .next
      (s.accepts 15 0x6E tag ([0]) (fun x => { x with ranges := [] })))

/-- GLYPH_PUT loads one glyph entry and GLYPH_CLEAR unloads it; the renderer finds the pattern loaded. GLYPH_PUT and
GLYPH_CLEAR with a code outside 0x80 to 0x9F are refused with BAD_CODE. Otherwise the entry is loaded with the
pattern, or unloaded, the detail is the number of entries loaded, and nothing else changes. After a load the code has
the pattern, after an unload none, and every other code what it had. -/
def Obligations.GlyphTableHoldsPatterns : Prop :=
  (∀ (s : State) (tag code : Byte) (p : List Byte),
    s.ServesPart →
    p.length = 72 →
    let t := putGlyph ⟨code.toNat, p⟩ s.glyphs
    exec (.glyphPut tag code p) s = .next
      (if 0x80 ≤ code.toNat ∧ code.toNat ≤ 0x9F then s.accepts 15 0x70 tag ([octet t.length]) (fun x => { x with glyphs := t })
      else s.refuses 15 0x70 tag .badCode)) ∧
  (∀ (s : State) (tag code : Byte),
    s.ServesPart →
    let t := s.glyphs.filter fun g => g.code != code.toNat
    exec (.glyphClear tag code) s = .next
      (if 0x80 ≤ code.toNat ∧ code.toNat ≤ 0x9F then s.accepts 15 0x71 tag ([octet t.length]) (fun x => { x with glyphs := t })
      else s.refuses 15 0x71 tag .badCode)) ∧
  (∀ (t : List Glyph) (code other : Byte) (p : List Byte),
    patternOf (putGlyph ⟨code.toNat, p⟩ t) other = (if other = code then some p else patternOf t other) ∧
    patternOf (t.filter fun g => g.code != code.toNat) other = if other = code then none else patternOf t other)

/-- CAL_WRITE is tested in order, raises the audit count with its answer's record reserved, and at completion stores,
answers and copies the record. CAL_WRITE: the first failed test refuses it; one that passes raises the audit count,
keeps one record reserved for the answer and is in progress. A lane above 3 or a channel above 1 is BAD_VALUE.
CAL_WRITE_COMPLETE: the stored record is the new one, the answer with lane, channel and audit count joins the tail
from its reserved record, and the channel takes the copy with Zi, Zo, tare and stability window cleared; FAULT, SENSOR
becomes FAULT, NO_ZERO without a return state, with a display check. The level of CAL_EN as an operand is log 2, the
moments of the write's steps log 19. -/
def Obligations.CalibrationWritesThroughTheStore : Prop :=
  (∀ (s : State) (l : LaneId) (c : Chan) (tag : Byte) (record : RawCal) (en : Bool),
    s.ServesPart →
    let k := calibOf record
    let e := s.stored l c
    exec (.calWrite tag (laneAddr l) (chanValue c) record en) s = .next
      (if s.enabled l = false then { s.refuses 15 0x74 tag .noLane with calEn := en }
      else if en = false then { s.refuses 15 0x74 tag .calLocked with calEn := en }
      else if s.supplyLow = true then { s.refuses 15 0x74 tag .supplyLow with calEn := en }
      else if s.calWrite.isSome = true then { s.refuses 15 0x74 tag .calBusy with calEn := en }
      else if (s.chan l c).state = .starting ∨ (s.chan l c).state = .running then
        { s.refuses 15 0x74 tag .channelRunning with calEn := en }
      else if k.valid = false then { s.refuses 15 0x74 tag .badCalibration with calEn := en }
      else if 65535 ≤ e.audit then { s.refuses 15 0x74 tag .auditFull with calEn := en }
      else { s.taken.setStored l c { e with audit := e.audit + 1 } with calWrite := some ⟨l, c, k, tag⟩, calEn := en })) ∧
  (∀ (s : State) (tag lane channel : Byte) (record : RawCal) (en : Bool),
    s.ServesPart →
    3 < lane.toNat ∨ 1 < channel.toNat →
    exec (.calWrite tag lane channel record en) s = .next
      ({ s.refuses 15 0x74 tag .badValue with calEn := en })) ∧
  (∀ (s : State) (w : CalWrite),
    s.power = .running →
    s.calWrite = some w →
    let x := s.chan w.lane w.channel
    let e := s.stored w.lane w.channel
    let sensor := x.state = .fault ∧ x.cause = .sensor
    let y : State := { s.setStored w.lane w.channel { e with record := some w.record } with
      calWrite := none
      reserved := s.reserved - 1
      upstream := s.upstream ++
        [⟨15, 0x80, w.tag, [0x74, 0, 0, laneAddr w.lane, chanValue w.channel] ++ be 2 e.audit⟩] }
    let z := y.setChan w.lane w.channel { x with
      calib := some w.record, zi := none, zo := none, tare := 0, tareKind := .noTare, stability := [],
      cause := if sensor then .noZero else x.cause, ret := if sensor then none else x.ret }
    exec .calWriteComplete s = .next (if sensor then z.displayCheck w.lane w.channel else z))

/-- LANE_MODE is accepted or refused by basket, drawer and authority, and the bag check follows an accepted change.
LANE_MODE: a target above 2 is BAD_VALUE; the same mode changes nothing; to CLOSED the basket must be EMPTY and the
drawer CLOSED; to SELF the basket must be EMPTY; from SELF to ATTENDED the basket must be EMPTY or staff authority
present. An accepted change sets the mode: to SELF the bag check enters ARMING when the bag channel is RUNNING and
FAULTED otherwise; from SELF it enters SUSPENDED without an awaiting entry, and an awaited entry becomes WAIVED;
otherwise it stays. The detail is the mode and the bag check state after it, for the same mode too (log 12). -/
def Obligations.LaneModeAndTheBagCheck : Prop :=
  (∀ (s : State) (l : LaneId) (tag target : Byte) (code : Code),
    s.Serves l →
    (let n := s.lane l
        let empty := n.basketState = .empty
        let refusal : Option Code :=
          if 2 < target.toNat then some .badValue
          else if n.mode.value = target then none
          else if target = 2 then (if ¬ empty then some .basketActive else if n.till.state ≠ .closed then some .drawerOpen else none)
          else if target = 1 then (if ¬ empty then some .basketActive else none)
          else if n.mode = .self ∧ ¬ empty ∧ n.authority = none then some .basketActive else none
        refusal = some code) →
    exec (.laneMode (laneAddr l) tag target) s = .next
      (s.refuses (laneAddr l) 0x17 tag code)) ∧
  (∀ (s : State) (l : LaneId) (tag target : Byte),
    s.Serves l →
    (s.lane l).mode.value = target →
    exec (.laneMode (laneAddr l) tag target) s = .next
      (s.accepts (laneAddr l) 0x17 tag ([(s.lane l).mode.value, (s.lane l).bagCheck.state.value]) (id))) ∧
  (∀ (s : State) (l : LaneId) (tag : Byte),
    s.Serves l →
    (s.lane l).mode ≠ .self →
    (s.lane l).basketState = .empty →
    let n := s.lane l
    let st : BagCheckState := if n.bag.state = .running then .arming else .faulted
    exec (.laneMode (laneAddr l) tag 1) s = .next
      (s.accepts (laneAddr l) 0x17 tag ([1, st.value]) (fun x => x.setLane l { n with mode := .self, bagCheck := { n.bagCheck with
        state := st, placement := none, removal := none, excursion := false, latestGross := none, latestStable := none } }))) ∧
  (∀ (s : State) (l : LaneId) (tag : Byte),
    s.Serves l →
    (s.lane l).mode = .self →
    (s.lane l).basketState = .empty ∨ (s.lane l).authority.isSome = true →
    (s.lane l).bagCheck.awaiting = none →
    let n := s.lane l
    exec (.laneMode (laneAddr l) tag 0) s = .next
      (s.accepts (laneAddr l) 0x17 tag ([0, 0]) (fun x => x.setLane l { n with mode := .attended, bagCheck := { BagCheck.blank with
        b := n.bagCheck.b, previousGross := n.bagCheck.previousGross } }))) ∧
  (∀ (s : State) (l : LaneId) (tag : Byte) (k : Nat) (e : Entry),
    s.Serves l →
    (s.lane l).mode = .self →
    (s.lane l).authority.isSome = true →
    (s.lane l).bagCheck.awaiting = some (k + 1) →
    (s.lane l).entries[k]? = some e →
    e.bag = .awaiting ∨ e.bag = .removing →
    let n := s.lane l
    exec (.laneMode (laneAddr l) tag 0) s = .next
      (s.accepts (laneAddr l) 0x17 tag ([0, 0]) (fun x => x.setLane l { n with
        mode := .attended, entries := n.entries.set k { e with bag := .waived }
        bagCheck := { BagCheck.blank with b := n.bagCheck.b, previousGross := n.bagCheck.previousGross } }))) ∧
  (∀ (s : State) (l : LaneId) (tag : Byte),
    s.Serves l →
    (s.lane l).mode = .self →
    (s.lane l).basketState = .empty →
    (s.lane l).till.state = .closed →
    (s.lane l).bagCheck.awaiting = none →
    let n := s.lane l
    exec (.laneMode (laneAddr l) tag 2) s = .next
      (s.accepts (laneAddr l) 0x17 tag ([2, 0]) (fun x => x.setLane l { n with mode := .closed, bagCheck := { BagCheck.blank with
        b := n.bagCheck.b, previousGross := n.bagCheck.previousGross } }))) ∧
  (∀ (s : State) (l : LaneId) (tag : Byte),
    s.Serves l →
    let n := s.lane l
    (n.mode = .closed → exec (.laneMode (laneAddr l) tag 0) s = .next
      (s.accepts (laneAddr l) 0x17 tag ([0, n.bagCheck.state.value]) (fun x => x.setLane l { n with mode := .attended }))) ∧
    (n.mode = .attended → n.basketState = .empty → n.till.state = .closed →
      exec (.laneMode (laneAddr l) tag 2) s = .next
      (s.accepts (laneAddr l) 0x17 tag ([2, n.bagCheck.state.value]) (fun x => x.setLane l { n with mode := .closed }))))

/-- LANE_RESET clears the lane's sale in one action and keeps its mode, tables, counters and alarms. LANE_RESET is
refused with LANE_BUSY while the slot is IN_FLIGHT or ABORTING. Otherwise: both tares none, the weigh request,
entries, tenders and token gone, every capture record unheld by the basket and by the print holds of the cancelled
jobs, its certified fields kept, the slot EMPTY and the assembly abandoned, the authority absent, every job gone, the
bag check ARMING, FAULTED or SUSPENDED by mode and channel with B and the previous gross kept, a WAITING_POWER drawer
CLOSED and out of the queue and any other drawer as it was; mode, arming, counters, attention, last swipe and last
result kept, every other lane and part-wide field unchanged, no notice. The detail is the mode, the three states after
it and the number of jobs cancelled. The printer port keeps its state, receiver, counter and timers; an exchange of a
cancelled PRINTING job goes on as no job's (log 26), and a cut is owed when such a job sent a LINE last; then, with no
exchange in flight and a printer that is READY or PAPER_LOW, an owed cut is sent. -/
def Obligations.LaneResetReturnsACleanSale : Prop :=
  (∀ (s : State) (l : LaneId) (tag : Byte),
    s.Serves l →
    (∃ x ∈ (s.lane l).card.slot, x.out) →
    exec (.laneReset (laneAddr l) tag) s = .next
      (s.refuses (laneAddr l) 0x51 tag .laneBusy)) ∧
  (∀ (s : State) (l : LaneId) (tag : Byte),
    s.Serves l →
    (∀ x ∈ (s.lane l).card.slot, ¬ x.out) →
    let n := s.lane l
    let queued := n.till.state = .waitingPower
    let till : Till := if queued then { n.till with state := .closed, retry := false } else n.till
    let bs : BagCheckState :=
      if n.mode = .self then (if n.bag.state = .running then .arming else .faulted) else .suspended
    let p : Port := { n.port with
      exchange := n.port.exchange.map fun x =>
        if ∃ j ∈ n.jobs, j.state = .printing ∧ x.owner = .job j.number then { x with owner := .nobody } else x
      cutOwed := n.port.cutOwed || n.jobs.any fun j => j.state == .printing && j.lastSent == .line }
    let num := if 255 ≤ p.counter then 1 else p.counter + 1
    let port : Port :=
      if p.exchange = none ∧ (p.state = .ready ∨ p.state = .paperLow) ∧ p.cutOwed = true then
        { p with counter := num, exchange := some ⟨⟨0, 0xC1, octet num, []⟩, num, .owedCut⟩, answer := some 2000 }
      else p
    ∃ m : Lane, exec (.laneReset (laneAddr l) tag) s = .next
        (s.accepts (laneAddr l) 0x51 tag [n.mode.value, 0, bs.value, till.state.value, octet n.jobs.length] (fun x =>
          { x.setLane l m with powerQueue := if queued then x.powerQueue.filter (· != l) else x.powerQueue })) ∧
      m.platter = { n.platter with tare := 0, tareKind := .noTare } ∧
        m.bag = { n.bag with tare := 0, tareKind := .noTare } ∧
      m.weigh = none ∧ m.armed = n.armed ∧ m.nextCapture = n.nextCapture ∧
      m.log.map Capture.certified = n.log.map Capture.certified ∧
      (m.log = n.log.map fun c => { c with
        basketHeld := false
        holds := c.holds - (n.jobs.map fun j => j.refs.countP fun r => r.hold && r.capture == some c.number).sum }) ∧
      m.port = port ∧
      m.entries = [] ∧ m.tenders = [] ∧ m.token = false ∧
      m.bagCheck = { BagCheck.blank with state := bs, b := n.bagCheck.b, previousGross := n.bagCheck.previousGross } ∧
      m.card = ⟨false, [], false, none, n.card.lastSwipe, none⟩ ∧ m.lastResult = n.lastResult ∧ m.till = till ∧
      m.jobs = [] ∧ m.jobCounter = n.jobCounter ∧ m.mode = n.mode ∧ m.authority = none ∧ m.attention = n.attention)

/-- STAFF_GRANT grants with a fresh hold timer, STAFF_WITHDRAW and the hold timer's expiry end the authority.
STAFF_GRANT with a number above 999,999 is BAD_VALUE; otherwise the authority is present with source HOST, the number
and a timer of the lane's staff hold time, replacing any before it, with source, number and time as detail.
STAFF_WITHDRAW makes it absent in every case. STAFF_HOLD_EXPIRY with the timer running makes it absent. Nothing else
changes. -/
def Obligations.StaffAuthorityComesAndGoes : Prop :=
  (∀ (s : State) (l : LaneId) (tag : Byte) (number : BitVec 32),
    s.Serves l →
    exec (.staffGrant (laneAddr l) tag number) s = .next
      (if 999999 < number.toNat then s.refuses (laneAddr l) 0x52 tag .badValue
      else s.accepts (laneAddr l) 0x52 tag (1 :: be 4 number.toNat ++
        be 2 (s.laneSettings l).staffHold) (fun x => x.setLane l { s.lane l with
        authority := some ⟨.host, number.toNat, some ((s.laneSettings l).staffHold * 1000)⟩ }))) ∧
  (∀ (s : State) (l : LaneId) (tag : Byte),
    s.Serves l →
    exec (.staffWithdraw (laneAddr l) tag) s = .next
      (s.accepts (laneAddr l) 0x53 tag ([]) (fun x => x.setLane l { s.lane l with authority := none }))) ∧
  (∀ (s : State) (l : LaneId) (a : Authority),
    s.Runs l →
    (s.lane l).authority = some a →
    a.timer.isSome = true →
    exec (.staffHoldExpiry l) s = .next
      (s.setLane l { s.lane l with authority := none }))

/-- CLEAR_ATTENTION and ATTENTION_MASK act exactly on the conditions named; ATTN and the tower lights follow the
records. CLEAR_ATTENTION with a name foreign to the addressed record is BAD_VALUE and clears nothing; otherwise every
named condition is clear and the others are as they were, the mask kept. ATTENTION_MASK is checked alike; the mask
becomes exactly the set given, the conditions kept. Both answer the record's set and mask after the request, offer no
notice, and change nothing else. Lane names are bits 0 to 13, part names bits 0 to 5. The ATTN output is asserted
exactly while a condition is set and not masked in the part record or in the record of an enabled lane. The tower
light of an enabled lane is OFF in CLOSED; else RED while the link is silent or one of bits 0, 1, 4, 5, 7, 8 is set,
masked or not; else AMBER with staff authority present or another condition set and not masked; else GREEN. -/
def Obligations.AttentionIsClearedAndMaskedByName : Prop :=
  (∀ (s : State) (l : LaneId) (tag : Byte) (set : BitVec 16),
    s.Serves l →
    let a := (s.lane l).attention
    let b : Attention := ⟨a.set &&& ~~~set, a.mask⟩
    exec (.clearAttention (laneAddr l) tag set) s = .next
      (if set &&& 0xC000 ≠ 0 then s.refuses (laneAddr l) 0x54 tag .badValue
      else s.accepts (laneAddr l) 0x54 tag (be 2 b.set.toNat ++
        be 2 b.mask.toNat) (fun x => x.setLane l { s.lane l with attention := b }))) ∧
  (∀ (s : State) (tag : Byte) (set : BitVec 16),
    s.ServesPart →
    let a := s.attention
    let b : Attention := ⟨a.set &&& ~~~set, a.mask⟩
    exec (.clearAttention 15 tag set) s = .next
      (if set &&& 0xFFC0 ≠ 0 then s.refuses 15 0x54 tag .badValue
      else s.accepts 15 0x54 tag (be 2 b.set.toNat ++ be 2 b.mask.toNat) (fun x => { x with attention := b }))) ∧
  (∀ (s : State) (l : LaneId) (tag : Byte) (set : BitVec 16),
    s.Serves l →
    let a := (s.lane l).attention
    let b : Attention := ⟨a.set, set⟩
    exec (.attentionMask (laneAddr l) tag set) s = .next
      (if set &&& 0xC000 ≠ 0 then s.refuses (laneAddr l) 0x55 tag .badValue
      else s.accepts (laneAddr l) 0x55 tag (be 2 b.set.toNat ++
        be 2 b.mask.toNat) (fun x => x.setLane l { s.lane l with attention := b }))) ∧
  (∀ (s : State) (tag : Byte) (set : BitVec 16),
    s.ServesPart →
    let a := s.attention
    let b : Attention := ⟨a.set, set⟩
    exec (.attentionMask 15 tag set) s = .next
      (if set &&& 0xFFC0 ≠ 0 then s.refuses 15 0x55 tag .badValue
      else s.accepts 15 0x55 tag (be 2 b.set.toNat ++ be 2 b.mask.toNat) (fun x => { x with attention := b }))) ∧
  (∀ (s : State),
    s.attn = true ↔
      (∃ k : Fin 16, s.attention.set.getLsbD k = true ∧ s.attention.mask.getLsbD k = false) ∨
      ∃ l, s.enabled l = true ∧ ∃ k : Fin 16,
        (s.lane l).attention.set.getLsbD k = true ∧ (s.lane l).attention.mask.getLsbD k = false) ∧
  (∀ (s : State) (l : LaneId),
    s.enabled l = true →
    let n := s.lane l
    let red : List (Fin 16) := [0, 1, 4, 5, 7, 8]
    s.towerLight l =
      if n.mode = .closed then .off
      else if s.silent = true ∨ ∃ k ∈ red, n.attention.set.getLsbD k = true then .red
      else if n.authority ≠ none ∨
          ∃ k : Fin 16, k ∉ red ∧ n.attention.set.getLsbD k = true ∧ n.attention.mask.getLsbD k = false then .amber
      else .green)

/-- CHANNEL_START, CHANNEL_STOP and CHANNEL_SETUP act by the channel's state, and a channel field above 1 is refused
first. CHANNEL_START: CAL_BUSY while the channel's calibration is being written; CHANNEL_RUNNING in STARTING and
RUNNING; CHANNEL_FAULT in FAULT, SENSOR, and in FAULT, UNCALIBRATED without a copy; else the channel enters STARTING
with empty windows, no zeros, both timers started, and a display check. CHANNEL_STOP: no change in STOPPED; without a
copy the windows, timers and tare go and the fault stays; else STOPPED, told to the bag check as a loss from STARTING
or RUNNING of the bag channel, and a display check. CHANNEL_SETUP: CHANNEL_RUNNING in STARTING and RUNNING; else both
windows empty, the lengths brought to 1 to 32 and 4 to 64, CLAMPED if changed, and answered. Each refuses a channel
above 1 with BAD_VALUE. A fault of cause none, which no run reaches, is refused CHANNEL_FAULT (log 24). That the loss,
with its BAG_EVENT FAULTED, comes before the display check is log 10; that a filter length of 0 answers CLAMPED is log
33. -/
def Obligations.ChannelRequestsByState : Prop :=
  (∀ (s : State) (l : LaneId) (c : Chan) (tag : Byte),
    s.Serves l →
    let x := s.chan l c
    exec (.channelStart (laneAddr l) tag (chanValue c)) s = .next
      (if s.calWriting l c = true then s.refuses (laneAddr l) 0x20 tag .calBusy
      else if x.state = .starting ∨ x.state = .running then s.refuses (laneAddr l) 0x20 tag .channelRunning
      else if x.state = .fault ∧ (x.cause = .sensor ∨ x.cause = .noCause ∨ (x.cause = .uncalibrated ∧
        x.calib = none)) then
        s.refuses (laneAddr l) 0x20 tag .channelFault
      else s.accepts (laneAddr l) 0x20 tag [] (fun y =>
        (y.setChan l c { x with
          state := .starting, cause := .noCause, ret := none, filter := [], stability := [], zi := none, zo := none,
          latest := none, reading := none, silence := some 250, initialZero := some 10000 }).displayCheck l c))) ∧
  (∀ (s : State) (l : LaneId) (c : Chan) (tag : Byte),
    s.Serves l →
    let x := s.chan l c
    exec (.channelStop (laneAddr l) tag (chanValue c)) s = .next
      (if x.state = .stopped then s.accepts (laneAddr l) 0x21 tag [] id
      else if x.calib = none then s.accepts (laneAddr l) 0x21 tag [] (fun y =>
        y.setChan l c { x with filter := [], stability := [], tare := 0, tareKind := .noTare, silence := none, initialZero := none })
      else s.accepts (laneAddr l) 0x21 tag [] (fun y =>
        let z := y.setChan l c { x with
          state := .stopped, cause := .noCause, ret := none, filter := [], stability := [], tare := 0, tareKind := .noTare,
          latest := none, reading := none, silence := none, initialZero := none }
        (if c = .bag ∧ (x.state = .starting ∨ x.state = .running) then z.bagLoss l else z).displayCheck l c))) ∧
  (∀ (s : State) (l : LaneId) (c : Chan) (tag f m : Byte),
    s.Serves l →
    let x := s.chan l c
    let f' := if f.toNat < 1 then 1 else if 32 < f.toNat then 32 else f.toNat
    let m' := if m.toNat < 4 then 4 else if 64 < m.toNat then 64 else m.toNat
    exec (.channelSetup (laneAddr l) tag (chanValue c) f m) s = .next
      (if x.state = .starting ∨ x.state = .running then s.refuses (laneAddr l) 0x22 tag .channelRunning
      else s.answers (laneAddr l) 0x22 tag true (if f' = f.toNat ∧
        m' = m.toNat then .ok else .clamped) [octet f', octet m']
        (fun y => y.setChan l c { x with filter := [], stability := [], filterLength := f', stabilityLength := m' }))) ∧
  (∀ (s : State) (l : LaneId) (tag ch a b : Byte) (v : BitVec 32),
    s.Serves l →
    1 < ch.toNat →
    exec (.channelStart (laneAddr l) tag ch) s = .next (s.refuses (laneAddr l) 0x20 tag .badValue) ∧
    exec (.channelStop (laneAddr l) tag ch) s = .next (s.refuses (laneAddr l) 0x21 tag .badValue) ∧
    exec (.channelSetup (laneAddr l) tag ch a b) s = .next (s.refuses (laneAddr l) 0x22 tag .badValue) ∧
    exec (.zero (laneAddr l) tag ch) s = .next (s.refuses (laneAddr l) 0x23 tag .badValue) ∧
    exec (.tareWeighed (laneAddr l) tag ch v) s = .next (s.refuses (laneAddr l) 0x24 tag .badValue) ∧
    exec (.clearTare (laneAddr l) tag ch) s = .next (s.refuses (laneAddr l) 0x25 tag .badValue))

/-- ZERO, both forms of TARE and CLEAR_TARE pass their tests in order and change the zero offset or the tare alone.
ZERO: the tests of its table in order; one that passes sets the zero offset to W of the latest evaluation. TARE
weighed: its table in order; one that passes sets T to G rounded to d1, half away from zero, kind WEIGHED. TARE
preset: a channel above 1 BAD_VALUE, a form octet other than 1 BAD_VALUE, then its tests; T becomes the rounded value,
kind PRESET. The answers carry T and its kind. CLEAR_TARE: NOT_PLATTER for the bag channel; for the platter T = 0,
kind NONE, in every state. ZERO and TARE weighed before the first evaluation, and a RUNNING channel without a copy,
which no run reaches, are refused with ZERO_RANGE or TARE_RANGE (log 24). -/
def Obligations.ZeroAndTareAreTestedInOrder : Prop :=
  (∀ (s : State) (l : LaneId) (c : Chan) (tag : Byte),
    s.Serves l →
    let x := s.chan l c
    exec (.zero (laneAddr l) tag (chanValue c)) s = .next
      (if x.state = .stopped ∨ x.state = .starting then s.refuses (laneAddr l) 0x23 tag .channelStopped
      else if x.state = .fault then s.refuses (laneAddr l) 0x23 tag .channelFault
      else if ∃ r ∈ x.reading, r.status = .motion then s.refuses (laneAddr l) 0x23 tag .motion
      else if ∃ r ∈ x.reading, r.status = .over ∨ r.status = .under then s.refuses (laneAddr l) 0x23 tag .zeroRange
      else if x.tareKind ≠ .noTare then s.refuses (laneAddr l) 0x23 tag .tareActive
      else match x.latest, x.calib with
        | some e, some k =>
          if ((k.max / 50 : Nat) : Int) < |e.w - x.zi.getD 0| then s.refuses (laneAddr l) 0x23 tag .zeroRange
          else if c = .bag ∧ (s.lane l).bagCheck.state ≠ .suspended then
            s.answers (laneAddr l) 0x23 tag false .bagBusy [(s.lane l).bagCheck.state.value] id
          else s.accepts (laneAddr l) 0x23 tag [] (fun y => y.setChan l c { x with zo := some e.w })
        | _, _ => s.refuses (laneAddr l) 0x23 tag .zeroRange)) ∧
  (∀ (s : State) (l : LaneId) (c : Chan) (tag : Byte) (v : BitVec 32),
    s.Serves l →
    let x := s.chan l c
    exec (.tareWeighed (laneAddr l) tag (chanValue c) v) s = .next
      (if c = .bag then s.refuses (laneAddr l) 0x24 tag .notPlatter
      else if x.state = .stopped ∨ x.state = .starting then s.refuses (laneAddr l) 0x24 tag .channelStopped
      else if x.state = .fault then s.refuses (laneAddr l) 0x24 tag .channelFault
      else if ∃ r ∈ x.reading, r.status = .motion then s.refuses (laneAddr l) 0x24 tag .motion
      else if ∃ r ∈ x.reading, r.status = .over ∨ r.status = .under then s.refuses (laneAddr l) 0x24 tag .tareRange
      else match x.latest.bind (·.g), x.calib with
        | some g, some k =>
          let t := roundTo g k.d1
          if ¬ (0 < g ∧ g ≤ k.max ∧ 0 < t ∧ t ≤ k.max) then s.refuses (laneAddr l) 0x24 tag .tareRange
          else s.accepts (laneAddr l) 0x24 tag (beInt 4 t ++
            [1]) (fun y => y.setChan l c { x with tare := t, tareKind := .weighed })
        | _, _ => s.refuses (laneAddr l) 0x24 tag .tareRange)) ∧
  (∀ (s : State) (l : LaneId) (c : Chan) (tag form : Byte) (v : BitVec 32),
    s.Serves l →
    form ≠ 0 →
    let x := s.chan l c
    exec (.tarePreset (laneAddr l) tag (chanValue c) form v) s = .next
      (if form ≠ 1 then s.refuses (laneAddr l) 0x24 tag .badValue
      else if c = .bag then s.refuses (laneAddr l) 0x24 tag .notPlatter
      else if x.state = .stopped ∨ x.state = .starting then s.refuses (laneAddr l) 0x24 tag .channelStopped
      else if x.state = .fault then s.refuses (laneAddr l) 0x24 tag .channelFault
      else match x.calib with
        | some k =>
          let t := roundTo v.toNat k.d1
          if ¬ (0 < v.toNat ∧ v.toNat ≤ k.max ∧ 0 < t ∧ t ≤ k.max) then s.refuses (laneAddr l) 0x24 tag .tareRange
          else s.accepts (laneAddr l) 0x24 tag (beInt 4 t ++
            [2]) (fun y => y.setChan l c { x with tare := t, tareKind := .preset })
        | none => s.refuses (laneAddr l) 0x24 tag .tareRange)) ∧
  (∀ (s : State) (l : LaneId) (c : Chan) (tag : Byte),
    s.Serves l →
    let x := s.chan l c
    exec (.clearTare (laneAddr l) tag (chanValue c)) s = .next
      (if c = .bag then s.refuses (laneAddr l) 0x25 tag .notPlatter
      else s.accepts (laneAddr l) 0x25 tag [] (fun y => y.setChan l c { x with tare := 0, tareKind := .noTare }))) ∧
  (∀ (s : State) (l : LaneId) (tag channel form : Byte) (v : BitVec 32),
    s.Serves l →
    1 < channel.toNat →
    form ≠ 0 →
    exec (.tarePreset (laneAddr l) tag channel form v) s = .next
      (s.refuses (laneAddr l) 0x24 tag .badValue))

/-- A sample outside RUNNING fills the filter, advances STARTING, takes the initial zero, or ends a sensor fault.
SAMPLE_ARRIVAL at an enabled lane. STOPPED, FAULT with cause UNCALIBRATED or NO_ZERO, and FAULT, SENSOR while the
channel's calibration is written: the count enters the filter window, the oldest leaves it when it is too long, and
nothing else changes. STARTING without a stable, unlimited evaluation of |W| at most Max / 10: both windows, the
latest evaluation and the silence timer advance and nothing else changes. STARTING with one: the channel is RUNNING
with Zi = Zo = W and G 0, its first reading formed from G 0 and its tare, and the initial-zero timer stopped; a
platter reading goes to the capture log, which arms it; for the bag channel a FAULTED bag check enters ARMING and then
takes the reading; a display check ends the arrival. FAULT, SENSOR, return state STARTING: the first evaluation in
STARTING with both timers started afresh. That one arrival makes one display check, at its end, is log 11. -/
def Obligations.SamplesBeforeRunning : Prop :=
  (∀ (s : State) (l : LaneId) (c : Chan) (raw : BitVec 20),
    s.Runs l →
    (s.chan l c).state = .stopped ∨ ((s.chan l c).state = .fault ∧ ((s.chan l c).cause ≠ .sensor ∨
      s.calWriting l c = true)) →
    let x := s.chan l c
    let raws := x.filter ++ [raw.toNat]
    let w := if x.filterLength < raws.length then raws.drop 1 else raws
    exec (.sampleArrival l c raw) s = .next
      (s.setChan l c { x with filter := w })) ∧
  (∀ (s : State) (l : LaneId) (c : Chan) (raw : BitVec 20) (k : Calib),
    s.Runs l →
    (s.chan l c).state = .starting →
    (s.chan l c).calib = some k →
    1 ≤ (s.chan l c).stabilityLength →
    let x := s.chan l c
    let raws := x.filter ++ [raw.toNat]
    let w := if x.filterLength < raws.length then raws.drop 1 else raws
    let wt := calibrated k (average w)
    let ws := x.stability ++ [wt]
    let v := if x.stabilityLength < ws.length then ws.drop 1 else ws
    let full := v.length = x.stabilityLength ∧ ∀ a ∈ v, ∀ b ∈ v, a - b ≤ k.d1
    let limit := raw = 0 ∨ raw = 1048575
    (¬ (full ∧ ¬ limit ∧ |wt| ≤ (k.max / 10 : Nat)) →
      exec (.sampleArrival l c raw) s = .next
      (s.setChan l c { x with
        filter := w, stability := v, latest := some ⟨wt, none, decide full⟩, silence := some 250 }))) ∧
  (∀ (s : State) (l : LaneId) (c : Chan) (raw : BitVec 20) (k : Calib),
    s.Runs l →
    (s.chan l c).state = .starting →
    (s.chan l c).calib = some k →
    1 ≤ (s.chan l c).stabilityLength →
    let x := s.chan l c
    let raws := x.filter ++ [raw.toNat]
    let w := if x.filterLength < raws.length then raws.drop 1 else raws
    let wt := calibrated k (average w)
    let ws := x.stability ++ [wt]
    let v := if x.stabilityLength < ws.length then ws.drop 1 else ws
    let full := v.length = x.stabilityLength ∧ ∀ a ∈ v, ∀ b ∈ v, a - b ≤ k.d1
    let limit := raw = 0 ∨ raw = 1048575
    (full ∧ ¬ limit ∧ |wt| ≤ (k.max / 10 : Nat) →
      let d := if |0 - x.tare| ≤ k.m1 then k.d1 else k.d2
      let reading : Reading :=
        ⟨.stable, some (roundTo (0 - x.tare) d), x.tare, x.tareKind, some d, decide (x.tareKind ≠ .noTare), true⟩
      let y := s.setChan l c { x with
        state := .running, filter := w, stability := v, zi := some wt, zo := some wt, latest := some ⟨wt, some 0, true⟩
        reading := some reading, silence := some 250, initialZero := none }
      exec (.sampleArrival l c raw) s = .next
      (((match c with
        | .platter => (y).platterReading l k reading 0
        | .bag =>
          let b := (s.lane l).bagCheck
          let z : State := if b.state = .faulted then (y).modLane l fun n => { n with bagCheck := { b with
              state := .arming, placement := none, removal := none, excursion := false, latestGross := none
              latestStable := none } }
            else y
          z.bagReading l 0 true) : State).displayCheck l c))) ∧
  (∀ (s : State) (l : LaneId) (c : Chan) (raw : BitVec 20) (k : Calib),
    s.Runs l →
    (s.chan l c).state = .fault →
    (s.chan l c).cause = .sensor →
    (s.chan l c).ret = some .starting →
    s.calWriting l c = false →
    (s.chan l c).calib = some k →
    (s.chan l c).filter = [] ∧ (s.chan l c).stability = [] →
    2 ≤ (s.chan l c).stabilityLength ∧ 1 ≤ (s.chan l c).filterLength →
    let x := s.chan l c
    let wt := calibrated k raw.toNat
    exec (.sampleArrival l c raw) s = .next
      ((s.setChan l c { x with
        state := .starting, cause := .noCause, ret := none, silence := some 250, initialZero := some 10000,
        filter := [raw.toNat], stability := [wt], latest := some ⟨wt, none, false⟩ }).displayCheck l c))

/-- An evaluation in RUNNING forms the filter average, the weight, the gross, zero tracking, the net, the status and
the reading. SAMPLE_ARRIVAL on a RUNNING channel with a calibration, or on one in FAULT, SENSOR whose return state is
RUNNING: the windows with the new count and weight, the zero offset moved only where zero tracking acts, the latest
evaluation, and the reading with its status, rounded net, tare, division, NET and CENTRE, are as the stages give them;
every other field of the channel but its display record and timer is as it was, and so is the other channel of the
lane and every other lane. At the return from FAULT, SENSOR to RUNNING the whole next state is given: a FAULTED bag
check enters ARMING as the bag channel returns, the reading is handed to the capture log or the bag check, and a
display check ends the arrival (log 11). -/
def Obligations.RunningEvaluationFormsTheReading : Prop :=
  (∀ (s : State) (l : LaneId) (c : Chan) (raw : BitVec 20) (k : Calib),
    s.Runs l →
    (s.chan l c).state = .running →
    (s.chan l c).cause = .noCause ∧ (s.chan l c).ret = none →
    (s.chan l c).calib = some k →
    1 ≤ (s.chan l c).stabilityLength →
    let x := s.chan l c
    let raws := x.filter ++ [raw.toNat]
    let w := if x.filterLength < raws.length then raws.drop 1 else raws
    let wt := calibrated k (average w)
    let ws := x.stability ++ [wt]
    let v := if x.stabilityLength < ws.length then ws.drop 1 else ws
    let full := v.length = x.stabilityLength ∧ ∀ a ∈ v, ∀ b ∈ v, a - b ≤ k.d1
    let limit := raw = 0 ∨ raw = 1048575
    let g0 := wt - x.zo.getD 0
    let tracks := full ∧ ¬ limit ∧ x.tareKind = .noTare ∧ |g0| ≤ (k.d1 / 2 : Nat) ∧
      |wt - x.zi.getD 0| ≤ (k.max / 50 : Nat)
    let g := if tracks then 0 else g0
    let n := g - x.tare
    let status : ReadStatus :=
      if raw = 0 then .under else if raw = 1048575 then .over
      else if ((k.max + 9 * k.d2 : Nat) : Int) < g then .over
      else if g < -((20 * k.d1 : Nat) : Int) then .under
      else if full then .stable else .motion
    let d := if |n| ≤ k.m1 then k.d1 else k.d2
    let shown := status = .stable ∨ status = .motion
    let reading : Reading :=
      ⟨status, if shown then some (roundTo n d) else none, x.tare, x.tareKind, if shown then some d else none,
        decide (x.tareKind ≠ .noTare), decide (shown ∧ |g| ≤ (k.d1 / 4 : Nat))⟩
    ∃ t shownDisplay timer, exec (.sampleArrival l c raw) s = .next t ∧
      t.chan l c = { x with
        state := .running, cause := .noCause, ret := none, filter := w, stability := v, silence := some 250,
        zo := if tracks then some wt else x.zo, latest := some ⟨wt, some g, decide full⟩, reading := some reading,
        display := shownDisplay, displayTimer := timer } ∧
      (∀ m, m ≠ l → t.lane m = s.lane m) ∧ ∀ d, d ≠ c → t.chan l d = s.chan l d) ∧
  (∀ (s : State) (l : LaneId) (c : Chan) (raw : BitVec 20) (k : Calib),
    s.Runs l →
    (s.chan l c).state = .fault →
    (s.chan l c).cause = .sensor →
    (s.chan l c).ret = some .running →
    s.calWriting l c = false →
    (s.chan l c).calib = some k →
    1 ≤ (s.chan l c).stabilityLength →
    let x := s.chan l c
    let raws := x.filter ++ [raw.toNat]
    let w := if x.filterLength < raws.length then raws.drop 1 else raws
    let wt := calibrated k (average w)
    let ws := x.stability ++ [wt]
    let v := if x.stabilityLength < ws.length then ws.drop 1 else ws
    let full := v.length = x.stabilityLength ∧ ∀ a ∈ v, ∀ b ∈ v, a - b ≤ k.d1
    let limit := raw = 0 ∨ raw = 1048575
    let g0 := wt - x.zo.getD 0
    let tracks := full ∧ ¬ limit ∧ x.tareKind = .noTare ∧ |g0| ≤ (k.d1 / 2 : Nat) ∧
      |wt - x.zi.getD 0| ≤ (k.max / 50 : Nat)
    let g := if tracks then 0 else g0
    let n := g - x.tare
    let status : ReadStatus :=
      if raw = 0 then .under else if raw = 1048575 then .over
      else if ((k.max + 9 * k.d2 : Nat) : Int) < g then .over
      else if g < -((20 * k.d1 : Nat) : Int) then .under
      else if full then .stable else .motion
    let d := if |n| ≤ k.m1 then k.d1 else k.d2
    let shown := status = .stable ∨ status = .motion
    let reading : Reading :=
      ⟨status, if shown then some (roundTo n d) else none, x.tare, x.tareKind, if shown then some d else none,
        decide (x.tareKind ≠ .noTare), decide (shown ∧ |g| ≤ (k.d1 / 4 : Nat))⟩
    ∃ t shownDisplay timer, exec (.sampleArrival l c raw) s = .next t ∧
      t.chan l c = { x with
        state := .running, cause := .noCause, ret := none, filter := w, stability := v, silence := some 250,
        zo := if tracks then some wt else x.zo, latest := some ⟨wt, some g, decide full⟩, reading := some reading,
        display := shownDisplay, displayTimer := timer } ∧
      (∀ m, m ≠ l → t.lane m = s.lane m) ∧ (∀ d, d ≠ c → t.chan l d = s.chan l d) ∧
      t = ((match c with
        | .platter => ((s.setChan l c { x with
        state := .running, cause := .noCause, ret := none, filter := w, stability := v, silence := some 250,
        zo := if tracks then some wt else x.zo, latest := some ⟨wt, some g, decide full⟩, reading := some reading,
        display := x.display, displayTimer := x.displayTimer })).platterReading l k reading g
        | .bag =>
          let b := (s.lane l).bagCheck
          let z : State := if b.state = .faulted then ((s.setChan l c { x with
        state := .running, cause := .noCause, ret := none, filter := w, stability := v, silence := some 250,
        zo := if tracks then some wt else x.zo, latest := some ⟨wt, some g, decide full⟩, reading := some reading,
        display := x.display, displayTimer := x.displayTimer })).modLane l fun n => { n with bagCheck := { b with
              state := .arming, placement := none, removal := none, excursion := false, latestGross := none
              latestStable := none } }
            else (s.setChan l c { x with
        state := .running, cause := .noCause, ret := none, filter := w, stability := v, silence := some 250,
        zo := if tracks then some wt else x.zo, latest := some ⟨wt, some g, decide full⟩, reading := some reading,
        display := x.display, displayTimer := x.displayTimer })
          z.bagReading l g (decide (status = .stable))) : State).displayCheck l c)

/-- The silence timer and the initial-zero timer put a working channel into FAULT, raise its condition and tell the
bag check. CHANNEL_SILENCE_EXPIRY with the timer running in STARTING or RUNNING: FAULT with cause SENSOR and the state
left as return state, windows emptied, reading and evaluation absent, both timers stopped, zeros and tare kept.
INITIAL_ZERO_EXPIRY with the timer running in STARTING: FAULT with cause NO_ZERO. Each raises PLATTER_FAULT or
BAG_FAULT, tells the bag check of the loss of its channel, and makes a display check, in that order (log 10). A loss
outside SUSPENDED enters FAULTED, its timers stopped and its awaiting entry kept, and offers BAG_EVENT FAULTED; in
SUSPENDED it does nothing. The lane octet of the notice is log 12; its absent D and its entry octets 0, 0 without an
awaiting entry are log 16. -/
def Obligations.ChannelTimersEndInFault : Prop :=
  (∀ (s : State) (l : LaneId) (c : Chan),
    s.Runs l →
    (s.chan l c).silence.isSome = true →
    (s.chan l c).state = .starting ∨ (s.chan l c).state = .running →
    let x := s.chan l c
    let y := s.setChan l c { x with
      state := .fault, cause := .sensor, ret := some (if x.state = .starting then .starting else .running), filter := [], stability := [], latest := none, reading := none,
      silence := none, initialZero := none }
    let z := y.raiseLane l (if c = .bag then .bagFault else .platterFault)
    exec (.channelSilenceExpiry l c) s = .next
      ((if c = .bag then z.bagLoss l else z).displayCheck l c)) ∧
  (∀ (s : State) (l : LaneId) (c : Chan),
    s.Runs l →
    (s.chan l c).initialZero.isSome = true →
    (s.chan l c).state = .starting →
    let x := s.chan l c
    let y := s.setChan l c { x with
      state := .fault, cause := .noZero, ret := none, filter := [], stability := [], latest := none, reading := none,
      silence := none, initialZero := none }
    let z := y.raiseLane l (if c = .bag then .bagFault else .platterFault)
    exec (.initialZeroExpiry l c) s = .next
      ((if c = .bag then z.bagLoss l else z).displayCheck l c)) ∧
  (∀ (s : State) (l : LaneId),
    let n := s.lane l
    let b : BagCheck := { n.bagCheck with
      state := .faulted, placement := none, removal := none, excursion := false, latestGross := none, latestStable := none }
    let pos := n.bagCheck.awaiting.getD 0
    s.bagLoss l = if n.bagCheck.state = .suspended then s
      else (s.setLane l { n with bagCheck := b }).offerLane l 0x84
        ([laneAddr l, 9, 7] ++ optional 4 (b.b.map (beInt 4)) ++ [0, 0, 0, 0, 0] ++
          [octet pos, ((n.entryAt pos).map fun e => e.bag.value).getD 0]))

/-- ITEM passes its tests in order and appends a counted entry with its bag fields, or creates the weigh request.
ITEM: a skip-bagging flag above 1 is BAD_VALUE first; then the tests of its table in order, the first that applies
refusing it with no other effect. A WEIGHED item creates the weigh request with the record's code, price, tare,
tolerance and bag exemption and its timer started, detail the pending flag. A counted item appends its entry with line
price = quantity times unit price; its bag fields follow the lane mode, the bag rule and the flag; an AWAITING entry
enters AWAITING_PLACE with the allowance and the placement timer. The detail carries the position, line price, bag
state, and the total and due after it. That the pending flag's octet is 0 or 1 is log 12. -/
def Obligations.ItemIsTestedAndEntered : Prop :=
  ∀ (s : State) (l : LaneId) (tag : Byte) (code : BitVec 48) (quantity : Byte) (price : BitVec 32) (skip : Byte),
    s.Serves l →
    let n := s.lane l
    let c := code.toNat
    let q := quantity.toNat
    let item := s.items.find? fun r => r.code == c
    let self := n.mode = .self
    let weighed := (item.map fun r => r.kind) = some .weighed
    let exempt := (item.map fun r => r.bagRule) = some .exempt ∨ (self ∧ skip = 1)
    let bag : BagState := if ¬ self ∨ item = none then .notChecked else if exempt then .exempt else .awaiting
    let e : Entry := {
      kind := .counted, code := c, quantity := q, unitPrice := price.toNat, linePrice := q * price.toNat, capture := none
      net := none, voided := false, bag := bag
      expected := if bag = .awaiting then (item.bind fun r => r.expectedWeight).map fun w => ((q * w : Nat) : Int) else none
      tolerance := if bag = .awaiting then some ((q * ((item.bind fun r => r.tolerance).getD 0) : Nat) : Int) else none }
    exec (.item (laneAddr l) tag code quantity price skip) s = .next
      (if 1 < skip.toNat then s.refuses (laneAddr l) 0x10 tag .badValue
      else if n.mode = .closed then s.refuses (laneAddr l) 0x10 tag .laneClosed
      else if n.basketState = .tendering then s.refuses (laneAddr l) 0x10 tag .tenderStarted
      else if n.basketState = .settled then s.refuses (laneAddr l) 0x10 tag .basketSettled
      else if 64 ≤ n.entries.length then s.refuses (laneAddr l) 0x10 tag .basketFull
      else if self ∧ item = none then s.refuses (laneAddr l) 0x10 tag .unknownItem
      else if self ∧ n.bagCheck.state ≠ .settled then s.answers (laneAddr l) 0x10 tag false .bagBusy [n.bagCheck.state.value] id
      else if self ∧ skip = 1 ∧ n.authority = none then s.refuses (laneAddr l) 0x10 tag .authorityNeeded
      else if c < 1 ∨ 9999999999999 < c ∨ q < 1 ∨ 99 < q ∨ (weighed ∧ q ≠ 1) ∨ (¬ weighed ∧
        9999999 < price.toNat) then s.refuses (laneAddr l) 0x10 tag .badValue
      else if ¬ weighed ∧ 9999999 < q * price.toNat then s.refuses (laneAddr l) 0x10 tag .priceLimit
      else if weighed ∧ n.weigh ≠ none then s.refuses (laneAddr l) 0x10 tag .weighPending
      else match item with
      | some r =>
        if r.kind = .weighed then s.accepts (laneAddr l) 0x10 tag [1] (fun x => x.setLane l { n with
          weigh := some ⟨r.code, r.unitPrice.getD 0, r.presetTare, r.tolerance, decide exempt,
            some ((s.laneSettings l).weighTime * 1000), false, .noReading⟩ })
        else s.accepts (laneAddr l) 0x10 tag
          ([0, octet (n.entries.length + 1)] ++ be 4 e.linePrice ++ [bag.value] ++ be 4 (n.total + e.linePrice) ++
            beInt 4 (n.due + e.linePrice))
          (fun x => x.setLane l (if bag = .awaiting then { n with entries := n.entries ++ [e], bagCheck := { n.bagCheck with
                state := .awaitingPlace, awaiting := some (n.entries.length + 1), e := e.expected
                a := e.tolerance.getD 0 + (s.laneSettings l).baseTolerance
                placement := some ((s.laneSettings l).placementTime * 1000), removal := none
                excursion := false, latestGross := none, latestStable := none } }
            else { n with entries := n.entries ++ [e] }))
      | none => s.accepts (laneAddr l) 0x10 tag
          ([0, octet (n.entries.length + 1)] ++ be 4 e.linePrice ++ [0] ++ be 4 (n.total + e.linePrice) ++
            beInt 4 (n.due + e.linePrice))
          (fun x => x.setLane l { n with entries := n.entries ++ [e] }))

/-- VOID passes its tests in order, marks its entry voided in place, and tells the bag check what a self-mode void
asks of it. VOID: the tests of its table in order. One that passes marks the entry voided; the total and the due fall
by its line price. Outside self mode, and for NOT_CHECKED, EXEMPT or WAIVED, nothing else changes. In self mode a
PLACED entry becomes REMOVING and the bag check enters AWAITING_REMOVAL for it with its allowance and the removal
timer; the awaiting entry, AWAITING, becomes WAIVED and the expectation ends: SETTLED from AWAITING_PLACE and HELD,
the state kept in FAULTED and ARMING. B is unchanged. The detail is the position, the bag state after it, the total
and the due. -/
def Obligations.VoidCancelsAnEntryInPlace : Prop :=
  (∀ (s : State) (l : LaneId) (tag position : Byte) (code : Code),
    s.Serves l →
    (let n := s.lane l
     (if n.basketState = .empty then some Code.noEntry
      else if n.basketState = .tendering then some .tenderStarted
      else if n.basketState = .settled then some .basketSettled
      else if position.toNat = 0 then some .noEntry
      else match n.entries[position.toNat - 1]? with
        | none => some .noEntry
        | some e => if e.voided then some .alreadyVoid
          else if n.mode = .self ∧ n.authority = none then some .authorityNeeded else none) = some code) →
    exec (.void (laneAddr l) tag position) s = .next
      (s.refuses (laneAddr l) 0x11 tag code)) ∧
  (∀ (s : State) (l : LaneId) (tag position : Byte) (k : Nat) (e : Entry),
    s.Serves l →
    (s.lane l).basketState = .opened →
    position.toNat = k + 1 →
    (s.lane l).entries[k]? = some e →
    e.voided = false →
    (s.lane l).mode = .self →
    (s.lane l).authority ≠ none →
    (s.lane l).bagCheck.state ≠ .settled →
    e.bag ≠ .awaiting →
    exec (.void (laneAddr l) tag position) s = .next
      (s.answers (laneAddr l) 0x11 tag false .bagBusy [(s.lane l).bagCheck.state.value] id)) ∧
  (∀ (s : State) (l : LaneId) (tag position : Byte) (k : Nat) (e : Entry),
    s.Serves l →
    (s.lane l).basketState = .opened →
    position.toNat = k + 1 →
    (s.lane l).entries[k]? = some e →
    e.voided = false →
    (s.lane l).mode ≠ .self ∨ ((s.lane l).authority ≠ none ∧ (s.lane l).bagCheck.state = .settled ∧
      (e.bag = .notChecked ∨ e.bag = .exempt ∨ e.bag = .waived)) →
    let n := s.lane l
    exec (.void (laneAddr l) tag position) s = .next
      (s.accepts (laneAddr l) 0x11 tag ([position, e.bag.value] ++ be 4 (n.total - e.linePrice) ++
        beInt 4 (n.due - e.linePrice)) (fun x => x.setLane l { n with entries := n.entries.set k { e with voided := true } }))) ∧
  (∀ (s : State) (l : LaneId) (tag position : Byte) (k : Nat) (e : Entry),
    s.Serves l →
    (s.lane l).basketState = .opened →
    position.toNat = k + 1 →
    (s.lane l).entries[k]? = some e →
    e.voided = false →
    (s.lane l).mode = .self →
    (s.lane l).authority ≠ none →
    (s.lane l).bagCheck.state = .settled →
    e.bag = .placed →
    let n := s.lane l
    exec (.void (laneAddr l) tag position) s = .next
      (s.accepts (laneAddr l) 0x11 tag ([position, 5] ++ be 4 (n.total - e.linePrice) ++
        beInt 4 (n.due - e.linePrice)) (fun x => x.setLane l { n with 
        entries := n.entries.set k { e with voided := true, bag := .removing }
        bagCheck := { n.bagCheck with
          state := .awaitingRemoval, awaiting := some (k + 1), e := e.expected
          a := e.tolerance.getD 0 + (s.laneSettings l).baseTolerance
          placement := none, removal := some ((s.laneSettings l).removalTime * 1000)
          excursion := false, latestGross := none, latestStable := none } }))) ∧
  (∀ (s : State) (l : LaneId) (tag position : Byte) (k : Nat) (e : Entry),
    s.Serves l →
    (s.lane l).basketState = .opened →
    position.toNat = k + 1 →
    (s.lane l).entries[k]? = some e →
    e.voided = false →
    (s.lane l).mode = .self →
    (s.lane l).authority ≠ none →
    e.bag = .awaiting →
    (s.lane l).bagCheck.awaiting = some (k + 1) →
    let n := s.lane l
    let b := n.bagCheck
    let settled : BagCheck := { b with
      state := .settled, awaiting := none, e := none, a := 0, placement := none, removal := none
      excursion := false, latestGross := none, latestStable := none }
    (b.state = .awaitingPlace ∨ b.state = .held →
      exec (.void (laneAddr l) tag position) s = .next
      (s.accepts (laneAddr l) 0x11 tag ([position, 4] ++ be 4 (n.total - e.linePrice) ++
        beInt 4 (n.due - e.linePrice)) (fun x => x.setLane l { n with entries := n.entries.set k { e with voided := true, bag := .waived }, bagCheck := settled }))) ∧
    (b.state = .faulted ∨ b.state = .arming →
      exec (.void (laneAddr l) tag position) s = .next
      (s.accepts (laneAddr l) 0x11 tag ([position, 4] ++ be 4 (n.total - e.linePrice) ++
        beInt 4 (n.due - e.linePrice)) (fun x => x.setLane l { n with 
        entries := n.entries.set k { e with voided := true, bag := .waived }
        bagCheck := { b with awaiting := none, e := none, a := 0 } }))))

/-- CANCEL_WEIGH ends the pending weigh request with a notice after its answer, or is refused when none is pending.
CANCEL_WEIGH with a request pending is accepted, the request and its timer are gone, and a WEIGH_ENDED CANCELLED is
offered after the answer; with none it is refused with NO_WEIGH. A request that is gone has no expiry and no capture:
the expiry changes nothing, a platter reading only arms. An expiry taken first ends the request EXPIRED, so that none
is pending for CANCEL_WEIGH. A capture taken first ends it PRICED, and its WEIGHED entry stands in the basket. -/
def Obligations.CancelWeighEndsThePendingRequest : Prop :=
  (∀ (s : State) (l : LaneId) (tag : Byte),
    s.Serves l →
    let n := s.lane l
    exec (.cancelWeigh (laneAddr l) tag) s = .next
      (match n.weigh with
      | none => s.refuses (laneAddr l) 0x12 tag .noWeigh
      | some w => s.accepts (laneAddr l) 0x12 tag [] (fun x =>
        (x.setLane l { n with weigh := none }).offerLane l 0x83 (be 6 w.code ++ [2, 0] ++ List.replicate 25 0)))) ∧
  (∀ (s : State) (l : LaneId) (w : WeighRequest),
    s.Runs l →
    (s.lane l).weigh = some w →
    w.timer.isSome = true →
    exec (.weighTimerExpiry l) s = .next
      ((s.setLane l { s.lane l with weigh := none }).offerLane l 0x83 (be 6 w.code ++ [1, 0] ++ List.replicate 25 0))) ∧
  (∀ (s : State) (l : LaneId) (k : Calib) (r : Reading) (g : Int),
    (s.lane l).weigh = none →
    exec (.weighTimerExpiry l) s = .next s ∧
    s.platterReading l k r g = if g ≤ ((5 * k.d1 : Nat) : Int) then s.setLane l { s.lane l with armed := true } else s) ∧
  (∀ (s : State) (l : LaneId) (w : WeighRequest) (t : CaptureTare) (price : Nat),
    let u := (s.takeCapture l w t price).lane l
    u.weigh = none ∧ (∃ e, u.entries = (s.lane l).entries ++ [e] ∧ e.kind = .weighed) ∧
    ∃ (x : State) (rest : List Byte), rest.length = 25 ∧
      s.takeCapture l w t price = x.offerLane l 0x83 (be 6 w.code ++ [0, 0] ++ rest))

/-- TENDER passes its tests in order and appends a tender; the due falls by its amount, and cash sets the drawer
token. TENDER: the tests of its table in order; the first that applies refuses it with no other effect. One that
passes appends a CASH or VOUCHER tender of the amount, a CASH one setting the drawer token; the detail is the tendered
sum, the due (negative when change is owed) and the new state, SETTLED when the due is 0 or below and TENDERING
otherwise. Nothing else changes. -/
def Obligations.TenderMovesTheDue : Prop :=
  ∀ (s : State) (l : LaneId) (tag kind : Byte) (amount : BitVec 32),
    s.Serves l →
    let n := s.lane l
    let a := amount.toNat
    exec (.tender (laneAddr l) tag kind amount) s = .next
      (if 1 < kind.toNat ∨ a < 1 ∨ 9999999 < a then s.refuses (laneAddr l) 0x13 tag .badValue
      else if n.basketState = .empty then s.refuses (laneAddr l) 0x13 tag .badValue
      else if n.basketState = .settled then s.refuses (laneAddr l) 0x13 tag .basketSettled
      else if n.card.slot ≠ none then s.refuses (laneAddr l) 0x13 tag .handoffPending
      else if 8 ≤ n.tenders.length then s.refuses (laneAddr l) 0x13 tag .tenderFull
      else s.accepts (laneAddr l) 0x13 tag (be 4 (n.tendered + a) ++ beInt 4 (n.due - a) ++
        [if n.due ≤ a then 3 else 2]) (fun x => x.setLane l { n with
        tenders := n.tenders ++ [⟨if kind = 0 then .cash else .voucher, a, none, none, false, false⟩]
        token := if kind = 0 then true else n.token }))

/-- NEW_BASKET and ABANDON_BASKET pass their tests in order and clear the basket, the token, the basket-held flags,
the weigh request and the expectation. NEW_BASKET: BASKET_ACTIVE in OPEN and TENDERING; on an EMPTY basket only a
pending weigh request ends, CANCELLED; in SETTLED, DRAWER_OPEN while the drawer is RELEASING, CHECKING, OPEN or
LEFT_OPEN, else the clear. ABANDON_BASKET: the tests of its table in order, else the clear. The clear empties entries
and tenders, sets the token to 0 and every basket-held flag to no with the certified fields kept, ends a pending
request with its WEIGH_ENDED after the answer, and drops the expectation: AWAITING_PLACE, AWAITING_REMOVAL and HELD
become SETTLED, B kept. The detail is the bag check state after it (for NEW_BASKET on an EMPTY basket, log 13). -/
def Obligations.BasketClearsEndTheSale : Prop :=
  (∀ (s : State) (l : LaneId) (tag : Byte),
    s.Serves l →
    let n := s.lane l
    let st : BagCheckState :=
      if n.bagCheck.state = .awaitingPlace ∨ n.bagCheck.state = .awaitingRemoval ∨
        n.bagCheck.state = .held then .settled
      else n.bagCheck.state
    let entered := st ≠ n.bagCheck.state
    let cleared : Lane := { n with
      entries := [], tenders := [], token := false, log := n.log.map fun c => { c with basketHeld := false }
      bagCheck := { n.bagCheck with
        state := st, awaiting := none, e := none, a := 0, placement := none, removal := none
        excursion := if entered then false else n.bagCheck.excursion
        latestGross := if entered then none else n.bagCheck.latestGross
        latestStable := if entered then none else n.bagCheck.latestStable } }
    exec (.newBasket (laneAddr l) tag) s = .next
      (if n.basketState = .opened ∨ n.basketState = .tendering then s.refuses (laneAddr l) 0x14 tag .basketActive
      else if n.basketState = .empty then s.accepts (laneAddr l) 0x14 tag [n.bagCheck.state.value] (fun x =>
        match n.weigh with
        | none => x
        | some w => (x.setLane l { n with weigh := none }).offerLane l 0x83 (be 6 w.code ++ [2, 0] ++
          List.replicate 25 0))
      else if n.till.state = .releasing ∨ n.till.state = .checking ∨ n.till.state = .opened ∨
        n.till.state = .leftOpen then s.refuses (laneAddr l) 0x14 tag .drawerOpen
      else s.accepts (laneAddr l) 0x14 tag [st.value] (fun x =>
        match n.weigh with
        | none => x.setLane l cleared
        | some w => (x.setLane l { cleared with weigh := none }).offerLane l 0x83 (be 6 w.code ++ [2, 0] ++
          List.replicate 25 0)))) ∧
  (∀ (s : State) (l : LaneId) (tag : Byte),
    s.Serves l →
    let n := s.lane l
    let st : BagCheckState :=
      if n.bagCheck.state = .awaitingPlace ∨ n.bagCheck.state = .awaitingRemoval ∨
        n.bagCheck.state = .held then .settled
      else n.bagCheck.state
    let entered := st ≠ n.bagCheck.state
    let cleared : Lane := { n with
      entries := [], tenders := [], token := false, log := n.log.map fun c => { c with basketHeld := false }
      bagCheck := { n.bagCheck with
        state := st, awaiting := none, e := none, a := 0, placement := none, removal := none
        excursion := if entered then false else n.bagCheck.excursion
        latestGross := if entered then none else n.bagCheck.latestGross
        latestStable := if entered then none else n.bagCheck.latestStable } }
    exec (.abandonBasket (laneAddr l) tag) s = .next
      (if n.basketState = .empty then s.refuses (laneAddr l) 0x15 tag .badValue
      else if n.basketState = .settled then s.refuses (laneAddr l) 0x15 tag .basketSettled
      else if n.mode = .self ∧ n.authority = none then s.refuses (laneAddr l) 0x15 tag .authorityNeeded
      else if ∃ t ∈ n.tenders, t.kind = .card then s.refuses (laneAddr l) 0x15 tag .basketPaid
      else if n.card.slot ≠ none then s.refuses (laneAddr l) 0x15 tag .handoffPending
      else s.accepts (laneAddr l) 0x15 tag [st.value] (fun x =>
        match n.weigh with
        | none => x.setLane l cleared
        | some w => (x.setLane l { cleared with weigh := none }).offerLane l 0x83 (be 6 w.code ++ [2, 0] ++
          List.replicate 25 0))))

/-- BAG_OVERRIDE ends the awaited entry and accepts the weight last seen; an expiry of a bag timer holds the lane.
BAG_OVERRIDE: AUTHORITY_NEEDED without authority; NOTHING_HELD in SUSPENDED and SETTLED, and in FAULTED and ARMING
with no awaiting entry. Otherwise an awaiting entry AWAITING becomes WAIVED, REMOVING becomes REMOVED, and is absent;
in AWAITING_PLACE, AWAITING_REMOVAL, HELD and UNEXPECTED, B becomes the latest stable gross, else the latest gross,
else the previous one, the state SETTLED with BAG_EVENT OVERRIDDEN; in FAULTED and ARMING, B and state are kept and
there is no notice. PLACEMENT_TIMER_EXPIRY and REMOVAL_TIMER_EXPIRY with the timer running enter HELD, keeping entry,
e, a and B, offer BAG_EVENT HELD and raise BAG_HELD, in that order. The octets of the detail and the notice are log 12
and log 16; that FAULTED and ARMING offer no notice is log 34. -/
def Obligations.BagOverrideAndHeldExpectations : Prop :=
  (∀ (s : State) (l : LaneId) (tag : Byte),
    s.Serves l →
    let n := s.lane l
    let b := n.bagCheck
    (n.authority = none → exec (.bagOverride (laneAddr l) tag) s = .next
      (s.refuses (laneAddr l) 0x28 tag .authorityNeeded)) ∧
    (n.authority ≠ none → b.state = .suspended ∨ b.state = .settled ∨ ((b.state = .faulted ∨ b.state = .arming) ∧
      b.awaiting = none) →
      exec (.bagOverride (laneAddr l) tag) s = .next
      (s.refuses (laneAddr l) 0x28 tag .nothingHeld))) ∧
  (∀ (s : State) (l : LaneId) (tag : Byte) (k : Nat) (e : Entry),
    s.Serves l →
    (s.lane l).authority ≠ none →
    (s.lane l).bagCheck.state = .awaitingPlace ∨ (s.lane l).bagCheck.state = .awaitingRemoval ∨
      (s.lane l).bagCheck.state = .held →
    (s.lane l).bagCheck.awaiting = some (k + 1) →
    (s.lane l).entries[k]? = some e →
    e.bag = .awaiting ∨ e.bag = .removing →
    let n := s.lane l
    let b := n.bagCheck
    let w := if b.latestStable ≠ none then b.latestStable else if b.latestGross ≠ none then b.latestGross else b.previousGross
    let after : BagState := if e.bag = .awaiting then .waived else .removed
    exec (.bagOverride (laneAddr l) tag) s = .next
      (s.accepts (laneAddr l) 0x28 tag ([octet (k + 1), after.value] ++ optional 4 (w.map (beInt 4)) ++ [2]) (fun x =>
        (x.setLane l { n with
          entries := n.entries.set k { e with bag := after }
          bagCheck := { b with state := .settled, b := w, awaiting := none, e := none, a := 0, placement := none, removal := none, excursion := false, latestGross := none, latestStable := none } }).offerLane l 0x84
          ([laneAddr l, 8, 2] ++ optional 4 (w.map (beInt 4)) ++ [0, 0, 0, 0, 0] ++ [octet (k + 1), after.value])))) ∧
  (∀ (s : State) (l : LaneId) (tag : Byte),
    s.Serves l →
    (s.lane l).authority ≠ none →
    (s.lane l).bagCheck.state = .unexpected →
    (s.lane l).bagCheck.awaiting = none →
    let n := s.lane l
    let b := n.bagCheck
    let w := if b.latestStable ≠ none then b.latestStable else if b.latestGross ≠ none then b.latestGross else b.previousGross
    exec (.bagOverride (laneAddr l) tag) s = .next
      (s.accepts (laneAddr l) 0x28 tag ([0, 0] ++ optional 4 (w.map (beInt 4)) ++ [2]) (fun x =>
        (x.setLane l { n with bagCheck := { b with state := .settled, b := w, awaiting := none, e := none, a := 0, placement := none, removal := none, excursion := false, latestGross := none, latestStable := none } }).offerLane
          l 0x84 ([laneAddr l, 8, 2] ++ optional 4 (w.map (beInt 4)) ++ [0, 0, 0, 0, 0] ++ [0, 0])))) ∧
  (∀ (s : State) (l : LaneId) (tag : Byte) (k : Nat) (e : Entry),
    s.Serves l →
    (s.lane l).authority ≠ none →
    (s.lane l).bagCheck.state = .faulted ∨ (s.lane l).bagCheck.state = .arming →
    (s.lane l).bagCheck.awaiting = some (k + 1) →
    (s.lane l).entries[k]? = some e →
    e.bag = .awaiting ∨ e.bag = .removing →
    let n := s.lane l
    let b := n.bagCheck
    let after : BagState := if e.bag = .awaiting then .waived else .removed
    exec (.bagOverride (laneAddr l) tag) s = .next
      (s.accepts (laneAddr l) 0x28 tag ([octet (k + 1), after.value] ++ optional 4 (b.b.map (beInt 4)) ++
        [b.state.value]) (fun x =>
        x.setLane l { n with
          entries := n.entries.set k { e with bag := after }
          bagCheck := { b with awaiting := none, e := none, a := 0, placement := none, removal := none } }))) ∧
  (∀ (s : State) (l : LaneId) (k : Nat) (e : Entry),
    s.Runs l →
    (s.lane l).bagCheck.awaiting = some (k + 1) →
    (s.lane l).entries[k]? = some e →
    let n := s.lane l
    let b := n.bagCheck
    let held := ((s.setLane l { n with bagCheck := { b with state := .held, placement := none, removal := none, excursion := false, latestGross := none, latestStable := none } }).offerLane l 0x84
      ([laneAddr l, 7, 6] ++ optional 4 (b.b.map (beInt 4)) ++ [0, 0, 0, 0, 0] ++
        [octet (k + 1), e.bag.value])).raiseLane l .bagHeld
    (b.placement.isSome = true → exec (.placementTimerExpiry l) s = .next held) ∧
    (b.removal.isSome = true → exec (.removalTimerExpiry l) s = .next held))

/-- Each bag reading is recorded, and each stable one moves the bag check by the table of its state. SAMPLE_ARRIVAL on
a RUNNING bag channel hands its reading to the bag check before the display check. It records the gross as the
previous one, and outside SUSPENDED and FAULTED as the latest, and the latest stable when STABLE; a reading not
STABLE, and any in SUSPENDED, HELD and FAULTED, does no more. A stable one with D = G - B: ARMING settles with B = G,
or holds an awaiting entry; SETTLED absorbs a drift, follows a removal from an EMPTY basket, or becomes UNEXPECTED;
UNEXPECTED is restored within the base; an expectation matches, ends or starts an excursion, or stays. Each notice and
condition is as the tables give, the notice first (R161). D in ARMING is G less the B held until then, absent while B
is unset, and the entry octets are 0, 0 with no entry concerned (log 16); the lane octet is log 12. -/
def Obligations.BagReadingsMoveTheBagCheck : Prop :=
  (∀ (s : State) (l : LaneId) (raw : BitVec 20) (k : Calib),
    s.Runs l →
    (s.chan l .bag).state = .running →
    (s.chan l .bag).cause = .noCause ∧ (s.chan l .bag).ret = none →
    (s.chan l .bag).calib = some k →
    1 ≤ (s.chan l .bag).stabilityLength →
    let x := s.chan l .bag
    let raws := x.filter ++ [raw.toNat]
    let w := if x.filterLength < raws.length then raws.drop 1 else raws
    let wt := calibrated k (average w)
    let ws := x.stability ++ [wt]
    let v := if x.stabilityLength < ws.length then ws.drop 1 else ws
    let full := v.length = x.stabilityLength ∧ ∀ a ∈ v, ∀ b ∈ v, a - b ≤ k.d1
    let limit := raw = 0 ∨ raw = 1048575
    let g0 := wt - x.zo.getD 0
    let tracks := full ∧ ¬ limit ∧ x.tareKind = .noTare ∧ |g0| ≤ (k.d1 / 2 : Nat) ∧
      |wt - x.zi.getD 0| ≤ (k.max / 50 : Nat)
    let g := if tracks then 0 else g0
    let n := g - x.tare
    let status : ReadStatus :=
      if raw = 0 then .under else if raw = 1048575 then .over
      else if ((k.max + 9 * k.d2 : Nat) : Int) < g then .over
      else if g < -((20 * k.d1 : Nat) : Int) then .under
      else if full then .stable else .motion
    let d := if |n| ≤ k.m1 then k.d1 else k.d2
    let shown := status = .stable ∨ status = .motion
    let reading : Reading :=
      ⟨status, if shown then some (roundTo n d) else none, x.tare, x.tareKind, if shown then some d else none,
        decide (x.tareKind ≠ .noTare), decide (shown ∧ |g| ≤ (k.d1 / 4 : Nat))⟩
    exec (.sampleArrival l .bag raw) s = .next (((s.setChan l .bag { x with
        state := .running, cause := .noCause, ret := none, filter := w, stability := v, silence := some 250,
        zo := if tracks then some wt else x.zo, latest := some ⟨wt, some g, decide full⟩, reading := some reading,
        display := x.display, displayTimer := x.displayTimer }).bagReading l g (decide (status = .stable))).displayCheck l .bag)) ∧
  (∀ (s : State) (l : LaneId) (g : Int) (stable : Bool),
    stable = false ∨ (s.lane l).bagCheck.state = .suspended ∨ (s.lane l).bagCheck.state = .held ∨
      (s.lane l).bagCheck.state = .faulted →
    let n := s.lane l
    let b := n.bagCheck
    let blind := b.state = .suspended ∨ b.state = .faulted
    s.bagReading l g stable = s.setLane l { n with bagCheck := { b with
      previousGross := some g
      latestGross := if blind then b.latestGross else some g
      latestStable := if blind ∨ stable = false then b.latestStable else some g } }) ∧
  (∀ (s : State) (l : LaneId) (g : Int),
    (s.lane l).bagCheck.state = .arming →
    let n := s.lane l
    let b := n.bagCheck
    s.bagReading l g true = match b.awaiting with
      | none => (s.setLane l { n with bagCheck := { b with state := .settled, b := some g, placement := none, removal := none, excursion := false, latestGross := none, latestStable := none, previousGross := some g } }).offerLane l 0x84
          ([laneAddr l, 0, 2] ++ optional 4 (some (beInt 4 (g))) ++ optional 4 (b.b.map fun w => beInt 4 (g - w)) ++
            [0, 0])
      | some pos => ((s.setLane l { n with bagCheck := { b with state := .held, b := some g, placement := none, removal := none, excursion := false, latestGross := none, latestStable := none, previousGross := some g } }).offerLane l 0x84
          ([laneAddr l, 7, 6] ++ optional 4 (some (beInt 4 (g))) ++ optional 4 (b.b.map fun w => beInt 4 (g - w)) ++
            [octet pos, ((n.entryAt pos).map fun e => e.bag.value).getD 0])).raiseLane l .bagHeld) ∧
  (∀ (s : State) (l : LaneId) (g w : Int),
    (s.lane l).bagCheck.state = .settled →
    (s.lane l).bagCheck.b = some w →
    let n := s.lane l
    let b := n.bagCheck
    let d := g - w
    let base : Int := (s.laneSettings l).baseTolerance
    s.bagReading l g true =
      if |d| ≤ base then s.setLane l { n with bagCheck := { { b with latestGross := some g, latestStable := some g, previousGross := some g } with b := some g } }
      else if d < -base ∧ n.basketState = .empty then
        (s.setLane l { n with bagCheck := { { b with latestGross := some g, latestStable := some g, previousGross := some g } with b := some g } }).offerLane l 0x84
          ([laneAddr l, 6, 2] ++ optional 4 (some (beInt 4 (g))) ++ optional 4 (some (beInt 4 d)) ++ [0, 0])
      else ((s.setLane l { n with bagCheck := { b with state := .unexpected, placement := none, removal := none, excursion := false, latestGross := none, latestStable := none, previousGross := some g } }).offerLane l 0x84
          ([laneAddr l, 4, 5] ++ optional 4 (some (beInt 4 (w))) ++ optional 4 (some (beInt 4 d)) ++
            [0, 0])).raiseLane l .unexpectedWeight) ∧
  (∀ (s : State) (l : LaneId) (g w : Int),
    (s.lane l).bagCheck.state = .unexpected →
    (s.lane l).bagCheck.b = some w →
    let n := s.lane l
    let b := n.bagCheck
    let d := g - w
    let base : Int := (s.laneSettings l).baseTolerance
    s.bagReading l g true =
      if |d| ≤ base then (s.setLane l { n with bagCheck := { b with state := .settled, placement := none, removal := none, excursion := false, latestGross := none, latestStable := none, previousGross := some g } }).offerLane l 0x84
          ([laneAddr l, 5, 2] ++ optional 4 (some (beInt 4 (w))) ++ optional 4 (some (beInt 4 d)) ++ [0, 0])
      else s.setLane l { n with bagCheck := { b with latestGross := some g, latestStable := some g, previousGross := some g } }) ∧
  (∀ (s : State) (l : LaneId) (g w : Int) (k : Nat) (e : Entry),
    (s.lane l).bagCheck.state = .awaitingPlace →
    (s.lane l).bagCheck.b = some w →
    (s.lane l).bagCheck.awaiting = some (k + 1) →
    (s.lane l).entries[k]? = some e →
    let n := s.lane l
    let b := n.bagCheck
    let d := g - w
    let base : Int := (s.laneSettings l).baseTolerance
    let m := d
    let isMatch : Bool := match b.e with
      | some x => decide (|m - x| ≤ b.a)
      | none => (n.bag.calib.map fun c => decide (((5 * c.d1 : Nat) : Int) ≤ m)).getD false
    s.bagReading l g true =
      if isMatch then
        (s.setLane l { n with
          entries := n.entries.set k { e with bag := .placed }
          bagCheck := { b with state := .settled, b := some g, awaiting := none, e := none, a := 0, placement := none, removal := none, excursion := false, latestGross := none, latestStable := none, previousGross := some g } }).offerLane l 0x84
          ([laneAddr l, 1, 2] ++ optional 4 (some (beInt 4 g)) ++ optional 4 (some (beInt 4 d)) ++ [octet (k + 1), 3])
      else if |d| ≤ base then s.setLane l { n with bagCheck := { { b with latestGross := some g, latestStable := some g, previousGross := some g } with excursion := false } }
      else if b.excursion then s.setLane l { n with bagCheck := { b with latestGross := some g, latestStable := some g, previousGross := some g } }
      else ((s.setLane l { n with bagCheck := { { b with latestGross := some g, latestStable := some g, previousGross := some g } with excursion := true } }).offerLane l 0x84
          ([laneAddr l, 3, b.state.value] ++ optional 4 (some (beInt 4 w)) ++ optional 4 (some (beInt 4 d)) ++
            [octet (k + 1), e.bag.value])).raiseLane l .wrongWeight) ∧
  (∀ (s : State) (l : LaneId) (g w : Int) (k : Nat) (e : Entry),
    (s.lane l).bagCheck.state = .awaitingRemoval →
    (s.lane l).bagCheck.b = some w →
    (s.lane l).bagCheck.awaiting = some (k + 1) →
    (s.lane l).entries[k]? = some e →
    let n := s.lane l
    let b := n.bagCheck
    let d := g - w
    let base : Int := (s.laneSettings l).baseTolerance
    let m := -d
    let isMatch : Bool := match b.e with
      | some x => decide (|m - x| ≤ b.a)
      | none => (n.bag.calib.map fun c => decide (((5 * c.d1 : Nat) : Int) ≤ m)).getD false
    s.bagReading l g true =
      if isMatch then
        (s.setLane l { n with
          entries := n.entries.set k { e with bag := .removed }
          bagCheck := { b with state := .settled, b := some g, awaiting := none, e := none, a := 0, placement := none, removal := none, excursion := false, latestGross := none, latestStable := none, previousGross := some g } }).offerLane l 0x84
          ([laneAddr l, 2, 2] ++ optional 4 (some (beInt 4 g)) ++ optional 4 (some (beInt 4 d)) ++ [octet (k + 1), 6])
      else if |d| ≤ base then s.setLane l { n with bagCheck := { { b with latestGross := some g, latestStable := some g, previousGross := some g } with excursion := false } }
      else if b.excursion then s.setLane l { n with bagCheck := { b with latestGross := some g, latestStable := some g, previousGross := some g } }
      else ((s.setLane l { n with bagCheck := { { b with latestGross := some g, latestStable := some g, previousGross := some g } with excursion := true } }).offerLane l 0x84
          ([laneAddr l, 3, b.state.value] ++ optional 4 (some (beInt 4 w)) ++ optional 4 (some (beInt 4 d)) ++
            [octet (k + 1), e.bag.value])).raiseLane l .wrongWeight)

/-- A platter reading arms, fails its first test, refuses its weigh request, or is captured, numbered, priced and
entered. SAMPLE_ARRIVAL on a RUNNING platter hands its reading to the capture log before the display check. It arms at
G of at most 5 d1. With a request pending: a closed lane, a status other than STABLE and a DISARMED platter fail in
that order; then the tare is chosen, an item tare out of range ending the request REFUSED; the tests of minimum,
capacity, bag gate, basket and log fail in order, the first being noted, LOG_FULL raised once; a price above 9,999,999
ends it REFUSED. Otherwise the capture takes the first number from the counter's on, in circular order, that no record
has, fills the lowest free record, disarms, appends its entry, hands an AWAITING one to the bag check, and offers
WEIGH_ENDED PRICED. WEIGH_TIMER_EXPIRY ends a request EXPIRED, nothing else changing. -/
def Obligations.CapturesTakeOneCertifiedReading : Prop :=
  (∀ (s : State) (l : LaneId) (raw : BitVec 20) (k : Calib),
    s.Runs l →
    (s.chan l .platter).state = .running →
    (s.chan l .platter).cause = .noCause ∧ (s.chan l .platter).ret = none →
    (s.chan l .platter).calib = some k →
    1 ≤ (s.chan l .platter).stabilityLength →
    let x := s.chan l .platter
    let raws := x.filter ++ [raw.toNat]
    let w := if x.filterLength < raws.length then raws.drop 1 else raws
    let wt := calibrated k (average w)
    let ws := x.stability ++ [wt]
    let v := if x.stabilityLength < ws.length then ws.drop 1 else ws
    let full := v.length = x.stabilityLength ∧ ∀ a ∈ v, ∀ b ∈ v, a - b ≤ k.d1
    let limit := raw = 0 ∨ raw = 1048575
    let g0 := wt - x.zo.getD 0
    let tracks := full ∧ ¬ limit ∧ x.tareKind = .noTare ∧ |g0| ≤ (k.d1 / 2 : Nat) ∧
      |wt - x.zi.getD 0| ≤ (k.max / 50 : Nat)
    let g := if tracks then 0 else g0
    let n := g - x.tare
    let status : ReadStatus :=
      if raw = 0 then .under else if raw = 1048575 then .over
      else if ((k.max + 9 * k.d2 : Nat) : Int) < g then .over
      else if g < -((20 * k.d1 : Nat) : Int) then .under
      else if full then .stable else .motion
    let d := if |n| ≤ k.m1 then k.d1 else k.d2
    let shown := status = .stable ∨ status = .motion
    let reading : Reading :=
      ⟨status, if shown then some (roundTo n d) else none, x.tare, x.tareKind, if shown then some d else none,
        decide (x.tareKind ≠ .noTare), decide (shown ∧ |g| ≤ (k.d1 / 4 : Nat))⟩
    exec (.sampleArrival l .platter raw) s = .next (((s.setChan l .platter { x with
        state := .running, cause := .noCause, ret := none, filter := w, stability := v, silence := some 250,
        zo := if tracks then some wt else x.zo, latest := some ⟨wt, some g, decide full⟩, reading := some reading,
        display := x.display, displayTimer := x.displayTimer }).platterReading l k reading g).displayCheck l .platter)) ∧
  (∀ (s : State) (l : LaneId) (k : Calib) (r : Reading) (g : Int) (w : WeighRequest),
    (s.lane l).weigh = some w →
    let n := s.lane l
    let armed := g ≤ ((5 * k.d1 : Nat) : Int) ∨ n.armed = true
    let fails (f : FailedTest) : State := s.setLane l { n with armed := decide armed, weigh := some { w with failed := f } }
    (n.mode = .closed → s.platterReading l k r g = fails .laneClosed) ∧
    (n.mode ≠ .closed → r.status ≠ .stable → s.platterReading l k r g = fails .notStable) ∧
    (n.mode ≠ .closed → r.status = .stable → ¬ armed → s.platterReading l k r g = fails .disarmed)) ∧
  (∀ (s : State) (l : LaneId) (k : Calib) (g nd t : Int) (tk : TareKind) (d : Nat) (net centre : Bool) (w : WeighRequest) (f : FailedTest),
    (s.lane l).weigh = some w →
    (s.lane l).mode ≠ .closed →
    g ≤ ((5 * k.d1 : Nat) : Int) ∨ (s.lane l).armed = true →
    let n := s.lane l
    let armed := g ≤ ((5 * k.d1 : Nat) : Int) ∨ n.armed = true
    let tare : Option (Int × TareKind × Int × Nat) :=
      if tk = .weighed ∨ tk = .preset then some (t, tk, nd, d)
      else match w.itemTare with
        | none => some (0, .noTare, nd, d)
        | some it =>
          let v := roundTo it k.d1
          let net := g - v
          let d' := if |net| ≤ k.m1 then k.d1 else k.d2
          if 0 < v ∧ v ≤ k.max then some (v, .item, roundTo net d', d') else none
    let first (net : Int) : Option FailedTest :=
      if net < ((20 * k.d1 : Nat) : Int) then some .underMinimum
      else if (k.max : Int) < net then some .overCapacity
      else if n.mode = .self ∧ n.bagCheck.state ≠ .settled then some .bagNotSettled
      else if (n.basketState ≠ .empty ∧ n.basketState ≠ .opened) ∨ 64 ≤ n.entries.length then some .basketNotOpen
      else if 80 ≤ n.log.length ∧ ∀ c ∈ n.log, c.held = true then some .logFull else none
    (∀ x ∈ tare, first x.2.2.1 = some f → f ≠ .logFull ∨ w.logFullReported = true →
      s.platterReading l k ⟨.stable, some nd, t, tk, some d, net, centre⟩ g =
        s.setLane l { n with armed := decide armed, weigh := some { w with failed := f } }) ∧
    (∀ x ∈ tare, first x.2.2.1 = some .logFull → w.logFullReported = false →
      s.platterReading l k ⟨.stable, some nd, t, tk, some d, net, centre⟩ g =
        (s.setLane l { n with armed := decide armed, weigh := some { w with failed := .logFull, logFullReported := true } }).raiseLane l .logFull) ∧
    (tare = none → s.platterReading l k ⟨.stable, some nd, t, tk, some d, net, centre⟩ g =
      (s.setLane l { n with weigh := none, armed := decide armed }).offerLane l 0x83
        (be 6 w.code ++ [3, Code.value .tareRange] ++ List.replicate 25 0)) ∧
    (∀ x ∈ tare, first x.2.2.1 = none → 9999999 < (x.2.2.1.toNat * w.price + 500000) / 1000000 →
      s.platterReading l k ⟨.stable, some nd, t, tk, some d, net, centre⟩ g =
        (s.setLane l { n with weigh := none, armed := decide armed }).offerLane l 0x83
        (be 6 w.code ++ [3, Code.value .priceLimit] ++ List.replicate 25 0))) ∧
  (∀ (s : State) (l : LaneId) (k : Calib) (g nd t : Int) (tk : TareKind) (d : Nat) (net centre : Bool) (w : WeighRequest) (v cn : Int) (kind : TareKind) (cd : Nat),
    (s.lane l).weigh = some w →
    (s.lane l).mode ≠ .closed →
    g ≤ ((5 * k.d1 : Nat) : Int) ∨ (s.lane l).armed = true →
    LogLaw s →
    let n := s.lane l
    let tare : Option (Int × TareKind × Int × Nat) :=
      if tk = .weighed ∨ tk = .preset then some (t, tk, nd, d)
      else match w.itemTare with
        | none => some (0, .noTare, nd, d)
        | some it =>
          let v := roundTo it k.d1
          let net := g - v
          let d' := if |net| ≤ k.m1 then k.d1 else k.d2
          if 0 < v ∧ v ≤ k.max then some (v, .item, roundTo net d', d') else none
    let first (net : Int) : Option FailedTest :=
      if net < ((20 * k.d1 : Nat) : Int) then some .underMinimum
      else if (k.max : Int) < net then some .overCapacity
      else if n.mode = .self ∧ n.bagCheck.state ≠ .settled then some .bagNotSettled
      else if (n.basketState ≠ .empty ∧ n.basketState ≠ .opened) ∨ 64 ≤ n.entries.length then some .basketNotOpen
      else if 80 ≤ n.log.length ∧ ∀ c ∈ n.log, c.held = true then some .logFull else none
    tare = some (v, kind, cn, cd) → first cn = none → (cn.toNat * w.price + 500000) / 1000000 ≤ 9999999 →
    let after (m : Nat) : Nat := if 65535 ≤ m then 1 else m + 1
    ∃ num passed : Nat, 1 ≤ num ∧ num ≤ 65535 ∧ (∀ x ∈ n.log, x.number ≠ num) ∧
      num = Nat.repeat after passed n.nextCapture ∧
      (∀ i, i < passed → ∃ x ∈ n.log, x.number = Nat.repeat after i n.nextCapture) ∧
      let price := (cn.toNat * w.price + 500000) / 1000000
      let c : Capture := ⟨num, cn, cd, v, kind, w.price, price, true, 0⟩
      let bag : BagState := if n.mode ≠ .self then .notChecked else if w.exempt then .exempt else .awaiting
      let e : Entry := {
        kind := .weighed, code := w.code, quantity := 1, unitPrice := w.price, linePrice := price, capture := some num
        net := some cn, voided := false, bag := bag, expected := if bag = .awaiting then some cn else none
        tolerance := if bag = .awaiting then some (w.tolerance.getD 0 : Nat) else none }
      let m : Lane := { n with
        weigh := none, armed := false, nextCapture := if 65535 ≤ num then 1 else num + 1
        log := match n.log.findIdx? (fun x => !x.held) with
          | some i => n.log.set i c
          | none => n.log ++ [c]
        entries := n.entries ++ [e] }
      s.platterReading l k ⟨.stable, some nd, t, tk, some d, net, centre⟩ g =
        (s.setLane l (if bag = .awaiting then { m with bagCheck := { n.bagCheck with
            state := .awaitingPlace, awaiting := some (n.entries.length + 1), e := e.expected
            a := e.tolerance.getD 0 + (s.laneSettings l).baseTolerance
            placement := some ((s.laneSettings l).placementTime * 1000), removal := none
            excursion := false, latestGross := none, latestStable := none } } else m)).offerLane l 0x83
          (be 6 w.code ++ [0, 0, octet (n.entries.length + 1)] ++ be 2 num ++ beInt 4 cn ++ be 4 cd ++ beInt 4 v ++
            [kind.value] ++ be 4 w.price ++ be 4 price ++ [bag.value])) ∧
  (∀ (s : State) (l : LaneId) (w : WeighRequest),
    s.Runs l →
    (s.lane l).weigh = some w →
    w.timer.isSome = true →
    exec (.weighTimerExpiry l) s = .next
      ((s.setLane l { s.lane l with weigh := none }).offerLane l 0x83 (be 6 w.code ++ [1, 0] ++ List.replicate 25 0)))

/-- READER_CHARACTER assembles a swipe of at most 40 characters, which is judged by parity, longitudinal check and
grammar; GAP_TIMER_EXPIRY ends it. READER_CHARACTER at an enabled lane. Hunting: a character other than the start
sentinel is discarded; that one starts the assembly with the gap timer at 50 ms and its parity noted. Assembling: a
character after 40 ends the swipe TOO_LONG; one after an end sentinel is the check character, and the swipe ends
BAD_PARITY, BAD_LRC or BAD_FORMAT, in that order, or is classified; any other joins the buffer with its parity noted.
GAP_TIMER_EXPIRY with the timer running ends it INCOMPLETE. Each end empties the buffer and hunts; a refusal sets the
last swipe and offers its CARD_EVENT with nothing of the account. The grammar takes a swipe exactly when it is a start
sentinel, 12 to 19 digits, a separator, 7 or more digits with a month 1 to 12, and the end sentinel. The octets of the
CARD_EVENT fields that R102 does not give a refusal are 0 (log 12). -/
def Obligations.SwipesAreAssembledAndJudged : Prop :=
  (∀ (s : State) (l : LaneId) (v : BitVec 4) (p : Bool),
    s.Runs l →
    (s.lane l).card.assembling = false →
    let u := (s.lane l).card
    let wrong := (Nat.bodd ((if v.getLsbD 0 then 1 else 0) + (if v.getLsbD 1 then 1 else 0) + (if v.getLsbD 2 then 1 else 0) +
      (if v.getLsbD 3 then 1 else 0) + (if p then 1 else 0))) = false
    exec (.readerCharacter l v p) s = .next
      (if v = 11 then s.setLane l { s.lane l with card := { u with assembling := true, buffer := [v], parityError := decide wrong, gap := some 50 } }
      else s)) ∧
  (∀ (s : State) (l : LaneId) (v : BitVec 4) (p : Bool),
    s.Runs l →
    (s.lane l).card.assembling = true →
    40 ≤ (s.lane l).card.buffer.length →
    let u := (s.lane l).card
    let hunt : CardUnit := { u with assembling := false, buffer := [], parityError := false, gap := none }
    let refused (why : CardReason) : State :=
      (s.setLane l { s.lane l with card := { hunt with
        lastSwipe := some ⟨.refused, why, .noClass, none, 0, 0, .hiddenAll⟩ } }).offerLane l 0x85
        ([3, why.value, 0, 0] ++ List.replicate 8 0 ++ accountBlock .hiddenAll)
    exec (.readerCharacter l v p) s = .next
      (refused .tooLong)) ∧
  (∀ (s : State) (l : LaneId) (v : BitVec 4) (p : Bool),
    s.Runs l →
    (s.lane l).card.assembling = true →
    (s.lane l).card.buffer.length < 40 →
    (s.lane l).card.buffer.getLast? ≠ some 15 →
    let u := (s.lane l).card
    let wrong := (Nat.bodd ((if v.getLsbD 0 then 1 else 0) + (if v.getLsbD 1 then 1 else 0) + (if v.getLsbD 2 then 1 else 0) +
      (if v.getLsbD 3 then 1 else 0) + (if p then 1 else 0))) = false
    exec (.readerCharacter l v p) s = .next
      (s.setLane l { s.lane l with card := { u with
        buffer := u.buffer ++ [v], parityError := u.parityError || decide wrong, gap := some 50 } })) ∧
  (∀ (s : State) (l : LaneId) (v : BitVec 4) (p : Bool),
    s.Runs l →
    (s.lane l).card.assembling = true →
    (s.lane l).card.buffer.length < 40 →
    (s.lane l).card.buffer.getLast? = some 15 →
    let u := (s.lane l).card
    let wrong := (Nat.bodd ((if v.getLsbD 0 then 1 else 0) + (if v.getLsbD 1 then 1 else 0) + (if v.getLsbD 2 then 1 else 0) +
      (if v.getLsbD 3 then 1 else 0) + (if p then 1 else 0))) = false
    let hunt : CardUnit := { u with assembling := false, buffer := [], parityError := false, gap := none }
    let refused (why : CardReason) : State :=
      (s.setLane l { s.lane l with card := { hunt with
        lastSwipe := some ⟨.refused, why, .noClass, none, 0, 0, .hiddenAll⟩ } }).offerLane l 0x85
        ([3, why.value, 0, 0] ++ List.replicate 8 0 ++ accountBlock .hiddenAll)
    exec (.readerCharacter l v p) s = .next
      (if u.parityError = true ∨ wrong then refused .badParity
      else if u.buffer.foldl (fun a b => a ^^^ b) 0 ≠ v then refused .badLrc
      else match parseSwipe u.buffer with
        | none => refused .badFormat
        | some w => (s.setLane l { s.lane l with card := hunt }).classify l w)) ∧
  (∀ (s : State) (l : LaneId),
    s.Runs l →
    (s.lane l).card.gap.isSome = true →
    let u := (s.lane l).card
    let hunt : CardUnit := { u with assembling := false, buffer := [], parityError := false, gap := none }
    let refused (why : CardReason) : State :=
      (s.setLane l { s.lane l with card := { hunt with
        lastSwipe := some ⟨.refused, why, .noClass, none, 0, 0, .hiddenAll⟩ } }).offerLane l 0x85
        ([3, why.value, 0, 0] ++ List.replicate 8 0 ++ accountBlock .hiddenAll)
    exec (.gapTimerExpiry l) s = .next
      (refused .incomplete)) ∧
  (∀ (b : List (BitVec 4)) (w : Swipe),
    parseSwipe b = some w ↔ ∃ (a date service disc : List (BitVec 4)), b = 11 :: (a ++ 13 :: (date ++ service ++
      disc)) ++ [15] ∧
      (∀ x ∈ a ++ date ++ service ++ disc, x.toNat ≤ 9) ∧ 12 ≤ a.length ∧ a.length ≤ 19 ∧ date.length = 4 ∧
        service.length = 3 ∧
      1 ≤ w.month ∧ w.month ≤ 12 ∧ w.account = a.map (·.toNat) ∧ w.service = service.map (·.toNat) ∧
        w.discretionary = disc.map (·.toNat) ∧
      date.map (·.toNat) = [w.year / 10, w.year % 10, w.month / 10, w.month % 10])

/-- A swipe that passes the grammar is classified by its prefix, tested in order, and acts or is refused by its class.
A prefix no range covers: NO_RANGE, the length alone shown. A BLOCKED range: BLOCKED. A payment swipe with the slot
occupied only sets the second-swipe flag. Then the check digit where its test is on; a loyalty swipe is reported in
full; a payment or staff swipe needs a date and an expiry of this month or later; a payment swipe passes the five
tests of its table in order and is accepted into the slot for the due, its CARD_EVENT offered and the link asked for;
a staff swipe is refused while the link is silent, else it grants authority with the last 6 digits. Each end but the
second swipe becomes the last swipe and offers its CARD_EVENT. The check digit test doubles every second digit from
the right. That ACCEPTED, LOYALTY and STAFF carry their class, and 0 in the fields R102 does not give an event, is log
12. -/
def Obligations.SwipesAreClassifiedByTheRangeTable : Prop :=
  (∀ (s : State) (l : LaneId) (w : Swipe),
    (∀ r ∈ s.ranges, ¬ (r.low ≤ digitsValue (w.account.take 8) ∧ digitsValue (w.account.take 8) ≤ r.high)) →
    let report (y : State) (e : CardEvent) : State :=
      (y.setLane l { y.lane l with card := { (y.lane l).card with lastSwipe := some e } }).offerLane l 0x85 (cardEventPayload e)
    s.classify l w = report s ⟨.refused, .noRange, .noClass, none, 0, 0, .lengthOnly w.account.length⟩) ∧
  (∀ (s : State) (l : LaneId) (w : Swipe) (r : CardRange),
    (s.ranges.find? fun r => decide (r.low ≤ digitsValue (w.account.take 8) ∧
      digitsValue (w.account.take 8) ≤ r.high)) = some r →
    r.cardClass ≠ .noClass →
    let n := s.lane l
    let report (y : State) (e : CardEvent) : State :=
      (y.setLane l { y.lane l with card := { (y.lane l).card with lastSwipe := some e } }).offerLane l 0x85 (cardEventPayload e)
    let masked : AccountView := .masked (maskAccount w.account r)
    let date : Option CardReason := match s.date with
      | none => some .noDate
      | some d => if w.year * 100 + w.month < d.year * 100 + d.month then some .expired else none
    let payment : Option CardReason :=
      if n.mode = .closed then some .laneClosed
      else if s.silent = true then some .linkDown
      else if n.mode = .self ∧ n.bagCheck.state ≠ .settled then some .bagBusy
      else if n.basketState = .empty ∨ n.basketState = .settled ∨ n.due = 0 then some .nothingDue
      else if 8 ≤ n.tenders.length then some .tenderFull else none
    let staff := digitsValue (w.account.drop (w.account.length - 6))
    s.classify l w =
      if r.cardClass = .blocked then report s ⟨.refused, .blocked, .blocked, none, 0, 0, masked⟩
      else if r.cardClass = .payment ∧ n.card.slot ≠ none then
        s.setLane l { n with card := { n.card with slot := n.card.slot.map fun x => { x with second := true } } }
      else if r.checkDigit = true ∧ checkDigitOk w.account = false then
        report s ⟨.refused, .checkDigit, r.cardClass, none, 0, 0, if r.cardClass = .loyalty then .full w.account else masked⟩
      else if r.cardClass = .loyalty then report s ⟨.loyalty, .noReason, .loyalty, none, 0, 0, .full w.account⟩
      else match date with
        | some why => report s ⟨.refused, why, r.cardClass, none, 0, 0, masked⟩
        | none =>
          if r.cardClass = .staff then
            if s.silent = true then report s ⟨.refused, .linkDown, .staff, none, 0, 0, masked⟩
            else report (s.setLane l { n with authority := some ⟨.card, staff, some ((s.laneSettings l).staffHold * 1000)⟩ })
              ⟨.staff, .noReason, .staff, none, 0, staff, masked⟩
          else match payment with
            | some why => report s
              ⟨.refused, why, .payment, if why = .bagBusy then some n.bagCheck.state else none, 0, 0, masked⟩
            | none => (report (s.setLane l { n with card := { n.card with slot := some {
                  phase := .waiting, account := w.account, masked := maskAccount w.account r, year := w.year, month := w.month
                  service := w.service, discretionary := w.discretionary, amount := n.due.toNat, second := false } } })
                ⟨.accepted, .noReason, .payment, none, n.due.toNat, 0, masked⟩).tryGrant) ∧
  (∀ (account : List Nat),
    checkDigitOk account = true ↔
      (account.reverse.mapIdx fun i d => if i % 2 = 0 then d else if 9 < 2 * d then 2 * d - 9 else 2 * d).sum % 10 = 0) ∧
  (∀ (account : List Nat) (r : CardRange),
    let m := maskAccount account r
    m.lead.length = min (min r.keepFirst (account.length - r.keepLast - 3)) account.length ∧
      m.lead = account.take m.lead.length)

/-- A matching RESULT, the response timer or CANCEL_CARD ends a hand-off with its outcome and tender; any other RESULT
is stray. RESULT matching number and lane: the amount used is at most 999,999,999; outcome 1 with an amount is
APPROVED and appends a CARD tender of at most the requested amount, with its flags; 1 without and any unknown is
FAILED, 2 DECLINED, both CANCELLED after an ABORT. The slot empties, the link is IDLE, an ABORT not yet begun is
withdrawn (log 3), CARD_RESULT is offered and kept, and the link may be granted again. RESPONSE_TIMER_EXPIRY ends it
TIMED_OUT, producing an ABORT when IN_FLIGHT. A RESULT that matches nothing is kept and reported as stray and raises
STRAY_RESULT. CANCEL_CARD: SLOT_EMPTY; WAITING ends CANCELLED without a number; IN_FLIGHT becomes ABORTING with an
ABORT; ABORTING stays. -/
def Obligations.PaymentVerdictsEndTheHandOff : Prop :=
  (∀ (s : State) (f : InFlight) (x : Slot) (addr tag outcome : Byte) (amount : BitVec 32) (approval : BitVec 48),
    s.power = .running →
    s.pay.inFlight = some f →
    (s.lane f.lane).card.slot = some x →
    addr = laneAddr f.lane →
    tag.toNat = f.number →
    let n := s.lane f.lane
    let a := if 999999999 < amount.toNat then 999999999 else amount.toNat
    let late := x.phase = .aborting
    let tender : Tender :=
      ⟨.card, if f.amount < a then f.amount else a, some approval, some f.number, decide (f.amount < a), decide late⟩
    let approved := outcome = 1 ∧ a ≠ 0
    let o : HandoffOutcome := if approved then .approved else if late then .cancelled else if outcome = 2 then .declined else .failed
    let m : Lane := { n with tenders := n.tenders ++ (if approved then [tender] else []), card := { n.card with slot := none } }
    let r : CardResult := {
      number := f.number, outcome := o, received := some outcome, requested := x.amount, approved := if approved then some a else none
      tender := if approved then some tender.amount else none, approval := if approved then some approval else none
      overApproved := decide (approved ∧ f.amount < a), lateAbort := decide (approved ∧ late), second := x.second
      masked := x.masked, basketState := m.basketState, tendered := m.tendered, due := m.due }
    exec (.result addr tag outcome amount approval) s = .next
      ((({ s.setLane f.lane { m with lastResult := some r } with
        pay := { s.pay with inFlight := none, response := none, transmit := (match s.pay.transmit with
          | [] => []
          | h :: t => h :: t.filter (· != ⟨laneAddr f.lane, 0xA1, octet f.number, []⟩)) } } : State).offerLane f.lane 0x86
        (cardResultPayload r)).tryGrant)) ∧
  (∀ (s : State) (f : InFlight) (x : Slot),
    s.power = .running →
    s.pay.inFlight = some f →
    (s.lane f.lane).card.slot = some x →
    s.pay.response.isSome = true →
    let n := s.lane f.lane
    let m : Lane := { n with tenders := n.tenders, card := { n.card with slot := none } }
    let r : CardResult := {
      number := f.number, outcome := .timedOut, received := none, requested := x.amount, approved := none, tender := none, approval := none, overApproved := false, lateAbort := false, second := x.second
      masked := x.masked, basketState := m.basketState, tendered := m.tendered, due := m.due }
    exec (.responseTimerExpiry) s = .next
      ((({ s.setLane f.lane { m with lastResult := some r } with
        pay := { s.pay with inFlight := none, response := none, transmit := s.pay.transmit ++
          (if x.phase = .inFlight then [⟨laneAddr f.lane, 0xA1, octet f.number, []⟩] else []) } } : State).offerLane f.lane 0x86
        (cardResultPayload r)).tryGrant)) ∧
  (∀ (s : State) (addr tag outcome : Byte) (amount : BitVec 32) (approval : BitVec 48),
    s.power = .running →
    (∀ f ∈ s.pay.inFlight, ¬ (addr = laneAddr f.lane ∧ tag.toNat = f.number)) →
    let a := if 999999999 < amount.toNat then 999999999 else amount.toNat
    let used : HandoffOutcome := if outcome = 1 ∧ a ≠ 0 then .approved else if outcome = 2 then .declined else .failed
    let stray : Stray := ⟨addr, tag, outcome, used, a, approval⟩
    exec (.result addr tag outcome amount approval) s = .next
      (({ s with pay := { s.pay with lastStray := some stray } }.offerPart 0x87 (strayPayload stray)).raisePart .strayResult)) ∧
  (∀ (s : State) (l : LaneId) (tag : Byte),
    s.Serves l →
    let n := s.lane l
    let m : Lane := { n with card := { n.card with slot := none } }
    (n.card.slot = none → exec (.cancelCard (laneAddr l) tag) s = .next
      (s.refuses (laneAddr l) 0x30 tag .slotEmpty)) ∧
    ∀ x ∈ n.card.slot,
      (x.phase = .waiting →
        let r : CardResult := {
          number := 0, outcome := .cancelled, received := none, requested := x.amount, approved := none, tender := none, approval := none, overApproved := false, lateAbort := false
          second := x.second, masked := x.masked, basketState := m.basketState, tendered := m.tendered, due := m.due }
        exec (.cancelCard (laneAddr l) tag) s = .next
      (s.accepts (laneAddr l) 0x30 tag [0] (fun y =>
          (y.setLane l { m with lastResult := some r }).offerLane l 0x86 (cardResultPayload r)))) ∧
      (∀ f ∈ s.pay.inFlight, x.phase = .inFlight → f.lane = l →
        exec (.cancelCard (laneAddr l) tag) s = .next
      (s.accepts (laneAddr l) 0x30 tag [3] (fun y =>
          { y.setLane l { n with card := { n.card with slot := some { x with phase := .aborting } } } with
            pay := { y.pay with transmit := y.pay.transmit ++ [⟨laneAddr l, 0xA1, octet f.number, []⟩] } }))) ∧
      (x.phase = .aborting → exec (.cancelCard (laneAddr l) tag) s = .next
      (s.accepts (laneAddr l) 0x30 tag [3] id)))

/-- DRAWER_OPEN is refused by the drawer's state or for want of authority, else joins the power queue; DRAWER_CLEAR
ends a fault. DRAWER_OPEN: DRAWER_BUSY in WAITING_POWER, RELEASING, CHECKING and FAULT; DRAWER_OPEN in OPEN and
LEFT_OPEN; in CLOSED, AUTHORITY_NEEDED without a token in ATTENDED and without staff authority. Otherwise the token,
if that is the authority, is consumed, the lane joins the tail of the queue in WAITING_POWER with the retry flag
clear, and the admission test follows; the detail carries which authority, the token, the state, and the place when it
waits (octets: log 12). DRAWER_CLEAR: in FAULT the drawer is CLOSED and a DRAWER_EVENT CLOSED is offered; in every
other state NO_FAULT. -/
def Obligations.DrawerRequestsAreAuthorised : Prop :=
  (∀ (s : State) (l : LaneId) (tag : Byte),
    s.Serves l →
    let n := s.lane l
    let st := n.till.state
    (st = .waitingPower ∨ st = .releasing ∨ st = .checking ∨ st = .fault →
      exec (.drawerOpen (laneAddr l) tag) s = .next
      (s.refuses (laneAddr l) 0x38 tag .drawerBusy)) ∧
    (st = .opened ∨ st = .leftOpen → exec (.drawerOpen (laneAddr l) tag) s = .next
      (s.refuses (laneAddr l) 0x38 tag .drawerOpen)) ∧
    (st = .closed → n.authority = none → (n.mode ≠ .attended ∨ n.token = false) →
      exec (.drawerOpen (laneAddr l) tag) s = .next
      (s.refuses (laneAddr l) 0x38 tag .authorityNeeded))) ∧
  (∀ (s : State) (l : LaneId) (tag : Byte),
    s.Serves l →
    SolenoidLaw s →
    (s.lane l).till.state = .closed →
    ((s.lane l).mode = .attended ∧ (s.lane l).token = true) ∨ (s.lane l).authority ≠ none →
    let n := s.lane l
    let byToken := n.mode = .attended ∧ n.token = true
    let action (x : State) : State := { x.setLane l { n with
        token := if byToken then false else n.token, till := { n.till with state := .waitingPower, retry := false } } with
      powerQueue := x.powerQueue ++ [l] }.admission
    let t := action s
    exec (.drawerOpen (laneAddr l) tag) s = .next
      (s.accepts (laneAddr l) 0x38 tag
        ([if byToken then 0 else 1, flagOctet (if byToken then false else n.token), (t.till l).state.value] ++
          if (t.till l).state = .waitingPower then [1, octet t.powerQueue.length] else [0, 0]) action)) ∧
  (∀ (s : State) (l : LaneId) (tag : Byte),
    s.Serves l →
    let n := s.lane l
    exec (.drawerClear (laneAddr l) tag) s = .next
      (if n.till.state = .fault then s.accepts (laneAddr l) 0x39 tag [] (fun x => (x.setLane l { n with till := { n.till with state := .closed } }).offerLane l 0x88
        ([laneAddr l, 4, 0] ++ be 2 (n.till.openCount) ++ [flagOctet n.token, flagOctet n.till.forced] ++ [0, 0]))
      else s.refuses (laneAddr l) 0x39 tag .noFault))

/-- The sensor is debounced and moves the drawer by its state; the pulse, check and left-open timers end in a
confirmation, a retry, a fault or an alarm. DRAWER_SENSOR_LEVEL: the level at the pin; a level interpreted otherwise
than the sensor value starts a stopped debounce timer, any other stops it. DEBOUNCE_TIMER_EXPIRY: the sensor value
follows; OPEN in CLOSED or WAITING_POWER is a forced opening, leaving the queue, in CHECKING confirms the release, in
FAULT opens with attempt 0; SHUT in OPEN or LEFT_OPEN closes; else no more. PULSE_TIMER_EXPIRY: confirmed when the
sensor shows OPEN, else CHECKING for 150 ms; then the admission test. CHECK_TIMER_EXPIRY: a cut release returns to the
head, a first failure retries at the tail, a second is FAULT and raises DRAWER_FAULT. LEFT_OPEN_EXPIRY: LEFT_OPEN,
raising DRAWER_LEFT_OPEN. Each offers the DRAWER_EVENT of its row; the open count rises at each confirmation and at an
opening from FAULT. A notice comes before its condition (R161); its octets are log 12, and the state WAITING_POWER of
a RETRY that is admitted at once is log 15. -/
def Obligations.DrawerReleasesRunTheirTimers : Prop :=
  (∀ (s : State) (l : LaneId) (high : Bool),
    s.Runs l →
    let n := s.lane l
    let isOpen := if (s.laneSettings l).polarity = .openHigh then high else !high
    exec (.drawerSensorLevel l high) s = .next
      (s.setLane l { n with till := { n.till with
        rawHigh := high
        debounce := if isOpen = n.till.sensorOpen then none
          else if n.till.debounce.isSome then n.till.debounce else some 20 } })) ∧
  (∀ (s : State) (l : LaneId),
    s.Runs l →
    (s.lane l).till.debounce.isSome = true →
    let n := s.lane l
    let isOpen := if (s.laneSettings l).polarity = .openHigh then n.till.rawHigh else !n.till.rawHigh
    let count := if 65535 ≤ n.till.openCount then 0 else n.till.openCount + 1
    let t : Till := { n.till with debounce := none, sensorOpen := isOpen }
    exec (.debounceTimerExpiry l) s = .next
      (if isOpen = true ∧ (t.state = .closed ∨ t.state = .waitingPower) then
        (({ s.setLane l { n with till := { t with state := .opened, retry := false, forced := true, leftOpen := some ((s.laneSettings l).leftOpenTime * 1000) } } with
          powerQueue := s.powerQueue.filter (· != l) } : State).offerLane l 0x88
        ([laneAddr l, 0, 4] ++ be 2 (n.till.openCount) ++ [flagOctet n.token, flagOctet true] ++
          [1, 0])).raiseLane l .drawerForced
      else if isOpen = true ∧ t.state = .checking then
        (s.setLane l { n with till := { t with
          state := .opened, retry := false, cut := false, forced := false, openCount := count, check := none, leftOpen := some ((s.laneSettings l).leftOpenTime * 1000) } }).offerLane l 0x88
        ([laneAddr l, 0, 4] ++ be 2 (count) ++ [flagOctet n.token, flagOctet false] ++
          [1, if n.till.retry then 2 else 1])
      else if isOpen = true ∧ t.state = .fault then
        (s.setLane l { n with till := { t with state := .opened, forced := false, openCount := count, leftOpen := some ((s.laneSettings l).leftOpenTime * 1000) } }).offerLane l 0x88
        ([laneAddr l, 0, 4] ++ be 2 (count) ++ [flagOctet n.token, flagOctet false] ++ [1, 0])
      else if isOpen = false ∧ (t.state = .opened ∨ t.state = .leftOpen) then
        (s.setLane l { n with till := { t with state := .closed, leftOpen := none, forced := false } }).offerLane l 0x88
        ([laneAddr l, 4, 0] ++ be 2 (n.till.openCount) ++ [flagOctet n.token, flagOctet false] ++ [0, 0])
      else s.setLane l { n with till := t })) ∧
  (∀ (s : State) (l : LaneId),
    s.Runs l →
    (s.lane l).till.pulse.isSome = true →
    let n := s.lane l
    let count := if 65535 ≤ n.till.openCount then 0 else n.till.openCount + 1
    let freed : State := { s with releasing := s.releasing.filter (· != l) }
    exec (.pulseTimerExpiry l) s = .next
      (if n.till.sensorOpen = true then
        ((freed.setLane l { n with till := { n.till with
          state := .opened, retry := false, cut := false, forced := false, openCount := count, pulse := none, check := none
          leftOpen := some ((s.laneSettings l).leftOpenTime * 1000) } }).offerLane l 0x88
        ([laneAddr l, 0, 4] ++ be 2 (count) ++ [flagOctet n.token, flagOctet false] ++
          [1, if n.till.retry then 2 else 1])).admission
      else (freed.setLane l { n with till := { n.till with state := .checking, pulse := none, cut := false, check := some 150 } }).admission)) ∧
  (∀ (s : State) (l : LaneId),
    s.Runs l →
    (s.lane l).till.check.isSome = true →
    let n := s.lane l
    exec (.checkTimerExpiry l) s = .next
      (if n.till.cut = true then { s.setLane l { n with till := { n.till with check := none, cut := false, state := .waitingPower } } with
        powerQueue := l :: s.powerQueue }.admission
      else if n.till.retry = true then
        ((s.setLane l { n with till := { n.till with check := none, retry := false, state := .fault } }).offerLane l 0x88
        ([laneAddr l, 2, 6] ++ be 2 (n.till.openCount) ++ [flagOctet n.token, flagOctet n.till.forced] ++
          [1, 2])).raiseLane l .drawerFault
      else
        (({ s.setLane l { n with till := { n.till with check := none, retry := true, state := .waitingPower } } with
          powerQueue := s.powerQueue ++ [l] } : State).offerLane l 0x88
        ([laneAddr l, 1, 1] ++ be 2 (n.till.openCount) ++ [flagOctet n.token, flagOctet n.till.forced] ++
          [1, 1])).admission)) ∧
  (∀ (s : State) (l : LaneId),
    s.Runs l →
    (s.lane l).till.leftOpen.isSome = true →
    let n := s.lane l
    exec (.leftOpenExpiry l) s = .next
      (((s.setLane l { n with till := { n.till with state := .leftOpen, leftOpen := none } }).offerLane l 0x88
        ([laneAddr l, 3, 5] ++ be 2 (n.till.openCount) ++ [flagOctet n.token, flagOctet n.till.forced] ++
          [0, 0])).raiseLane l .drawerLeftOpen))

/-- PRINT_BEGIN opens a job with a number of its own, PRINT_DATA appends and resolves references, PRINT_END readies
it, PRINT_CANCEL removes it and its holds. PRINT_BEGIN: JOB_OPEN with a FILLING job, JOB_QUEUE_FULL with 4 jobs, else
a job with the first number after the counter, in circular order, that no job has. PRINT_DATA: NO_JOB but for the
FILLING job's number, BUFFER_FULL beyond the free octets, else its octets are appended whole, each reference they
complete resolved, whatever payloads it spans, holds raised, a MISSING one flagged and WEIGHT_REF_MISSING raised.
PRINT_END: NO_JOB alike; an incomplete reference is MISSING; READY, and the port's choice follows. PRINT_CANCEL:
NO_JOB for no job of the number; else its holds are released, a PRINTING job leaves its exchange and owes a cut unless
it sent nothing or a CUT last, CANCELLED is offered, and the port's choice follows. Its detail is the job's state
before (PRINT_END's: log 14). That WEIGHT_REF_MISSING comes ahead of the port's notices at a PRINT_END is log 31; the
octets of PRINT_EVENT are log 12 and log 17. -/
def Obligations.PrintJobsAreBuiltAndCancelled : Prop :=
  (∀ (s : State) (l : LaneId) (tag : Byte),
    s.Serves l →
    let n := s.lane l
    ((∃ j ∈ n.jobs, j.state = .filling) → exec (.printBegin (laneAddr l) tag) s = .next
      (s.refuses (laneAddr l) 0x40 tag .jobOpen)) ∧
    ((∀ j ∈ n.jobs, j.state ≠ .filling) → 4 ≤ n.jobs.length → exec (.printBegin (laneAddr l) tag) s = .next
      (s.refuses (laneAddr l) 0x40 tag .jobQueueFull))) ∧
  (∀ (s : State) (l : LaneId) (tag : Byte),
    s.Serves l →
    (∀ j ∈ (s.lane l).jobs, j.state ≠ .filling) →
    (s.lane l).jobs.length < 4 →
    (s.lane l).jobCounter ≤ 255 →
    let n := s.lane l
    let after (m : Nat) : Nat := if 255 ≤ m then 1 else m + 1
    ∃ num passed : Nat, 1 ≤ num ∧ num ≤ 255 ∧ (∀ j ∈ n.jobs, j.number ≠ num) ∧
      num = Nat.repeat after (passed + 1) n.jobCounter ∧
      (∀ i, i < passed → ∃ j ∈ n.jobs, j.number = Nat.repeat after (i + 1) n.jobCounter) ∧
      exec (.printBegin (laneAddr l) tag) s = .next
      (s.accepts (laneAddr l) 0x40 tag (octet num :: be 2 (s.freeOctets l)) (fun x => x.setLane l { n with
        jobs := n.jobs ++ [newJob num], jobCounter := num }))) ∧
  (∀ (s : State) (l : LaneId) (tag job : Byte) (octets : List Byte),
    s.Serves l →
    1 ≤ octets.length ∧ octets.length ≤ 236 →
    (∀ j ∈ (s.lane l).jobs, j.state = .filling → j.number ≠ job.toNat) →
    exec (.printData (laneAddr l) tag job octets) s = .next
      (s.refuses (laneAddr l) 0x41 tag .noJob) ∧
    exec (.printEnd (laneAddr l) tag job) s = .next
      (s.refuses (laneAddr l) 0x42 tag .noJob)) ∧
  (∀ (s : State) (l : LaneId) (tag job : Byte) (octets : List Byte) (j : Job),
    s.Serves l →
    PrintLaw s →
    1 ≤ octets.length ∧ octets.length ≤ 236 →
    j ∈ (s.lane l).jobs →
    j.state = .filling →
    j.number = job.toNat →
    let n := s.lane l
    let x := scanOctets n j.scan octets
    let missing := x.2.2.any fun r => !r.resolved
    let m : Lane := { x.1 with jobs := n.jobs.map fun y => if y.number = j.number then { j with
        stream := j.stream ++ octets, scan := x.2.1, refs := j.refs ++ x.2.2
        flags := { j.flags with weightMissing := j.flags.weightMissing || missing } } else y }
    exec (.printData (laneAddr l) tag job octets) s = .next
      (if s.freeOctets l < octets.length then s.refuses (laneAddr l) 0x41 tag .bufferFull
      else s.accepts (laneAddr l) 0x41 tag (be 2 (s.freeOctets l - octets.length) ++
          [octet (x.2.2.countP fun r => r.resolved), octet (x.2.2.countP fun r => !r.resolved)])
        (fun y => if missing then (y.setLane l m).raiseLane l .weightRefMissing else y.setLane l m))) ∧
  (∀ (n : Lane) (x : ScanState) (b hi : Byte) (rest : List Byte),
    let num := hi.toNat * 256 + b.toNat
    let found := ((n.log.find? fun c => c.number == num).map fun c => decide (c.holds < 255)).getD false
    let held : Lane := { n with log := n.log.map fun c => if c.number = num then { c with holds := c.holds + 1 } else c }
    let y := scanOctets (if found then held else n) .normal rest
    scanOctets n x [] = (n, x, []) ∧
    scanOctets n .normal (b :: rest) = scanOctets n (if b = 0x1E then .first else .normal) rest ∧
    scanOctets n .first (b :: rest) = scanOctets n (.second b) rest ∧
    scanOctets n (.second hi) (b :: rest) = (y.1, y.2.1, ⟨some num, found, found⟩ :: y.2.2)) ∧
  (∀ (n : Lane) (x : ScanState) (a b : List Byte),
    let y := scanOctets n x a
    let z := scanOctets y.1 y.2.1 b
    scanOctets n x (a ++ b) = (z.1, z.2.1, y.2.2 ++ z.2.2)) ∧
  (∀ (s : State) (l : LaneId) (tag job : Byte) (j : Job),
    s.Serves l →
    PrintLaw s →
    j ∈ (s.lane l).jobs →
    j.state = .filling →
    j.number = job.toNat →
    let n := s.lane l
    let missing := j.scan ≠ .normal
    let selected := ∀ y ∈ n.jobs, y.state = .filling
    let y := fun (x : State) => x.setLane l { n with jobs := n.jobs.map fun y => if y.number = j.number then { j with
        state := .ready, scan := .normal, refs := if missing then j.refs ++ [⟨none, false, false⟩] else j.refs
        flags := { j.flags with weightMissing := j.flags.weightMissing || decide missing } } else y }
    exec (.printEnd (laneAddr l) tag job) s = .next
      (s.accepts (laneAddr l) 0x42 tag [if selected then 2 else 1, octet (n.jobs.takeWhile fun y => y.number != j.number).length]
        (fun x => (if missing then (y x).raiseLane l .weightRefMissing else y x).port l))) ∧
  (∀ (s : State) (l : LaneId) (tag job : Byte) (j : Job),
    s.Serves l →
    PrintLaw s →
    j ∈ (s.lane l).jobs →
    j.number = job.toNat →
    let n := s.lane l
    let p := n.port
    let m : Lane := { n with
      jobs := n.jobs.filter fun y => y.number != j.number
      log := n.log.map fun c => { c with holds := c.holds - j.refs.countP fun r => r.hold && r.capture == some c.number }
      port := if j.state = .printing then { p with
          exchange := p.exchange.map fun x => if x.owner = .job j.number then { x with owner := .nobody } else x
          cutOwed := p.cutOwed || decide (j.lastSent = .line) } else p }
    exec (.printCancel (laneAddr l) tag job) s = .next
      (s.accepts (laneAddr l) 0x43 tag [j.state.value] (fun x =>
        ((x.setLane l m).offerLane l 0x89
        ([laneAddr l, octet j.number, 1] ++ be 2 j.lines ++ [flagsOctet j.flags] ++ [j.state.value])).port l))) ∧
  (∀ (s : State) (l : LaneId) (tag job : Byte),
    s.Serves l →
    (∀ j ∈ (s.lane l).jobs, j.number ≠ job.toNat) →
    exec (.printCancel (laneAddr l) tag job) s = .next
      (s.refuses (laneAddr l) 0x43 tag .noJob))

/-- LINE_DONE advances the frame and releases a printed block's hold, a failure suspends the job, and the printer's
status stops and resumes it. LINE_DONE for the exchange in flight: an owed cut is no longer owed; a cancelled job's
exchange only ends; a CUT is done; a segment not the last gives the next; a last segment counts the line, and releases
the hold of a block's second line. LINE_FAILED, and ANSWER_TIMER_EXPIRY with reason NO_ANSWER: the job is SUSPENDED at
its line, SUSPENDED offered and PAPER_OUT raised. PRINTER_STATUS sets the state: PAPER_OUT or COVER_OPEN abandons an
owed cut's exchange and suspends a PRINTING job, READY or PAPER_LOW resumes a SUSPENDED one from its kept line's first
segment. PRINTER_SILENCE_EXPIRY: OFFLINE, raising PRINTER_OFFLINE. Every frame restarts the silence timer, another
number does no more, and the port's choice follows where a frame may go. SUSPENDED comes before PAPER_OUT (R161); the
order RESUMED, the port's frame, PAPER_LOW is log 31; the exchange of a cancelled job is log 26; the octets of the
notices are log 12 and log 17. -/
def Obligations.PrinterAnswersMoveTheJob : Prop :=
  (∀ (s : State) (l : LaneId) (tag : Byte),
    s.Runs l →
    (∀ x ∈ (s.lane l).port.exchange, tag.toNat ≠ x.number) →
    let n := s.lane l
    let heard := s.setLane l { n with port := { n.port with silence := some 2000 } }
    exec (.lineDone l tag) s = .next heard ∧ exec (.lineFailed l tag) s = .next heard) ∧
  (∀ (s : State) (l : LaneId) (tag : Byte) (x : Exchange),
    s.Runs l →
    (s.lane l).port.exchange = some x →
    tag.toNat = x.number →
    x.owner = .owedCut ∨ x.owner = .nobody →
    let n := s.lane l
    let p := n.port
    let ended := (s.setLane l { n with port := { { p with silence := some 2000, exchange := none, answer := none } with cutOwed := if x.owner = .owedCut then false else p.cutOwed } }).port l
    exec (.lineDone l tag) s = .next ended ∧ exec (.lineFailed l tag) s = .next ended) ∧
  (∀ (s : State) (l : LaneId) (tag : Byte) (x : Exchange) (j : Job) (cells : List Cell) (column done : Nat) (block2 : Option Nat),
    s.Runs l →
    (s.lane l).port.exchange = some x →
    tag.toNat = x.number →
    PrintLaw s →
    j ∈ (s.lane l).jobs →
    x.owner = .job j.number →
    j.current = some (.line cells column block2 done) →
    let n := s.lane l
    let p := n.port
    let seg := segmentOf cells done
    let ref := block2.bind fun i => j.refs[i]?
    let released : Option Nat := ref.bind fun r => if r.hold then r.capture else none
    exec (.lineDone l tag) s = .next ((s.setLane l { n with
      port := { p with silence := some 2000, exchange := none, answer := none }
      log := if seg.2 then n.log.map fun c => if released = some c.number then { c with holds := c.holds - 1 } else c else n.log
      jobs := n.jobs.map fun y => if y.number = j.number then 
        if seg.2 then { j with
          current := none, lines := j.lines + 1
          refs := match block2 with
            | some i => j.refs.modify i fun r => { r with hold := false }
            | none => j.refs }
        else { j with current := some (.line cells column block2 (done + seg.1.length)) } else y }).port l)) ∧
  (∀ (s : State) (l : LaneId) (tag : Byte) (x : Exchange) (j : Job),
    s.Runs l →
    (s.lane l).port.exchange = some x →
    tag.toNat = x.number →
    PrintLaw s →
    j ∈ (s.lane l).jobs →
    x.owner = .job j.number →
    j.current = some .cut →
    let n := s.lane l
    let p := n.port
    exec (.lineDone l tag) s = .next ((s.setLane l { n with port := { p with silence := some 2000, exchange := none, answer := none }, jobs := n.jobs.map fun y => if y.number = j.number then { j with current := none } else y }).port l)) ∧
  (∀ (s : State) (l : LaneId) (tag : Byte) (x : Exchange) (j : Job),
    s.Runs l →
    (s.lane l).port.exchange = some x →
    PrintLaw s →
    j ∈ (s.lane l).jobs →
    x.owner = .job j.number →
    let n := s.lane l
    let p := n.port
    let ends (q : Port) (why : Byte) : State :=
      (((s.setLane l { n with port := q, jobs := n.jobs.map fun y => if y.number = j.number then { j with state := .suspended } else y }).offerLane l 0x89
        ([laneAddr l, octet j.number, 2] ++ be 2 j.lines ++ [flagsOctet j.flags] ++ (why ::
          be 2 (j.lines + 1)))).raiseLane l .paperOut).port l
    (tag.toNat = x.number → exec (.lineFailed l tag) s = .next (ends { p with silence := some 2000, exchange := none, answer := none } 0)) ∧
    (p.answer.isSome = true → exec (.answerTimerExpiry l) s = .next (ends { p with exchange := none, answer := none } 1))) ∧
  (∀ (s : State) (l : LaneId) (x : Exchange),
    s.Runs l →
    (s.lane l).port.exchange = some x →
    (s.lane l).port.answer.isSome = true →
    x.owner = .owedCut ∨ x.owner = .nobody →
    let n := s.lane l
    let p := n.port
    exec (.answerTimerExpiry l) s = .next ((s.setLane l { n with port := { p with
      exchange := none, answer := none, cutOwed := if x.owner = .owedCut then false else p.cutOwed } }).port l)) ∧
  (∀ (s : State) (l : LaneId) (report : PrinterReport),
    s.Runs l →
    report = .ready ∨ report = .paperLow →
    (∀ j ∈ (s.lane l).jobs, j.state ≠ .suspended) →
    let n := s.lane l
    let st : PrinterState := if report = .ready then .ready else .paperLow
    let t := (s.setLane l { n with port := { n.port with state := st, silence := some 2000 } }).port l
    exec (.printerStatus l report) s = .next (if report = .ready then t else t.raiseLane l .paperLow)) ∧
  (∀ (s : State) (l : LaneId) (report : PrinterReport) (j : Job),
    s.Runs l →
    PrintLaw s →
    report = .ready ∨ report = .paperLow →
    j ∈ (s.lane l).jobs →
    j.state = .suspended →
    let n := s.lane l
    let st : PrinterState := if report = .ready then .ready else .paperLow
    let again : Option JobFrame := match j.current with
      | some (.line cells column block2 _) => some (.line cells column block2 0)
      | other => other
    let t := ((s.setLane l { n with
        port := { n.port with state := st, silence := some 2000 }
        jobs := n.jobs.map fun y => if y.number = j.number then { j with state := .printing, current := again } else y }).offerLane l 0x89
        ([laneAddr l, octet j.number, 3] ++ be 2 j.lines ++ [flagsOctet j.flags] ++ be 2 (j.lines + 1))).port l
    exec (.printerStatus l report) s = .next (if report = .ready then t else t.raiseLane l .paperLow)) ∧
  (∀ (s : State) (l : LaneId) (report : PrinterReport),
    s.Runs l →
    report = .paperOut ∨ report = .coverOpen →
    (∀ j ∈ (s.lane l).jobs, j.state ≠ .printing) →
    let n := s.lane l
    let st : PrinterState := if report = .paperOut then .paperOut else .coverOpen
    let owed := ∃ x ∈ n.port.exchange, x.owner = .owedCut
    exec (.printerStatus l report) s = .next (s.setLane l { n with port := { n.port with
      state := st, silence := some 2000, exchange := if owed then none else n.port.exchange
      answer := if owed then none else n.port.answer } })) ∧
  (∀ (s : State) (l : LaneId) (report : PrinterReport) (j : Job),
    s.Runs l →
    PrintLaw s →
    report = .paperOut ∨ report = .coverOpen →
    j ∈ (s.lane l).jobs →
    j.state = .printing →
    let n := s.lane l
    let st : PrinterState := if report = .paperOut then .paperOut else .coverOpen
    let gone := ∃ x ∈ n.port.exchange, x.owner = .owedCut ∨ x.owner = .job j.number
    exec (.printerStatus l report) s = .next (((s.setLane l { n with
        port := { n.port with
          state := st, silence := some 2000, exchange := if gone then none else n.port.exchange
          answer := if gone then none else n.port.answer }
        jobs := n.jobs.map fun y => if y.number = j.number then { j with state := .suspended } else y }).offerLane l 0x89
        ([laneAddr l, octet j.number, 2] ++ be 2 j.lines ++ [flagsOctet j.flags] ++
          ((if report = .paperOut then 2 else 3) :: be 2 (j.lines + 1)))).raiseLane l .paperOut)) ∧
  (∀ (s : State) (l : LaneId),
    s.Runs l →
    (s.lane l).port.silence.isSome = true →
    let n := s.lane l
    let off : Port := { n.port with state := .offline, silence := none, exchange := none, answer := none }
    ((∀ j ∈ n.jobs, j.state ≠ .printing) → exec (.printerSilenceExpiry l) s = .next
      ((s.setLane l { n with port := off }).raiseLane l .printerOffline)) ∧
    ∀ j ∈ n.jobs, PrintLaw s → j.state = .printing → exec (.printerSilenceExpiry l) s = .next
      (((s.setLane l { n with port := off, jobs := n.jobs.map fun y => if y.number = j.number then { j with state := .suspended } else y }).offerLane l 0x89
        ([laneAddr l, octet j.number, 2] ++ be 2 j.lines ++ [flagsOctet j.flags] ++ (4 ::
          be 2 (j.lines + 1)))).raiseLane l .printerOffline))

/-- The port selects the oldest READY job and sends an owed cut, the kept frame or the next rendered frame, or
completes the job; what it renders, and its segments. With an exchange in flight or the printer not usable, the port
sends nothing. Free and usable, an owed cut goes first; else the PRINTING job's kept frame; else the frame the
renderer gives next; a job with none left is removed and DONE offered with the flags of the octets read up to the end
of its stream, and the port's choice is made again for the READY jobs behind. Each frame takes the next exchange
number and starts the answer timer. With no job PRINTING or SUSPENDED the oldest READY job becomes PRINTING first,
from the start of its stream; at a printer that is PAPER_OUT, COVER_OPEN or OFFLINE it is SUSPENDED at once, SUSPENDED
offered and then PAPER_OUT raised, or PRINTER_OFFLINE for OFFLINE. The octets of PRINT_EVENT are log 12 and log 17.
The renderer gives each octet its meaning, builds a line of cells with the attributes in force, wraps at 48, ends it
at a line end and before a cut or a reference, centres it where marked, looks glyphs up, and sets the flags; a
reference gives the two lines of its certified block or the MISSING line, plain and from column 0, with the texts and
figures of R144; a cut gives a CUT, and the end of the stream a last line, then a closing CUT where a line was printed
and no cut ends it. A segment takes cells in order while the next fits in 236 octets, and is the last when none is
left. A rendered line holds at most 48 cells and its column leaves room for them; with captures in their ranges (a net
of 10 kg or more is whole grams, R11) and at most 3 decimals a certified block's lines hold at most 43 and 45 cells; a
LINE payload is 2 to 238 octets. The octet that wraps a line stays unread (log 18). -/
def Obligations.ThePortSendsTheNextFrame : Prop :=
  (∀ (s : State) (l : LaneId),
    (s.lane l).port.exchange ≠ none ∨ ((s.lane l).port.state ≠ .ready ∧ (s.lane l).port.state ≠ .paperLow) →
    ((∃ j ∈ (s.lane l).jobs, j.state = .printing ∨ j.state = .suspended) ∨ ∀ j ∈ (s.lane l).jobs, j.state ≠ .ready) →
    s.port l = s) ∧
  (∀ (s : State) (l : LaneId),
    (s.lane l).port.exchange = none →
    (s.lane l).port.state = .ready ∨ (s.lane l).port.state = .paperLow →
    ((∃ j ∈ (s.lane l).jobs, j.state = .printing ∨ j.state = .suspended) ∨ ∀ j ∈ (s.lane l).jobs, j.state ≠ .ready) →
    ((s.lane l).port.cutOwed = true ∨ ∀ j ∈ (s.lane l).jobs, j.state ≠ .printing) →
    let n := s.lane l
    let p := n.port
    let num := if 255 ≤ p.counter then 1 else p.counter + 1
    s.port l = if p.cutOwed = true then s.setLane l { n with port := { p with counter := num, exchange := some ⟨⟨0, 0xC1, octet num, []⟩, num, .owedCut⟩, answer := some 2000 } } else s) ∧
  (∀ (s : State) (l : LaneId) (j : Job) (f : JobFrame),
    (s.lane l).port.exchange = none →
    (s.lane l).port.state = .ready ∨ (s.lane l).port.state = .paperLow →
    PrintLaw s →
    j ∈ (s.lane l).jobs →
    j.state = .printing →
    (s.lane l).port.cutOwed = false →
    j.current = some f →
    let n := s.lane l
    let p := n.port
    let num := if 255 ≤ p.counter then 1 else p.counter + 1
    s.port l = s.setLane l { n with
      jobs := n.jobs.map fun y => if y.number = j.number then { j with lastSent := if f = .cut then .cut else .line } else y
      port := match f with
        | .line cells column _ done => { p with counter := num, exchange := some ⟨⟨0, 0xC0, octet num, linePayload cells column done⟩, num, .job j.number⟩, answer := some 2000 }
        | .cut => { p with counter := num, exchange := some ⟨⟨0, 0xC1, octet num, []⟩, num, .job j.number⟩, answer := some 2000 } }) ∧
  (∀ (s : State) (l : LaneId) (j r : Job),
    (s.lane l).port.exchange = none →
    (s.lane l).port.state = .ready ∨ (s.lane l).port.state = .paperLow →
    PrintLaw s →
    j ∈ (s.lane l).jobs →
    j.state = .printing →
    (s.lane l).port.cutOwed = false →
    j.current = none →
    renderNext ⟨s.glyphs, s.settings.moneyDecimals, (s.lane l).log⟩ j = some r →
    let shown := s.setLane l { s.lane l with jobs := (s.lane l).jobs.map fun y => if y.number = j.number then r else y }
    r.current.isSome = true ∧ r.number = j.number ∧ r.state = .printing ∧ r.stream = j.stream ∧
      s.port l = shown.port l) ∧
  (∀ (s : State) (l : LaneId) (j : Job),
    (s.lane l).port.exchange = none →
    (s.lane l).port.state = .ready ∨ (s.lane l).port.state = .paperLow →
    PrintLaw s →
    j ∈ (s.lane l).jobs →
    j.state = .printing →
    (s.lane l).port.cutOwed = false →
    j.current = none →
    renderNext ⟨s.glyphs, s.settings.moneyDecimals, (s.lane l).log⟩ j = none →
    let flags := (scanLine s.glyphs ⟨j.position, j.attr, [], false, j.flags⟩ (j.stream.drop j.position)).2.flags
    let done := (s.setLane l { s.lane l with jobs := (s.lane l).jobs.filter fun y => y.number != j.number }).offerLane l 0x89
        ([laneAddr l, octet j.number, 0] ++ be 2 j.lines ++ [flagsOctet flags])
    s.port l = done.port l ∧ ((∀ y ∈ (s.lane l).jobs, y.state ≠ .ready) → s.port l = done)) ∧
  (∀ (s : State) (l : LaneId) (j : Job),
    (∀ y ∈ (s.lane l).jobs, y.state ≠ .printing ∧ y.state ≠ .suspended) →
    ((s.lane l).jobs.find? fun y => y.state == .ready) = some j →
    (s.lane l).port.state ≠ .paperOut ∧ (s.lane l).port.state ≠ .coverOpen ∧ (s.lane l).port.state ≠ .offline →
    PrintLaw s →
    s.port l = (s.setLane l { s.lane l with jobs := (s.lane l).jobs.map fun y => if y.number = j.number then { j with
      state := .printing, position := 0, attr := ⟨false, false, false, false⟩, pendingBlock := none, current := none, lines := 0 }
      else y }).port l) ∧
  (∀ (s : State) (l : LaneId) (j : Job),
    (∀ y ∈ (s.lane l).jobs, y.state ≠ .printing ∧ y.state ≠ .suspended) →
    ((s.lane l).jobs.find? fun y => y.state == .ready) = some j →
    (s.lane l).port.state = .paperOut ∨ (s.lane l).port.state = .coverOpen ∨ (s.lane l).port.state = .offline →
    PrintLaw s →
    let p := (s.lane l).port
    let stopped := (s.setLane l { s.lane l with jobs := (s.lane l).jobs.map fun y => if y.number = j.number then { j with
      state := .suspended, position := 0, attr := ⟨false, false, false, false⟩, pendingBlock := none, current := none, lines := 0 }
      else y }).offerLane l 0x89 ([laneAddr l, octet j.number, 2] ++ be 2 0 ++ [flagsOctet j.flags] ++
        ((if p.state = .paperOut then 2 else if p.state = .coverOpen then 3 else 4) :: be 2 1))
    s.port l = stopped.raiseLane l (if p.state = .offline then .printerOffline else .paperOut)) ∧
  (∀ (o : Byte),
    tokenOf o =
      if 0x20 ≤ o.toNat ∧ o.toNat ≤ 0x7E then .char o
      else if 0x80 ≤ o.toNat ∧ o.toNat ≤ 0x9F then .glyph o
      else if o = 0x0A then .lineEnd
      else if o = 0x11 then .bold true else if o = 0x12 then .bold false
      else if o = 0x13 then .tall true else if o = 0x14 then .tall false
      else if o = 0x15 then .inverse true else if o = 0x16 then .inverse false
      else if o = 0x17 then .underline true else if o = 0x18 then .underline false
      else if o = 0x1C then .cut else if o = 0x1D then .centre else if o = 0x1E then .reference
      else .dropped) ∧
  (∀ (t : List Glyph) (b : Build) (o : Byte) (rest : List Byte),
    let on (a : Attr) : ScanStop × Build := scanLine t { b with pos := b.pos + 1, attr := a } rest
    let stop (x : ScanStop) : ScanStop × Build := if b.cells = [] then (x, { b with pos := b.pos + 1 }) else (.line, b)
    scanLine t b [] = (.ended, b) ∧
    (0x20 ≤ o.toNat ∧ o.toNat ≤ 0x7E → scanLine t b (o :: rest) =
      if 48 ≤ b.cells.length then (.line, b)
      else scanLine t { b with pos := b.pos + 1, cells := b.cells ++ [.char o b.attr] } rest) ∧
    (0x80 ≤ o.toNat ∧ o.toNat ≤ 0x9F → scanLine t b (o :: rest) =
      if 48 ≤ b.cells.length then (.line, b)
      else match patternOf t o with
        | some p => scanLine t { b with pos := b.pos + 1, cells := b.cells ++ [.glyph o b.attr p] } rest
        | none => scanLine t { b with
            pos := b.pos + 1, cells := b.cells ++ [.char 0x20 b.attr], flags := { b.flags with glyphMissing := true } } rest) ∧
    (o = 0x0A → scanLine t b (o :: rest) = (.line, { b with pos := b.pos + 1 })) ∧
    (o = 0x1C → scanLine t b (o :: rest) = stop .cut) ∧ (o = 0x1E → scanLine t b (o :: rest) = stop .reference) ∧
    (o = 0x1D → scanLine t b (o :: rest) = scanLine t { b with pos := b.pos + 1, centre := true } rest) ∧
    (o = 0x11 → scanLine t b (o :: rest) = on { b.attr with bold := true }) ∧
    (o = 0x12 → scanLine t b (o :: rest) = on { b.attr with bold := false }) ∧
    (o = 0x13 → scanLine t b (o :: rest) = on { b.attr with tall := true }) ∧
    (o = 0x14 → scanLine t b (o :: rest) = on { b.attr with tall := false }) ∧
    (o = 0x15 → scanLine t b (o :: rest) = on { b.attr with inverse := true }) ∧
    (o = 0x16 → scanLine t b (o :: rest) = on { b.attr with inverse := false }) ∧
    (o = 0x17 → scanLine t b (o :: rest) = on { b.attr with underline := true }) ∧
    (o = 0x18 → scanLine t b (o :: rest) = on { b.attr with underline := false }) ∧
    (o.toNat ≤ 0x09 ∨ (0x0B ≤ o.toNat ∧ o.toNat ≤ 0x10) ∨ (0x19 ≤ o.toNat ∧ o.toNat ≤ 0x1B) ∨ o = 0x1F ∨ o = 0x7F ∨
      0xA0 ≤ o.toNat →
      scanLine t b (o :: rest) = scanLine t { b with pos := b.pos + 1, flags := { b.flags with unknownCode := true } } rest)) ∧
  (∀ (i : RenderInputs) (j : Job),
    let out := scanLine i.glyphs ⟨j.position, j.attr, [], false, j.flags⟩ (j.stream.drop j.position)
    let b := out.2
    let read : Job := { j with position := b.pos, attr := b.attr, flags := b.flags }
    let line : JobFrame := .line b.cells (if b.centre then (48 - b.cells.length) / 2 else 0) none 0
    let plain (text : List Byte) (block2 : Option Nat) : JobFrame :=
      .line (text.map fun c => .char c ⟨false, false, false, false⟩) 0 block2 0
    let record (k : Nat) : Option Capture := (j.refs[k]?).bind fun r =>
      if r.resolved then r.capture.bind fun m => i.log.find? fun c => c.number == m else none
    let past : Job := { read with position := min (b.pos + 2) j.stream.length, nextRef := j.nextRef + 1 }
    (j.pendingBlock = none → renderNext i j = match out.1 with
      | .line => some { read with current := some line }
      | .cut => some { read with current := some .cut }
      | .reference => match record j.nextRef with
        | some c => some { past with current := some (plain (blockLine1 c) none), pendingBlock := some j.nextRef }
        | none => some { past with current := some (plain missingLine none) }
      | .ended =>
        if b.cells ≠ [] then some { read with current := some line }
        else if 0 < j.lines ∧ endsWithCut 0 false j.stream = false ∧ j.endCut = false then
          some { read with current := some .cut, endCut := true }
        else none) ∧
    ∀ k ∈ j.pendingBlock, renderNext i j = some { j with
      pendingBlock := none
      current := some (plain (((record k).map (blockLine2 i.decimals)).getD missingLine) (some k)) }) ∧
  (∀ (a : Bool) (o x y : Byte) (rest : List Byte),
    endsWithCut 0 a [] = a ∧ endsWithCut 0 a (0x1C :: rest) = endsWithCut 0 true rest ∧
    ((0x20 ≤ o.toNat ∧ o.toNat ≤ 0x7E) ∨ (0x80 ≤ o.toNat ∧ o.toNat ≤ 0x9F) ∨ o = 0x0A →
      endsWithCut 0 a (o :: rest) = endsWithCut 0 false rest) ∧
    endsWithCut 0 a (0x1E :: x :: y :: rest) = endsWithCut 0 false rest ∧
    endsWithCut 0 a [0x1E, x] = false ∧ endsWithCut 0 a [0x1E] = false ∧
    (¬ (0x20 ≤ o.toNat ∧ o.toNat ≤ 0x7E) ∧ ¬ (0x80 ≤ o.toNat ∧ o.toNat ≤ 0x9F) ∧ o ≠ 0x0A ∧ o ≠ 0x1C ∧ o ≠ 0x1E →
      endsWithCut 0 a (o :: rest) = endsWithCut 0 a rest)) ∧
  (∀ (c : Capture) (decimals : Nat),
    let text (x : List Char) : List Byte := x.map fun y => octet y.toNat
    blockLine1 c = text ['C', 'A', 'P', 'T', 'U', 'R', 'E', ' '] ++ padDigits 5 c.number ++
      text [' ', 'N', 'E', 'T', ' '] ++
      kgText c.net.toNat ++ text [' ', 'k', 'g', ' ', 'T', 'A', 'R', 'E', ' '] ++ kgText c.tare.toNat ++
        text [' ', 'k', 'g'] ∧
    blockLine2 decimals c = text ['P', 'R', 'I', 'C', 'E', '/', 'K', 'G', ' '] ++ moneyText decimals c.unitPrice ++
      text [' ', 'P', 'R', 'I', 'C', 'E', ' '] ++ moneyText decimals c.price ++ text [' ', 'D', 'I', 'V', ' '] ++
      kgText c.d ++ text [' ', 'k', 'g'] ∧
    missingLine = text ['*', '*', '*', ' ', 'W', 'E', 'I', 'G', 'H', 'T', ' ', 'N', 'O', 'T', ' ', 'C', 'E', 'R', 'T', 'I', 'F',
      'I', 'E', 'D', ' ', '*', '*', '*']) ∧
  (∀ (w n decimals : Nat),
    let value (x : List Byte) : Nat := x.foldl (fun v d => 10 * v + (d.toNat - 0x30)) 0
    let digits (x : List Byte) : Prop := ∀ d ∈ x, 0x30 ≤ d.toNat ∧ d.toNat ≤ 0x39
    ((padDigits w n).length = w ∧ digits (padDigits w n) ∧ value (padDigits w n) = n % 10 ^ w) ∧
    (n < 10 ^ 10 → number n ≠ [] ∧ digits (number n) ∧ value (number n) = n ∧
      ((number n).head? = some 0x30 → number n = [0x30])) ∧
    kgText n = number (n / 1000000) ++ 0x2E ::
      (if n % 1000 = 0 then padDigits 3 (n / 1000) else padDigits 4 (n / 100)) ∧
    moneyText 0 n = number n ∧
    (decimals ≠ 0 → moneyText decimals n = number (n / 10 ^ decimals) ++ 0x2E :: padDigits decimals n)) ∧
  (∀ (cells : List Cell) (column done : Nat),
    let seg := segmentOf cells done
    let width : Cell → Nat := fun
      | .char _ _ => 2
      | .glyph _ _ _ => 74
    seg.1 = (cells.drop done).take seg.1.length ∧ (seg.1.map width).sum ≤ 236 ∧
    (∀ c ∈ cells[done + seg.1.length]?, 236 < (seg.1.map width).sum + width c) ∧
    (seg.2 = true ↔ done + seg.1.length = cells.length) ∧
    linePayload cells column done = [octet (column + done), if seg.2 then 1 else 0] ++ (seg.1.map fun
      | .char c a => [c, attrOctet a]
      | .glyph g a p => g :: attrOctet a :: p).flatten) ∧
  (∀ (a : Attr),
    attrOctet a = octet ((if a.bold then 1 else 0) + (if a.tall then 2 else 0) + (if a.inverse then 4 else 0) +
      (if a.underline then 8 else 0))) ∧
  (∀ (i : RenderInputs) (j r : Job) (cells : List Cell) (column done : Nat) (block2 : Option Nat),
    renderNext i j = some r →
    r.current = some (.line cells column block2 done) →
    i.decimals ≤ 3 →
    (∀ c ∈ i.log, c.number ≤ 65535 ∧ c.net ≤ 60000000 ∧ (c.net % 1000 = 0 ∨ c.net < 10000000) ∧ c.tare ≤ 60000000 ∧
      c.d ≤ 50000 ∧ c.unitPrice ≤ 999999 ∧ c.price ≤ 9999999) →
    done = 0 ∧ cells.length ≤ 48 ∧ column + cells.length ≤ 48 ∧ (r.pendingBlock ≠ none → cells.length ≤ 43) ∧
      (block2 ≠ none → cells.length ≤ 45)) ∧
  (∀ (cells : List Cell) (column done : Nat),
    (∀ c ∈ cells, (cellOctets c).length ≤ 74) →
    let seg := segmentOf cells done
    2 ≤ (linePayload cells column done).length ∧ (linePayload cells column done).length ≤ 238 ∧ (done < cells.length →
      seg.1 ≠ []) ∧
      seg.1 = (cells.drop done).take seg.1.length ∧ (seg.2 = true → done + seg.1.length = cells.length))
end

