-- ==== Sys2Proof/Laws/State.lean ====
section
/-! SUPPORT. One lemma per field per update of State, and the reads of lanes and channels after a write. -/

namespace Sys2Proof

@[simp] theorem Four.get_set_same {α : Type} (f : Four α) (i : LaneId) (v : α) : (f.set i v).get i = v := by
  match i with
  | 0 => rfl
  | 1 => rfl
  | 2 => rfl
  | 3 => rfl

@[simp] theorem Four.get_set_ne {α : Type} (f : Four α) (i j : LaneId) (v : α) (h : j ≠ i) : (f.set i v).get j = f.get j := by
  match i, j with
  | 0, 0 => exact absurd rfl h
  | 0, 1 => rfl
  | 0, 2 => rfl
  | 0, 3 => rfl
  | 1, 0 => rfl
  | 1, 1 => exact absurd rfl h
  | 1, 2 => rfl
  | 1, 3 => rfl
  | 2, 0 => rfl
  | 2, 1 => rfl
  | 2, 2 => exact absurd rfl h
  | 2, 3 => rfl
  | 3, 0 => rfl
  | 3, 1 => rfl
  | 3, 2 => rfl
  | 3, 3 => exact absurd rfl h

@[simp] theorem Four.get_make {α : Type} (g : LaneId → α) (i : LaneId) : (Four.make g).get i = g i := by
  match i with
  | 0 => rfl
  | 1 => rfl
  | 2 => rfl
  | 3 => rfl

@[simp] theorem Four.set_set {α : Type} (f : Four α) (i : LaneId) (v w : α) : (f.set i v).set i w = f.set i w := by
  match i with
  | 0 => rfl
  | 1 => rfl
  | 2 => rfl
  | 3 => rfl

@[simp] theorem Four.set_get {α : Type} (f : Four α) (i : LaneId) : f.set i (f.get i) = f := by
  match i with
  | 0 => rfl
  | 1 => rfl
  | 2 => rfl
  | 3 => rfl

namespace Machine

/-! ## A lane is replaced -/

@[simp] theorem setLane_pending (s : State) (l : LaneId) (n : Lane) : (s.setLane l n).pending = s.pending := rfl
@[simp] theorem setLane_power (s : State) (l : LaneId) (n : Lane) : (s.setLane l n).power = s.power := rfl
@[simp] theorem setLane_freeCount (s : State) (l : LaneId) (n : Lane) : (s.setLane l n).freeCount = s.freeCount := rfl
@[simp] theorem setLane_calEn (s : State) (l : LaneId) (n : Lane) : (s.setLane l n).calEn = s.calEn := rfl
@[simp] theorem setLane_supplyBelow (s : State) (l : LaneId) (n : Lane) : (s.setLane l n).supplyBelow = s.supplyBelow := rfl
@[simp] theorem setLane_rateStrap (s : State) (l : LaneId) (n : Lane) : (s.setLane l n).rateStrap = s.rateStrap := rfl
@[simp] theorem setLane_lanesStrap (s : State) (l : LaneId) (n : Lane) : (s.setLane l n).lanesStrap = s.lanesStrap := rfl
@[simp] theorem setLane_resetCause (s : State) (l : LaneId) (n : Lane) : (s.setLane l n).resetCause = s.resetCause := rfl
@[simp] theorem setLane_selfCheck (s : State) (l : LaneId) (n : Lane) : (s.setLane l n).selfCheck = s.selfCheck := rfl
@[simp] theorem setLane_hello (s : State) (l : LaneId) (n : Lane) : (s.setLane l n).hello = s.hello := rfl
@[simp] theorem setLane_items (s : State) (l : LaneId) (n : Lane) : (s.setLane l n).items = s.items := rfl
@[simp] theorem setLane_ranges (s : State) (l : LaneId) (n : Lane) : (s.setLane l n).ranges = s.ranges := rfl
@[simp] theorem setLane_glyphs (s : State) (l : LaneId) (n : Lane) : (s.setLane l n).glyphs = s.glyphs := rfl
@[simp] theorem setLane_settings (s : State) (l : LaneId) (n : Lane) : (s.setLane l n).settings = s.settings := rfl
@[simp] theorem setLane_date (s : State) (l : LaneId) (n : Lane) : (s.setLane l n).date = s.date := rfl
@[simp] theorem setLane_store (s : State) (l : LaneId) (n : Lane) : (s.setLane l n).store = s.store := rfl
@[simp] theorem setLane_calWrite (s : State) (l : LaneId) (n : Lane) : (s.setLane l n).calWrite = s.calWrite := rfl
@[simp] theorem setLane_receiver (s : State) (l : LaneId) (n : Lane) : (s.setLane l n).receiver = s.receiver := rfl
@[simp] theorem setLane_receiveBuffer (s : State) (l : LaneId) (n : Lane) : (s.setLane l n).receiveBuffer = s.receiveBuffer := rfl
@[simp] theorem setLane_upstream (s : State) (l : LaneId) (n : Lane) : (s.setLane l n).upstream = s.upstream := rfl
@[simp] theorem setLane_reserved (s : State) (l : LaneId) (n : Lane) : (s.setLane l n).reserved = s.reserved := rfl
@[simp] theorem setLane_restart (s : State) (l : LaneId) (n : Lane) : (s.setLane l n).restart = s.restart := rfl
@[simp] theorem setLane_linkTimer (s : State) (l : LaneId) (n : Lane) : (s.setLane l n).linkTimer = s.linkTimer := rfl
@[simp] theorem setLane_silent (s : State) (l : LaneId) (n : Lane) : (s.setLane l n).silent = s.silent := rfl
@[simp] theorem setLane_attention (s : State) (l : LaneId) (n : Lane) : (s.setLane l n).attention = s.attention := rfl
@[simp] theorem setLane_supplyLow (s : State) (l : LaneId) (n : Lane) : (s.setLane l n).supplyLow = s.supplyLow := rfl
@[simp] theorem setLane_powerQueue (s : State) (l : LaneId) (n : Lane) : (s.setLane l n).powerQueue = s.powerQueue := rfl
@[simp] theorem setLane_releasing (s : State) (l : LaneId) (n : Lane) : (s.setLane l n).releasing = s.releasing := rfl
@[simp] theorem setLane_pay (s : State) (l : LaneId) (n : Lane) : (s.setLane l n).pay = s.pay := rfl

@[simp] theorem lane_setLane_same (s : State) (l : LaneId) (n : Lane) : (s.setLane l n).lane l = n :=
  Four.get_set_same s.lanes l n

@[simp] theorem lane_setLane_ne (s : State) (l k : LaneId) (n : Lane) (h : k ≠ l) : (s.setLane l n).lane k = s.lane k :=
  Four.get_set_ne s.lanes l k n h

@[simp] theorem setLane_setLane (s : State) (l : LaneId) (m n : Lane) : (s.setLane l m).setLane l n = s.setLane l n := by
  simp [State.setLane]

@[simp] theorem setLane_lane (s : State) (l : LaneId) : s.setLane l (s.lane l) = s := by
  simp [State.setLane, State.lane]

theorem modLane_eq (s : State) (l : LaneId) (g : Lane → Lane) : s.modLane l g = s.setLane l (g (s.lane l)) := rfl

theorem setTill_eq (s : State) (l : LaneId) (t : Till) : s.setTill l t = s.setLane l { s.lane l with till := t } := rfl

theorem setBag_eq (s : State) (l : LaneId) (x : BagCheck) : s.setBag l x = s.setLane l { s.lane l with bagCheck := x } := rfl

theorem setPort_eq (s : State) (l : LaneId) (p : Port) : s.setPort l p = s.setLane l { s.lane l with port := p } := rfl

theorem setCard_eq (s : State) (l : LaneId) (u : CardUnit) : s.setCard l u = s.setLane l { s.lane l with card := u } := rfl

theorem setAttention_eq (s : State) (l : LaneId) (a : Attention) :
    s.setAttention l a = s.setLane l { s.lane l with attention := a } := rfl

theorem setChan_eq (s : State) (l : LaneId) (c : Chan) (x : Channel) :
    s.setChan l c x = s.setLane l ((s.lane l).setChan c x) := rfl

theorem modChan_eq (s : State) (l : LaneId) (c : Chan) (g : Channel → Channel) :
    s.modChan l c g = s.setLane l ((s.lane l).setChan c (g ((s.lane l).chan c))) := rfl

@[simp] theorem Lane.chan_setChan (n : Lane) (c : Chan) (x : Channel) : (n.setChan c x).chan c = x := by cases c <;> rfl

@[simp] theorem Lane.setChan_setChan (n : Lane) (c : Chan) (x y : Channel) : (n.setChan c x).setChan c y = n.setChan c y := by
  cases c <;> rfl

@[simp] theorem Lane.setChan_chan (n : Lane) (c : Chan) : n.setChan c (n.chan c) = n := by cases c <;> rfl

@[simp] theorem Lane.setChan_weigh (n : Lane) (c : Chan) (x : Channel) : (n.setChan c x).weigh = n.weigh := by cases c <;> rfl
@[simp] theorem Lane.setChan_armed (n : Lane) (c : Chan) (x : Channel) : (n.setChan c x).armed = n.armed := by cases c <;> rfl
@[simp] theorem Lane.setChan_nextCapture (n : Lane) (c : Chan) (x : Channel) : (n.setChan c x).nextCapture = n.nextCapture := by cases c <;> rfl
@[simp] theorem Lane.setChan_log (n : Lane) (c : Chan) (x : Channel) : (n.setChan c x).log = n.log := by cases c <;> rfl
@[simp] theorem Lane.setChan_entries (n : Lane) (c : Chan) (x : Channel) : (n.setChan c x).entries = n.entries := by cases c <;> rfl
@[simp] theorem Lane.setChan_tenders (n : Lane) (c : Chan) (x : Channel) : (n.setChan c x).tenders = n.tenders := by cases c <;> rfl
@[simp] theorem Lane.setChan_token (n : Lane) (c : Chan) (x : Channel) : (n.setChan c x).token = n.token := by cases c <;> rfl
@[simp] theorem Lane.setChan_bagCheck (n : Lane) (c : Chan) (x : Channel) : (n.setChan c x).bagCheck = n.bagCheck := by cases c <;> rfl
@[simp] theorem Lane.setChan_card (n : Lane) (c : Chan) (x : Channel) : (n.setChan c x).card = n.card := by cases c <;> rfl
@[simp] theorem Lane.setChan_lastResult (n : Lane) (c : Chan) (x : Channel) : (n.setChan c x).lastResult = n.lastResult := by cases c <;> rfl
@[simp] theorem Lane.setChan_till (n : Lane) (c : Chan) (x : Channel) : (n.setChan c x).till = n.till := by cases c <;> rfl
@[simp] theorem Lane.setChan_jobs (n : Lane) (c : Chan) (x : Channel) : (n.setChan c x).jobs = n.jobs := by cases c <;> rfl
@[simp] theorem Lane.setChan_jobCounter (n : Lane) (c : Chan) (x : Channel) : (n.setChan c x).jobCounter = n.jobCounter := by cases c <;> rfl
@[simp] theorem Lane.setChan_port (n : Lane) (c : Chan) (x : Channel) : (n.setChan c x).port = n.port := by cases c <;> rfl
@[simp] theorem Lane.setChan_mode (n : Lane) (c : Chan) (x : Channel) : (n.setChan c x).mode = n.mode := by cases c <;> rfl
@[simp] theorem Lane.setChan_authority (n : Lane) (c : Chan) (x : Channel) : (n.setChan c x).authority = n.authority := by cases c <;> rfl
@[simp] theorem Lane.setChan_attention (n : Lane) (c : Chan) (x : Channel) : (n.setChan c x).attention = n.attention := by cases c <;> rfl

@[simp] theorem chan_setChan (s : State) (l : LaneId) (c : Chan) (x : Channel) : (s.setChan l c x).chan l c = x := by
  simp [setChan_eq, State.chan]

/-! ## A frame joins the upstream queue -/

@[simp] theorem enqueue_pending (s : State) (f : Frame) : (s.enqueue f).pending = s.pending := rfl
@[simp] theorem enqueue_power (s : State) (f : Frame) : (s.enqueue f).power = s.power := rfl
@[simp] theorem enqueue_freeCount (s : State) (f : Frame) : (s.enqueue f).freeCount = s.freeCount := rfl
@[simp] theorem enqueue_calEn (s : State) (f : Frame) : (s.enqueue f).calEn = s.calEn := rfl
@[simp] theorem enqueue_supplyBelow (s : State) (f : Frame) : (s.enqueue f).supplyBelow = s.supplyBelow := rfl
@[simp] theorem enqueue_rateStrap (s : State) (f : Frame) : (s.enqueue f).rateStrap = s.rateStrap := rfl
@[simp] theorem enqueue_lanesStrap (s : State) (f : Frame) : (s.enqueue f).lanesStrap = s.lanesStrap := rfl
@[simp] theorem enqueue_resetCause (s : State) (f : Frame) : (s.enqueue f).resetCause = s.resetCause := rfl
@[simp] theorem enqueue_selfCheck (s : State) (f : Frame) : (s.enqueue f).selfCheck = s.selfCheck := rfl
@[simp] theorem enqueue_hello (s : State) (f : Frame) : (s.enqueue f).hello = s.hello := rfl
@[simp] theorem enqueue_lanes (s : State) (f : Frame) : (s.enqueue f).lanes = s.lanes := rfl
@[simp] theorem enqueue_items (s : State) (f : Frame) : (s.enqueue f).items = s.items := rfl
@[simp] theorem enqueue_ranges (s : State) (f : Frame) : (s.enqueue f).ranges = s.ranges := rfl
@[simp] theorem enqueue_glyphs (s : State) (f : Frame) : (s.enqueue f).glyphs = s.glyphs := rfl
@[simp] theorem enqueue_settings (s : State) (f : Frame) : (s.enqueue f).settings = s.settings := rfl
@[simp] theorem enqueue_date (s : State) (f : Frame) : (s.enqueue f).date = s.date := rfl
@[simp] theorem enqueue_store (s : State) (f : Frame) : (s.enqueue f).store = s.store := rfl
@[simp] theorem enqueue_calWrite (s : State) (f : Frame) : (s.enqueue f).calWrite = s.calWrite := rfl
@[simp] theorem enqueue_receiver (s : State) (f : Frame) : (s.enqueue f).receiver = s.receiver := rfl
@[simp] theorem enqueue_receiveBuffer (s : State) (f : Frame) : (s.enqueue f).receiveBuffer = s.receiveBuffer := rfl
@[simp] theorem enqueue_reserved (s : State) (f : Frame) : (s.enqueue f).reserved = s.reserved := rfl
@[simp] theorem enqueue_restart (s : State) (f : Frame) : (s.enqueue f).restart = s.restart := rfl
@[simp] theorem enqueue_linkTimer (s : State) (f : Frame) : (s.enqueue f).linkTimer = s.linkTimer := rfl
@[simp] theorem enqueue_silent (s : State) (f : Frame) : (s.enqueue f).silent = s.silent := rfl
@[simp] theorem enqueue_attention (s : State) (f : Frame) : (s.enqueue f).attention = s.attention := rfl
@[simp] theorem enqueue_supplyLow (s : State) (f : Frame) : (s.enqueue f).supplyLow = s.supplyLow := rfl
@[simp] theorem enqueue_powerQueue (s : State) (f : Frame) : (s.enqueue f).powerQueue = s.powerQueue := rfl
@[simp] theorem enqueue_releasing (s : State) (f : Frame) : (s.enqueue f).releasing = s.releasing := rfl
@[simp] theorem enqueue_pay (s : State) (f : Frame) : (s.enqueue f).pay = s.pay := rfl

@[simp] theorem enqueue_upstream (s : State) (f : Frame) : (s.enqueue f).upstream = s.upstream ++ [f] := rfl

@[simp] theorem lane_enqueue (s : State) (l : LaneId) (f : Frame) : (s.enqueue f).lane l = s.lane l := rfl

@[simp] theorem setLane_enqueue (s : State) (l : LaneId) (n : Lane) (f : Frame) :
    (s.enqueue f).setLane l n = (s.setLane l n).enqueue f := rfl

/-! ## A good frame is heard -/

@[simp] theorem heardHost_pending (s : State) : s.heardHost.pending = s.pending := rfl
@[simp] theorem heardHost_power (s : State) : s.heardHost.power = s.power := rfl
@[simp] theorem heardHost_freeCount (s : State) : s.heardHost.freeCount = s.freeCount := rfl
@[simp] theorem heardHost_calEn (s : State) : s.heardHost.calEn = s.calEn := rfl
@[simp] theorem heardHost_supplyBelow (s : State) : s.heardHost.supplyBelow = s.supplyBelow := rfl
@[simp] theorem heardHost_rateStrap (s : State) : s.heardHost.rateStrap = s.rateStrap := rfl
@[simp] theorem heardHost_lanesStrap (s : State) : s.heardHost.lanesStrap = s.lanesStrap := rfl
@[simp] theorem heardHost_resetCause (s : State) : s.heardHost.resetCause = s.resetCause := rfl
@[simp] theorem heardHost_selfCheck (s : State) : s.heardHost.selfCheck = s.selfCheck := rfl
@[simp] theorem heardHost_hello (s : State) : s.heardHost.hello = s.hello := rfl
@[simp] theorem heardHost_lanes (s : State) : s.heardHost.lanes = s.lanes := rfl
@[simp] theorem heardHost_items (s : State) : s.heardHost.items = s.items := rfl
@[simp] theorem heardHost_ranges (s : State) : s.heardHost.ranges = s.ranges := rfl
@[simp] theorem heardHost_glyphs (s : State) : s.heardHost.glyphs = s.glyphs := rfl
@[simp] theorem heardHost_settings (s : State) : s.heardHost.settings = s.settings := rfl
@[simp] theorem heardHost_date (s : State) : s.heardHost.date = s.date := rfl
@[simp] theorem heardHost_store (s : State) : s.heardHost.store = s.store := rfl
@[simp] theorem heardHost_calWrite (s : State) : s.heardHost.calWrite = s.calWrite := rfl
@[simp] theorem heardHost_receiver (s : State) : s.heardHost.receiver = s.receiver := rfl
@[simp] theorem heardHost_receiveBuffer (s : State) : s.heardHost.receiveBuffer = s.receiveBuffer := rfl
@[simp] theorem heardHost_upstream (s : State) : s.heardHost.upstream = s.upstream := rfl
@[simp] theorem heardHost_reserved (s : State) : s.heardHost.reserved = s.reserved := rfl
@[simp] theorem heardHost_restart (s : State) : s.heardHost.restart = s.restart := rfl
@[simp] theorem heardHost_attention (s : State) : s.heardHost.attention = s.attention := rfl
@[simp] theorem heardHost_supplyLow (s : State) : s.heardHost.supplyLow = s.supplyLow := rfl
@[simp] theorem heardHost_powerQueue (s : State) : s.heardHost.powerQueue = s.powerQueue := rfl
@[simp] theorem heardHost_releasing (s : State) : s.heardHost.releasing = s.releasing := rfl
@[simp] theorem heardHost_pay (s : State) : s.heardHost.pay = s.pay := rfl

@[simp] theorem heardHost_silent (s : State) : s.heardHost.silent = false := rfl

@[simp] theorem heardHost_linkTimer (s : State) : s.heardHost.linkTimer = silenceLength s.settings.linkSilence := rfl

@[simp] theorem lane_heardHost (s : State) (l : LaneId) : s.heardHost.lane l = s.lane l := rfl

/-! ## A record is reserved, the receive buffer replaced, an answer put in place -/

@[simp] theorem reserve_pending (s : State) : s.reserve.pending = s.pending := rfl
@[simp] theorem reserve_power (s : State) : s.reserve.power = s.power := rfl
@[simp] theorem reserve_freeCount (s : State) : s.reserve.freeCount = s.freeCount := rfl
@[simp] theorem reserve_calEn (s : State) : s.reserve.calEn = s.calEn := rfl
@[simp] theorem reserve_supplyBelow (s : State) : s.reserve.supplyBelow = s.supplyBelow := rfl
@[simp] theorem reserve_rateStrap (s : State) : s.reserve.rateStrap = s.rateStrap := rfl
@[simp] theorem reserve_lanesStrap (s : State) : s.reserve.lanesStrap = s.lanesStrap := rfl
@[simp] theorem reserve_resetCause (s : State) : s.reserve.resetCause = s.resetCause := rfl
@[simp] theorem reserve_selfCheck (s : State) : s.reserve.selfCheck = s.selfCheck := rfl
@[simp] theorem reserve_hello (s : State) : s.reserve.hello = s.hello := rfl
@[simp] theorem reserve_lanes (s : State) : s.reserve.lanes = s.lanes := rfl
@[simp] theorem reserve_items (s : State) : s.reserve.items = s.items := rfl
@[simp] theorem reserve_ranges (s : State) : s.reserve.ranges = s.ranges := rfl
@[simp] theorem reserve_glyphs (s : State) : s.reserve.glyphs = s.glyphs := rfl
@[simp] theorem reserve_settings (s : State) : s.reserve.settings = s.settings := rfl
@[simp] theorem reserve_date (s : State) : s.reserve.date = s.date := rfl
@[simp] theorem reserve_store (s : State) : s.reserve.store = s.store := rfl
@[simp] theorem reserve_calWrite (s : State) : s.reserve.calWrite = s.calWrite := rfl
@[simp] theorem reserve_receiver (s : State) : s.reserve.receiver = s.receiver := rfl
@[simp] theorem reserve_receiveBuffer (s : State) : s.reserve.receiveBuffer = s.receiveBuffer := rfl
@[simp] theorem reserve_upstream (s : State) : s.reserve.upstream = s.upstream := rfl
@[simp] theorem reserve_restart (s : State) : s.reserve.restart = s.restart := rfl
@[simp] theorem reserve_linkTimer (s : State) : s.reserve.linkTimer = s.linkTimer := rfl
@[simp] theorem reserve_silent (s : State) : s.reserve.silent = s.silent := rfl
@[simp] theorem reserve_attention (s : State) : s.reserve.attention = s.attention := rfl
@[simp] theorem reserve_supplyLow (s : State) : s.reserve.supplyLow = s.supplyLow := rfl
@[simp] theorem reserve_powerQueue (s : State) : s.reserve.powerQueue = s.powerQueue := rfl
@[simp] theorem reserve_releasing (s : State) : s.reserve.releasing = s.releasing := rfl
@[simp] theorem reserve_pay (s : State) : s.reserve.pay = s.pay := rfl
@[simp] theorem reserve_reserved (s : State) : s.reserve.reserved = s.reserved + 1 := rfl

@[simp] theorem lane_reserve (s : State) (l : LaneId) : s.reserve.lane l = s.lane l := rfl

@[simp] theorem setBuffer_pending (s : State) (q : List Frame) : (s.setBuffer q).pending = s.pending := rfl
@[simp] theorem setBuffer_power (s : State) (q : List Frame) : (s.setBuffer q).power = s.power := rfl
@[simp] theorem setBuffer_freeCount (s : State) (q : List Frame) : (s.setBuffer q).freeCount = s.freeCount := rfl
@[simp] theorem setBuffer_calEn (s : State) (q : List Frame) : (s.setBuffer q).calEn = s.calEn := rfl
@[simp] theorem setBuffer_supplyBelow (s : State) (q : List Frame) : (s.setBuffer q).supplyBelow = s.supplyBelow := rfl
@[simp] theorem setBuffer_rateStrap (s : State) (q : List Frame) : (s.setBuffer q).rateStrap = s.rateStrap := rfl
@[simp] theorem setBuffer_lanesStrap (s : State) (q : List Frame) : (s.setBuffer q).lanesStrap = s.lanesStrap := rfl
@[simp] theorem setBuffer_resetCause (s : State) (q : List Frame) : (s.setBuffer q).resetCause = s.resetCause := rfl
@[simp] theorem setBuffer_selfCheck (s : State) (q : List Frame) : (s.setBuffer q).selfCheck = s.selfCheck := rfl
@[simp] theorem setBuffer_hello (s : State) (q : List Frame) : (s.setBuffer q).hello = s.hello := rfl
@[simp] theorem setBuffer_lanes (s : State) (q : List Frame) : (s.setBuffer q).lanes = s.lanes := rfl
@[simp] theorem setBuffer_items (s : State) (q : List Frame) : (s.setBuffer q).items = s.items := rfl
@[simp] theorem setBuffer_ranges (s : State) (q : List Frame) : (s.setBuffer q).ranges = s.ranges := rfl
@[simp] theorem setBuffer_glyphs (s : State) (q : List Frame) : (s.setBuffer q).glyphs = s.glyphs := rfl
@[simp] theorem setBuffer_settings (s : State) (q : List Frame) : (s.setBuffer q).settings = s.settings := rfl
@[simp] theorem setBuffer_date (s : State) (q : List Frame) : (s.setBuffer q).date = s.date := rfl
@[simp] theorem setBuffer_store (s : State) (q : List Frame) : (s.setBuffer q).store = s.store := rfl
@[simp] theorem setBuffer_calWrite (s : State) (q : List Frame) : (s.setBuffer q).calWrite = s.calWrite := rfl
@[simp] theorem setBuffer_receiver (s : State) (q : List Frame) : (s.setBuffer q).receiver = s.receiver := rfl
@[simp] theorem setBuffer_upstream (s : State) (q : List Frame) : (s.setBuffer q).upstream = s.upstream := rfl
@[simp] theorem setBuffer_reserved (s : State) (q : List Frame) : (s.setBuffer q).reserved = s.reserved := rfl
@[simp] theorem setBuffer_restart (s : State) (q : List Frame) : (s.setBuffer q).restart = s.restart := rfl
@[simp] theorem setBuffer_linkTimer (s : State) (q : List Frame) : (s.setBuffer q).linkTimer = s.linkTimer := rfl
@[simp] theorem setBuffer_silent (s : State) (q : List Frame) : (s.setBuffer q).silent = s.silent := rfl
@[simp] theorem setBuffer_attention (s : State) (q : List Frame) : (s.setBuffer q).attention = s.attention := rfl
@[simp] theorem setBuffer_supplyLow (s : State) (q : List Frame) : (s.setBuffer q).supplyLow = s.supplyLow := rfl
@[simp] theorem setBuffer_powerQueue (s : State) (q : List Frame) : (s.setBuffer q).powerQueue = s.powerQueue := rfl
@[simp] theorem setBuffer_releasing (s : State) (q : List Frame) : (s.setBuffer q).releasing = s.releasing := rfl
@[simp] theorem setBuffer_pay (s : State) (q : List Frame) : (s.setBuffer q).pay = s.pay := rfl
@[simp] theorem setBuffer_receiveBuffer (s : State) (q : List Frame) : (s.setBuffer q).receiveBuffer = q := rfl

theorem setBuffer_self (s : State) (q : List Frame) (h : s.receiveBuffer = q) : s.setBuffer q = s := by
  subst h
  rfl

@[simp] theorem setBuffer_setBuffer (s : State) (p q : List Frame) : (s.setBuffer p).setBuffer q = s.setBuffer q := rfl

@[simp] theorem putAnswer_pending (s : State) (n : Nat) (f : Frame) : (s.putAnswer n f).pending = s.pending := rfl
@[simp] theorem putAnswer_power (s : State) (n : Nat) (f : Frame) : (s.putAnswer n f).power = s.power := rfl
@[simp] theorem putAnswer_freeCount (s : State) (n : Nat) (f : Frame) : (s.putAnswer n f).freeCount = s.freeCount := rfl
@[simp] theorem putAnswer_calEn (s : State) (n : Nat) (f : Frame) : (s.putAnswer n f).calEn = s.calEn := rfl
@[simp] theorem putAnswer_supplyBelow (s : State) (n : Nat) (f : Frame) : (s.putAnswer n f).supplyBelow = s.supplyBelow := rfl
@[simp] theorem putAnswer_rateStrap (s : State) (n : Nat) (f : Frame) : (s.putAnswer n f).rateStrap = s.rateStrap := rfl
@[simp] theorem putAnswer_lanesStrap (s : State) (n : Nat) (f : Frame) : (s.putAnswer n f).lanesStrap = s.lanesStrap := rfl
@[simp] theorem putAnswer_resetCause (s : State) (n : Nat) (f : Frame) : (s.putAnswer n f).resetCause = s.resetCause := rfl
@[simp] theorem putAnswer_selfCheck (s : State) (n : Nat) (f : Frame) : (s.putAnswer n f).selfCheck = s.selfCheck := rfl
@[simp] theorem putAnswer_hello (s : State) (n : Nat) (f : Frame) : (s.putAnswer n f).hello = s.hello := rfl
@[simp] theorem putAnswer_lanes (s : State) (n : Nat) (f : Frame) : (s.putAnswer n f).lanes = s.lanes := rfl
@[simp] theorem putAnswer_items (s : State) (n : Nat) (f : Frame) : (s.putAnswer n f).items = s.items := rfl
@[simp] theorem putAnswer_ranges (s : State) (n : Nat) (f : Frame) : (s.putAnswer n f).ranges = s.ranges := rfl
@[simp] theorem putAnswer_glyphs (s : State) (n : Nat) (f : Frame) : (s.putAnswer n f).glyphs = s.glyphs := rfl
@[simp] theorem putAnswer_settings (s : State) (n : Nat) (f : Frame) : (s.putAnswer n f).settings = s.settings := rfl
@[simp] theorem putAnswer_date (s : State) (n : Nat) (f : Frame) : (s.putAnswer n f).date = s.date := rfl
@[simp] theorem putAnswer_store (s : State) (n : Nat) (f : Frame) : (s.putAnswer n f).store = s.store := rfl
@[simp] theorem putAnswer_calWrite (s : State) (n : Nat) (f : Frame) : (s.putAnswer n f).calWrite = s.calWrite := rfl
@[simp] theorem putAnswer_receiver (s : State) (n : Nat) (f : Frame) : (s.putAnswer n f).receiver = s.receiver := rfl
@[simp] theorem putAnswer_receiveBuffer (s : State) (n : Nat) (f : Frame) : (s.putAnswer n f).receiveBuffer = s.receiveBuffer := rfl
@[simp] theorem putAnswer_restart (s : State) (n : Nat) (f : Frame) : (s.putAnswer n f).restart = s.restart := rfl
@[simp] theorem putAnswer_linkTimer (s : State) (n : Nat) (f : Frame) : (s.putAnswer n f).linkTimer = s.linkTimer := rfl
@[simp] theorem putAnswer_silent (s : State) (n : Nat) (f : Frame) : (s.putAnswer n f).silent = s.silent := rfl
@[simp] theorem putAnswer_attention (s : State) (n : Nat) (f : Frame) : (s.putAnswer n f).attention = s.attention := rfl
@[simp] theorem putAnswer_supplyLow (s : State) (n : Nat) (f : Frame) : (s.putAnswer n f).supplyLow = s.supplyLow := rfl
@[simp] theorem putAnswer_powerQueue (s : State) (n : Nat) (f : Frame) : (s.putAnswer n f).powerQueue = s.powerQueue := rfl
@[simp] theorem putAnswer_releasing (s : State) (n : Nat) (f : Frame) : (s.putAnswer n f).releasing = s.releasing := rfl
@[simp] theorem putAnswer_pay (s : State) (n : Nat) (f : Frame) : (s.putAnswer n f).pay = s.pay := rfl
@[simp] theorem putAnswer_upstream (s : State) (n : Nat) (f : Frame) :
    (s.putAnswer n f).upstream = insertAt n f s.upstream := rfl

@[simp] theorem putAnswer_reserved (s : State) (n : Nat) (f : Frame) : (s.putAnswer n f).reserved = s.reserved - 1 := rfl

@[simp] theorem lane_putAnswer (s : State) (l : LaneId) (n : Nat) (f : Frame) : (s.putAnswer n f).lane l = s.lane l := rfl

end Machine

end Sys2Proof
end

