-- ==== Sys2Proof/Laws/Offers.lean ====
section
/-! SUPPORT. What each shared operation can do, said once: conditions, offers, display checks, octets. -/

namespace Sys2Proof.Machine

/-! ## Octets -/

@[simp] theorem be_length (w n : Nat) : (be w n).length = w := by
  induction w generalizing n with
  | zero => rfl
  | succ w ih => simp [be, ih]

@[simp] theorem beInt_length (w : Nat) (i : Int) : (beInt w i).length = w := be_length _ _

theorem unbe_append (l : List Byte) (b : Byte) : unbe (l ++ [b]) = unbe l * 256 + b.toNat := by
  simp [unbe, List.foldl_append]

/-- Octets written high first spell the number they were written from (R182). -/
theorem unbe_be (w n : Nat) : unbe (be w n) = n % 256 ^ w := by
  induction w generalizing n with
  | zero => simp [be, unbe, Nat.mod_one]
  | succ w ih =>
    simp only [be, unbe_append, ih, octet, BitVec.toNat_ofNat]
    rw [show 256 ^ (w + 1) = 256 * 256 ^ w by rw [Nat.pow_succ, Nat.mul_comm], Nat.mod_mul]
    omega

/-- A number that fits its field survives its octets (R182). -/
theorem unbe_be_of_lt (w n : Nat) (h : n < 256 ^ w) : unbe (be w n) = n := by
  rw [unbe_be, Nat.mod_eq_of_lt h]

@[simp] theorem laneOf_laneAddr (l : LaneId) : laneOf (laneAddr l) = some l := by
  match l with
  | 0 => rfl
  | 1 => rfl
  | 2 => rfl
  | 3 => rfl

theorem laneAddr_ne_part (l : LaneId) : laneAddr l ≠ 15 := by
  match l with
  | 0 => decide
  | 1 => decide
  | 2 => decide
  | 3 => decide

/-! ## Raising a condition (R161) -/

/-- Everything raising a lane condition can do. -/
theorem raiseLane_cases (s : State) (l : LaneId) (c : LaneCond) :
    s.raiseLane l c = s ∨ ∃ a, s.raiseLane l c = s.setAttention l a ∨
      ∃ f, s.upstream.length + s.reserved < 64 ∧ s.raiseLane l c = (s.setAttention l a).enqueue f := by
  unfold State.raiseLane
  dsimp only
  split
  · exact .inl rfl
  · split
    · exact .inr ⟨_, .inl rfl⟩
    · split
      · rename_i h
        exact .inr ⟨_, .inr ⟨_, by simp only [State.freeRecords] at h; omega, rfl⟩⟩
      · exact .inr ⟨_, .inl rfl⟩

/-- Everything raising a part condition can do. -/
theorem raisePart_cases (s : State) (c : PartCond) :
    s.raisePart c = s ∨ ∃ a, s.raisePart c = { s with attention := a } ∨
      ∃ f, s.upstream.length + s.reserved < 64 ∧ s.raisePart c = State.enqueue { s with attention := a } f := by
  unfold State.raisePart
  dsimp only
  split
  · exact .inl rfl
  · split
    · exact .inr ⟨_, .inl rfl⟩
    · split
      · rename_i h
        exact .inr ⟨_, .inr ⟨_, by simp only [State.freeRecords] at h; omega, rfl⟩⟩
      · exact .inr ⟨_, .inl rfl⟩

/-- A condition already set stays (R161). -/
theorem raiseLane_set (s : State) (l : LaneId) (c : LaneCond) (h : hasCond (s.lane l).attention.set c.bit = true) :
    s.raiseLane l c = s := by
  simp [State.raiseLane, h]

/-- A clear, unmasked condition with a free record becomes set and is notified (R161). -/
theorem raiseLane_notified (s : State) (l : LaneId) (c : LaneCond) (h : hasCond (s.lane l).attention.set c.bit = false)
    (hm : hasCond (s.lane l).attention.mask c.bit = false) (hr : s.upstream.length + s.reserved < 64) :
    s.raiseLane l c =
      (s.setAttention l ⟨addCond (s.lane l).attention.set c.bit, (s.lane l).attention.mask⟩).enqueue
        ⟨laneAddr l, kindAttention, 0, attentionPayload (laneAddr l) (octet c.bit)
          (addCond (s.lane l).attention.set c.bit) (s.lane l).attention.mask⟩ := by
  have hf : 1 ≤ s.freeRecords := by simp only [State.freeRecords]; omega
  simp [State.raiseLane, h, hm, hf]

/-- A clear, masked condition becomes set without a notice (R161). -/
theorem raiseLane_masked (s : State) (l : LaneId) (c : LaneCond) (h : hasCond (s.lane l).attention.set c.bit = false)
    (hm : hasCond (s.lane l).attention.mask c.bit = true) :
    s.raiseLane l c = s.setAttention l ⟨addCond (s.lane l).attention.set c.bit, (s.lane l).attention.mask⟩ := by
  simp [State.raiseLane, h, hm]

/-- A clear, unmasked part condition with a free record becomes set and is notified (R161). -/
theorem raisePart_notified (s : State) (c : PartCond) (h : hasCond s.attention.set c.bit = false)
    (hm : hasCond s.attention.mask c.bit = false) (hr : s.upstream.length + s.reserved < 64) :
    s.raisePart c = State.enqueue { s with attention := ⟨addCond s.attention.set c.bit, s.attention.mask⟩ }
      ⟨partAddr, kindAttention, 0, attentionPayload partAddr (octet c.bit) (addCond s.attention.set c.bit) s.attention.mask⟩ := by
  have hf : 1 ≤ s.freeRecords := by simp only [State.freeRecords]; omega
  simp [State.raisePart, h, hm, hf]

/-! ## Offers (R171) -/

/-- An event notice about a lane takes a record when one is free. -/
theorem offerLane_room (s : State) (l : LaneId) (k : Byte) (p : List Byte) (h : s.upstream.length + s.reserved < 64) :
    s.offerLane l k p = s.enqueue ⟨laneAddr l, k, 0, p⟩ := by
  have hf : 1 ≤ s.freeRecords := by simp only [State.freeRecords]; omega
  simp [State.offerLane, hf]

/-- An event notice about a lane that finds no record raises NOTICE_WITHHELD. -/
theorem offerLane_full (s : State) (l : LaneId) (k : Byte) (p : List Byte) (h : 64 ≤ s.upstream.length + s.reserved) :
    s.offerLane l k p = s.raiseLane l .noticeWithheld := by
  have hf : ¬ 1 ≤ s.freeRecords := by simp only [State.freeRecords]; omega
  simp [State.offerLane, hf]

/-- An event notice about the part takes a record when one is free. -/
theorem offerPart_room (s : State) (k : Byte) (p : List Byte) (h : s.upstream.length + s.reserved < 64) :
    s.offerPart k p = s.enqueue ⟨partAddr, k, 0, p⟩ := by
  have hf : 1 ≤ s.freeRecords := by simp only [State.freeRecords]; omega
  simp [State.offerPart, hf]

/-- A replaced display notice leaves the queue's length. -/
theorem replaceDisplay_length (l : LaneId) (c : Chan) (f : Frame) :
    ∀ (q q' : List Frame), replaceDisplay l c f q = some q' → q'.length = q.length := by
  intro q
  induction q with
  | nil => intro q' h; simp [replaceDisplay] at h
  | cons x xs ih =>
    intro q' h
    unfold replaceDisplay at h
    split at h
    · simp only [Option.some.injEq] at h
      subst h
      rfl
    · cases hx : replaceDisplay l c f xs with
      | none => simp [hx] at h
      | some y =>
        simp only [hx, Option.map_some, Option.some.injEq] at h
        subst h
        simp [ih y hx]

/-- Everything offering a display notice can do: nothing, or a new queue that grows by at most one, within 64 records. -/
theorem offerDisplay_cases (s : State) (l : LaneId) (c : Chan) (d : Display) :
    ∃ q, (s.offerDisplay l c d).2 = { s with upstream := q } ∧
      (q.length = s.upstream.length ∨ (q.length = s.upstream.length + 1 ∧ s.upstream.length + s.reserved < 64)) := by
  have room : 16 ≤ s.freeRecords → s.upstream.length + s.reserved < 64 := by
    intro h; simp only [State.freeRecords] at h; omega
  unfold State.offerDisplay
  dsimp only
  split
  · split
    · rename_i h1 h2
      exact ⟨_, rfl, .inr ⟨by simp, room h2⟩⟩
    · exact ⟨s.upstream, rfl, .inl rfl⟩
  · rename_i h t hq
    split
    · rename_i t' ht
      refine ⟨_, rfl, .inl ?_⟩
      simp [hq, replaceDisplay_length _ _ _ _ _ ht]
    · split
      · rename_i h2
        exact ⟨_, rfl, .inr ⟨by simp, room h2⟩⟩
      · exact ⟨s.upstream, rfl, .inl rfl⟩

/-- A display check with the display timer running does nothing (R25). -/
theorem displayCheck_running (s : State) (l : LaneId) (c : Chan) (h : (s.chan l c).displayTimer.isSome = true) :
    s.displayCheck l c = s := by
  simp [State.displayCheck, h]

/-- A display check whose content is the display record's does nothing (R25). -/
theorem displayCheck_same (s : State) (l : LaneId) (c : Chan) (h : (s.chan l c).display = some (s.chan l c).shown) :
    s.displayCheck l c = s := by
  simp [State.displayCheck, h]

end Sys2Proof.Machine
end

