-- ==== Sys2Proof/Laws/DeviceFrames.lean ====
section
/-! SUPPORT. What the receivers of the payment link and of a printer port make of a frame, said once (R104, R148). -/

namespace Sys2Proof.Machine

/-- A RESULT as the terminal lays it out is read back field by field (R194). -/
@[simp] theorem readResult_resultOnLine (addr tag outcome : Byte) (amount : BitVec 32) (approval : BitVec 48) :
    readResult (resultOnLine addr tag outcome amount approval) = some (resultFrame addr tag outcome amount approval) := by
  have ha : unbe (be 4 amount.toNat) = amount.toNat := unbe_be_of_lt 4 _ amount.isLt
  have hc : unbe (be 6 approval.toNat) = approval.toNat := unbe_be_of_lt 6 _ approval.isLt
  have h4 : (be 4 amount.toNat ++ be 6 approval.toNat).take 4 = be 4 amount.toNat :=
    List.take_left' (be_length _ _)
  have h6 : (be 4 amount.toNat ++ be 6 approval.toNat).drop 4 = be 6 approval.toNat :=
    List.drop_left' (be_length _ _)
  simp [readResult, resultOnLine, resultLength, octetAt, fieldAt, h4, h6, ha, List.take_of_length_le]
  rw [hc, BitVec.ofNat_toNat, BitVec.setWidth_eq]

/-- A RESULT reaches the hand-off or the stray (R108). -/
@[simp] theorem paymentArrive_result (s : State) (addr tag outcome : Byte) (amount : BitVec 32) (approval : BitVec 48) :
    s.paymentArrive (resultOnLine addr tag outcome amount approval) =
      s.takeResult (resultFrame addr tag outcome amount approval) := by
  simp [State.paymentArrive]

/-- Every cause of a discard on the payment link discards (R104). -/
theorem paymentBroken_wellFormed (s : State) (cause : PaymentDiscard) (h : wellFormedPaymentDiscard cause = true) :
    s.paymentBroken cause = s.paymentDiscarded := by
  cases cause with
  | gap => rfl
  | length => rfl
  | check => rfl
  | kind f => simp_all [State.paymentBroken, State.paymentArrive, readResult, wellFormedPaymentDiscard]
  | payloadLength f => simp_all [State.paymentBroken, State.paymentArrive, readResult, wellFormedPaymentDiscard]

@[simp] theorem printerArrive_lineDone (s : State) (l : LaneId) (tag : Byte) :
    s.printerArrive l ⟨0, kindLineDone, tag, []⟩ = s.lineDone l tag := rfl

@[simp] theorem printerArrive_lineFailed (s : State) (l : LaneId) (tag : Byte) :
    s.printerArrive l ⟨0, kindLineFailed, tag, []⟩ = s.lineFailed l tag := rfl

@[simp] theorem printerArrive_status (s : State) (l : LaneId) (report : PrinterReport) :
    s.printerArrive l (statusOnLine report) = s.printerStatus l report := by
  cases report <;> rfl

/-- Every cause of a discard at a printer port discards (R148). -/
theorem printerBroken_wellFormed (s : State) (l : LaneId) (cause : PrinterDiscard)
    (h : wellFormedPrinterDiscard cause = true) : s.printerBroken l cause = s.printerDiscarded l := by
  cases cause with
  | gap => rfl
  | length => rfl
  | check => rfl
  | address f => simp_all [State.printerBroken, State.printerArrive, readPrinter, wellFormedPrinterDiscard]
  | kind f => simp_all [State.printerBroken, State.printerArrive, readPrinter, wellFormedPrinterDiscard]
  | payloadLength f => simp_all [State.printerBroken, State.printerArrive, readPrinter, wellFormedPrinterDiscard]
  | statusValue f =>
    obtain ⟨addr, kind, tag, payload⟩ := f
    match payload with
    | [] => simp [wellFormedPrinterDiscard] at h
    | [b] =>
      simp [wellFormedPrinterDiscard] at h
      obtain ⟨⟨rfl, rfl⟩, hb⟩ := h
      simp [State.printerBroken, State.printerArrive, readPrinter, printerLength, kindPrinterStatus, kindLineDone,
        kindLineFailed, octetAt, hb]
    | _ :: _ :: _ => simp [wellFormedPrinterDiscard] at h

end Sys2Proof.Machine
end

