-- ==== Sys2Proof/Laws/PerInstr.lean ====
section
/-! SUPPORT. Statements made of every command of the table, one lemma per constructor. -/

namespace Sys2Proof.Laws.requestSize

open Machine

/-- The frame of a well-formed command fits a trunk frame: at most 240 payload octets (R169, R184). -/
def Statement (i : Instr) : Prop := i.wellFormed = true → ∀ f, encodeRequest i = some f → f.payload.length ≤ 240

/-- A request frame with a payload of at most 240 octets. -/
theorem small {a t : Byte} {k : ReqKind} {p : List Byte} (h : p.length ≤ 240) (f : Frame)
    (e : some (requestFrame a k t p) = some f) : f.payload.length ≤ 240 := by
  cases e; exact h

@[simp] theorem be_length (w n : Nat) : (be w n).length = w := by
  induction w generalizing n with
  | zero => rfl
  | succ w ih => simp [be, ih]

theorem rawItem_length (r : RawItem) : (rawItemOctets r).length = 25 := by simp [rawItemOctets]
theorem rawRange_length (r : RawRange) : (rawRangeOctets r).length = 12 := by simp [rawRangeOctets]
theorem rawCal_length (r : RawCal) : (rawCalOctets r).length = 22 := by simp [rawCalOctets]
theorem rawLaneSettings_length (r : RawLaneSettings) : (rawLaneSettingsOctets r).length = 15 := by
  simp [rawLaneSettingsOctets]
theorem rawSettings_length (r : RawSettings) : (rawSettingsOctets r).length = 64 := by
  simp [rawSettingsOctets, rawLaneSettings_length]

theorem flatten_length {α : Type} (g : α → List Byte) (w : Nat) (h : ∀ x, (g x).length = w) (l : List α) :
    (l.map g).flatten.length = l.length * w := by
  induction l with
  | nil => simp
  | cons x l ih => simp [ih, h, Nat.succ_mul, Nat.add_comm]

theorem printData_size {addr tag job : Byte} {octets : List Byte}
    (h : (Instr.printData addr tag job octets).wellFormed = true) : octets.length ≤ 236 := by
  simp [Instr.wellFormed, wellFormedPrintData] at h; omega
theorem itemPut_size {tag : Byte} {records : List RawItem} (h : (Instr.itemPut tag records).wellFormed = true) :
    records.length ≤ 6 := by
  simp [Instr.wellFormed, wellFormedItemPut] at h; omega
theorem binPut_size {tag : Byte} {records : List RawRange} (h : (Instr.binPut tag records).wellFormed = true) :
    records.length ≤ 4 := by
  simp [Instr.wellFormed, wellFormedBinPut] at h; omega
theorem glyphPut_size {tag code : Byte} {pattern : List Byte}
    (h : (Instr.glyphPut tag code pattern).wellFormed = true) : pattern.length = 72 := by
  simpa [Instr.wellFormed, wellFormedPattern] using h
theorem unknownKind_size {frame : Frame} (h : (Instr.unknownKind frame).wellFormed = true) :
    frame.payload.length ≤ 240 := by
  simp [Instr.wellFormed, wellFormedFrame] at h; exact h.1
theorem goodFrame_size {frame : Frame} {calEn : Bool} (h : (Instr.goodFrame frame calEn).wellFormed = true) :
    frame.payload.length ≤ 240 := by
  simpa [Instr.wellFormed, wellFormedFrame] using h

theorem item (addr tag : Byte) (code : BitVec 48) (quantity : Byte) (price : BitVec 32) (skip : Byte) : Statement (.item addr tag code quantity price skip) :=
  fun _ => small (by simp)
theorem void (addr tag position : Byte) : Statement (.void addr tag position) := fun _ => small (by simp)
theorem cancelWeigh (addr tag : Byte) : Statement (.cancelWeigh addr tag) := fun _ => small (by simp)
theorem tender (addr tag kind : Byte) (amount : BitVec 32) : Statement (.tender addr tag kind amount) :=
  fun _ => small (by simp)
theorem newBasket (addr tag : Byte) : Statement (.newBasket addr tag) := fun _ => small (by simp)
theorem abandonBasket (addr tag : Byte) : Statement (.abandonBasket addr tag) := fun _ => small (by simp)
theorem basketRead (addr tag start : Byte) : Statement (.basketRead addr tag start) := fun _ => small (by simp)
theorem laneMode (addr tag target : Byte) : Statement (.laneMode addr tag target) := fun _ => small (by simp)
theorem channelStart (addr tag channel : Byte) : Statement (.channelStart addr tag channel) :=
  fun _ => small (by simp)
theorem channelStop (addr tag channel : Byte) : Statement (.channelStop addr tag channel) := fun _ => small (by simp)
theorem channelSetup (addr tag channel filterLength stabilityLength : Byte) : Statement (.channelSetup addr tag channel filterLength stabilityLength) :=
  fun _ => small (by simp)
theorem zero (addr tag channel : Byte) : Statement (.zero addr tag channel) := fun _ => small (by simp)
theorem tareWeighed (addr tag channel : Byte) (value : BitVec 32) : Statement (.tareWeighed addr tag channel value) :=
  fun _ => small (by simp)
theorem tarePreset (addr tag channel form : Byte) (value : BitVec 32) : Statement (.tarePreset addr tag channel form value) :=
  fun _ => small (by simp)
theorem clearTare (addr tag channel : Byte) : Statement (.clearTare addr tag channel) := fun _ => small (by simp)
theorem bagOverride (addr tag : Byte) : Statement (.bagOverride addr tag) := fun _ => small (by simp)
theorem cancelCard (addr tag : Byte) : Statement (.cancelCard addr tag) := fun _ => small (by simp)
theorem drawerOpen (addr tag : Byte) : Statement (.drawerOpen addr tag) := fun _ => small (by simp)
theorem drawerClear (addr tag : Byte) : Statement (.drawerClear addr tag) := fun _ => small (by simp)
theorem printBegin (addr tag : Byte) : Statement (.printBegin addr tag) := fun _ => small (by simp)
theorem printData (addr tag job : Byte) (octets : List Byte) : Statement (.printData addr tag job octets) :=
  fun h => small (by have := printData_size h; simp only [List.length_cons]; omega)
theorem printEnd (addr tag job : Byte) : Statement (.printEnd addr tag job) := fun _ => small (by simp)
theorem printCancel (addr tag job : Byte) : Statement (.printCancel addr tag job) := fun _ => small (by simp)
theorem laneStatus (addr tag part : Byte) : Statement (.laneStatus addr tag part) := fun _ => small (by simp)
theorem laneReset (addr tag : Byte) : Statement (.laneReset addr tag) := fun _ => small (by simp)
theorem staffGrant (addr tag : Byte) (number : BitVec 32) : Statement (.staffGrant addr tag number) :=
  fun _ => small (by simp)
theorem staffWithdraw (addr tag : Byte) : Statement (.staffWithdraw addr tag) := fun _ => small (by simp)
theorem clearAttention (addr tag : Byte) (set : BitVec 16) : Statement (.clearAttention addr tag set) :=
  fun _ => small (by simp)
theorem attentionMask (addr tag : Byte) (set : BitVec 16) : Statement (.attentionMask addr tag set) :=
  fun _ => small (by simp)
theorem hello (tag : Byte) : Statement (.hello tag) := fun _ => small (by simp)
theorem partStatus (tag : Byte) : Statement (.partStatus tag) := fun _ => small (by simp)
theorem settingsWrite (tag : Byte) (record : RawSettings) : Statement (.settingsWrite tag record) :=
  fun _ => small (by rw [rawSettings_length]; omega)
theorem settingsRead (tag : Byte) : Statement (.settingsRead tag) := fun _ => small (by simp)
theorem setDate (tag year month day : Byte) : Statement (.setDate tag year month day) := fun _ => small (by simp)
theorem restart (tag : Byte) : Statement (.restart tag) := fun _ => small (by simp)
theorem itemPut (tag : Byte) (records : List RawItem) : Statement (.itemPut tag records) :=
  fun h => small (by have := itemPut_size h; rw [flatten_length rawItemOctets 25 rawItem_length]; omega)
theorem itemRemove (tag : Byte) (code : BitVec 48) : Statement (.itemRemove tag code) := fun _ => small (by simp)
theorem itemClear (tag : Byte) : Statement (.itemClear tag) := fun _ => small (by simp)
theorem itemGet (tag : Byte) (code : BitVec 48) : Statement (.itemGet tag code) := fun _ => small (by simp)
theorem binPut (tag : Byte) (records : List RawRange) : Statement (.binPut tag records) :=
  fun h => small (by have := binPut_size h; rw [flatten_length rawRangeOctets 12 rawRange_length]; omega)
theorem binRemove (tag : Byte) (low : BitVec 32) : Statement (.binRemove tag low) := fun _ => small (by simp)
theorem binClear (tag : Byte) : Statement (.binClear tag) := fun _ => small (by simp)
theorem binRead (tag : Byte) (start : BitVec 32) : Statement (.binRead tag start) := fun _ => small (by simp)
theorem glyphPut (tag code : Byte) (pattern : List Byte) : Statement (.glyphPut tag code pattern) :=
  fun h => small (by have := glyphPut_size h; simp only [List.length_cons]; omega)
theorem glyphClear (tag code : Byte) : Statement (.glyphClear tag code) := fun _ => small (by simp)
theorem calWrite (tag lane channel : Byte) (record : RawCal) (calEn : Bool) : Statement (.calWrite tag lane channel record calEn) :=
  fun _ => small (by simp [rawCal_length])
theorem calRead (tag lane channel : Byte) : Statement (.calRead tag lane channel) := fun _ => small (by simp)
theorem unknownKind (frame : Frame) : Statement (.unknownKind frame) :=
  fun h f e => by cases e; exact unknownKind_size h
theorem calWriteComplete : Statement .calWriteComplete := fun _ _ h => by cases h
theorem goodFrame (frame : Frame) (calEn : Bool) : Statement (.goodFrame frame calEn) :=
  fun h f e => by cases e; exact goodFrame_size h
theorem frameError (cause : TrunkDiscard) : Statement (.frameError cause) := fun _ _ h => by cases h
theorem upstreamFrameSent (calEn : Bool) : Statement (.upstreamFrameSent calEn) := fun _ _ h => by cases h
theorem restartReset (selfCheck : SelfCheck) : Statement (.restartReset selfCheck) := fun _ _ h => by cases h
theorem linkSilenceExpiry : Statement .linkSilenceExpiry := fun _ _ h => by cases h
theorem powerOn (inputs : StartInputs) : Statement (.powerOn inputs) := fun _ _ h => by cases h
theorem brownOut : Statement .brownOut := fun _ _ h => by cases h
theorem supplyLowSet : Statement .supplyLowSet := fun _ _ h => by cases h
theorem supplyLowClear : Statement .supplyLowClear := fun _ _ h => by cases h
theorem sampleArrival (lane : LaneId) (channel : Chan) (raw : BitVec 20) : Statement (.sampleArrival lane channel raw) :=
  fun _ _ h => by cases h
theorem channelSilenceExpiry (lane : LaneId) (channel : Chan) : Statement (.channelSilenceExpiry lane channel) :=
  fun _ _ h => by cases h
theorem initialZeroExpiry (lane : LaneId) (channel : Chan) : Statement (.initialZeroExpiry lane channel) :=
  fun _ _ h => by cases h
theorem displayTimerExpiry (lane : LaneId) (channel : Chan) : Statement (.displayTimerExpiry lane channel) :=
  fun _ _ h => by cases h
theorem weighTimerExpiry (lane : LaneId) : Statement (.weighTimerExpiry lane) := fun _ _ h => by cases h
theorem placementTimerExpiry (lane : LaneId) : Statement (.placementTimerExpiry lane) := fun _ _ h => by cases h
theorem removalTimerExpiry (lane : LaneId) : Statement (.removalTimerExpiry lane) := fun _ _ h => by cases h
theorem readerCharacter (lane : LaneId) (value : BitVec 4) (parity : Bool) : Statement (.readerCharacter lane value parity) :=
  fun _ _ h => by cases h
theorem gapTimerExpiry (lane : LaneId) : Statement (.gapTimerExpiry lane) := fun _ _ h => by cases h
theorem result (addr tag outcome : Byte) (amount : BitVec 32) (approval : BitVec 48) : Statement (.result addr tag outcome amount approval) :=
  fun _ _ h => by cases h
theorem paymentFrameSent : Statement .paymentFrameSent := fun _ _ h => by cases h
theorem responseTimerExpiry : Statement .responseTimerExpiry := fun _ _ h => by cases h
theorem drawerSensorLevel (lane : LaneId) (high : Bool) : Statement (.drawerSensorLevel lane high) :=
  fun _ _ h => by cases h
theorem debounceTimerExpiry (lane : LaneId) : Statement (.debounceTimerExpiry lane) := fun _ _ h => by cases h
theorem pulseTimerExpiry (lane : LaneId) : Statement (.pulseTimerExpiry lane) := fun _ _ h => by cases h
theorem checkTimerExpiry (lane : LaneId) : Statement (.checkTimerExpiry lane) := fun _ _ h => by cases h
theorem leftOpenExpiry (lane : LaneId) : Statement (.leftOpenExpiry lane) := fun _ _ h => by cases h
theorem lineDone (lane : LaneId) (tag : Byte) : Statement (.lineDone lane tag) := fun _ _ h => by cases h
theorem lineFailed (lane : LaneId) (tag : Byte) : Statement (.lineFailed lane tag) := fun _ _ h => by cases h
theorem printerStatus (lane : LaneId) (report : PrinterReport) : Statement (.printerStatus lane report) :=
  fun _ _ h => by cases h
theorem printerSilenceExpiry (lane : LaneId) : Statement (.printerSilenceExpiry lane) := fun _ _ h => by cases h
theorem answerTimerExpiry (lane : LaneId) : Statement (.answerTimerExpiry lane) := fun _ _ h => by cases h
theorem staffHoldExpiry (lane : LaneId) : Statement (.staffHoldExpiry lane) := fun _ _ h => by cases h
theorem supplyAboveBrownOut (inputs : StartInputs) : Statement (.supplyAboveBrownOut inputs) :=
  fun _ _ h => by cases h
theorem paymentFrameDiscarded (cause : PaymentDiscard) : Statement (.paymentFrameDiscarded cause) :=
  fun _ _ h => by cases h
theorem printerFrameDiscarded (lane : LaneId) (cause : PrinterDiscard) : Statement (.printerFrameDiscarded lane cause) :=
  fun _ _ h => by cases h

end Sys2Proof.Laws.requestSize
end

