-- ==== Sys2Proof/Laws/Trunk.lean ====
section
/-! SUPPORT. How a request reaches its owner at once, and what its answer leaves (R169, R170). -/

namespace Sys2Proof.Machine

@[simp] theorem onPart_running (s : State) (g : State → State) (h : s.power = .running) : s.onPart g = g s := by
  simp [State.onPart, h]

@[simp] theorem onLane_live (s : State) (l : LaneId) (g : State → State) (h : s.live l = true) : s.onLane l g = g s := by
  simp [State.onLane, h]

@[simp] theorem insertAt_length_self {α : Type} (x : α) (q : List α) : insertAt q.length x q = q ++ [x] := by
  simp [insertAt]

theorem insertAt_append {α : Type} (x : α) (q r : List α) : insertAt q.length x (q ++ r) = q ++ x :: r := by
  simp [insertAt]

/-- Draining an empty receive buffer does nothing. -/
@[simp] theorem drain_nil (n : Nat) (s : State) (h : s.receiveBuffer = []) : State.drain n s = s := by
  cases n <;> simp [State.drain, h]

/-- The oldest waiting frame is dispatched while a record is free and no RESTART has been accepted (R170, R176). -/
theorem drain_cons (n : Nat) (s : State) (f : Frame) (rest : List Frame) (hb : s.receiveBuffer = f :: rest)
    (hr : s.restart = none) (hf : s.upstream.length + s.reserved < 64) :
    State.drain (n + 1) s = State.drain n ((s.setBuffer rest).dispatch f) := by
  have h : s.freeRecords ≠ 0 := by simp only [State.freeRecords]; omega
  simp [State.drain, hb, hr, h]

/-- A frame that arrives at a part that takes requests at once is dispatched (R169, R170). -/
theorem arrive_ready (s : State) (f : Frame) (h : s.Ready) (hp : f.payload.length ≤ 240) :
    s.arrive f = State.drain 3 (s.heardHost.dispatch f) := by
  obtain ⟨-, hbuf, hres, hroom⟩ := h
  have h1 : ¬ maxPayload < f.payload.length := by simp only [maxPayload]; omega
  have hd := drain_cons 3 (s.heardHost.setBuffer (s.heardHost.receiveBuffer ++ [f])) f []
    (by simp [hbuf]) (by simpa using hres) (by simpa using hroom)
  rw [setBuffer_setBuffer, setBuffer_self s.heardHost [] (by simpa using hbuf)] at hd
  simpa [State.arrive, h1, hbuf, bufferSize] using hd

/-- A frame whose reply is an answer at once, at a part that takes requests at once: the owner's state, with the answer
put where the queue ended (R170). -/
theorem arrive_answered (s t : State) (f : Frame) (acc : Bool) (code : Code) (detail : List Byte) (h : s.Ready)
    (hp : f.payload.length ≤ 240) (hr : s.heardHost.reserve.replyTo f = (.answer acc code detail, t))
    (hb : t.receiveBuffer = []) : s.arrive f = t.putAnswer s.upstream.length (answerFrame f acc code detail) := by
  rw [arrive_ready s f h hp, State.dispatch, hr]
  exact drain_nil 3 _ hb

/-- A request command at a part that takes requests at once. -/
theorem request_answered (s t : State) (i : Instr) (f : Frame) (acc : Bool) (code : Code) (detail : List Byte)
    (hi : encodeRequest i = some f) (h : s.Ready) (hp : f.payload.length ≤ 240)
    (hr : s.heardHost.reserve.replyTo f = (.answer acc code detail, t)) (hb : t.receiveBuffer = []) :
    s.request i = t.putAnswer s.upstream.length (answerFrame f acc code detail) := by
  simp only [State.request, hi, onPart_running s _ h.1, arrive_answered s t f acc code detail h hp hr hb]

/-- Dispatch leaves an owner the state `taken` (R169, R170). -/
theorem heardHost_reserve (s : State) : s.heardHost.reserve = s.taken := rfl

/-- A request command at a part that takes requests at once, in the words of the statements: the owner's action on the
state dispatch leaves it, and the answer ahead of the action's notices. -/
theorem request_answers (s : State) (i : Instr) (f : Frame) (acc : Bool) (code : Code) (detail : List Byte)
    (action : State → State) (hi : encodeRequest i = some f) (h : s.Ready) (hp : f.payload.length ≤ 240)
    (hr : s.taken.replyTo f = (.answer acc code detail, action s.taken)) (hb : (action s.taken).receiveBuffer = []) :
    s.request i = s.answers f.addr f.kind f.tag acc code detail action := by
  rw [request_answered s (action s.taken) i f acc code detail hi h hp hr hb]
  cases acc <;> rfl

/-- The reply to a lane request that passes the tests of dispatch (R170). -/
theorem replyTo_lane (s : State) (l : LaneId) (f : Frame) (k : ReqKind) (i : Instr) (ha : f.addr = laneAddr l)
    (he : s.enabled l = true) (hs : s.selfCheck = .pass) (hk : requestKind f.addr f.kind = some k)
    (hl : k.lengthOk f.payload.length = true) (hi : requestOf s.calEn k f = i) : s.replyTo f = take i s := by
  have ha' : s.addressed f.addr = true := by simp [State.addressed, ha, he]
  simp [State.replyTo, State.dispatchTests, ha', hk, hl, State.degraded, hs, hi]

/-- The reply to a part request that passes the tests of dispatch (R170). -/
theorem replyTo_part (s : State) (f : Frame) (k : ReqKind) (i : Instr) (ha : f.addr = 15)
    (hs : s.selfCheck = .pass) (hk : requestKind f.addr f.kind = some k)
    (hl : k.lengthOk f.payload.length = true) (hi : requestOf s.calEn k f = i) : s.replyTo f = take i s := by
  have ha' : s.addressed f.addr = true := by simp [State.addressed, ha, laneOf, partAddr]
  simp [State.replyTo, State.dispatchTests, ha', hk, hl, State.degraded, hs, hi]

end Sys2Proof.Machine
end

