-- ==== Sys2Proof/Tests/Slice0.lean ====
section
/-! SUPPORT. The model's own tests: terms that are no command and are refused as such, the worked examples of the chapters
(each expected value is the spec's own, the CRC test apart), and for every statement that has hypotheses a witness that meets them. -/

open Sys2Proof Sys2Proof.Machine

namespace Sys2Proof.Tests

/-! ## Ill-formed terms, one per check of WellFormed -/

theorem test_lane_kind_to_the_part_is_refused : (Instr.item 15 0 1 1 100 0).wellFormed = false := by decide
theorem test_preset_tare_form_zero_is_refused : (Instr.tarePreset 0 0 0 0 5).wellFormed = false := by decide
theorem test_empty_print_data_is_refused : (Instr.printData 0 0 1 []).wellFormed = false := by decide
theorem test_long_print_data_is_refused : (Instr.printData 0 0 1 (List.replicate 237 65)).wellFormed = false := by
  decide +kernel
theorem test_empty_item_put_is_refused : (Instr.itemPut 0 []).wellFormed = false := by decide
theorem test_seven_item_records_are_refused :
    (Instr.itemPut 0 (List.replicate 7 ⟨1, 0, 0, 0, 0, 0, 0, 0⟩)).wellFormed = false := by decide
theorem test_empty_bin_put_is_refused : (Instr.binPut 0 []).wellFormed = false := by decide
theorem test_five_range_records_are_refused :
    (Instr.binPut 0 (List.replicate 5 ⟨1, 2, 0, 0, 0, 0⟩)).wellFormed = false := by decide
theorem test_short_glyph_pattern_is_refused : (Instr.glyphPut 0 0x80 (List.replicate 71 0)).wellFormed = false := by
  decide +kernel
theorem test_long_frame_is_refused : (Instr.goodFrame ⟨15, 0x60, 0, List.replicate 241 0⟩ false).wellFormed = false := by
  decide +kernel
theorem test_known_kind_is_no_unknown_kind : (Instr.unknownKind ⟨15, 0x60, 0, []⟩).wellFormed = false := by decide
theorem test_long_unknown_frame_is_refused :
    (Instr.unknownKind ⟨15, 0x7F, 0, List.replicate 241 0⟩).wellFormed = false := by decide +kernel

theorem test_result_kind_is_no_kind_discard :
    (Instr.paymentFrameDiscarded (.kind ⟨0, 0xA8, 1, []⟩)).wellFormed = false := by decide
theorem test_eleven_octets_are_no_length_discard :
    (Instr.paymentFrameDiscarded (.payloadLength ⟨0, 0xA8, 1, List.replicate 11 0⟩)).wellFormed = false := by decide
theorem test_address_zero_is_no_address_discard :
    (Instr.printerFrameDiscarded 0 (.address ⟨0, 0xC8, 1, []⟩)).wellFormed = false := by decide
theorem test_printer_kind_is_no_kind_discard :
    (Instr.printerFrameDiscarded 0 (.kind ⟨0, 0xC9, 1, []⟩)).wellFormed = false := by decide
theorem test_one_octet_status_is_no_length_discard :
    (Instr.printerFrameDiscarded 0 (.payloadLength ⟨0, 0xCA, 1, [9]⟩)).wellFormed = false := by decide
theorem test_status_three_is_no_status_discard :
    (Instr.printerFrameDiscarded 0 (.statusValue ⟨0, 0xCA, 1, [3]⟩)).wellFormed = false := by decide

/-! ## Decoding -/

/-- No row of the table has bits, so no word spells a command (log 8). -/
theorem test_no_word_spells_a_command : decodeTableWord 16 0x60 = none := by decide

/-- A TENDER of 500 in cash at lane 3, octet by octet from its layout in R184: kind, then the amount in four octets. -/
theorem test_tender_layout :
    decodeRequest false ⟨3, 0x13, 9, [0, 0, 0, 1, 0xF4]⟩ = .request (.tender 3 9 0 500) := by decide

/-- An ITEM with a unit price, from its layout in R184: six octets of code, quantity, price, skip flag. -/
theorem test_item_layout :
    decodeRequest false ⟨0, 0x10, 7, [0x03, 0xA3, 0x52, 0x94, 0x40, 0x15, 1, 0, 0, 1, 0x5D, 1]⟩ =
      .request (.item 0 7 4000000000021 1 349 1) := by decide

/-- A RESULT octet by octet from R194: APPROVED, 25.47, the approval code in six octets. -/
theorem test_result_layout :
    readResult ⟨2, 0xA8, 7, [1, 0, 0, 0x09, 0xF3, 0x41, 0x42, 0x43, 0x31, 0x32, 0x33]⟩ =
      some ⟨2, 7, 1, 2547, 0x414243313233⟩ := by decide

/-! ## The worked examples -/

/-- The quotient (Max - M1) / d2 of R11 is exact: 10,000.4 is above 10,000. -/
theorem test_calibration_quotient_is_not_truncated :
    Calib.valid ⟨60000000, 2000, 9998000, 5000, 0, 16384⟩ = false ∧
      Calib.valid ⟨59995000, 2000, 9998000, 5000, 0, 16384⟩ = true := by decide

/-- The standard check sequence of the generator and start value of chapter 10 (10, section 10.1). -/
theorem test_crc_of_the_standard_string :
    crc16 [0x31, 0x32, 0x33, 0x34, 0x35, 0x36, 0x37, 0x38, 0x39] = 0x29B1 := by decide +kernel

/-! ## Small states -/

/-- The part after its start-up notices have left. -/
def base : State := { State.reset with upstream := [] }

/-- A part whose upstream queue is full. -/
def full : State := { base with upstream := List.replicate 64 ⟨15, 0x80, 0, []⟩ }

/-- The calibration of the worked example of 02, section 2.7. -/
def cal0 : Calib := ⟨15000000, 2000, 6000000, 5000, 40000, 19660⟩

/-- A part whose lane 0 is changed. -/
def lane0 (g : Lane → Lane) : State := base.modLane 0 g

/-- A part whose lane 0 platter is one channel. -/
def platter0 (x : Channel) : State := lane0 fun n => { n with platter := x }

/-- Channels in each state. -/
def stopped : State := platter0 { Channel.blank with calib := some cal0 }
def starting : State :=
  platter0 { Channel.blank with state := .starting, calib := some cal0, silence := some 250, initialZero := some 10000 }
def runningChannel : Channel :=
  { Channel.blank with
    state := .running, calib := some cal0, zi := some 0, zo := some 0, silence := some 250
    latest := some ⟨0, some 0, true⟩, reading := some ⟨.stable, some 0, 0, .noTare, some 2000, false, true⟩ }
def running : State := platter0 runningChannel
def loaded : State :=
  platter0 { runningChannel with
    latest := some ⟨1103200, some 1103200, true⟩
    reading := some ⟨.stable, some 1104000, 0, .noTare, some 2000, false, false⟩ }
def faultChannel (r : ReturnState) : Channel :=
  { Channel.blank with state := .fault, cause := .sensor, ret := some r, calib := some cal0, zi := some 0, zo := some 0 }
def sensorFault : State := platter0 (faultChannel .starting)
def sensorFaultRunning : State := platter0 (faultChannel .running)

/-- An entry of one minor unit a piece, and one that is awaited in the bagging area. -/
def entryC : Entry :=
  { kind := .counted, code := 3, quantity := 1, unitPrice := 100, linePrice := 100, capture := none, net := none,
    voided := false, bag := .notChecked, expected := none, tolerance := none }
def entryA : Entry := { entryC with bag := .awaiting, expected := some 415000, tolerance := some 10000 }
def entryP : Entry := { entryA with bag := .placed }

/-- The account of the worked example of 05. -/
def account0 : List Nat := [6, 0, 1, 2, 3, 4, 5, 6, 7, 8, 9, 4]
def slotA : Slot :=
  { phase := .waiting, account := account0, masked := ⟨12, [6, 0, 1, 2, 3], [7, 8, 9, 4], 3⟩, year := 29, month := 12,
    service := [1, 0, 1], discretionary := [7], amount := 100, second := false }

/-- Lane 0 with one entry; with a payment swipe waiting for the link; with one in the terminal's hands. -/
def sold : State := lane0 fun n => { n with entries := [entryC] }
def waiting : State := sold.modLane 0 fun n => n.setSlot (some slotA)
def handed : State :=
  { waiting.modLane 0 fun n => n.setSlot (some { slotA with phase := .inFlight }) with
    pay := { PayLink.blank with inFlight := some ⟨0, 1, 100⟩, response := some 60000, pointer := 0, counter := 1 } }

/-- A drawer held open by its solenoid. -/
def releasing : State :=
  { lane0 fun n => { n with till := { Till.blank false with state := .releasing, pulse := some 60 } } with
    releasing := [0] }

/-- An item and a range loaded. -/
def shop : State :=
  { base with
    items := [⟨4000000000021, .weighed, some 349, none, none, none, .check⟩]
    ranges := [⟨60000000, 60999999, .payment, 6, 4, true⟩] }

/-- A capture held by the basket of lane 0. -/
def selling : State :=
  lane0 fun n => { n with log := [⟨3, 1092000, 2000, 12000, .preset, 349, 381, true, 0⟩], nextCapture := 4 }

/-- Lane 0 in self mode: empty; settled with an entry in the bag; awaiting an entry with staff at the lane. -/
def selfWith (b : BagCheck) (es : List Entry) (a : Option Authority) : State :=
  lane0 fun n => { n with mode := .self, bagCheck := b, entries := es, authority := a }
def bagAt (st : BagCheckState) : BagCheck := { BagCheck.blank with state := st, b := some 85000, previousGross := some 85000 }
def bagAwaiting : BagCheck :=
  { bagAt .awaitingPlace with awaiting := some 1, e := some 415000, a := 20000, placement := some 12000 }
def selfEmpty : State := selfWith (bagAt .arming) [] none
def awaitingStaffed : State := selfWith bagAwaiting [entryA] (some ⟨.host, 7, some 60000⟩)

def closedLane : State := lane0 fun n => { n with mode := .closed }
def rawSettings0 : RawSettings :=
  ⟨1, 0, 60, 9, Four.make fun _ => ⟨10, 30, 10000, 12, 20, 60, 1, 60, 30⟩⟩

/-- A job being printed: one line in flight; and its port. -/
def printingJob : Job :=
  { newJob 1 with
    state := .printing, stream := [65, 10], position := 2, current := some (.line [.char 65 Attr.off] 0 none 0)
    lastSent := .line }
def busyPort : Port :=
  { Port.blank with
    state := .ready, silence := some 2000, exchange := some ⟨⟨0, 0xC0, 1, [0, 1, 65, 0]⟩, 1, .job 1⟩
    answer := some 2000, counter := 1 }
def printing : State := lane0 fun n => { n with jobs := [printingJob], jobCounter := 1, port := busyPort }

/-- A job being filled. -/
def filling : State := lane0 fun n => { n with jobs := [newJob 1], jobCounter := 1 }

/-- The state a command leaves. -/
def after (c : Instr) (s : State) : State :=
  match exec c s with
  | .next t => t
  | _ => s

/-- Chapter 1, worked sequence: the averages 40,069, 41,012 and 98,000. -/
theorem test_calibrated_weights :
    calibrated cal0 40069 = 1325 ∧ calibrated cal0 41012 = 19430 ∧ calibrated cal0 98000 = 1113555 := by decide

/-- Chapter 1, worked sequence: the container tared off, and the produce in it. -/
theorem test_tared_readings :
    formReading cal0 41012 18067 18000 .weighed true = ⟨.stable, some 0, 18000, .weighed, some 2000, true, false⟩ ∧
    formReading cal0 98000 1112192 18000 .weighed true = ⟨.stable, some 1094000, 18000, .weighed, some 2000, true, false⟩ := by
  decide +kernel

/-- Chapter 2, section 2.7: the pricing case, and the same load with an item tare of 25,000 mg. -/
theorem test_pricing_cases :
    calibrated cal0 97531 = 1104550 ∧
    captureTare cal0 (formReading cal0 97531 1103200 12000 .preset true) 1103200 none =
      some ⟨12000, .preset, 1092000, 2000⟩ ∧
    weighedPrice 1092000 349 = 381 ∧
    captureTare cal0 (formReading cal0 67000 546300 0 .noTare true) 546300 (some 25000) =
      some ⟨26000, .item, 520000, 2000⟩ ∧
    weighedPrice 520000 1299 = 675 := by decide

/-- Chapter 2, section 2.7: the interval is chosen by the unrounded net. -/
theorem test_interval_by_unrounded_net :
    roundTo 5999000 (divisionFor cal0 5999000) = 6000000 ∧ divisionFor cal0 6000000 = 2000 := by decide

/-- Chapter 3, section 3.8: 500 in cash against a total of 1,386 leaves a due of 886 and a token. -/
theorem test_tender_of_the_worked_basket :
    let s := lane0 fun n => { n with
      entries := [{ entryC with linePrice := 258 }, { entryC with linePrice := 95, voided := true },
        { entryC with linePrice := 381 }, { entryC with linePrice := 747 }] }
    let t := after (.tender 0 1 0 500) s
    (t.lane 0).due = 886 ∧ (t.lane 0).token = true ∧ (t.lane 0).basketState = .tendering := by decide

/-- Chapter 3, section 3.8: two rolls at 129 are one entry of 258. -/
theorem test_item_of_the_worked_basket :
    ((after (.item 0 1 4000000000038 2 129 0) base).lane 0).entries.map (·.linePrice) = [258] := by decide

/-- Chapter 5, section 5.8: the stripe of the payment swipe is parsed, its check digit passes, and its mask hides three. -/
theorem test_the_worked_swipe :
    parseSwipe [11, 6, 0, 1, 2, 3, 4, 5, 6, 7, 8, 9, 4, 13, 2, 8, 1, 2, 2, 0, 1, 15] =
      some ⟨account0, 28, 12, [2, 0, 1], []⟩ ∧
    longitudinal [11, 6, 0, 1, 2, 3, 4, 5, 6, 7, 8, 9, 4, 13, 2, 8, 1, 2, 2, 0, 1, 15] = 0 ∧
    prefixOf account0 = 60123456 ∧ checkSum false account0.reverse = 50 ∧
    maskAccount account0 ⟨60000000, 60999999, .payment, 6, 4, true⟩ = ⟨12, [6, 0, 1, 2, 3], [7, 8, 9, 4], 3⟩ := by decide

/-- Chapter 6, section 6.6, row 8: the expiry ends lane 0's hand-off and the waiting lane 1 is granted number 4. -/
theorem test_expiry_grants_the_next_lane :
    let s := handed.modLane 1 fun n => { n with entries := [entryC], card := { n.card with slot := some slotA } }
    let t := after .responseTimerExpiry { s with pay := { s.pay with inFlight := some ⟨0, 3, 100⟩, counter := 3 } }
    (t.lane 0).card.slot = none ∧ t.pay.inFlight = some ⟨1, 4, 100⟩ ∧ t.pay.pointer = 1 ∧
      t.pay.transmit.map (fun f => (f.addr, f.kind, f.tag)) = [(0, 0xA1, 3), (1, 0xA0, 4)] := by decide

/-- Four drawers as chapter 7, section 7.9, has them just before row 60. -/
def drawers : State :=
  let till (st : DrawerState) : Till := { Till.blank false with state := st, pulse := if st = .releasing then some 60 else none }
  let s := ((base.setTill 0 (till .releasing)).setTill 1 (till .releasing)).setTill 2 (till .waitingPower)
  { s.setTill 3 (till .waitingPower) with releasing := [0, 1], powerQueue := [2, 3] }

/-- Row 60: a pulse ends and the head of the queue is admitted. -/
theorem test_pulse_end_admits_the_head :
    let t := after (.pulseTimerExpiry 0) drawers
    (t.till 0).state = .checking ∧ t.releasing = [1, 2] ∧ t.powerQueue = [3] := by decide

/-- Row 100: the supply warning cuts the solenoids that are driven and holds the queue. -/
theorem test_supply_warning_cuts :
    let t := after .supplyLowSet drawers
    (t.till 0).cut = true ∧ (t.till 1).state = .checking ∧ t.releasing = [] ∧ t.powerQueue = [2, 3] := by decide

/-- Rows 215 and 250: a full attempt rejoins at the tail with its retry flag, a cut one at the head without. -/
theorem test_failed_releases_rejoin :
    let s := { drawers.setTill 0 { Till.blank false with state := .checking, check := some 150 } with
      releasing := [], supplyLow := true, powerQueue := [2, 3] }
    let c := s.setTill 0 { s.till 0 with cut := true }
    (after (.checkTimerExpiry 0) s).powerQueue = [2, 3, 0] ∧ ((after (.checkTimerExpiry 0) s).till 0).retry = true ∧
      (after (.checkTimerExpiry 0) c).powerQueue = [0, 2, 3] ∧ ((after (.checkTimerExpiry 0) c).till 0).retry = false := by
  decide

/-- The capture of the worked print stream. -/
def capture214 : Capture := ⟨214, 1092000, 2000, 12000, .preset, 349, 381, true, 1⟩

/-- A string of characters as octets. -/
def text (s : String) : List Byte := s.toList.map fun c => octet c.toNat

/-- Chapter 8, section 8.9: lines 5, 6 and 8. -/
theorem test_certified_block :
    blockLine1 capture214 = text "CAPTURE 00214 NET 1.092 kg TARE 0.012 kg" ∧
    blockLine2 2 capture214 = text "PRICE/KG 3.49 PRICE 3.81 DIV 0.002 kg" ∧
    missingLine = text "*** WEIGHT NOT CERTIFIED ***" := by decide

/-- Chapter 8, section 8.9: line 1 is bold, 17 cells, centred at column 15. -/
theorem test_centred_line :
    (renderNext { glyphs := [], decimals := 2, log := [] } { newJob 12 with stream := [0x1D, 0x11] ++ text "GREEN LANE MARKET" ++ [0x12, 0x0A] }).map
      (fun j => match j.current with
        | some (.line cells column _ _) => (cells.length, column, j.position)
        | _ => (0, 0, 0)) = some (17, 15, 21) := by decide

/-- Chapter 10, the crowded queue: with 15 records free a new display notice is not accepted, a held one is replaced. -/
theorem test_crowded_queue :
    let bag : Frame := ⟨1, 0x82, 0, [1]⟩
    let s := { base with upstream := List.replicate 48 (⟨15, 0x80, 0, []⟩ : Frame) ++ [bag] }
    let d : Display := { state := .stopped, cause := .noCause, reading := none }
    (s.offerDisplay 0 .platter d).1 = false ∧ (s.offerDisplay 1 .bag d).1 = true ∧
      (s.offerDisplay 1 .bag d).2.upstream.length = 49 := by decide

/-- A power-on with the inputs of log 6 leaves exactly the state after reset, whatever the part held before. -/
theorem test_power_on_gives_reset :
    after (.powerOn ⟨0, 2, .pass, false⟩) { State.reset with freeCount := 0, upstream := [], items := [⟨1, .counted, none, none, none, none, .check⟩] } =
      State.reset := by decide

/-! ## Witnesses: a state and operands that meet the hypotheses of each statement together -/

theorem witness_StepRunsTheFrontCommand :
    (∃ (s : State), s.pending = []) :=
  ⟨State.reset, by decide⟩

theorem witness_RequestFramesRoundTrip :
    (∃ (i : Instr) (level : Bool), i.wellFormed = true ∧ i.isRequest = true ∧ i.calEnIs level = true) ∧
    (∃ (i : Instr) (level : Bool), i.wellFormed = true ∧ i.isRequest = true ∧ i.calEnIs level = true) ∧
    (∃ (i : Instr) (level : Bool), i.wellFormed = true ∧ i.isRequest = true ∧ i.calEnIs level = true) :=
  ⟨⟨(.item 3 7 4000000000021 1 349 1), false, by decide⟩,
   ⟨(.calWrite 1 3 1 ⟨15000000, 2000, 6000000, 5000, 40000, 19660⟩ true), true, by decide⟩,
   ⟨(.tarePreset 0 9 0 1 18000), true, by decide⟩⟩

theorem witness_WireFramesRoundTrip :
    (∃ (f : Frame), f.payload.length ≤ 240) ∧
    (∃ (f : Frame), f.payload.length ≤ 240) ∧
    (∃ (f : Frame) (check : BitVec 16), f.payload.length ≤ 240 ∧ check ≠ crc16 ([f.addr, f.kind, f.tag,
      octet f.payload.length] ++ f.payload)) ∧
    (∃ (n : Byte), 240 < n.toNat) :=
  ⟨⟨⟨15, 0x60, 1, []⟩, by decide⟩,
   ⟨⟨0, 0x41, 1, List.replicate 240 0x20⟩, List.length_replicate.le⟩,
   ⟨⟨15, 0x60, 1, []⟩, 0, by decide +kernel, by decide +kernel⟩,
   ⟨241, by decide⟩⟩

theorem witness_QueueLawKept :
    (∃ s t : State, QueueLaw s ∧ step s = .next t) :=
  ⟨{ full with pending := [.upstreamFrameSent true] }, _, ⟨by decide, by decide, by decide,
    fun l c => by cases c <;> revert l <;> decide⟩, rfl⟩

theorem witness_SolenoidLawKept :
    (∃ s t : State, SolenoidLaw s ∧ step s = .next t) :=
  ⟨{ releasing with pending := [.pulseTimerExpiry 0] }, _, by unfold SolenoidLaw TillLaw; decide, rfl⟩

theorem witness_LinkLawKept :
    (∃ s t : State, LinkLaw s ∧ step s = .next t) :=
  ⟨{ handed with pending := [.responseTimerExpiry] }, _, ⟨by decide, by decide, by decide, by decide, [], [], [],
    by unfold isAbort; decide⟩, rfl⟩

theorem witness_BasketLawKept :
    (∃ s t : State, BasketLaw s ∧ step s = .next t) :=
  ⟨{ waiting with pending := [.cancelCard 0 1] }, _, by unfold BasketLaw; decide, rfl⟩

theorem witness_ZeroLawKept :
    (∃ s t : State, ChannelLaw s ∧ step s = .next t) :=
  ⟨{ running with pending := [.sampleArrival 0 .platter 40000] }, _,
    ⟨fun l c => by unfold ZeroLaw; cases c <;> revert l <;> decide, by decide⟩, rfl⟩

theorem witness_AwaitingLawKept :
    (∃ s t : State, BagLaw s ∧ step s = .next t) :=
  ⟨{ awaitingStaffed with pending := [.placementTimerExpiry 0] }, _,
    fun l => ⟨fun k e h => by rcases k with _ | k <;> fin_cases l <;> cases h; decide, by revert l; decide⟩, rfl⟩

theorem witness_PrintLawKept :
    (∃ s t : State, PrintLaw s ∧ step s = .next t) :=
  ⟨{ printing with pending := [.lineDone 0 1] }, _, by unfold PrintLaw; decide, rfl⟩

theorem witness_CaptureLogKept :
    (∃ s t : State, LogLaw s ∧ step s = .next t) ∧
    (∃ (c : Instr) (s t : State) (l : LaneId) (k : Nat) (r : Capture), restartsPart c = false ∧ LogLaw s ∧
      exec c s = .next t ∧ (s.lane l).log[k]? = some r ∧ r.held = true) :=
  ⟨⟨{ selling with pending := [.newBasket 0 1] }, _, by unfold LogLaw; decide, rfl⟩,
   ⟨(.newBasket 0 1), selling, ((selling.request (.newBasket 0 1))), 0, 0, ⟨3, 1092000, 2000, 12000, .preset, 349,
     381, true, 0⟩, by decide, by unfold LogLaw; decide, rfl, by decide, by decide⟩⟩

theorem witness_TableLawKept :
    (∃ s t : State, TableLaw s ∧ step s = .next t) :=
  ⟨{ shop with pending := [.itemRemove 1 4000000000021] }, _, by unfold TableLaw; decide, rfl⟩

theorem witness_HiddenDigitsStayHidden :
    (∃ (s s' : State), s.redact = s'.redact) ∧
    (∃ (w w' : Swipe) (r : CardRange), maskAccount w.account r = maskAccount w'.account r) ∧
    (∃ (account : List Nat) (r : CardRange), 12 ≤ account.length ∧ r.valid = true) ∧
    (∃ (account : List Nat) (r : CardRange), 12 ≤ account.length ∧ r.valid = true) :=
  ⟨⟨base, base, rfl⟩,
   ⟨⟨[6,0,1,2,3,4,5,6,7,8,9,4], 29, 12, [1,0,1], []⟩, ⟨[6,0,1,2,3,9,9,9,7,8,9,4], 30, 1, [2,0,1], [5]⟩, ⟨60000000,
     60999999, .payment, 6, 4, true⟩, by decide⟩,
   ⟨[6,0,1,2,3,4,5,6,7,8,9,4], ⟨0, 99999999, .payment, 8, 4, false⟩, by decide⟩,
   ⟨[6,0,1,2,3,4,5,6,7,8,9,4,5,5,5,5,5,5,5], ⟨5, 5, .staff, 0, 0, false⟩, by decide⟩⟩

theorem witness_RoundingAndWeights :
    (∃ (w : List Nat), w ≠ []) ∧
    (∃ (d : Nat), 0 < d) ∧
    (∃ (d : Nat), 0 < d) :=
  ⟨⟨[40069, 40070, 40070], by decide⟩,
   ⟨2000, by decide⟩,
   ⟨2000, by decide⟩⟩

theorem witness_DisplayChecksFollowTheTimer :
    (∃ (s : State) (l : LaneId) (c : Chan), s.Runs l ∧ (s.chan l c).displayTimer.isSome = true ∧
      (s.chan l c).display = some ⟨(s.chan l c).state, (s.chan l c).cause, (s.chan l c).reading⟩) ∧
    (∃ (s : State) (l : LaneId) (c : Chan) (h g : Frame) (a b : List Frame), s.Runs l ∧
      (s.chan l c).displayTimer.isSome = true ∧ (s.chan l c).display ≠ some ⟨(s.chan l c).state, (s.chan l c).cause,
      (s.chan l c).reading⟩ ∧ s.upstream = h :: (a ++ g :: b) ∧ isDisplay l c g = true ∧ (∀ x ∈ a,
      isDisplay l c x = false)) ∧
    (∃ (s : State) (l : LaneId) (c : Chan), s.Runs l ∧ (s.chan l c).displayTimer.isSome = true ∧
      (s.chan l c).display ≠ some ⟨(s.chan l c).state, (s.chan l c).cause, (s.chan l c).reading⟩ ∧
      (∀ x ∈ s.upstream.drop 1, isDisplay l c x = false)) ∧
    (∃ (s : State) (l : LaneId) (c : Chan), s.Runs l ∧ (s.chan l c).displayTimer.isSome = true ∧
      (s.chan l c).display ≠ some ⟨(s.chan l c).state, (s.chan l c).cause, (s.chan l c).reading⟩ ∧
      (∀ x ∈ s.upstream.drop 1, isDisplay l c x = false)) :=
  ⟨⟨base, 0, .bag, by decide⟩,
   ⟨{ base.setChan 0 .platter { base.chan 0 .platter with display := none } with upstream := [⟨0, 0x82, 0, [0]⟩, ⟨0, 0x82, 0, [1]⟩, ⟨0, 0x82, 0, [0, 9]⟩] },
     0, .platter, ⟨0, 0x82, 0, [0]⟩, ⟨0, 0x82, 0, [0, 9]⟩, [⟨0, 0x82, 0, [1]⟩], [], by decide⟩,
   ⟨{ base.setChan 0 .platter { base.chan 0 .platter with display := none } with upstream := List.replicate 48 ⟨15, 0x80, 0, []⟩ },
     0, .platter, by decide⟩,
   ⟨{ base.setChan 0 .platter { base.chan 0 .platter with display := none } with upstream := List.replicate 49 ⟨15, 0x80, 0, []⟩ },
     0, .platter, by decide⟩⟩

theorem witness_AdmissionTakesTheHead :
    (∃ (s : State), SolenoidLaw s) ∧
    (∃ (s : State), SolenoidLaw s) :=
  ⟨⟨base, by unfold SolenoidLaw TillLaw; decide⟩,
   ⟨{ releasing with powerQueue := [2], settings := { releasing.settings with solenoidBudget := 1 } }.modLane 2 fun n => { n with till := { n.till with state := .waitingPower } },
     by unfold SolenoidLaw TillLaw; decide⟩⟩

theorem witness_LinkIsGrantedInCircularOrder :
    (∃ (s : State) (l : LaneId) (x : Slot), s.pay.inFlight = none ∧ (∀ f ∈ s.pay.transmit, f.kind ≠ 0xA0) ∧
      (s.lane l).card.slot = some x ∧ x.phase = .waiting ∧ (∀ k, (s.lane k).slotWaiting = true →
      (l - s.pay.pointer - 1).val ≤ (k - s.pay.pointer - 1).val)) ∧
    (∃ (s : State), s.pay.inFlight.isSome = true ∨ ∃ f ∈ s.pay.transmit, f.kind = 0xA0) ∧
    (∃ (s : State), s.pay.inFlight.isSome = true ∨ ∃ f ∈ s.pay.transmit, f.kind = 0xA0) ∧
    (∃ (s : State) (h : Frame) (t : List Frame), s.power = .running ∧ s.pay.transmit = h :: t) ∧
    (∃ (s : State) (h : Frame) (t : List Frame), s.power = .running ∧ s.pay.transmit = h :: t) :=
  ⟨⟨waiting, 0, slotA, by decide⟩,
   ⟨{ waiting with pay := { waiting.pay with transmit := [⟨1, 0xA0, 1, []⟩] } }, by decide⟩,
   ⟨{ waiting with pay := { waiting.pay with inFlight := some ⟨1, 1, 100⟩ } }, by decide⟩,
   ⟨{ waiting with pay := { waiting.pay with transmit := [⟨1, 0xA0, 1, []⟩] } }, ⟨1, 0xA0, 1, []⟩, [], by decide⟩,
   ⟨{ waiting with pay := { waiting.pay with transmit := [⟨1, 0xA1, 1, []⟩] } }, ⟨1, 0xA1, 1, []⟩, [], by decide⟩⟩

theorem witness_GoodFramesArrive :
    (∃ (s : State) (f : Frame), s.power = .running ∧ f.payload.length ≤ 240 ∧ 4 ≤ s.receiveBuffer.length) ∧
    (∃ (s : State) (f : Frame), s.power = .running ∧ f.payload.length ≤ 240 ∧ s.receiveBuffer.length < 4 ∧
      (64 ≤ s.upstream.length + s.reserved ∨ s.restart.isSome = true)) ∧
    (∃ (s : State) (f : Frame), s.power = .running ∧ f.payload.length ≤ 240 ∧ s.receiveBuffer.length < 4 ∧
      (64 ≤ s.upstream.length + s.reserved ∨ s.restart.isSome = true)) ∧
    (∃ (i : Instr) (f : Frame) (level : Bool), i.wellFormed = true ∧ i.isRequest = true ∧ i.calEnIs level = true ∧
      encodeRequest i = some f) :=
  ⟨⟨{ base with receiveBuffer := List.replicate 4 ⟨15, 0x60, 1, []⟩ }, ⟨15, 0x60, 2, []⟩, by decide⟩,
   ⟨full, ⟨15, 0x60, 2, []⟩, by decide⟩,
   ⟨{ base with restart := some 0, receiveBuffer := List.replicate 3 ⟨15, 0x60, 1, []⟩ }, ⟨15, 0x60, 2, []⟩, by decide⟩,
   ⟨(.hello 3), ⟨15, 0x60, 3, []⟩, true, by decide, by decide, by decide, rfl⟩⟩

theorem witness_DispatchRefusesInOrder :
    (∃ (s : State) (f : Frame), s.Ready ∧ f.payload.length ≤ 240 ∧ (f.addr ≠ 15 ∧ ∀ l, s.enabled l = true →
      f.addr ≠ laneAddr l)) ∧
    (∃ (s : State) (f : Frame), s.Ready ∧ f.payload.length ≤ 240 ∧ (f.addr ≠ 15 ∧ ∀ l, s.enabled l = true →
      f.addr ≠ laneAddr l)) ∧
    (∃ (s : State) (f : Frame), s.Ready ∧ f.payload.length ≤ 240 ∧ (f.addr = 15 ∨ ∃ l, s.enabled l = true ∧
      f.addr = laneAddr l) ∧ requestKind f.addr f.kind = none) ∧
    (∃ (s : State) (f : Frame), s.Ready ∧ f.payload.length ≤ 240 ∧ (f.addr = 15 ∨ ∃ l, s.enabled l = true ∧
      f.addr = laneAddr l) ∧ requestKind f.addr f.kind = none) ∧
    (∃ (s : State) (f : Frame), s.Ready ∧ f.payload.length ≤ 240 ∧ (f.addr = 15 ∨ ∃ l, s.enabled l = true ∧
      f.addr = laneAddr l) ∧ requestKind f.addr f.kind = none) ∧
    (∃ (s : State) (f : Frame) (k : ReqKind), s.Ready ∧ f.payload.length ≤ 240 ∧ (f.addr = 15 ∨ ∃ l,
      s.enabled l = true ∧ f.addr = laneAddr l) ∧ requestKind f.addr f.kind = some k ∧
      k.lengthOk f.payload.length = false) ∧
    (∃ (s : State) (f : Frame) (k : ReqKind), s.Ready ∧ f.payload.length ≤ 240 ∧ (f.addr = 15 ∨ ∃ l,
      s.enabled l = true ∧ f.addr = laneAddr l) ∧ requestKind f.addr f.kind = some k ∧
      k.lengthOk f.payload.length = false) ∧
    (∃ (s : State) (f : Frame) (k : ReqKind), s.Ready ∧ f.payload.length ≤ 240 ∧ (f.addr = 15 ∨ ∃ l,
      s.enabled l = true ∧ f.addr = laneAddr l) ∧ requestKind f.addr f.kind = some k ∧
      k.lengthOk f.payload.length = true ∧ s.selfCheck ≠ .pass ∧ k ≠ .hello ∧ k ≠ .partStatus ∧ k ≠ .calRead ∧
      k ≠ .restart) :=
  ⟨⟨base, ⟨4, 0x60, 2, []⟩, by decide⟩,
   ⟨{ base with lanesStrap := 0 }, ⟨1, 0x10, 2, []⟩, by decide⟩,
   ⟨base, ⟨15, 0x10, 2, []⟩, by decide⟩,
   ⟨base, ⟨3, 0x60, 2, []⟩, by decide⟩,
   ⟨base, ⟨0, 0xFF, 2, []⟩, by decide⟩,
   ⟨base, ⟨15, 0x60, 2, [1]⟩, .hello, by decide⟩,
   ⟨base, ⟨0, 0x41, 2, [1]⟩, .printData, by decide⟩,
   ⟨{ base with selfCheck := .both }, ⟨15, 0x62, 2, []⟩, .settingsRead, by decide⟩⟩

theorem witness_DiscardedFramesAndTheirCondition :
    (∃ (s : State), s.power = .running ∧ s.attention.set.getLsbD 0 = true) ∧
    (∃ (s : State), s.power = .running ∧ s.attention.set.getLsbD 0 = false ∧ s.attention.mask.getLsbD 0 = true) ∧
    (∃ (s : State), s.power = .running ∧ s.attention.set.getLsbD 0 = false ∧ s.attention.mask.getLsbD 0 = false ∧
      s.upstream.length + s.reserved < 64) ∧
    (∃ (s : State), s.power = .running ∧ s.attention.set.getLsbD 0 = false ∧ s.attention.mask.getLsbD 0 = false ∧
      s.upstream.length + s.reserved < 64) ∧
    (∃ (s : State), s.power = .running ∧ s.attention.set.getLsbD 0 = false ∧ s.attention.mask.getLsbD 0 = false ∧
      64 ≤ s.upstream.length + s.reserved) ∧
    (∃ (s : State) (cause : PaymentDiscard), s.power = .running ∧ (Instr.paymentFrameDiscarded cause).wellFormed = true) ∧
    (∃ (s : State) (cause : PaymentDiscard), s.power = .running ∧ (Instr.paymentFrameDiscarded cause).wellFormed = true) ∧
    (∃ (s : State) (cause : PaymentDiscard), s.power = .running ∧ (Instr.paymentFrameDiscarded cause).wellFormed = true) ∧
    (∃ (s : State) (l : LaneId) (cause : PrinterDiscard), s.Runs l ∧
      (Instr.printerFrameDiscarded l cause).wellFormed = true) ∧
    (∃ (s : State) (l : LaneId) (cause : PrinterDiscard), s.Runs l ∧
      (Instr.printerFrameDiscarded l cause).wellFormed = true) ∧
    (∃ (s : State) (l : LaneId) (cause : PrinterDiscard), s.Runs l ∧
      (Instr.printerFrameDiscarded l cause).wellFormed = true) ∧
    (∃ (s : State) (l : LaneId) (cause : PrinterDiscard), s.Runs l ∧
      (Instr.printerFrameDiscarded l cause).wellFormed = true) ∧
    (∃ (s : State) (l : LaneId) (cause : PrinterDiscard), s.Runs l ∧
      (Instr.printerFrameDiscarded l cause).wellFormed = true) ∧
    (∃ (s : State), s.power = .running) ∧
    (∃ (s : State) (l : LaneId), s.Runs l) :=
  ⟨⟨{ base with attention := ⟨1, 0⟩ }, by decide⟩,
   ⟨{ base with attention := ⟨0, 1⟩ }, by decide⟩,
   ⟨base, by decide⟩,
   ⟨{ base with upstream := List.replicate 63 ⟨15, 0x80, 0, []⟩ }, by decide⟩,
   ⟨full, by decide⟩,
   ⟨base, .check, by decide⟩,
   ⟨base, .kind ⟨0, 0xA1, 1, []⟩, by decide⟩,
   ⟨base, .payloadLength ⟨0, 0xA8, 1, List.replicate 12 0⟩, by decide⟩,
   ⟨base, 3, .gap, by decide⟩,
   ⟨base, 3, .address ⟨1, 0xC8, 1, []⟩, by decide⟩,
   ⟨base, 3, .kind ⟨0, 0xC7, 1, []⟩, by decide⟩,
   ⟨base, 3, .payloadLength ⟨0, 0xCA, 1, []⟩, by decide⟩,
   ⟨base, 3, .statusValue ⟨0, 0xCA, 1, [4]⟩, by decide⟩,
   ⟨base, by decide⟩,
   ⟨base, 3, by decide⟩⟩

theorem witness_TrunkLineEvents :
    (∃ (s : State) (h : Frame) (t : List Frame), s.power = .running ∧ s.upstream = h :: t ∧ s.restart = none ∧
      s.receiveBuffer = []) ∧
    (∃ (s : State) (h f : Frame) (t : List Frame), s.power = .running ∧ s.upstream = h :: t ∧
      t.length + s.reserved < 64 ∧ s.restart = none ∧ s.receiveBuffer = [f] ∧ (f.addr ≠ 15 ∧ ∀ l, s.enabled l = true →
      f.addr ≠ laneAddr l)) ∧
    (∃ (s : State) (h : Frame) (t : List Frame) (k : Nat), s.power = .running ∧ s.upstream = h :: t ∧
      s.restart = some (k + 1)) ∧
    (∃ (s : State) (h f : Frame) (t rest : List Frame), s.power = .running ∧ s.upstream = h :: t ∧
      t.length + s.reserved < 64 ∧ s.restart = none ∧ s.receiveBuffer = f :: rest) ∧
    (∃ (s : State), s.receiveBuffer = [] ∨ s.restart.isSome = true ∨ 64 ≤ s.upstream.length + s.reserved) ∧
    (∃ (s : State) (f : Frame) (rest : List Frame), s.receiveBuffer = f :: rest ∧ s.restart = none ∧
      s.upstream.length + s.reserved < 64) ∧
    (∃ (s : State) (f : Frame), s.Ready ∧ f.payload.length ≤ 240) ∧
    (∃ (s : State) (i : Instr) (f : Frame), i.wellFormed = true ∧ i.isRequest = true ∧ i.calEnIs s.calEn = true ∧
      encodeRequest i = some f ∧ s.selfCheck = .pass ∧ (f.addr = 15 ∨ ∃ l, s.enabled l = true ∧ f.addr = laneAddr l)) ∧
    (∃ (s : State), s.power = .running ∧ s.linkTimer.isSome = true) :=
  ⟨⟨State.reset, State.reset.upstream.headD ⟨0, 0, 0, []⟩, State.reset.upstream.drop 1, by decide⟩,
   ⟨{ full with receiveBuffer := [⟨9, 0x60, 5, []⟩] }, ⟨15, 0x80, 0, []⟩, ⟨9, 0x60, 5, []⟩, List.replicate 63 ⟨15,
     0x80, 0, []⟩, by decide⟩,
   ⟨{ full with restart := some 1 }, ⟨15, 0x80, 0, []⟩, List.replicate 63 ⟨15, 0x80, 0, []⟩, 0, by decide⟩,
   ⟨{ full with receiveBuffer := [⟨0, 0x10, 5, []⟩, ⟨15, 0x60, 6, []⟩] }, ⟨15, 0x80, 0, []⟩, ⟨0, 0x10, 5, []⟩,
     List.replicate 63 ⟨15, 0x80, 0, []⟩, [⟨15, 0x60, 6, []⟩], by decide⟩,
   ⟨full, by decide⟩,
   ⟨{ base with receiveBuffer := [⟨15, 0x60, 6, []⟩] }, ⟨15, 0x60, 6, []⟩, [], by decide⟩,
   ⟨base, ⟨15, 0x60, 3, []⟩, by decide⟩,
   ⟨base, (.hello 3), ⟨15, 0x60, 3, []⟩, by decide, by decide, by decide, rfl, by decide, by decide⟩,
   ⟨base, by decide⟩⟩

theorem witness_StartUpLeavesTheResetValues :
    (∃ (s : State), s.power = .held) ∧
    (∃ (s : State), s.power = .running ∧ s.restart = some 0) :=
  ⟨⟨{ base with power := .held }, by decide⟩,
   ⟨{ base with restart := some 0 }, by decide⟩⟩

theorem witness_SupplyWarningCutsAndReadmits :
    (∃ (s : State), s.power = .running ∧ s.supplyLow = false ∧ s.releasing = []) ∧
    (∃ (s : State), s.power = .running ∧ s.supplyLow = false ∧ SolenoidLaw s) ∧
    (∃ (s : State), s.power = .running ∧ s.supplyLow = false) ∧
    (∃ (s : State), s.power = .running ∧ s.supplyLow = false) ∧
    (∃ (s : State), s.power = .running ∧ s.supplyLow = true) :=
  ⟨⟨base, by decide⟩,
   ⟨releasing, by decide, by decide, by unfold SolenoidLaw TillLaw; decide⟩,
   ⟨releasing, by decide⟩,
   ⟨base, by decide⟩,
   ⟨{ base with supplyLow := true, supplyBelow := true }, by decide⟩⟩

theorem witness_StatusReadsChangeNothing :
    (∃ (s : State), s.Ready) ∧
    (∃ (s : State), s.Ready) ∧
    (∃ (s : State), s.ServesPart) ∧
    (∃ (s : State), s.Ready) ∧
    (∃ (s : State) (lane channel : Byte), s.Ready ∧ (3 < lane.toNat ∨ 1 < channel.toNat)) ∧
    (∃ (s : State) (lane channel : Byte), s.Ready ∧ (3 < lane.toNat ∨ 1 < channel.toNat)) ∧
    (∃ (s : State) (l : LaneId), s.Serves l) ∧
    (∃ (s : State) (l : LaneId), s.Serves l) ∧
    (∃ (s : State) (l : LaneId), s.Serves l) ∧
    (∃ (s : State) (l : LaneId), s.Serves l) :=
  ⟨⟨base, by decide⟩,
   ⟨base, by decide⟩,
   ⟨base, by decide⟩,
   ⟨base, by decide⟩,
   ⟨base, 4, 0, by decide⟩,
   ⟨base, 0, 2, by decide⟩,
   ⟨base, 0, by decide⟩,
   ⟨base, 0, by decide⟩,
   ⟨base, 0, by decide⟩,
   ⟨base, 0, by decide⟩⟩

theorem witness_TableReadsFindTheRecord :
    (∃ (s : State) (code : BitVec 48) (r : ItemRecord), s.ServesPart ∧ TableLaw s ∧ r ∈ s.items ∧ code.toNat = r.code) ∧
    (∃ (s : State) (code : BitVec 48), s.ServesPart ∧ (∀ r ∈ s.items, r.code ≠ code.toNat)) ∧
    (∃ (s : State) (code : BitVec 48), s.ServesPart ∧ (∀ r ∈ s.items, r.code ≠ code.toNat)) ∧
    (∃ (s : State), s.ServesPart) ∧
    (∃ (s : State), s.ServesPart) :=
  ⟨⟨shop, 4000000000021, ⟨4000000000021, .weighed, some 349, none, none, none, .check⟩, by decide,
     by unfold TableLaw; decide, by decide, by decide⟩,
   ⟨base, 9999999999999, by decide⟩,
   ⟨base, 0, by decide⟩,
   ⟨base, by decide⟩,
   ⟨base, by decide⟩⟩

theorem witness_SettingsAreClampedAndTakenUp :
    (∃ (s : State) (raw : RawSettings) (t : Settings), s.ServesPart ∧ settingsOf raw = some t) ∧
    (∃ (s : State) (raw : RawSettings), s.ServesPart ∧ (∃ l, 1 < (raw.lanes.get l).polarity.toNat)) ∧
    (∃ (y : State), y.releasing.Nodup) ∧
    (∃ (y : State), y.releasing.Nodup) ∧
    (∃ (t : Settings), (t.moneyDecimals = 0 ∨ t.moneyDecimals = 2 ∨ t.moneyDecimals = 3) ∧ t.linkSilence ≤ 60 ∧ 5 ≤ t.responseTime ∧ t.responseTime ≤ 120 ∧
      1 ≤ t.solenoidBudget ∧ t.solenoidBudget ≤ 4 ∧ ∀ l, let b := t.lanes.get l
        50 ≤ b.displayInterval ∧ b.displayInterval ≤ 1000 ∧ 5 ≤ b.weighTime ∧ b.weighTime ≤ 120 ∧ b.baseTolerance ≤ 100000 ∧
        2 ≤ b.placementTime ∧ b.placementTime ≤ 60 ∧ 2 ≤ b.removalTime ∧ b.removalTime ≤ 60 ∧ 5 ≤ b.staffHold ∧ b.staffHold ≤ 300 ∧
        20 ≤ b.pulseTime ∧ b.pulseTime ≤ 200 ∧ 5 ≤ b.leftOpenTime ∧ b.leftOpenTime ≤ 600) :=
  ⟨⟨base, rawSettings0, ⟨1, 0, 60, 9, Four.make fun _ => ⟨10, 30, 10000, 12, 20, 60, .openLow, 60, 30⟩⟩, by decide⟩,
   ⟨base, { rawSettings0 with lanes := rawSettings0.lanes.set 3 { rawSettings0.lanes.l3 with polarity := 2 } },
     by decide⟩,
   ⟨base, by decide⟩,
   ⟨{ lane0 fun n => { n with till := { Till.blank false with state := .releasing, pulse := some 60 } } with
       releasing := [2, 0], settings := { Settings.default with solenoidBudget := 1 } }, by decide⟩,
   ⟨Settings.default, by decide⟩⟩

theorem witness_DateAndRestartRequests :
    (∃ (s : State), s.ServesPart) ∧
    (∃ (s : State), s.ServesPart) ∧
    (∃ (s : State), s.ServesPart) ∧
    (∃ (s : State), s.Ready) :=
  ⟨⟨base, by decide⟩,
   ⟨base, by decide⟩,
   ⟨base, by decide⟩,
   ⟨base, by decide⟩⟩

theorem witness_LoadsApplyRecordsInOrder :
    (∃ (s : State) (raws : List RawItem) (rs : List ItemRecord), s.ServesPart ∧ (1 ≤ raws.length ∧ raws.length ≤ 6) ∧
      raws.map itemOf = rs.map some ∧ (∀ k, (hk : k < rs.length) →
      ((rs.take k).foldl (fun t r => putItem r t) s.items).length < 4096 ∨
      ∃ x ∈ (rs.take k).foldl (fun t r => putItem r t) s.items, x.code = rs[k].code)) ∧
    (∃ (s : State) (raws : List RawItem) (rs : List ItemRecord), s.ServesPart ∧ (1 ≤ raws.length ∧ raws.length ≤ 6) ∧
      raws.map itemOf = rs.map some ∧ (∀ k, (hk : k < rs.length) →
      ((rs.take k).foldl (fun t r => putItem r t) s.items).length < 4096 ∨
      ∃ x ∈ (rs.take k).foldl (fun t r => putItem r t) s.items, x.code = rs[k].code)) ∧
    (∃ (s : State) (raws rest : List RawItem) (bad : RawItem) (rs : List ItemRecord), s.ServesPart ∧
      raws.length + 1 + rest.length ≤ 6 ∧ raws.map itemOf = rs.map some ∧ itemOf bad = none ∧ (∀ k,
      (hk : k < rs.length) → ((rs.take k).foldl (fun t r => putItem r t) s.items).length < 4096 ∨
      ∃ x ∈ (rs.take k).foldl (fun t r => putItem r t) s.items, x.code = rs[k].code)) ∧
    (∃ (s : State) (raws rest : List RawItem) (raw : RawItem) (rs : List ItemRecord) (r : ItemRecord), s.ServesPart ∧
      raws.length + 1 + rest.length ≤ 6 ∧ raws.map itemOf = rs.map some ∧ itemOf raw = some r ∧ (∀ k,
      (hk : k < rs.length) → ((rs.take k).foldl (fun t r => putItem r t) s.items).length < 4096 ∨
      ∃ x ∈ (rs.take k).foldl (fun t r => putItem r t) s.items, x.code = rs[k].code) ∧
      4096 ≤ (rs.foldl (fun t r => putItem r t) s.items).length ∧ (∀ x ∈ (rs.foldl (fun t r => putItem r t) s.items),
      x.code ≠ r.code)) ∧
    (∃ (s : State) (raws : List RawRange) (rs : List CardRange), s.ServesPart ∧ (1 ≤ raws.length ∧ raws.length ≤ 4) ∧
      raws.map rangeOf = rs.map some ∧ (∀ k, (hk : k < rs.length) →
      ((rs.take k).foldl (fun t r => putRange r t) s.ranges).length < 64 ∧
      ∀ x ∈ (rs.take k).foldl (fun t r => putRange r t) s.ranges, x.high < rs[k].low ∨ rs[k].high < x.low)) ∧
    (∃ (s : State) (raws : List RawRange) (rs : List CardRange), s.ServesPart ∧ (1 ≤ raws.length ∧ raws.length ≤ 4) ∧
      raws.map rangeOf = rs.map some ∧ (∀ k, (hk : k < rs.length) →
      ((rs.take k).foldl (fun t r => putRange r t) s.ranges).length < 64 ∧
      ∀ x ∈ (rs.take k).foldl (fun t r => putRange r t) s.ranges, x.high < rs[k].low ∨ rs[k].high < x.low)) ∧
    (∃ (s : State) (raws rest : List RawRange) (bad : RawRange) (rs : List CardRange), s.ServesPart ∧
      raws.length + 1 + rest.length ≤ 4 ∧ raws.map rangeOf = rs.map some ∧ rangeOf bad = none ∧ (∀ k,
      (hk : k < rs.length) → ((rs.take k).foldl (fun t r => putRange r t) s.ranges).length < 64 ∧
      ∀ x ∈ (rs.take k).foldl (fun t r => putRange r t) s.ranges, x.high < rs[k].low ∨ rs[k].high < x.low)) ∧
    (∃ (s : State) (raws rest : List RawRange) (raw : RawRange) (rs : List CardRange) (r : CardRange), s.ServesPart ∧
      raws.length + 1 + rest.length ≤ 4 ∧ raws.map rangeOf = rs.map some ∧ rangeOf raw = some r ∧ (∀ k,
      (hk : k < rs.length) → ((rs.take k).foldl (fun t r => putRange r t) s.ranges).length < 64 ∧
      ∀ x ∈ (rs.take k).foldl (fun t r => putRange r t) s.ranges, x.high < rs[k].low ∨ rs[k].high < x.low) ∧
      (∃ x ∈ (rs.foldl (fun t r => putRange r t) s.ranges), r.low ≤ x.high ∧ x.low ≤ r.high)) ∧
    (∃ (s : State) (raws rest : List RawRange) (raw : RawRange) (rs : List CardRange) (r : CardRange), s.ServesPart ∧
      raws.length + 1 + rest.length ≤ 4 ∧ raws.map rangeOf = rs.map some ∧ rangeOf raw = some r ∧ (∀ k,
      (hk : k < rs.length) → ((rs.take k).foldl (fun t r => putRange r t) s.ranges).length < 64 ∧
      ∀ x ∈ (rs.take k).foldl (fun t r => putRange r t) s.ranges, x.high < rs[k].low ∨ rs[k].high < x.low) ∧
      (∃ x ∈ (rs.foldl (fun t r => putRange r t) s.ranges), r.low ≤ x.high ∧ x.low ≤ r.high)) ∧
    (∃ (s : State) (raws rest : List RawRange) (raw : RawRange) (rs : List CardRange) (r : CardRange), s.ServesPart ∧
      raws.length + 1 + rest.length ≤ 4 ∧ raws.map rangeOf = rs.map some ∧ rangeOf raw = some r ∧ (∀ k,
      (hk : k < rs.length) → ((rs.take k).foldl (fun t r => putRange r t) s.ranges).length < 64 ∧
      ∀ x ∈ (rs.take k).foldl (fun t r => putRange r t) s.ranges, x.high < rs[k].low ∨ rs[k].high < x.low) ∧
      64 ≤ (rs.foldl (fun t r => putRange r t) s.ranges).length ∧ (∀ x ∈ (rs.foldl (fun t r => putRange r t) s.ranges),
      x.high < r.low ∨ r.high < x.low)) ∧
    (∃ (s : State) (raws rest : List RawRange) (raw : RawRange) (rs : List CardRange) (r : CardRange), s.ServesPart ∧
      raws.length + 1 + rest.length ≤ 4 ∧ raws.map rangeOf = rs.map some ∧ rangeOf raw = some r ∧ (∀ k,
      (hk : k < rs.length) → ((rs.take k).foldl (fun t r => putRange r t) s.ranges).length < 64 ∧
      ∀ x ∈ (rs.take k).foldl (fun t r => putRange r t) s.ranges, x.high < rs[k].low ∨ rs[k].high < x.low) ∧
      64 ≤ (rs.foldl (fun t r => putRange r t) s.ranges).length ∧ (∀ x ∈ (rs.foldl (fun t r => putRange r t) s.ranges),
      x.high < r.low ∨ r.high < x.low)) :=
  ⟨⟨base, [⟨4000000000021, 1, 1, 349, 0, 0, 0, 0⟩], [⟨4000000000021, .weighed, some 349, none, none, none, .check⟩],
     by decide⟩,
   ⟨{ base with items := List.replicate 4096 ⟨4000000000021, .counted, none, none, none, none, .check⟩ }, [⟨4000000000021, 1, 1, 349, 0, 0, 0, 0⟩], [⟨4000000000021, .weighed, some 349, none, none, none, .check⟩], by decide, by decide, by decide, fun k hk => by
    obtain rfl : k = 0 := by simpa using hk
    exact Or.inr ⟨_, List.mem_replicate.mpr ⟨by decide, rfl⟩, rfl⟩⟩,
   ⟨base, [⟨4000000000021, 1, 1, 349, 0, 0, 0, 0⟩], [], ⟨0, 0, 0, 0, 0, 0, 0, 0⟩, [⟨4000000000021, .weighed, some 349,
     none, none, none, .check⟩], by decide⟩,
   ⟨{ base with items := List.replicate 4096 ⟨1, .counted, none, none, none, none, .check⟩ }, [], [], ⟨4000000000021,
     1, 1, 349, 0, 0, 0, 0⟩, [], ⟨4000000000021, .weighed, some 349, none, none, none, .check⟩, by decide, by decide,
     by decide, by decide, by decide, List.length_replicate.ge,
     fun _ hx => by rw [(List.mem_replicate.mp hx).2]; decide⟩,
   ⟨base, [⟨61000000, 61499999, 1, 6, 4, 1⟩], [⟨61000000, 61499999, .payment, 6, 4, true⟩], by decide⟩,
   ⟨{ base with ranges := List.replicate 63 ⟨1, 1, .payment, 0, 0, false⟩ }, [⟨61000000, 61499999, 1, 6, 4, 1⟩],
     [⟨61000000, 61499999, .payment, 6, 4, true⟩], by decide⟩,
   ⟨base, [⟨61000000, 61499999, 1, 6, 4, 1⟩], [⟨61000000, 61499999, 1, 6, 4, 1⟩], ⟨5, 4, 1, 0, 0, 0⟩, [⟨61000000,
     61499999, .payment, 6, 4, true⟩], by decide⟩,
   ⟨shop, [⟨61000000, 61499999, 1, 6, 4, 1⟩], [], ⟨61000000, 61499999, 1, 6, 4, 1⟩, [⟨61000000, 61499999, .payment, 6,
     4, true⟩], ⟨61000000, 61499999, .payment, 6, 4, true⟩, by decide⟩,
   ⟨shop, [], [], ⟨60500000, 60500000, 3, 0, 4, 0⟩, [], ⟨60500000, 60500000, .staff, 0, 4, false⟩, by decide⟩,
   ⟨{ base with ranges := List.replicate 63 ⟨1, 1, .payment, 0, 0, false⟩ }, [⟨60500000, 60500000, 3, 0, 4, 0⟩], [],
     ⟨61000000, 61499999, 1, 6, 4, 1⟩, [⟨60500000, 60500000, .staff, 0, 4, false⟩], ⟨61000000, 61499999, .payment, 6, 4,
     true⟩, by decide⟩,
   ⟨{ base with ranges := List.replicate 64 ⟨1, 1, .payment, 0, 0, false⟩ }, [], [], ⟨61000000, 61499999, 1, 6, 4, 1⟩,
     [], ⟨61000000, 61499999, .payment, 6, 4, true⟩, by decide⟩⟩

theorem witness_ItemRemovalIsExact :
    (∃ (s : State), s.ServesPart) ∧
    (∃ (s : State), s.ServesPart) ∧
    (∃ (s : State), s.ServesPart) ∧
    (∃ (s : State), s.ServesPart) :=
  ⟨⟨shop, by decide⟩,
   ⟨base, by decide⟩,
   ⟨base, by decide⟩,
   ⟨base, by decide⟩⟩

theorem witness_RangeRemovalIsExact :
    (∃ (s : State), s.ServesPart) ∧
    (∃ (s : State), s.ServesPart) ∧
    (∃ (s : State), s.ServesPart) ∧
    (∃ (s : State), s.ServesPart) :=
  ⟨⟨shop, by decide⟩,
   ⟨shop, by decide⟩,
   ⟨base, by decide⟩,
   ⟨base, by decide⟩⟩

theorem witness_GlyphTableHoldsPatterns :
    (∃ (s : State) (p : List Byte), s.ServesPart ∧ p.length = 72) ∧
    (∃ (s : State) (p : List Byte), s.ServesPart ∧ p.length = 72) ∧
    (∃ (s : State), s.ServesPart) ∧
    (∃ (s : State), s.ServesPart) :=
  ⟨⟨base, List.replicate 72 0xFF, by decide⟩,
   ⟨base, List.replicate 72 0xFF, by decide⟩,
   ⟨base, by decide⟩,
   ⟨base, by decide⟩⟩

theorem witness_CalibrationWritesThroughTheStore :
    (∃ (s : State), s.ServesPart) ∧
    (∃ (s : State), s.ServesPart) ∧
    (∃ (s : State), s.ServesPart) ∧
    (∃ (s : State) (lane channel : Byte), s.ServesPart ∧ (3 < lane.toNat ∨ 1 < channel.toNat)) ∧
    (∃ (s : State) (lane channel : Byte), s.ServesPart ∧ (3 < lane.toNat ∨ 1 < channel.toNat)) ∧
    (∃ (s : State) (w : CalWrite), s.power = .running ∧ s.calWrite = some w) :=
  ⟨⟨base, by decide⟩,
   ⟨{ base with lanesStrap := 0 }, by decide⟩,
   ⟨base, by decide⟩,
   ⟨base, 4, 0, by decide⟩,
   ⟨base, 0, 2, by decide⟩,
   ⟨{ base with calWrite := some ⟨0, .bag, cal0, 7⟩, reserved := 1 }, ⟨0, .bag, cal0, 7⟩, by decide⟩⟩

theorem witness_LaneModeAndTheBagCheck :
    (∃ (s : State) (l : LaneId) (target : Byte) (code : Code), s.Serves l ∧ (let n := s.lane l
        let empty := n.basketState = .empty
        let refusal : Option Code :=
          if 2 < target.toNat then some .badValue
          else if n.mode.value = target then none
          else if target = 2 then (if ¬ empty then some .basketActive else if n.till.state ≠ .closed then some .drawerOpen else none)
          else if target = 1 then (if ¬ empty then some .basketActive else none)
          else if n.mode = .self ∧ ¬ empty ∧ n.authority = none then some .basketActive else none
        refusal = some code)) ∧
    (∃ (s : State) (l : LaneId) (target : Byte) (code : Code), s.Serves l ∧ (let n := s.lane l
        let empty := n.basketState = .empty
        let refusal : Option Code :=
          if 2 < target.toNat then some .badValue
          else if n.mode.value = target then none
          else if target = 2 then (if ¬ empty then some .basketActive else if n.till.state ≠ .closed then some .drawerOpen else none)
          else if target = 1 then (if ¬ empty then some .basketActive else none)
          else if n.mode = .self ∧ ¬ empty ∧ n.authority = none then some .basketActive else none
        refusal = some code)) ∧
    (∃ (s : State) (l : LaneId) (target : Byte), s.Serves l ∧ (s.lane l).mode.value = target) ∧
    (∃ (s : State) (l : LaneId), s.Serves l ∧ (s.lane l).mode ≠ .self ∧ (s.lane l).basketState = .empty) ∧
    (∃ (s : State) (l : LaneId), s.Serves l ∧ (s.lane l).mode = .self ∧ ((s.lane l).basketState = .empty ∨
      (s.lane l).authority.isSome = true) ∧ (s.lane l).bagCheck.awaiting = none) ∧
    (∃ (s : State) (l : LaneId) (k : Nat) (e : Entry), s.Serves l ∧ (s.lane l).mode = .self ∧
      (s.lane l).authority.isSome = true ∧ (s.lane l).bagCheck.awaiting = some (k + 1) ∧
      (s.lane l).entries[k]? = some e ∧ (e.bag = .awaiting ∨ e.bag = .removing)) ∧
    (∃ (s : State) (l : LaneId), s.Serves l ∧ (s.lane l).mode = .self ∧ (s.lane l).basketState = .empty ∧
      (s.lane l).till.state = .closed ∧ (s.lane l).bagCheck.awaiting = none) ∧
    (∃ (s : State) (l : LaneId), s.Serves l) ∧
    (∃ (s : State) (l : LaneId), s.Serves l) :=
  ⟨⟨base, 0, 3, .badValue, by decide⟩,
   ⟨waiting, 0, 2, .basketActive, by decide⟩,
   ⟨base, 0, 0, by decide⟩,
   ⟨base, 0, by decide⟩,
   ⟨selfEmpty, 0, by decide⟩,
   ⟨awaitingStaffed, 0, 0, entryA, by decide⟩,
   ⟨selfEmpty, 0, by decide⟩,
   ⟨base, 0, by decide⟩,
   ⟨closedLane, 0, by decide⟩⟩

theorem witness_LaneResetReturnsACleanSale :
    (∃ (s : State) (l : LaneId), s.Serves l ∧ (∃ x ∈ (s.lane l).card.slot, x.out)) ∧
    (∃ (s : State) (l : LaneId), s.Serves l ∧ (∀ x ∈ (s.lane l).card.slot, ¬ x.out)) ∧
    (∃ (s : State) (l : LaneId), s.Serves l ∧ (∀ x ∈ (s.lane l).card.slot, ¬ x.out)) :=
  ⟨⟨{ waiting with pay := { waiting.pay with inFlight := some ⟨0, 1, 100⟩ } }.setLane 0 ((waiting.lane 0).setSlot (some { slotA with phase := .inFlight })),
     0, by decide⟩,
   ⟨waiting, 0, by decide⟩,
   ⟨printing, 0, by decide⟩⟩

theorem witness_StaffAuthorityComesAndGoes :
    (∃ (s : State) (l : LaneId), s.Serves l) ∧
    (∃ (s : State) (l : LaneId), s.Serves l) ∧
    (∃ (s : State) (l : LaneId), s.Serves l) ∧
    (∃ (s : State) (l : LaneId) (a : Authority), s.Runs l ∧ (s.lane l).authority = some a ∧ a.timer.isSome = true) :=
  ⟨⟨base, 0, by decide⟩,
   ⟨base, 0, by decide⟩,
   ⟨base, 0, by decide⟩,
   ⟨awaitingStaffed, 0, ⟨.host, 7, some 60000⟩, by decide⟩⟩

theorem witness_AttentionIsClearedAndMaskedByName :
    (∃ (s : State) (l : LaneId), s.Serves l) ∧
    (∃ (s : State) (l : LaneId), s.Serves l) ∧
    (∃ (s : State), s.ServesPart) ∧
    (∃ (s : State), s.ServesPart) ∧
    (∃ (s : State) (l : LaneId), s.Serves l) ∧
    (∃ (s : State) (l : LaneId), s.Serves l) ∧
    (∃ (s : State), s.ServesPart) ∧
    (∃ (s : State), s.ServesPart) ∧
    (∃ (s : State) (l : LaneId), s.enabled l = true) ∧
    (∃ (s : State) (l : LaneId), s.enabled l = true) ∧
    (∃ (s : State) (l : LaneId), s.enabled l = true) :=
  ⟨⟨base, 0, by decide⟩,
   ⟨base, 0, by decide⟩,
   ⟨base, by decide⟩,
   ⟨base, by decide⟩,
   ⟨base, 0, by decide⟩,
   ⟨base, 0, by decide⟩,
   ⟨base, by decide⟩,
   ⟨base, by decide⟩,
   ⟨base, 0, by decide⟩,
   ⟨closedLane, 0, by decide⟩,
   ⟨sold.modLane 0 fun n => { n with attention := ⟨0x0203, 0xFFFF⟩ }, 0, by decide⟩⟩

theorem witness_ChannelRequestsByState :
    (∃ (s : State) (l : LaneId), s.Serves l) ∧
    (∃ (s : State) (l : LaneId), s.Serves l) ∧
    (∃ (s : State) (l : LaneId), s.Serves l) ∧
    (∃ (s : State) (l : LaneId), s.Serves l) ∧
    (∃ (s : State) (l : LaneId), s.Serves l) ∧
    (∃ (s : State) (l : LaneId), s.Serves l) ∧
    (∃ (s : State) (l : LaneId), s.Serves l) ∧
    (∃ (s : State) (l : LaneId), s.Serves l) ∧
    (∃ (s : State) (l : LaneId), s.Serves l) ∧
    (∃ (s : State) (l : LaneId) (ch : Byte), s.Serves l ∧ 1 < ch.toNat) :=
  ⟨⟨base, 0, by decide⟩,
   ⟨stopped, 0, by decide⟩,
   ⟨running, 0, by decide⟩,
   ⟨running, 0, by decide⟩,
   ⟨base, 0, by decide⟩,
   ⟨stopped, 0, by decide⟩,
   ⟨base, 0, by decide⟩,
   ⟨stopped, 0, by decide⟩,
   ⟨running, 0, by decide⟩,
   ⟨base, 0, 2, by decide⟩⟩

theorem witness_ZeroAndTareAreTestedInOrder :
    (∃ (s : State) (l : LaneId), s.Serves l) ∧
    (∃ (s : State) (l : LaneId), s.Serves l) ∧
    (∃ (s : State) (l : LaneId), s.Serves l) ∧
    (∃ (s : State) (l : LaneId), s.Serves l) ∧
    (∃ (s : State) (l : LaneId), s.Serves l) ∧
    (∃ (s : State) (l : LaneId), s.Serves l) ∧
    (∃ (s : State) (l : LaneId) (form : Byte), s.Serves l ∧ form ≠ 0) ∧
    (∃ (s : State) (l : LaneId) (form : Byte), s.Serves l ∧ form ≠ 0) ∧
    (∃ (s : State) (l : LaneId) (form : Byte), s.Serves l ∧ form ≠ 0) ∧
    (∃ (s : State) (l : LaneId), s.Serves l) ∧
    (∃ (s : State) (l : LaneId), s.Serves l) ∧
    (∃ (s : State) (l : LaneId) (channel form : Byte), s.Serves l ∧ 1 < channel.toNat ∧ form ≠ 0) ∧
    (∃ (s : State) (l : LaneId) (channel form : Byte), s.Serves l ∧ 1 < channel.toNat ∧ form ≠ 0) :=
  ⟨⟨running, 0, by decide⟩,
   ⟨base, 0, by decide⟩,
   ⟨stopped, 0, by decide⟩,
   ⟨running, 0, by decide⟩,
   ⟨loaded, 0, by decide⟩,
   ⟨base, 0, by decide⟩,
   ⟨running, 0, 1, by decide⟩,
   ⟨running, 0, 1, by decide⟩,
   ⟨running, 0, 255, by decide⟩,
   ⟨loaded, 0, by decide⟩,
   ⟨base, 0, by decide⟩,
   ⟨base, 0, 2, 1, by decide⟩,
   ⟨running, 0, 255, 2, by decide⟩⟩

theorem witness_SamplesBeforeRunning :
    (∃ (s : State) (l : LaneId) (c : Chan), s.Runs l ∧ ((s.chan l c).state = .stopped ∨ ((s.chan l c).state = .fault ∧
      ((s.chan l c).cause ≠ .sensor ∨ s.calWriting l c = true)))) ∧
    (∃ (s : State) (l : LaneId) (c : Chan), s.Runs l ∧ ((s.chan l c).state = .stopped ∨ ((s.chan l c).state = .fault ∧
      ((s.chan l c).cause ≠ .sensor ∨ s.calWriting l c = true)))) ∧
    (∃ (s : State) (l : LaneId) (c : Chan) (k : Calib), s.Runs l ∧ (s.chan l c).state = .starting ∧
      (s.chan l c).calib = some k ∧ 1 ≤ (s.chan l c).stabilityLength) ∧
    (∃ (s : State) (l : LaneId) (c : Chan) (k : Calib), s.Runs l ∧ (s.chan l c).state = .starting ∧
      (s.chan l c).calib = some k ∧ 1 ≤ (s.chan l c).stabilityLength) ∧
    (∃ (s : State) (l : LaneId) (c : Chan) (k : Calib), s.Runs l ∧ (s.chan l c).state = .starting ∧
      (s.chan l c).calib = some k ∧ 1 ≤ (s.chan l c).stabilityLength) ∧
    (∃ (s : State) (l : LaneId) (c : Chan) (k : Calib), s.Runs l ∧ (s.chan l c).state = .fault ∧
      (s.chan l c).cause = .sensor ∧ (s.chan l c).ret = some .starting ∧ s.calWriting l c = false ∧
      (s.chan l c).calib = some k ∧ (s.chan l c).filter = [] ∧ (s.chan l c).stability = [] ∧
      2 ≤ (s.chan l c).stabilityLength ∧ 1 ≤ (s.chan l c).filterLength) :=
  ⟨⟨base, 0, .bag, by decide⟩,
   ⟨stopped, 0, .platter, by decide⟩,
   ⟨starting, 0, .platter, cal0, by decide⟩,
   ⟨starting, 0, .platter, cal0, by decide⟩,
   ⟨(selfWith { bagAt .suspended with state := .faulted } [] none).setChan 0 .bag { Channel.blank with
       state := .starting, calib := some cal0, silence := some 250, initialZero := some 10000, tare := 0 }, 0, .bag, cal0, by decide⟩,
   ⟨sensorFault, 0, .platter, cal0, by decide⟩⟩

theorem witness_RunningEvaluationFormsTheReading :
    (∃ (s : State) (l : LaneId) (c : Chan) (k : Calib), s.Runs l ∧ (s.chan l c).state = .running ∧
      (s.chan l c).cause = .noCause ∧ (s.chan l c).ret = none ∧ (s.chan l c).calib = some k ∧
      1 ≤ (s.chan l c).stabilityLength) ∧
    (∃ (s : State) (l : LaneId) (c : Chan) (k : Calib), s.Runs l ∧ (s.chan l c).state = .running ∧
      (s.chan l c).cause = .noCause ∧ (s.chan l c).ret = none ∧ (s.chan l c).calib = some k ∧
      1 ≤ (s.chan l c).stabilityLength) ∧
    (∃ (s : State) (l : LaneId) (c : Chan) (k : Calib), s.Runs l ∧ (s.chan l c).state = .fault ∧
      (s.chan l c).cause = .sensor ∧ (s.chan l c).ret = some .running ∧ s.calWriting l c = false ∧
      (s.chan l c).calib = some k ∧ 1 ≤ (s.chan l c).stabilityLength) ∧
    (∃ (s : State) (l : LaneId) (c : Chan) (k : Calib), s.Runs l ∧ (s.chan l c).state = .fault ∧
      (s.chan l c).cause = .sensor ∧ (s.chan l c).ret = some .running ∧ s.calWriting l c = false ∧
      (s.chan l c).calib = some k ∧ 1 ≤ (s.chan l c).stabilityLength) :=
  ⟨⟨running, 0, .platter, cal0, by decide⟩,
   ⟨loaded, 0, .platter, cal0, by decide⟩,
   ⟨sensorFaultRunning, 0, .platter, cal0, by decide⟩,
   ⟨(selfWith { bagAt .suspended with state := .faulted } [] none).setChan 0 .bag (faultChannel .running), 0, .bag,
     cal0, by decide⟩⟩

theorem witness_ChannelTimersEndInFault :
    (∃ (s : State) (l : LaneId) (c : Chan), s.Runs l ∧ (s.chan l c).silence.isSome = true ∧
      ((s.chan l c).state = .starting ∨ (s.chan l c).state = .running)) ∧
    (∃ (s : State) (l : LaneId) (c : Chan), s.Runs l ∧ (s.chan l c).silence.isSome = true ∧
      ((s.chan l c).state = .starting ∨ (s.chan l c).state = .running)) ∧
    (∃ (s : State) (l : LaneId) (c : Chan), s.Runs l ∧ (s.chan l c).initialZero.isSome = true ∧
      (s.chan l c).state = .starting) :=
  ⟨⟨running, 0, .platter, by decide⟩,
   ⟨starting, 0, .platter, by decide⟩,
   ⟨starting, 0, .platter, by decide⟩⟩

theorem witness_ItemIsTestedAndEntered :
    (∃ (s : State) (l : LaneId), s.Serves l) ∧
    (∃ (s : State) (l : LaneId), s.Serves l) ∧
    (∃ (s : State) (l : LaneId), s.Serves l) :=
  ⟨⟨base, 0, by decide⟩,
   ⟨shop, 0, by decide⟩,
   ⟨closedLane, 0, by decide⟩⟩

theorem witness_VoidCancelsAnEntryInPlace :
    (∃ (s : State) (l : LaneId) (position : Byte) (code : Code), s.Serves l ∧ (let n := s.lane l
     (if n.basketState = .empty then some Code.noEntry
      else if n.basketState = .tendering then some .tenderStarted
      else if n.basketState = .settled then some .basketSettled
      else if position.toNat = 0 then some .noEntry
      else match n.entries[position.toNat - 1]? with
        | none => some .noEntry
        | some e => if e.voided then some .alreadyVoid
          else if n.mode = .self ∧ n.authority = none then some .authorityNeeded else none) = some code)) ∧
    (∃ (s : State) (l : LaneId) (position : Byte) (code : Code), s.Serves l ∧ (let n := s.lane l
     (if n.basketState = .empty then some Code.noEntry
      else if n.basketState = .tendering then some .tenderStarted
      else if n.basketState = .settled then some .basketSettled
      else if position.toNat = 0 then some .noEntry
      else match n.entries[position.toNat - 1]? with
        | none => some .noEntry
        | some e => if e.voided then some .alreadyVoid
          else if n.mode = .self ∧ n.authority = none then some .authorityNeeded else none) = some code)) ∧
    (∃ (s : State) (l : LaneId) (position : Byte) (code : Code), s.Serves l ∧ (let n := s.lane l
     (if n.basketState = .empty then some Code.noEntry
      else if n.basketState = .tendering then some .tenderStarted
      else if n.basketState = .settled then some .basketSettled
      else if position.toNat = 0 then some .noEntry
      else match n.entries[position.toNat - 1]? with
        | none => some .noEntry
        | some e => if e.voided then some .alreadyVoid
          else if n.mode = .self ∧ n.authority = none then some .authorityNeeded else none) = some code)) ∧
    (∃ (s : State) (l : LaneId) (position : Byte) (code : Code), s.Serves l ∧ (let n := s.lane l
     (if n.basketState = .empty then some Code.noEntry
      else if n.basketState = .tendering then some .tenderStarted
      else if n.basketState = .settled then some .basketSettled
      else if position.toNat = 0 then some .noEntry
      else match n.entries[position.toNat - 1]? with
        | none => some .noEntry
        | some e => if e.voided then some .alreadyVoid
          else if n.mode = .self ∧ n.authority = none then some .authorityNeeded else none) = some code)) ∧
    (∃ (s : State) (l : LaneId) (position : Byte) (k : Nat) (e : Entry), s.Serves l ∧
      (s.lane l).basketState = .opened ∧ position.toNat = k + 1 ∧ (s.lane l).entries[k]? = some e ∧ e.voided = false ∧
      (s.lane l).mode = .self ∧ (s.lane l).authority ≠ none ∧ (s.lane l).bagCheck.state ≠ .settled ∧ e.bag ≠ .awaiting) ∧
    (∃ (s : State) (l : LaneId) (position : Byte) (k : Nat) (e : Entry), s.Serves l ∧
      (s.lane l).basketState = .opened ∧ position.toNat = k + 1 ∧ (s.lane l).entries[k]? = some e ∧ e.voided = false ∧
      ((s.lane l).mode ≠ .self ∨ ((s.lane l).authority ≠ none ∧ (s.lane l).bagCheck.state = .settled ∧
      (e.bag = .notChecked ∨ e.bag = .exempt ∨ e.bag = .waived)))) ∧
    (∃ (s : State) (l : LaneId) (position : Byte) (k : Nat) (e : Entry), s.Serves l ∧
      (s.lane l).basketState = .opened ∧ position.toNat = k + 1 ∧ (s.lane l).entries[k]? = some e ∧ e.voided = false ∧
      (s.lane l).mode = .self ∧ (s.lane l).authority ≠ none ∧ (s.lane l).bagCheck.state = .settled ∧ e.bag = .placed) ∧
    (∃ (s : State) (l : LaneId) (position : Byte) (k : Nat) (e : Entry), s.Serves l ∧
      (s.lane l).basketState = .opened ∧ position.toNat = k + 1 ∧ (s.lane l).entries[k]? = some e ∧ e.voided = false ∧
      (s.lane l).mode = .self ∧ (s.lane l).authority ≠ none ∧ e.bag = .awaiting ∧
      (s.lane l).bagCheck.awaiting = some (k + 1)) ∧
    (∃ (s : State) (l : LaneId) (position : Byte) (k : Nat) (e : Entry), s.Serves l ∧
      (s.lane l).basketState = .opened ∧ position.toNat = k + 1 ∧ (s.lane l).entries[k]? = some e ∧ e.voided = false ∧
      (s.lane l).mode = .self ∧ (s.lane l).authority ≠ none ∧ e.bag = .awaiting ∧
      (s.lane l).bagCheck.awaiting = some (k + 1)) :=
  ⟨⟨base, 0, 1, .noEntry, by decide⟩,
   ⟨sold, 0, 2, .noEntry, by decide⟩,
   ⟨sold, 0, 0, .noEntry, by decide⟩,
   ⟨waiting, 0, 1, .tenderStarted, by decide⟩,
   ⟨selfWith (bagAt .arming) [entryP] (some ⟨.host, 7, some 60000⟩), 0, 1, 0, entryP, by decide⟩,
   ⟨sold, 0, 1, 0, entryC, by decide⟩,
   ⟨selfWith (bagAt .settled) [entryP] (some ⟨.host, 7, some 60000⟩), 0, 1, 0, entryP, by decide⟩,
   ⟨awaitingStaffed, 0, 1, 0, entryA, by decide⟩,
   ⟨selfWith { bagAwaiting with state := .faulted, placement := none } [entryA] (some ⟨.host, 7, some 60000⟩), 0, 1,
     0, entryA, by decide⟩⟩

theorem witness_CancelWeighEndsThePendingRequest :
    (∃ (s : State) (l : LaneId), s.Serves l) ∧
    (∃ (s : State) (l : LaneId), s.Serves l) ∧
    (∃ (s : State) (l : LaneId) (w : WeighRequest), s.Runs l ∧ (s.lane l).weigh = some w ∧ w.timer.isSome = true) ∧
    (∃ (s : State) (l : LaneId), (s.lane l).weigh = none) :=
  ⟨⟨base, 0, by decide⟩,
   ⟨{ base with upstream := [] }.modLane 0 fun n => { n with weigh := some ⟨5, 349, none, none, false, some 30000, false, .noReading⟩ },
     0, by decide⟩,
   ⟨base.modLane 0 fun n => { n with weigh := some ⟨5, 349, none, none, false, some 30000, false, .noReading⟩ }, 0,
     ⟨5, 349, none, none, false, some 30000, false, .noReading⟩, by decide⟩,
   ⟨base, 0, by decide⟩⟩

theorem witness_TenderMovesTheDue :
    (∃ (s : State) (l : LaneId), s.Serves l) ∧
    (∃ (s : State) (l : LaneId), s.Serves l) ∧
    (∃ (s : State) (l : LaneId), s.Serves l) :=
  ⟨⟨sold, 0, by decide⟩,
   ⟨sold, 0, by decide⟩,
   ⟨base, 0, by decide⟩⟩

theorem witness_BasketClearsEndTheSale :
    (∃ (s : State) (l : LaneId), s.Serves l) ∧
    (∃ (s : State) (l : LaneId), s.Serves l) ∧
    (∃ (s : State) (l : LaneId), s.Serves l) ∧
    (∃ (s : State) (l : LaneId), s.Serves l) :=
  ⟨⟨base, 0, by decide⟩,
   ⟨lane0 fun n => { n with entries := [entryC], tenders := [⟨.cash, 100, none, none, false, false⟩] }, 0, by decide⟩,
   ⟨sold, 0, by decide⟩,
   ⟨awaitingStaffed, 0, by decide⟩⟩

theorem witness_BagOverrideAndHeldExpectations :
    (∃ (s : State) (l : LaneId), s.Serves l) ∧
    (∃ (s : State) (l : LaneId), s.Serves l) ∧
    (∃ (s : State) (l : LaneId) (k : Nat) (e : Entry), s.Serves l ∧ (s.lane l).authority ≠ none ∧
      ((s.lane l).bagCheck.state = .awaitingPlace ∨ (s.lane l).bagCheck.state = .awaitingRemoval ∨
      (s.lane l).bagCheck.state = .held) ∧ (s.lane l).bagCheck.awaiting = some (k + 1) ∧
      (s.lane l).entries[k]? = some e ∧ (e.bag = .awaiting ∨ e.bag = .removing)) ∧
    (∃ (s : State) (l : LaneId), s.Serves l ∧ (s.lane l).authority ≠ none ∧ (s.lane l).bagCheck.state = .unexpected ∧
      (s.lane l).bagCheck.awaiting = none) ∧
    (∃ (s : State) (l : LaneId) (k : Nat) (e : Entry), s.Serves l ∧ (s.lane l).authority ≠ none ∧
      ((s.lane l).bagCheck.state = .faulted ∨ (s.lane l).bagCheck.state = .arming) ∧
      (s.lane l).bagCheck.awaiting = some (k + 1) ∧ (s.lane l).entries[k]? = some e ∧ (e.bag = .awaiting ∨
      e.bag = .removing)) ∧
    (∃ (s : State) (l : LaneId) (k : Nat) (e : Entry), s.Runs l ∧ (s.lane l).bagCheck.awaiting = some (k + 1) ∧
      (s.lane l).entries[k]? = some e) :=
  ⟨⟨base, 0, by decide⟩,
   ⟨awaitingStaffed.modLane 0 fun n => { n with bagCheck := bagAt .settled }, 0, by decide⟩,
   ⟨awaitingStaffed, 0, 0, entryA, by decide⟩,
   ⟨awaitingStaffed.modLane 0 fun n => { n with bagCheck := bagAt .unexpected }, 0, by decide⟩,
   ⟨awaitingStaffed.modLane 0 fun n => { n with bagCheck := { bagAwaiting with state := .faulted, placement := none } },
     0, 0, entryA, by decide⟩,
   ⟨awaitingStaffed, 0, 0, entryA, by decide⟩⟩

theorem witness_BagReadingsMoveTheBagCheck :
    (∃ (s : State) (l : LaneId) (k : Calib), s.Runs l ∧ (s.chan l .bag).state = .running ∧
      (s.chan l .bag).cause = .noCause ∧ (s.chan l .bag).ret = none ∧ (s.chan l .bag).calib = some k ∧
      1 ≤ (s.chan l .bag).stabilityLength) ∧
    (∃ (s : State) (l : LaneId) (stable : Bool), stable = false ∨ (s.lane l).bagCheck.state = .suspended ∨
      (s.lane l).bagCheck.state = .held ∨ (s.lane l).bagCheck.state = .faulted) ∧
    (∃ (s : State) (l : LaneId), (s.lane l).bagCheck.state = .arming) ∧
    (∃ (s : State) (l : LaneId), (s.lane l).bagCheck.state = .arming) ∧
    (∃ (s : State) (l : LaneId) (w : Int), (s.lane l).bagCheck.state = .settled ∧ (s.lane l).bagCheck.b = some w) ∧
    (∃ (s : State) (l : LaneId) (w : Int), (s.lane l).bagCheck.state = .settled ∧ (s.lane l).bagCheck.b = some w) ∧
    (∃ (s : State) (l : LaneId) (w : Int), (s.lane l).bagCheck.state = .settled ∧ (s.lane l).bagCheck.b = some w) ∧
    (∃ (s : State) (l : LaneId) (w : Int), (s.lane l).bagCheck.state = .unexpected ∧ (s.lane l).bagCheck.b = some w) ∧
    (∃ (s : State) (l : LaneId) (w : Int) (k : Nat) (e : Entry), (s.lane l).bagCheck.state = .awaitingPlace ∧
      (s.lane l).bagCheck.b = some w ∧ (s.lane l).bagCheck.awaiting = some (k + 1) ∧ (s.lane l).entries[k]? = some e) ∧
    (∃ (s : State) (l : LaneId) (w : Int) (k : Nat) (e : Entry), (s.lane l).bagCheck.state = .awaitingRemoval ∧
      (s.lane l).bagCheck.b = some w ∧ (s.lane l).bagCheck.awaiting = some (k + 1) ∧ (s.lane l).entries[k]? = some e) :=
  ⟨⟨base.setChan 0 .bag runningChannel, 0, cal0, by decide⟩,
   ⟨base, 0, true, by decide⟩,
   ⟨selfEmpty, 0, by decide⟩,
   ⟨awaitingStaffed.modLane 0 fun n => { n with bagCheck := { bagAwaiting with state := .arming, placement := none } },
     0, by decide⟩,
   ⟨selfWith (bagAt .settled) [] none, 0, 85000, by decide⟩,
   ⟨selfWith (bagAt .settled) [] none, 0, 85000, by decide⟩,
   ⟨selfWith (bagAt .settled) [] none, 0, 85000, by decide⟩,
   ⟨selfWith (bagAt .unexpected) [] none, 0, 85000, by decide⟩,
   ⟨awaitingStaffed, 0, 85000, 0, entryA, by decide⟩,
   ⟨awaitingStaffed.modLane 0 fun n => { n with bagCheck := { bagAwaiting with state := .awaitingRemoval, placement := none, removal := some 20000 }, entries := [{ entryA with bag := .removing }] },
     0, 85000, 0, { entryA with bag := .removing }, by decide⟩⟩

theorem witness_CapturesTakeOneCertifiedReading :
    (∃ (s : State) (l : LaneId) (k : Calib), s.Runs l ∧ (s.chan l .platter).state = .running ∧
      (s.chan l .platter).cause = .noCause ∧ (s.chan l .platter).ret = none ∧ (s.chan l .platter).calib = some k ∧
      1 ≤ (s.chan l .platter).stabilityLength) ∧
    (∃ (s : State) (l : LaneId) (w : WeighRequest), (s.lane l).weigh = some w) ∧
    (∃ (s : State) (l : LaneId) (k : Calib) (g : Int) (w : WeighRequest), (s.lane l).weigh = some w ∧
      (s.lane l).mode ≠ .closed ∧ (g ≤ ((5 * k.d1 : Nat) : Int) ∨ (s.lane l).armed = true)) ∧
    (∃ (s : State) (l : LaneId) (k : Calib) (g : Int) (w : WeighRequest), (s.lane l).weigh = some w ∧
      (s.lane l).mode ≠ .closed ∧ (g ≤ ((5 * k.d1 : Nat) : Int) ∨ (s.lane l).armed = true) ∧ LogLaw s) ∧
    (∃ (s : State) (l : LaneId) (w : WeighRequest), s.Runs l ∧ (s.lane l).weigh = some w ∧ w.timer.isSome = true) :=
  ⟨⟨running, 0, cal0, by decide⟩,
   ⟨lane0 fun n => { n with weigh := some ⟨5, 349, none, none, false, some 30000, false, .noReading⟩, armed := true },
     0, ⟨5, 349, none, none, false, some 30000, false, .noReading⟩, by decide⟩,
   ⟨lane0 fun n => { n with weigh := some ⟨5, 349, none, none, false, some 30000, false, .noReading⟩, armed := true },
     0, cal0, 2000, ⟨5, 349, none, none, false, some 30000, false, .noReading⟩, by decide⟩,
   ⟨lane0 fun n => { n with weigh := some ⟨5, 349, none, none, false, some 30000, false, .noReading⟩, armed := true },
     0, cal0, 1103200, ⟨5, 349, none, none, false, some 30000, false, .noReading⟩, by decide, by decide, by decide,
     by unfold LogLaw; decide⟩,
   ⟨lane0 fun n => { n with weigh := some ⟨5, 349, none, none, false, some 30000, false, .noReading⟩, armed := true },
     0, ⟨5, 349, none, none, false, some 30000, false, .noReading⟩, by decide⟩⟩

theorem witness_SwipesAreAssembledAndJudged :
    (∃ (s : State) (l : LaneId), s.Runs l ∧ (s.lane l).card.assembling = false) ∧
    (∃ (s : State) (l : LaneId), s.Runs l ∧ (s.lane l).card.assembling = false) ∧
    (∃ (s : State) (l : LaneId), s.Runs l ∧ (s.lane l).card.assembling = true ∧ 40 ≤ (s.lane l).card.buffer.length) ∧
    (∃ (s : State) (l : LaneId), s.Runs l ∧ (s.lane l).card.assembling = true ∧ (s.lane l).card.buffer.length < 40 ∧
      (s.lane l).card.buffer.getLast? ≠ some 15) ∧
    (∃ (s : State) (l : LaneId), s.Runs l ∧ (s.lane l).card.assembling = true ∧ (s.lane l).card.buffer.length < 40 ∧
      (s.lane l).card.buffer.getLast? = some 15) ∧
    (∃ (s : State) (l : LaneId), s.Runs l ∧ (s.lane l).card.gap.isSome = true) :=
  ⟨⟨base, 0, by decide⟩,
   ⟨base, 0, by decide⟩,
   ⟨lane0 fun n => { n with card := { n.card with assembling := true, buffer := 11 :: List.replicate 39 5 } }, 0,
     by decide⟩,
   ⟨lane0 fun n => { n with card := { n.card with assembling := true, buffer := [11, 6] } }, 0, by decide⟩,
   ⟨lane0 fun n => { n with card := { n.card with assembling := true, buffer := [11, 15] } }, 0, by decide⟩,
   ⟨lane0 fun n => { n with card := { n.card with assembling := true, buffer := [11], gap := some 50 } }, 0, by decide⟩⟩

theorem witness_SwipesAreClassifiedByTheRangeTable :
    (∃ (s : State) (w : Swipe), ∀ r ∈ s.ranges, ¬ (r.low ≤ digitsValue (w.account.take 8) ∧
      digitsValue (w.account.take 8) ≤ r.high)) ∧
    (∃ (s : State) (w : Swipe) (r : CardRange),
      (s.ranges.find? fun r => decide (r.low ≤ digitsValue (w.account.take 8) ∧
      digitsValue (w.account.take 8) ≤ r.high)) = some r ∧ r.cardClass ≠ .noClass) :=
  ⟨⟨base, ⟨[6,0,1,2,3,4,5,6,7,8,9,4], 29, 12, [1,0,1], [7]⟩, by decide⟩,
   ⟨{ sold with ranges := [⟨60000000, 60999999, .payment, 6, 4, true⟩], date := some ⟨26, 3, 1⟩ },
     ⟨[6,0,1,2,3,4,5,6,7,8,9,4], 29, 12, [1,0,1], [7]⟩, ⟨60000000, 60999999, .payment, 6, 4, true⟩, by decide⟩⟩

theorem witness_PaymentVerdictsEndTheHandOff :
    (∃ (s : State) (f : InFlight) (x : Slot) (addr tag : Byte), s.power = .running ∧ s.pay.inFlight = some f ∧
      (s.lane f.lane).card.slot = some x ∧ addr = laneAddr f.lane ∧ tag.toNat = f.number) ∧
    (∃ (s : State) (f : InFlight) (x : Slot) (addr tag : Byte), s.power = .running ∧ s.pay.inFlight = some f ∧
      (s.lane f.lane).card.slot = some x ∧ addr = laneAddr f.lane ∧ tag.toNat = f.number) ∧
    (∃ (s : State) (f : InFlight) (x : Slot), s.power = .running ∧ s.pay.inFlight = some f ∧
      (s.lane f.lane).card.slot = some x ∧ s.pay.response.isSome = true) ∧
    (∃ (s : State) (addr tag : Byte), s.power = .running ∧ (∀ f ∈ s.pay.inFlight, ¬ (addr = laneAddr f.lane ∧
      tag.toNat = f.number))) ∧
    (∃ (s : State) (addr tag : Byte), s.power = .running ∧ (∀ f ∈ s.pay.inFlight, ¬ (addr = laneAddr f.lane ∧
      tag.toNat = f.number))) ∧
    (∃ (s : State) (l : LaneId), s.Serves l) ∧
    (∃ (s : State) (l : LaneId), s.Serves l) ∧
    (∃ (s : State) (l : LaneId), s.Serves l) :=
  ⟨⟨handed, ⟨0, 1, 100⟩, { slotA with phase := .inFlight }, 0, 1, by decide⟩,
   ⟨handed, ⟨0, 1, 100⟩, { slotA with phase := .inFlight }, 0, 1, by decide⟩,
   ⟨handed, ⟨0, 1, 100⟩, { slotA with phase := .inFlight }, by decide⟩,
   ⟨base, 4, 1, by decide⟩,
   ⟨handed, 1, 1, by decide⟩,
   ⟨base, 0, by decide⟩,
   ⟨waiting, 0, by decide⟩,
   ⟨handed, 0, by decide⟩⟩

theorem witness_DrawerRequestsAreAuthorised :
    (∃ (s : State) (l : LaneId), s.Serves l) ∧
    (∃ (s : State) (l : LaneId), s.Serves l) ∧
    (∃ (s : State) (l : LaneId), s.Serves l ∧ SolenoidLaw s ∧ (s.lane l).till.state = .closed ∧
      (((s.lane l).mode = .attended ∧ (s.lane l).token = true) ∨ (s.lane l).authority ≠ none)) ∧
    (∃ (s : State) (l : LaneId), s.Serves l ∧ SolenoidLaw s ∧ (s.lane l).till.state = .closed ∧
      (((s.lane l).mode = .attended ∧ (s.lane l).token = true) ∨ (s.lane l).authority ≠ none)) ∧
    (∃ (s : State) (l : LaneId), s.Serves l) ∧
    (∃ (s : State) (l : LaneId), s.Serves l) :=
  ⟨⟨base, 0, by decide⟩,
   ⟨releasing, 0, by decide⟩,
   ⟨lane0 fun n => { n with token := true }, 0, by decide, by unfold SolenoidLaw TillLaw; decide, by decide, by decide⟩,
   ⟨lane0 fun n => { n with authority := some ⟨.host, 7, some 60000⟩ }, 0, by decide,
     by unfold SolenoidLaw TillLaw; decide, by decide, by decide⟩,
   ⟨base, 0, by decide⟩,
   ⟨lane0 fun n => { n with till := { n.till with state := .fault } }, 0, by decide⟩⟩

theorem witness_DrawerReleasesRunTheirTimers :
    (∃ (s : State) (l : LaneId), s.Runs l) ∧
    (∃ (s : State) (l : LaneId), s.Runs l ∧ (s.lane l).till.debounce.isSome = true) ∧
    (∃ (s : State) (l : LaneId), s.Runs l ∧ (s.lane l).till.pulse.isSome = true) ∧
    (∃ (s : State) (l : LaneId), s.Runs l ∧ (s.lane l).till.check.isSome = true) ∧
    (∃ (s : State) (l : LaneId), s.Runs l ∧ (s.lane l).till.leftOpen.isSome = true) :=
  ⟨⟨base, 0, by decide⟩,
   ⟨lane0 fun n => { n with till := { n.till with rawHigh := true, debounce := some 20 } }, 0, by decide⟩,
   ⟨releasing, 0, by decide⟩,
   ⟨lane0 fun n => { n with till := { n.till with state := .checking, check := some 150 } }, 0, by decide⟩,
   ⟨lane0 fun n => { n with till := { n.till with state := .opened, leftOpen := some 30000 } }, 0, by decide⟩⟩

theorem witness_PrintJobsAreBuiltAndCancelled :
    (∃ (s : State) (l : LaneId), s.Serves l) ∧
    (∃ (s : State) (l : LaneId), s.Serves l) ∧
    (∃ (s : State) (l : LaneId), s.Serves l ∧ (∀ j ∈ (s.lane l).jobs, j.state ≠ .filling) ∧
      (s.lane l).jobs.length < 4 ∧ (s.lane l).jobCounter ≤ 255) ∧
    (∃ (s : State) (l : LaneId) (job : Byte) (octets : List Byte), s.Serves l ∧ 1 ≤ octets.length ∧
      octets.length ≤ 236 ∧ (∀ j ∈ (s.lane l).jobs, j.state = .filling → j.number ≠ job.toNat)) ∧
    (∃ (s : State) (l : LaneId) (job : Byte) (octets : List Byte) (j : Job), s.Serves l ∧ PrintLaw s ∧
      1 ≤ octets.length ∧ octets.length ≤ 236 ∧ j ∈ (s.lane l).jobs ∧ j.state = .filling ∧ j.number = job.toNat) ∧
    (∃ (s : State) (l : LaneId) (job : Byte) (j : Job), s.Serves l ∧ PrintLaw s ∧ j ∈ (s.lane l).jobs ∧
      j.state = .filling ∧ j.number = job.toNat) ∧
    (∃ (s : State) (l : LaneId) (job : Byte) (j : Job), s.Serves l ∧ PrintLaw s ∧ j ∈ (s.lane l).jobs ∧
      j.number = job.toNat) ∧
    (∃ (s : State) (l : LaneId) (job : Byte), s.Serves l ∧ (∀ j ∈ (s.lane l).jobs, j.number ≠ job.toNat)) :=
  ⟨⟨base, 0, by decide⟩,
   ⟨filling, 0, by decide⟩,
   ⟨base, 0, by decide⟩,
   ⟨filling, 0, 2, [65], by decide⟩,
   ⟨filling, 0, 1, [0x41, 0x1E, 0, 3], newJob 1, by decide, by unfold PrintLaw; decide, by decide, by decide,
     by decide, by decide⟩,
   ⟨filling, 0, 1, newJob 1, by decide, by unfold PrintLaw; decide, by decide, by decide, by decide⟩,
   ⟨filling, 0, 1, newJob 1, by decide, by unfold PrintLaw; decide, by decide, by decide⟩,
   ⟨base, 0, 0, by decide⟩⟩

theorem witness_PrinterAnswersMoveTheJob :
    (∃ (s : State) (l : LaneId) (tag : Byte), s.Runs l ∧ (∀ x ∈ (s.lane l).port.exchange, tag.toNat ≠ x.number)) ∧
    (∃ (s : State) (l : LaneId) (tag : Byte) (x : Exchange), s.Runs l ∧ (s.lane l).port.exchange = some x ∧
      tag.toNat = x.number ∧ (x.owner = .owedCut ∨ x.owner = .nobody)) ∧
    (∃ (s : State) (l : LaneId) (tag : Byte) (x : Exchange), s.Runs l ∧ (s.lane l).port.exchange = some x ∧
      tag.toNat = x.number ∧ (x.owner = .owedCut ∨ x.owner = .nobody)) ∧
    (∃ (s : State) (l : LaneId) (tag : Byte) (x : Exchange) (j : Job) (cells : List Cell) (column done : Nat) (block2 : Option Nat),
      s.Runs l ∧ (s.lane l).port.exchange = some x ∧ tag.toNat = x.number ∧ PrintLaw s ∧ j ∈ (s.lane l).jobs ∧
      x.owner = .job j.number ∧ j.current = some (.line cells column block2 done)) ∧
    (∃ (s : State) (l : LaneId) (tag : Byte) (x : Exchange) (j : Job), s.Runs l ∧ (s.lane l).port.exchange = some x ∧
      tag.toNat = x.number ∧ PrintLaw s ∧ j ∈ (s.lane l).jobs ∧ x.owner = .job j.number ∧ j.current = some .cut) ∧
    (∃ (s : State) (l : LaneId) (x : Exchange) (j : Job), s.Runs l ∧ (s.lane l).port.exchange = some x ∧ PrintLaw s ∧
      j ∈ (s.lane l).jobs ∧ x.owner = .job j.number) ∧
    (∃ (s : State) (l : LaneId) (x : Exchange), s.Runs l ∧ (s.lane l).port.exchange = some x ∧
      (s.lane l).port.answer.isSome = true ∧ (x.owner = .owedCut ∨ x.owner = .nobody)) ∧
    (∃ (s : State) (l : LaneId) (report : PrinterReport), s.Runs l ∧ (report = .ready ∨ report = .paperLow) ∧
      (∀ j ∈ (s.lane l).jobs, j.state ≠ .suspended)) ∧
    (∃ (s : State) (l : LaneId) (report : PrinterReport) (j : Job), s.Runs l ∧ PrintLaw s ∧ (report = .ready ∨
      report = .paperLow) ∧ j ∈ (s.lane l).jobs ∧ j.state = .suspended) ∧
    (∃ (s : State) (l : LaneId) (report : PrinterReport), s.Runs l ∧ (report = .paperOut ∨ report = .coverOpen) ∧
      (∀ j ∈ (s.lane l).jobs, j.state ≠ .printing)) ∧
    (∃ (s : State) (l : LaneId) (report : PrinterReport) (j : Job), s.Runs l ∧ PrintLaw s ∧ (report = .paperOut ∨
      report = .coverOpen) ∧ j ∈ (s.lane l).jobs ∧ j.state = .printing) ∧
    (∃ (s : State) (l : LaneId), s.Runs l ∧ (s.lane l).port.silence.isSome = true) ∧
    (∃ (s : State) (l : LaneId), s.Runs l ∧ (s.lane l).port.silence.isSome = true) :=
  ⟨⟨base, 0, 1, by decide⟩,
   ⟨lane0 fun n => { n with port := { Port.blank with state := .ready, silence := some 2000, exchange := some ⟨⟨0, 0xC1, 1, []⟩, 1, .owedCut⟩, answer := some 2000, counter := 1, cutOwed := true } },
     0, 1, ⟨⟨0, 0xC1, 1, []⟩, 1, .owedCut⟩, by decide⟩,
   ⟨lane0 fun n => { n with port := { Port.blank with state := .ready, silence := some 2000, exchange := some ⟨⟨0, 0xC1, 1, []⟩, 1, .nobody⟩, answer := some 2000, counter := 1, cutOwed := true } },
     0, 1, ⟨⟨0, 0xC1, 1, []⟩, 1, .nobody⟩, by decide⟩,
   ⟨printing, 0, 1, ⟨⟨0, 0xC0, 1, [0, 1, 65, 0]⟩, 1, .job 1⟩, printingJob, [.char 65 Attr.off], 0, 0, none, by decide,
     by decide, by decide, by unfold PrintLaw; decide, by decide, by decide, by decide⟩,
   ⟨lane0 fun n => { n with jobs := [{ newJob 1 with state := .printing, stream := [65, 10], position := 2, current := some .cut, lastSent := .line }], jobCounter := 1, port := busyPort },
     0, 1, ⟨⟨0, 0xC0, 1, [0, 1, 65, 0]⟩, 1, .job 1⟩,
     { newJob 1 with state := .printing, stream := [65, 10], position := 2, current := some .cut, lastSent := .line },
     by decide, by decide, by decide, by unfold PrintLaw; decide, by decide, by decide, by decide⟩,
   ⟨printing, 0, ⟨⟨0, 0xC0, 1, [0, 1, 65, 0]⟩, 1, .job 1⟩, printingJob, by decide, by decide,
     by unfold PrintLaw; decide, by decide, by decide⟩,
   ⟨lane0 fun n => { n with port := { Port.blank with state := .ready, silence := some 2000, exchange := some ⟨⟨0, 0xC1, 1, []⟩, 1, .owedCut⟩, answer := some 2000, counter := 1, cutOwed := true } },
     0, ⟨⟨0, 0xC1, 1, []⟩, 1, .owedCut⟩, by decide⟩,
   ⟨base, 0, .ready, by decide⟩,
   ⟨lane0 fun n => { n with jobs := [{ newJob 1 with state := .suspended, stream := [65, 10], position := 2, current := some (.line [.char 65 Attr.off] 0 none 0), lastSent := .line }], jobCounter := 1, port := { Port.blank with state := .ready, silence := some 2000, exchange := none, answer := none, counter := 1 } },
     0, .paperLow,
     { newJob 1 with state := .suspended, stream := [65, 10], position := 2, current := some (.line [.char 65 Attr.off] 0 none 0), lastSent := .line },
     by decide, by unfold PrintLaw; decide, by decide, by decide, by decide⟩,
   ⟨base, 0, .coverOpen, by decide⟩,
   ⟨printing, 0, .paperOut, printingJob, by decide, by unfold PrintLaw; decide, by decide, by decide, by decide⟩,
   ⟨base, 0, by decide⟩,
   ⟨printing, 0, by decide⟩⟩

theorem witness_ThePortSendsTheNextFrame :
    (∃ (s : State) (l : LaneId), ((s.lane l).port.exchange ≠ none ∨ ((s.lane l).port.state ≠ .ready ∧
      (s.lane l).port.state ≠ .paperLow)) ∧ ((∃ j ∈ (s.lane l).jobs, j.state = .printing ∨ j.state = .suspended) ∨
      ∀ j ∈ (s.lane l).jobs, j.state ≠ .ready)) ∧
    (∃ (s : State) (l : LaneId), (s.lane l).port.exchange = none ∧ ((s.lane l).port.state = .ready ∨
      (s.lane l).port.state = .paperLow) ∧ ((∃ j ∈ (s.lane l).jobs, j.state = .printing ∨ j.state = .suspended) ∨
      ∀ j ∈ (s.lane l).jobs, j.state ≠ .ready) ∧ ((s.lane l).port.cutOwed = true ∨ ∀ j ∈ (s.lane l).jobs,
      j.state ≠ .printing)) ∧
    (∃ (s : State) (l : LaneId) (j : Job) (f : JobFrame), (s.lane l).port.exchange = none ∧
      ((s.lane l).port.state = .ready ∨ (s.lane l).port.state = .paperLow) ∧ PrintLaw s ∧ j ∈ (s.lane l).jobs ∧
      j.state = .printing ∧ (s.lane l).port.cutOwed = false ∧ j.current = some f) ∧
    (∃ (s : State) (l : LaneId) (j r : Job), (s.lane l).port.exchange = none ∧ ((s.lane l).port.state = .ready ∨
      (s.lane l).port.state = .paperLow) ∧ PrintLaw s ∧ j ∈ (s.lane l).jobs ∧ j.state = .printing ∧
      (s.lane l).port.cutOwed = false ∧ j.current = none ∧ renderNext ⟨s.glyphs, s.settings.moneyDecimals,
      (s.lane l).log⟩ j = some r) ∧
    (∃ (s : State) (l : LaneId) (j : Job), (s.lane l).port.exchange = none ∧ ((s.lane l).port.state = .ready ∨
      (s.lane l).port.state = .paperLow) ∧ PrintLaw s ∧ j ∈ (s.lane l).jobs ∧ j.state = .printing ∧
      (s.lane l).port.cutOwed = false ∧ j.current = none ∧ renderNext ⟨s.glyphs, s.settings.moneyDecimals,
      (s.lane l).log⟩ j = none) ∧
    (∃ (s : State) (l : LaneId) (j : Job), (s.lane l).port.exchange = none ∧ ((s.lane l).port.state = .ready ∨
      (s.lane l).port.state = .paperLow) ∧ PrintLaw s ∧ j ∈ (s.lane l).jobs ∧ j.state = .printing ∧
      (s.lane l).port.cutOwed = false ∧ j.current = none ∧ renderNext ⟨s.glyphs, s.settings.moneyDecimals,
      (s.lane l).log⟩ j = none) ∧
    (∃ (s : State) (l : LaneId) (j : Job), (∀ y ∈ (s.lane l).jobs, y.state ≠ .printing ∧ y.state ≠ .suspended) ∧
      ((s.lane l).jobs.find? fun y => y.state == .ready) = some j ∧ (s.lane l).port.state ≠ .paperOut ∧
      (s.lane l).port.state ≠ .coverOpen ∧ (s.lane l).port.state ≠ .offline ∧ PrintLaw s) ∧
    (∃ (s : State) (l : LaneId) (j : Job), (∀ y ∈ (s.lane l).jobs, y.state ≠ .printing ∧ y.state ≠ .suspended) ∧
      ((s.lane l).jobs.find? fun y => y.state == .ready) = some j ∧ ((s.lane l).port.state = .paperOut ∨
      (s.lane l).port.state = .coverOpen ∨ (s.lane l).port.state = .offline) ∧ PrintLaw s) ∧
    (∃ (s : State) (l : LaneId) (j : Job), (∀ y ∈ (s.lane l).jobs, y.state ≠ .printing ∧ y.state ≠ .suspended) ∧
      ((s.lane l).jobs.find? fun y => y.state == .ready) = some j ∧ ((s.lane l).port.state = .paperOut ∨
      (s.lane l).port.state = .coverOpen ∨ (s.lane l).port.state = .offline) ∧ PrintLaw s) ∧
    (∃ (s : State) (l : LaneId) (j : Job), (∀ y ∈ (s.lane l).jobs, y.state ≠ .printing ∧ y.state ≠ .suspended) ∧
      ((s.lane l).jobs.find? fun y => y.state == .ready) = some j ∧ ((s.lane l).port.state = .paperOut ∨
      (s.lane l).port.state = .coverOpen ∨ (s.lane l).port.state = .offline) ∧ PrintLaw s) ∧
    (∃ (i : RenderInputs) (j r : Job) (cells : List Cell) (column done : Nat) (block2 : Option Nat),
      renderNext i j = some r ∧ r.current = some (.line cells column block2 done) ∧ i.decimals ≤ 3 ∧ (∀ c ∈ i.log,
      c.number ≤ 65535 ∧ c.net ≤ 60000000 ∧ (c.net % 1000 = 0 ∨ c.net < 10000000) ∧ c.tare ≤ 60000000 ∧ c.d ≤ 50000 ∧
      c.unitPrice ≤ 999999 ∧ c.price ≤ 9999999)) ∧
    (∃ (cells : List Cell), ∀ c ∈ cells, (cellOctets c).length ≤ 74) :=
  ⟨⟨printing, 0, by decide⟩,
   ⟨lane0 fun n => { n with jobs := [printingJob], jobCounter := 1, port := { Port.blank with state := .ready, cutOwed := true, silence := some 2000, counter := 1 } },
     0, by decide⟩,
   ⟨lane0 fun n => { n with jobs := [printingJob], jobCounter := 1, port := { Port.blank with state := .ready, silence := some 2000, counter := 1 } },
     0, printingJob, (.line [.char 65 Attr.off] 0 none 0), by decide, by decide, by unfold PrintLaw; decide, by decide,
     by decide, by decide, by decide⟩,
   ⟨lane0 fun n => { n with jobs := [{ newJob 1 with state := .printing, stream := [65, 10], current := none }], jobCounter := 1, port := { Port.blank with state := .ready, silence := some 2000, counter := 1 } },
     0, { newJob 1 with state := .printing, stream := [65, 10], current := none },
     { newJob 1 with state := .printing, stream := [65, 10], position := 2, current := some (.line [.char 65 Attr.off] 0 none 0) },
     by decide, by decide, by unfold PrintLaw; decide, by decide, by decide, by decide, by decide, by decide⟩,
   ⟨lane0 fun n => { n with jobs := [{ newJob 1 with state := .printing, stream := [65, 10], position := 2, current := none, lines := 1, endCut := true }], jobCounter := 1, port := { Port.blank with state := .ready, silence := some 2000, counter := 1 } },
     0,
     { newJob 1 with state := .printing, stream := [65, 10], position := 2, current := none, lines := 1, endCut := true },
     by decide, by decide, by unfold PrintLaw; decide, by decide, by decide, by decide, by decide, by decide⟩,
   ⟨lane0 fun n => { n with jobs := [{ newJob 1 with state := .printing, stream := [65, 10], position := 2, current := none, lines := 1, endCut := true }, { newJob 2 with state := .ready }], jobCounter := 1, port := { Port.blank with state := .ready, silence := some 2000, counter := 1 } },
     0,
     { newJob 1 with state := .printing, stream := [65, 10], position := 2, current := none, lines := 1, endCut := true },
     by decide, by decide, by unfold PrintLaw; decide, by decide, by decide, by decide, by decide, by decide⟩,
   ⟨lane0 fun n => { n with jobs := [{ newJob 1 with state := .ready, stream := [65, 10], position := 2, current := some (.line [.char 65 Attr.off] 0 none 0), lastSent := .line }], jobCounter := 1, port := { Port.blank with state := .ready, silence := some 2000, counter := 1 } },
     0,
     { newJob 1 with state := .ready, stream := [65, 10], position := 2, current := some (.line [.char 65 Attr.off] 0 none 0), lastSent := .line },
     by decide, by decide, by decide, by unfold PrintLaw; decide⟩,
   ⟨lane0 fun n => { n with jobs := [{ newJob 1 with state := .ready, lines := 3 }], port := { Port.blank with state := .paperOut } },
     0, { newJob 1 with state := .ready, lines := 3 }, by decide, by decide, by decide, by unfold PrintLaw; decide⟩,
   ⟨lane0 fun n => { n with jobs := [{ newJob 1 with state := .ready, lines := 3 }], port := { Port.blank with state := .coverOpen } },
     0, { newJob 1 with state := .ready, lines := 3 }, by decide, by decide, by decide, by unfold PrintLaw; decide⟩,
   ⟨lane0 fun n => { n with jobs := [{ newJob 1 with state := .ready, lines := 3 }], port := { Port.blank with state := .offline } },
     0, { newJob 1 with state := .ready, lines := 3 }, by decide, by decide, by decide, by unfold PrintLaw; decide⟩,
   ⟨⟨[], 2, []⟩, { newJob 1 with state := .printing, stream := [65, 10], current := none },
     { newJob 1 with state := .printing, stream := [65, 10], position := 2, current := some (.line [.char 65 Attr.off] 0 none 0) },
     [.char 65 Attr.off], 0, 0, none, by decide⟩,
   ⟨[.char 65 Attr.off], by decide⟩⟩

end Sys2Proof.Tests
end

