-- ==== Sys2Proof/Proofs/Channels.lean ====
section
/-! SUPPORT. What leaves every weighing channel and the calibration write alone: one lemma per operation of the other
blocks. -/

namespace Sys2Proof.Machine

/-! ## The relation -/

/-- Two lanes with the same channels. -/
abbrev SameScales (n m : Lane) : Prop := m.platter = n.platter ∧ m.bag = n.bag

/-- Two states with the same channels and the same calibration write in progress. -/
abbrev SameChannels (s t : State) : Prop := (∀ l c, t.chan l c = s.chan l c) ∧ t.calWrite = s.calWrite

/-- The channels are read from the lanes alone. -/
theorem sameChannels_of_lanes {s t : State} (hl : t.lanes = s.lanes) (hw : t.calWrite = s.calWrite) : SameChannels s t :=
  ⟨fun l c => by rw [State.chan, State.lane, hl]; rfl, hw⟩

theorem SameChannels.trans {s t u : State} (h : SameChannels s t) (k : SameChannels t u) : SameChannels s u :=
  ⟨fun l c => (k.1 l c).trans (h.1 l c), k.2.trans h.2⟩

theorem SameScales.chan {n m : Lane} (h : SameScales n m) (c : Chan) : m.chan c = n.chan c := by
  cases c
  · exact h.1
  · exact h.2

/-- A lane replaced by one with the same channels. -/
@[simp] theorem setLane_sameChannels (s : State) (l : LaneId) (n : Lane) (hp : n.platter = (s.lane l).platter)
    (hb : n.bag = (s.lane l).bag) : SameChannels s (s.setLane l n) := by
  refine ⟨fun m c => ?_, rfl⟩
  by_cases hm : m = l
  · subst hm
    rw [State.chan, lane_setLane_same, SameScales.chan ⟨hp, hb⟩ c]
    rfl
  · rw [State.chan, lane_setLane_ne s l m n hm]
    rfl

@[simp] theorem modLane_sameChannels (s : State) (l : LaneId) (g : Lane → Lane)
    (hp : (g (s.lane l)).platter = (s.lane l).platter) (hb : (g (s.lane l)).bag = (s.lane l).bag) :
    SameChannels s (s.modLane l g) :=
  setLane_sameChannels s l _ hp hb

@[simp] theorem setTill_sameChannels (s : State) (l : LaneId) (t : Till) : SameChannels s (s.setTill l t) :=
  modLane_sameChannels s l _ rfl rfl

@[simp] theorem setBag_sameChannels (s : State) (l : LaneId) (x : BagCheck) : SameChannels s (s.setBag l x) :=
  modLane_sameChannels s l _ rfl rfl

@[simp] theorem setPort_sameChannels (s : State) (l : LaneId) (p : Port) : SameChannels s (s.setPort l p) :=
  modLane_sameChannels s l _ rfl rfl

@[simp] theorem setCard_sameChannels (s : State) (l : LaneId) (u : CardUnit) : SameChannels s (s.setCard l u) :=
  modLane_sameChannels s l _ rfl rfl

@[simp] theorem setAttention_sameChannels (s : State) (l : LaneId) (a : Attention) : SameChannels s (s.setAttention l a) :=
  modLane_sameChannels s l _ rfl rfl

/-! ## The upstream queue and the conditions -/

@[simp] theorem enqueue_sameChannels (s : State) (f : Frame) : SameChannels s (s.enqueue f) := ⟨fun _ _ => rfl, rfl⟩

@[simp] theorem raiseLane_sameChannels (s : State) (l : LaneId) (c : LaneCond) : SameChannels s (s.raiseLane l c) := by
  obtain h | ⟨a, h | ⟨f, -, h⟩⟩ := raiseLane_cases s l c <;> rw [h] <;> simp [SameChannels]

@[simp] theorem raisePart_sameChannels (s : State) (c : PartCond) : SameChannels s (s.raisePart c) := by
  obtain h | ⟨a, h | ⟨f, -, h⟩⟩ := raisePart_cases s c <;> rw [h] <;> exact sameChannels_of_lanes rfl rfl

@[simp] theorem offerLane_sameChannels (s : State) (l : LaneId) (k : Byte) (p : List Byte) :
    SameChannels s (s.offerLane l k p) := by
  unfold State.offerLane
  split <;> simp [SameChannels]

@[simp] theorem offerPart_sameChannels (s : State) (k : Byte) (p : List Byte) : SameChannels s (s.offerPart k p) := by
  unfold State.offerPart
  split <;> simp [SameChannels]

@[simp] theorem offerDisplay_sameChannels (s : State) (l : LaneId) (c : Chan) (d : Display) :
    SameChannels s (s.offerDisplay l c d).2 := by
  obtain ⟨q, h, -⟩ := offerDisplay_cases s l c d
  rw [h]
  exact sameChannels_of_lanes rfl rfl

/-! ## The payment link -/

@[simp] theorem Lane.setSlot_sameScales (n : Lane) (o : Option Slot) : SameScales n (n.setSlot o) := ⟨rfl, rfl⟩

@[simp] theorem transmit_sameChannels (s : State) (f : Frame) : SameChannels s (s.transmit f) :=
  sameChannels_of_lanes rfl rfl

@[simp] theorem grant_sameChannels (s : State) (l : LaneId) (x : Slot) : SameChannels s (s.grant l x) :=
  (sameChannels_of_lanes rfl rfl).trans (modLane_sameChannels _ l _ rfl rfl)

@[simp] theorem tryGrant_sameChannels (s : State) : SameChannels s s.tryGrant := by
  unfold State.tryGrant
  split
  · simp [SameChannels]
  · split
    · simp [SameChannels]
    · split <;> simp [SameChannels]

@[simp] theorem offerResult_sameChannels (s : State) (l : LaneId) (r : CardResult) : SameChannels s (s.offerResult l r) := by
  simp [SameChannels, State.offerResult]

@[simp] theorem handoffEnd_sameChannels (s : State) (f : InFlight) (x : Slot) (o : HandoffOutcome) (rcv : Option Byte)
    (a : Option Approval) : SameChannels s (s.handoffEnd f x o rcv a) := by
  have ended (u : State) (p : PayLink) (r : CardResult) :
      SameChannels u ((State.offerResult { u with pay := p } f.lane r).tryGrant) :=
    have hp : SameChannels u { u with pay := p } := sameChannels_of_lanes rfl rfl
    (hp.trans (offerResult_sameChannels _ f.lane r)).trans (tryGrant_sameChannels _)
  exact (modLane_sameChannels s f.lane (fun n => n.setSlot none) rfl rfl).trans (ended _ _ _)

@[simp] theorem stray_sameChannels (s : State) (r : ResultFrame) : SameChannels s (s.stray r) :=
  ((offerPart_sameChannels s _ _).trans (sameChannels_of_lanes rfl rfl)).trans (raisePart_sameChannels _ _)

@[simp] theorem verdict_sameChannels (s : State) (f : InFlight) (x : Slot) (r : ResultFrame) :
    SameChannels s (s.verdict f x r) := by
  unfold State.verdict
  dsimp only
  split <;> simp [SameChannels]

@[simp] theorem takeResult_sameChannels (s : State) (r : ResultFrame) : SameChannels s (s.takeResult r) := by
  unfold State.takeResult
  split
  · simp [SameChannels]
  · split
    · split <;> simp [SameChannels]
    · simp [SameChannels]

@[simp] theorem paymentArrive_sameChannels (s : State) (f : Frame) : SameChannels s (s.paymentArrive f) := by
  unfold State.paymentArrive
  split
  · exact sameChannels_of_lanes rfl rfl
  · simp [SameChannels]

@[simp] theorem paymentBroken_sameChannels (s : State) (cause : PaymentDiscard) : SameChannels s (s.paymentBroken cause) := by
  have hd : SameChannels s s.paymentDiscarded := sameChannels_of_lanes rfl rfl
  cases cause with
  | gap => exact hd
  | length => exact hd
  | check => exact hd
  | kind f => exact paymentArrive_sameChannels s f
  | payloadLength f => exact paymentArrive_sameChannels s f

@[simp] theorem responseExpires_sameChannels (s : State) : SameChannels s s.responseExpires := by
  unfold State.responseExpires
  split
  · simp [SameChannels]
  · split
    · simp [SameChannels]
    · split
      · simp [SameChannels]
      · dsimp only
        split <;> simp [SameChannels]

@[simp] theorem paymentSent_sameChannels (s : State) : SameChannels s s.paymentSent := by
  unfold State.paymentSent
  split
  · simp [SameChannels]
  · have hq (t : List Frame) : SameChannels s { s with pay := { s.pay with transmit := t } } := sameChannels_of_lanes rfl rfl
    dsimp only
    split
    · exact (hq _).trans (tryGrant_sameChannels _)
    · exact hq _

/-! ## The bag check -/

@[simp] theorem Lane.setEntryBag_sameScales (n : Lane) (pos : Nat) (b : BagState) : SameScales n (n.setEntryBag pos b) :=
  ⟨rfl, rfl⟩

@[simp] theorem Lane.endAwaited_sameScales (n : Lane) : SameScales n n.endAwaited := by
  unfold Lane.endAwaited
  split
  · simp [SameScales]
  · split <;> simp [SameScales]

@[simp] theorem Lane.leaveSelf_sameScales (n : Lane) : SameScales n (Lane.bagModeChange.leaveSelf n) := by
  unfold Lane.bagModeChange.leaveSelf
  dsimp only
  split
  · simp [SameScales]
  · split <;> simp [SameScales]

@[simp] theorem Lane.enterSelf_sameScales (n : Lane) : SameScales n (Lane.bagModeChange.enterSelf n) := by
  unfold Lane.bagModeChange.enterSelf
  split <;> simp [SameScales]

@[simp] theorem Lane.bagModeChange_sameScales (n : Lane) (a b : LaneMode) : SameScales n (n.bagModeChange a b) := by
  unfold Lane.bagModeChange
  split <;> simp [SameScales]

@[simp] theorem Lane.bagReset_sameScales (n : Lane) : SameScales n n.bagReset := by
  unfold Lane.bagReset
  dsimp only
  split
  · split <;> simp [SameScales]
  · simp [SameScales]
  · simp [SameScales]

@[simp] theorem offerBag_sameChannels (s : State) (l : LaneId) (ev : BagEvent) (d : Option Int) (pos : Nat) :
    SameChannels s (s.offerBag l ev d pos) := by
  simp [SameChannels, State.offerBag]

@[simp] theorem expectPlacement_sameChannels (s : State) (l : LaneId) (pos : Nat) (e : Entry) :
    SameChannels s (s.expectPlacement l pos e) := by
  simp [SameChannels, State.expectPlacement]

@[simp] theorem expectRemoval_sameChannels (s : State) (l : LaneId) (pos : Nat) (e : Entry) :
    SameChannels s (s.expectRemoval l pos e) := by
  simp [SameChannels, State.expectRemoval]

@[simp] theorem bagHold_sameChannels (s : State) (l : LaneId) (b d : Option Int) : SameChannels s (s.bagHold l b d) := by
  simp [SameChannels, State.bagHold]

@[simp] theorem bagArmed_sameChannels (s : State) (l : LaneId) (g : Int) : SameChannels s (s.bagArmed l g) := by
  unfold State.bagArmed
  dsimp only
  split <;> simp [SameChannels]

@[simp] theorem bagSettled_sameChannels (s : State) (l : LaneId) (g : Int) : SameChannels s (s.bagSettled l g) := by
  unfold State.bagSettled
  dsimp only
  split
  · simp [SameChannels]
  · split <;> simp [SameChannels]

@[simp] theorem bagUnexpected_sameChannels (s : State) (l : LaneId) (g : Int) : SameChannels s (s.bagUnexpected l g) := by
  unfold State.bagUnexpected
  dsimp only
  split <;> simp [SameChannels]

@[simp] theorem bagExpecting_sameChannels (s : State) (l : LaneId) (g m : Int) (after : BagState) (ev : BagEvent) :
    SameChannels s (s.bagExpecting l g m after ev) := by
  unfold State.bagExpecting
  dsimp only
  split
  · simp [SameChannels]
  · split
    · simp [SameChannels]
    · split <;> simp [SameChannels]

@[simp] theorem bagStable_sameChannels (s : State) (l : LaneId) (g : Int) : SameChannels s (s.bagStable l g) := by
  unfold State.bagStable
  dsimp only
  split <;> simp [SameChannels]

@[simp] theorem bagReading_sameChannels (s : State) (l : LaneId) (g : Int) (stable : Bool) :
    SameChannels s (s.bagReading l g stable) := by
  unfold State.bagReading
  dsimp only
  split <;> simp [SameChannels]

@[simp] theorem placementExpires_sameChannels (s : State) (l : LaneId) : SameChannels s (s.placementExpires l) := by
  unfold State.placementExpires
  split <;> simp [SameChannels]

@[simp] theorem removalExpires_sameChannels (s : State) (l : LaneId) : SameChannels s (s.removalExpires l) := by
  unfold State.removalExpires
  split <;> simp [SameChannels]

@[simp] theorem bagCancel_sameChannels (s : State) (l : LaneId) (pos : Nat) : SameChannels s (s.bagCancel l pos) := by
  unfold State.bagCancel
  dsimp only
  split
  · split <;> simp [SameChannels]
  · simp [SameChannels]

@[simp] theorem bagOverridden_sameChannels (s : State) (l : LaneId) : SameChannels s (s.bagOverridden l) := by
  unfold State.bagOverridden
  dsimp only
  split <;> simp [SameChannels]

@[simp] theorem bagLoss_sameChannels (s : State) (l : LaneId) : SameChannels s (s.bagLoss l) := by
  unfold State.bagLoss
  dsimp only
  split <;> simp [SameChannels]

@[simp] theorem bagRecovery_sameChannels (s : State) (l : LaneId) : SameChannels s (s.bagRecovery l) := by
  unfold State.bagRecovery
  dsimp only
  split <;> simp [SameChannels]

/-! ## Weigh request, basket, captures -/

@[simp] theorem endWeigh_sameChannels (s : State) (l : LaneId) (o : WeighOutcome) : SameChannels s (s.endWeigh l o) := by
  unfold State.endWeigh
  split <;> simp [SameChannels]

@[simp] theorem weighExpires_sameChannels (s : State) (l : LaneId) : SameChannels s (s.weighExpires l) := by
  unfold State.weighExpires
  split
  · simp [SameChannels]
  · split <;> simp [SameChannels]

@[simp] theorem appendEntry_sameChannels (s : State) (l : LaneId) (e : Entry) : SameChannels s (s.appendEntry l e) := by
  unfold State.appendEntry
  dsimp only
  split <;> simp [SameChannels]

@[simp] theorem Lane.clearBasket_sameScales (n : Lane) : SameScales n n.clearBasket := ⟨rfl, rfl⟩

@[simp] theorem takeCapture_sameChannels (s : State) (l : LaneId) (w : WeighRequest) (t : CaptureTare) (price : Nat) :
    SameChannels s (s.takeCapture l w t price) := by
  simp [SameChannels, State.takeCapture]

@[simp] theorem noteFailure_sameChannels (s : State) (l : LaneId) (w : WeighRequest) (f : FailedTest) :
    SameChannels s (s.noteFailure l w f) := by
  unfold State.noteFailure
  dsimp only
  split <;> simp [SameChannels]

/-- What a platter reading leaves of the channels: all of them (R30, R31). -/
@[simp] theorem platterReading_sameChannels (s : State) (l : LaneId) (c : Calib) (r : Reading) (g : Int) :
    SameChannels s (s.platterReading l c r g) := by
  have test (u : State) : SameChannels u
      (match (u.lane l).weigh with
      | none => u
      | some w =>
        match captureTests (u.lane l) c w r g with
        | .fails f => u.noteFailure l w f
        | .refused o => u.endWeigh l o
        | .taken t p => u.takeCapture l w t p) := by
    split
    · simp [SameChannels]
    · split <;> simp [SameChannels]
  have armed : SameChannels s
      (if g ≤ ((5 * c.d1 : Nat) : Int) then s.modLane l fun n => { n with armed := true } else s) := by
    split <;> simp [SameChannels]
  exact armed.trans (test _)

@[simp] theorem handReading_sameChannels (s : State) (l : LaneId) (ch : Chan) (c : Calib) (r : Reading) (g : Int) :
    SameChannels s (s.handReading l ch c r g) := by
  cases ch <;> simp [SameChannels, State.handReading]

@[simp] theorem reportRunning_sameChannels (s : State) (l : LaneId) (ch : Chan) : SameChannels s (s.reportRunning l ch) := by
  cases ch <;> simp [SameChannels, State.reportRunning]

/-! ## Print jobs and the printer port -/

@[simp] theorem Lane.modHolds_sameScales (n : Lane) (num : Nat) (g : Nat → Nat) : SameScales n (n.modHolds num g) := ⟨rfl, rfl⟩

@[simp] theorem Lane.modJob_sameScales (n : Lane) (num : Nat) (g : Job → Job) : SameScales n (n.modJob num g) := ⟨rfl, rfl⟩

@[simp] theorem Lane.dropJob_sameScales (n : Lane) (num : Nat) : SameScales n (n.dropJob num) := ⟨rfl, rfl⟩

@[simp] theorem Lane.resolve_sameScales (n : Lane) (num : Nat) : SameScales n (n.resolve num).1 := by
  unfold Lane.resolve
  split
  · split <;> simp [SameScales]
  · simp [SameScales]

@[simp] theorem scanOctets_sameScales (n : Lane) (x : ScanState) (l : List Byte) : SameScales n (scanOctets n x l).1 := by
  induction l generalizing n x with
  | nil => exact ⟨rfl, rfl⟩
  | cons b l ih =>
    unfold scanOctets
    split
    · exact ih n _
    · obtain ⟨hp, hb⟩ := ih (n.resolve _).1 _
      exact ⟨hp.trans (Lane.resolve_sameScales n _).1, hb.trans (Lane.resolve_sameScales n _).2⟩

@[simp] theorem Lane.releaseHolds_sameScales (n : Lane) (refs : List Reference) : SameScales n (n.releaseHolds refs) := by
  unfold Lane.releaseHolds
  induction refs generalizing n with
  | nil => exact ⟨rfl, rfl⟩
  | cons r refs ih =>
    rw [List.foldl_cons]
    split
    · exact ih (n.modHolds _ _)
    · exact ih n
    · exact ih n

@[simp] theorem Lane.blockDone_sameScales (n : Lane) (num idx : Nat) : SameScales n (Lane.frameDone.blockDone n num idx) := by
  unfold Lane.frameDone.blockDone
  split
  · simp [SameScales]
  · split <;> simp [SameScales]

@[simp] theorem Lane.frameDone_sameScales (n : Lane) (num : Nat) : SameScales n (n.frameDone num) := by
  unfold Lane.frameDone
  split
  · simp [SameScales]
  · split
    · simp [SameScales]
    · simp [SameScales]
    · dsimp only
      split
      · split <;> simp [SameScales]
      · simp [SameScales]

@[simp] theorem Lane.cancelJob_sameScales (n : Lane) (j : Job) : SameScales n (n.cancelJob j) := by
  unfold Lane.cancelJob
  dsimp only
  split <;> simp [SameScales]

theorem Lane.cancelJobs_sameScales (n : Lane) (jobs : List Job) : SameScales n (jobs.foldl Lane.cancelJob n) := by
  induction jobs generalizing n with
  | nil => exact ⟨rfl, rfl⟩
  | cons j jobs ih =>
    obtain ⟨hp, hb⟩ := ih (n.cancelJob j)
    exact ⟨hp.trans (Lane.cancelJob_sameScales n j).1, hb.trans (Lane.cancelJob_sameScales n j).2⟩

@[simp] theorem offerPrint_sameChannels (s : State) (l : LaneId) (j : Job) (e : PrintEvent) :
    SameChannels s (s.offerPrint l j e) := by
  simp [SameChannels, State.offerPrint]

@[simp] theorem suspend_sameChannels (s : State) (l : LaneId) (j : Job) (why : SuspendReason) :
    SameChannels s (s.suspend l j why) := by
  simp [SameChannels, State.suspend]

@[simp] theorem selectJob_sameChannels (s : State) (l : LaneId) : SameChannels s (s.selectJob l) := by
  unfold State.selectJob
  dsimp only
  split
  · simp [SameChannels]
  · split
    · simp [SameChannels]
    · split <;> simp [SameChannels]

@[simp] theorem sendJobFrame_sameChannels (s : State) (l : LaneId) (j : Job) (f : JobFrame) :
    SameChannels s (s.sendJobFrame l j f) := by
  simp [SameChannels, State.sendJobFrame]

@[simp] theorem completeJob_sameChannels (s : State) (l : LaneId) (j : Job) : SameChannels s (s.completeJob l j) := by
  simp [SameChannels, State.completeJob]

@[simp] theorem pump_sameChannels (l : LaneId) (k : Nat) (s : State) : SameChannels s (State.pump l k s) := by
  induction k generalizing s with
  | zero => exact ⟨fun _ _ => rfl, rfl⟩
  | succ k ih =>
    unfold State.pump
    dsimp only
    split
    · simp [SameChannels]
    · split
      · simp [SameChannels]
      · split
        · simp [SameChannels]
        · split
          · simp [SameChannels]
          · split
            · split <;> simp [SameChannels]
            · exact ((selectJob_sameChannels s l).trans (completeJob_sameChannels _ l _)).trans (ih _)

@[simp] theorem port_sameChannels (s : State) (l : LaneId) : SameChannels s (s.port l) := pump_sameChannels l _ s

@[simp] theorem exchangeDone_sameChannels (s : State) (l : LaneId) (o : ExchangeOwner) :
    SameChannels s (s.exchangeDone l o) := by
  cases o <;> simp [SameChannels, State.exchangeDone]

@[simp] theorem exchangeFailed_sameChannels (s : State) (l : LaneId) (o : ExchangeOwner) (why : SuspendReason) :
    SameChannels s (s.exchangeFailed l o why) := by
  unfold State.exchangeFailed
  split
  · simp [SameChannels]
  · simp [SameChannels]
  · dsimp only
    split <;> simp [SameChannels]

@[simp] theorem lineDone_sameChannels (s : State) (l : LaneId) (tag : Byte) : SameChannels s (s.lineDone l tag) := by
  unfold State.lineDone
  dsimp only
  split <;> simp [SameChannels]

@[simp] theorem lineFailed_sameChannels (s : State) (l : LaneId) (tag : Byte) : SameChannels s (s.lineFailed l tag) := by
  unfold State.lineFailed
  dsimp only
  split <;> simp [SameChannels]

@[simp] theorem answerExpires_sameChannels (s : State) (l : LaneId) : SameChannels s (s.answerExpires l) := by
  unfold State.answerExpires
  dsimp only
  split
  · simp [SameChannels]
  · split <;> simp [SameChannels]

@[simp] theorem statusStops_sameChannels (s : State) (l : LaneId) (st : PrinterState) (why : SuspendReason) :
    SameChannels s (s.statusStops l st why) := by
  unfold State.statusStops
  dsimp only
  split <;> simp [SameChannels]

@[simp] theorem statusRuns_sameChannels (s : State) (l : LaneId) (st : PrinterState) : SameChannels s (s.statusRuns l st) := by
  unfold State.statusRuns
  dsimp only
  split <;> simp [SameChannels]

@[simp] theorem printerStatus_sameChannels (s : State) (l : LaneId) (r : PrinterReport) :
    SameChannels s (s.printerStatus l r) := by
  cases r <;> simp [SameChannels, State.printerStatus]

@[simp] theorem printerSilent_sameChannels (s : State) (l : LaneId) : SameChannels s (s.printerSilent l) := by
  unfold State.printerSilent
  dsimp only
  split
  · simp [SameChannels]
  · split <;> simp [SameChannels]

@[simp] theorem noteMissing_sameChannels (s : State) (l : LaneId) (refs : List Reference) :
    SameChannels s (s.noteMissing l refs) := by
  unfold State.noteMissing
  split <;> simp [SameChannels]

@[simp] theorem printReset_sameChannels (s : State) (l : LaneId) : SameChannels s (s.printReset l) := by
  have h := Lane.cancelJobs_sameScales (s.lane l) (s.lane l).jobs
  exact (modLane_sameChannels s l _ h.1 h.2).trans (port_sameChannels _ l)

@[simp] theorem printerDiscarded_sameChannels (s : State) (l : LaneId) : SameChannels s (s.printerDiscarded l) := by
  simp [SameChannels, State.printerDiscarded]

@[simp] theorem printerArrive_sameChannels (s : State) (l : LaneId) (f : Frame) : SameChannels s (s.printerArrive l f) := by
  unfold State.printerArrive
  split <;> simp [SameChannels]

@[simp] theorem printerBroken_sameChannels (s : State) (l : LaneId) (cause : PrinterDiscard) :
    SameChannels s (s.printerBroken l cause) := by
  cases cause <;> simp [SameChannels, State.printerBroken]

/-! ## The drawers -/

@[simp] theorem sensorPin_sameChannels (s : State) (l : LaneId) (high : Bool) : SameChannels s (s.sensorPin l high) := by
  simp [SameChannels, State.sensorPin]

@[simp] theorem debounceUpdate_sameChannels (s : State) (l : LaneId) : SameChannels s (s.debounceUpdate l) := by
  simp [SameChannels, State.debounceUpdate]

@[simp] theorem offerDrawer_sameChannels (s : State) (l : LaneId) (e : DrawerEvent) (attempt : Option Nat) :
    SameChannels s (s.offerDrawer l e attempt) := by
  simp [SameChannels, State.offerDrawer]

@[simp] theorem admitOne_sameChannels (s : State) (l : LaneId) : SameChannels s (s.admitOne l) :=
  (sameChannels_of_lanes rfl rfl).trans (setTill_sameChannels _ l _)

@[simp] theorem admitHeads_sameChannels (n : Nat) (s : State) : SameChannels s (State.admitHeads n s) := by
  induction n generalizing s with
  | zero => exact ⟨fun _ _ => rfl, rfl⟩
  | succ n ih =>
    unfold State.admitHeads
    split
    · simp [SameChannels]
    · exact (admitOne_sameChannels s _).trans (ih _)

@[simp] theorem admission_sameChannels (s : State) : SameChannels s s.admission := admitHeads_sameChannels 4 s

@[simp] theorem confirmRelease_sameChannels (s : State) (l : LaneId) : SameChannels s (s.confirmRelease l) := by
  simp [SameChannels, State.confirmRelease]

@[simp] theorem toChecking_sameChannels (s : State) (l : LaneId) (cut : Bool) : SameChannels s (s.toChecking l cut) := by
  have hr (q : List LaneId) : SameChannels s { s with releasing := q } := sameChannels_of_lanes rfl rfl
  unfold State.toChecking
  dsimp only
  refine SameChannels.trans ?_ (admission_sameChannels _)
  split
  · exact ((hr _).trans (setTill_sameChannels _ l _)).trans (confirmRelease_sameChannels _ l)
  · exact (hr _).trans (setTill_sameChannels _ l _)

@[simp] theorem pulseExpires_sameChannels (s : State) (l : LaneId) : SameChannels s (s.pulseExpires l) := by
  unfold State.pulseExpires
  split <;> simp [SameChannels]

theorem cutDrawers_sameChannels (ls : List LaneId) (s : State) : SameChannels s (ls.foldl State.cutDrawer s) := by
  induction ls generalizing s with
  | nil => exact ⟨fun _ _ => rfl, rfl⟩
  | cons l ls ih => exact (toChecking_sameChannels s l true).trans (ih _)

@[simp] theorem cutAll_sameChannels (s : State) : SameChannels s s.cutAll := cutDrawers_sameChannels _ s

@[simp] theorem cutToBudget_sameChannels (s : State) : SameChannels s s.cutToBudget := cutDrawers_sameChannels _ s

@[simp] theorem checkExpires_sameChannels (s : State) (l : LaneId) : SameChannels s (s.checkExpires l) := by
  have hq (q : List LaneId) : SameChannels s { s with powerQueue := q } := sameChannels_of_lanes rfl rfl
  unfold State.checkExpires
  dsimp only
  split
  · simp [SameChannels]
  · split
    · exact ((hq _).trans (setTill_sameChannels _ l _)).trans (admission_sameChannels _)
    · split
      · simp [SameChannels]
      · exact (((hq _).trans (setTill_sameChannels _ l _)).trans (offerDrawer_sameChannels _ l _ _)).trans
          (admission_sameChannels _)

@[simp] theorem forcedOpening_sameChannels (s : State) (l : LaneId) : SameChannels s (s.forcedOpening l) := by
  have hq : SameChannels s { s with powerQueue := s.powerQueue.filter fun k => k != l } := sameChannels_of_lanes rfl rfl
  refine hq.trans ?_
  unfold State.forcedOpening
  dsimp only
  refine ((setTill_sameChannels _ l _).trans (offerDrawer_sameChannels _ l _ _)).trans (raiseLane_sameChannels _ l _)

@[simp] theorem foundOpen_sameChannels (s : State) (l : LaneId) : SameChannels s (s.foundOpen l) := by
  simp [SameChannels, State.foundOpen]

@[simp] theorem drawerCloses_sameChannels (s : State) (l : LaneId) : SameChannels s (s.drawerCloses l) := by
  simp [SameChannels, State.drawerCloses]

@[simp] theorem sensorChange_sameChannels (s : State) (l : LaneId) : SameChannels s (s.sensorChange l) := by
  unfold State.sensorChange
  dsimp only
  split <;> simp [SameChannels]

@[simp] theorem debounceExpires_sameChannels (s : State) (l : LaneId) : SameChannels s (s.debounceExpires l) := by
  unfold State.debounceExpires
  dsimp only
  split <;> simp [SameChannels]

@[simp] theorem leftOpenExpires_sameChannels (s : State) (l : LaneId) : SameChannels s (s.leftOpenExpires l) := by
  unfold State.leftOpenExpires
  dsimp only
  split <;> simp [SameChannels]

@[simp] theorem joinQueue_sameChannels (s : State) (l : LaneId) (token : Bool) : SameChannels s (s.joinQueue l token) := by
  unfold State.joinQueue
  exact ((modLane_sameChannels s l (fun n => { n with
      token := if token then false else n.token
      till := { n.till with state := .waitingPower, retry := false } }) rfl rfl).trans
    (sameChannels_of_lanes rfl rfl)).trans (admission_sameChannels _)

@[simp] theorem drawerReset_sameChannels (s : State) (l : LaneId) : SameChannels s (s.drawerReset l) := by
  unfold State.drawerReset
  dsimp only
  split
  · exact SameChannels.trans (sameChannels_of_lanes rfl rfl) (setTill_sameChannels _ l _)
  · simp [SameChannels]

/-! ## Staff authority, settings, supply -/

@[simp] theorem grantStaff_sameChannels (s : State) (l : LaneId) (src : AuthoritySource) (number : Nat) :
    SameChannels s (s.grantStaff l src number) := by
  simp [SameChannels, State.grantStaff]

@[simp] theorem dropStaff_sameChannels (s : State) (l : LaneId) : SameChannels s (s.dropStaff l) := by
  simp [SameChannels, State.dropStaff]

@[simp] theorem staffExpires_sameChannels (s : State) (l : LaneId) : SameChannels s (s.staffExpires l) := by
  unfold State.staffExpires
  split
  · simp [SameChannels]
  · split <;> simp [SameChannels]

@[simp] theorem polaritySetting_sameChannels (old : Settings) (s : State) (l : LaneId) :
    SameChannels s (State.polaritySetting old s l) := by
  unfold State.polaritySetting
  split <;> simp [SameChannels]

@[simp] theorem budgetSetting_sameChannels (s : State) (old : Settings) : SameChannels s (s.budgetSetting old) := by
  unfold State.budgetSetting
  split
  · simp [SameChannels]
  · split <;> simp [SameChannels]

@[simp] theorem linkSetting_sameChannels (s : State) (old : Settings) : SameChannels s (s.linkSetting old) := by
  unfold State.linkSetting
  split
  · simp [SameChannels]
  · exact sameChannels_of_lanes rfl rfl

@[simp] theorem writeSettings_sameChannels (s : State) (t : Settings) : SameChannels s (s.writeSettings t) := by
  have hs : SameChannels s { s with settings := t } := sameChannels_of_lanes rfl rfl
  refine hs.trans ?_
  unfold State.writeSettings
  simp [SameChannels, allLanes]

@[simp] theorem supplyFalls_sameChannels (s : State) : SameChannels s s.supplyFalls := by
  unfold State.supplyFalls
  dsimp only
  split
  · have hs : SameChannels s { s with supplyBelow := true, supplyLow := true } := sameChannels_of_lanes rfl rfl
    exact (hs.trans (raisePart_sameChannels _ _)).trans (cutAll_sameChannels _)
  · exact sameChannels_of_lanes rfl rfl

@[simp] theorem supplyRises_sameChannels (s : State) : SameChannels s s.supplyRises := by
  unfold State.supplyRises
  dsimp only
  split
  · exact (sameChannels_of_lanes rfl rfl).trans (admission_sameChannels _)
  · exact sameChannels_of_lanes rfl rfl

/-! ## Cards -/

@[simp] theorem reportSwipe_sameChannels (s : State) (l : LaneId) (e : CardEvent) : SameChannels s (s.reportSwipe l e) := by
  simp [SameChannels, State.reportSwipe]

@[simp] theorem paymentSwipe_sameChannels (s : State) (l : LaneId) (w : Swipe) (r : CardRange) :
    SameChannels s (s.paymentSwipe l w r) := by
  unfold State.paymentSwipe
  dsimp only
  split <;> simp [SameChannels]

@[simp] theorem staffSwipe_sameChannels (s : State) (l : LaneId) (w : Swipe) (r : CardRange) :
    SameChannels s (s.staffSwipe l w r) := by
  unfold State.staffSwipe
  dsimp only
  split <;> simp [SameChannels]

@[simp] theorem classRule_sameChannels (s : State) (l : LaneId) (w : Swipe) (r : CardRange) :
    SameChannels s (s.classRule l w r) := by
  unfold State.classRule
  split
  · simp [SameChannels, State.loyaltySwipe]
  · split <;> simp [SameChannels]
  · split <;> simp [SameChannels]
  · simp [SameChannels]
  · simp [SameChannels]

@[simp] theorem checkDigitStep_sameChannels (s : State) (l : LaneId) (w : Swipe) (r : CardRange) :
    SameChannels s (s.checkDigitStep l w r) := by
  unfold State.checkDigitStep
  split <;> simp [SameChannels]

@[simp] theorem classify_sameChannels (s : State) (l : LaneId) (w : Swipe) : SameChannels s (s.classify l w) := by
  unfold State.classify
  split
  · simp [SameChannels]
  · split
    · simp [SameChannels]
    · split <;> simp [SameChannels, State.secondSwipe]

@[simp] theorem judge_sameChannels (s : State) (l : LaneId) (body : List (BitVec 4)) (lrc : BitVec 4) (bad : Bool) :
    SameChannels s (s.judge l body lrc bad) := by
  unfold State.judge
  split
  · simp [SameChannels, State.refuseSwipe]
  · split
    · simp [SameChannels, State.refuseSwipe]
    · split <;> simp [SameChannels, State.refuseSwipe]

@[simp] theorem readerChar_sameChannels (s : State) (l : LaneId) (v : BitVec 4) (p : Bool) :
    SameChannels s (s.readerChar l v p) := by
  unfold State.readerChar
  dsimp only
  split
  · split <;> simp [SameChannels]
  · split
    · simp [SameChannels, State.refuseSwipe]
    · split <;> simp [SameChannels]

@[simp] theorem gapExpires_sameChannels (s : State) (l : LaneId) : SameChannels s (s.gapExpires l) := by
  unfold State.gapExpires
  dsimp only
  split <;> simp [SameChannels, State.refuseSwipe]

/-! ## The trunk link -/

@[simp] theorem discardFrame_sameChannels (s : State) : SameChannels s s.discardFrame :=
  (sameChannels_of_lanes rfl rfl).trans (raisePart_sameChannels _ _)

@[simp] theorem linkExpires_sameChannels (s : State) : SameChannels s s.linkExpires := by
  unfold State.linkExpires
  split
  · simp [SameChannels]
  · exact (sameChannels_of_lanes rfl rfl).trans (raisePart_sameChannels _ _)

end Sys2Proof.Machine
end

