-- ==== Sys2Proof/Proofs/RequestChannels.lean ====
section
/-! SUPPORT. What the requests of the host and the status reads leave of the channels. -/

namespace Sys2Proof.Machine

@[simp] theorem refuse_snd (c : Code) (s : State) : (refuse c s).2 = s := rfl
@[simp] theorem accept_snd (d : List Byte) (s : State) : (accept d s).2 = s := rfl
@[simp] theorem refuseBagBusy_snd (l : LaneId) (s : State) : (refuseBagBusy l s).2 = s := rfl

/-- A request to a lane is its owner's, or leaves the state. -/
theorem toLane_cases (addr : Byte) (s : State) (g : LaneId → Reply × State) :
    (∃ l, toLane addr s g = g l) ∨ toLane addr s g = refuse .noLane s := by
  unfold toLane
  split
  · exact .inl ⟨_, rfl⟩
  · exact .inr rfl

theorem toLane_sameChannels (addr : Byte) (s : State) (g : LaneId → Reply × State)
    (h : ∀ l, SameChannels s (g l).2) : SameChannels s (toLane addr s g).2 := by
  obtain ⟨l, hl⟩ | hl := toLane_cases addr s g <;> rw [hl]
  · exact h l
  · exact ⟨fun _ _ => rfl, rfl⟩

/-! ## Requests to a lane -/

/-- A test of a request that chooses between two outcomes. -/
theorem sameChannels_ite {s : State} {p : Prop} [Decidable p] {a b : Reply × State} (ha : SameChannels s a.2)
    (hb : SameChannels s b.2) : SameChannels s (if p then a else b).2 := by
  split
  · exact ha
  · exact hb

theorem takeItem_sameChannels (l : LaneId) (code : BitVec 48) (q : Byte) (price : BitVec 32) (skip : Byte) (s : State) :
    SameChannels s (takeItem l code q price skip s).2 := by
  unfold takeItem
  dsimp only
  repeat' apply sameChannels_ite
  all_goals try split
  all_goals simp [SameChannels]

theorem takeVoid_sameChannels (l : LaneId) (p : Byte) (s : State) : SameChannels s (takeVoid l p s).2 := by
  unfold takeVoid
  dsimp only
  repeat' split
  all_goals simp [SameChannels]

theorem takeCancelWeigh_sameChannels (l : LaneId) (s : State) : SameChannels s (takeCancelWeigh l s).2 := by
  unfold takeCancelWeigh
  split <;> simp [SameChannels]

theorem takeTender_sameChannels (l : LaneId) (k : Byte) (m : BitVec 32) (s : State) :
    SameChannels s (takeTender l k m s).2 := by
  unfold takeTender
  dsimp only
  repeat' split
  all_goals simp [SameChannels, Lane.addTender]

theorem takeNewBasket_sameChannels (l : LaneId) (s : State) : SameChannels s (takeNewBasket l s).2 := by
  unfold takeNewBasket
  dsimp only
  repeat' split
  all_goals simp [SameChannels, takeNewBasket.cleared]

theorem takeAbandonBasket_sameChannels (l : LaneId) (s : State) : SameChannels s (takeAbandonBasket l s).2 := by
  unfold takeAbandonBasket
  dsimp only
  repeat' split
  all_goals simp [SameChannels]

theorem takeBasketRead_sameChannels (l : LaneId) (p : Byte) (s : State) : SameChannels s (takeBasketRead l p s).2 := by
  unfold takeBasketRead
  split <;> simp [SameChannels]

theorem takeLaneMode_sameChannels (l : LaneId) (m : Byte) (s : State) : SameChannels s (takeLaneMode l m s).2 := by
  unfold takeLaneMode
  dsimp only
  repeat' split
  all_goals simp [SameChannels, modeAnswer]

theorem takeBagOverride_sameChannels (l : LaneId) (s : State) : SameChannels s (takeBagOverride l s).2 := by
  unfold takeBagOverride
  dsimp only
  repeat' split
  all_goals simp [SameChannels]

theorem takeCancelCard_sameChannels (l : LaneId) (s : State) : SameChannels s (takeCancelCard l s).2 := by
  unfold takeCancelCard
  dsimp only
  repeat' split
  all_goals simp [SameChannels, slotAnswer]

theorem takeDrawerOpen_sameChannels (l : LaneId) (s : State) : SameChannels s (takeDrawerOpen l s).2 := by
  unfold takeDrawerOpen
  dsimp only
  repeat' split
  all_goals simp [SameChannels, drawerOpened]

theorem takeDrawerClear_sameChannels (l : LaneId) (s : State) : SameChannels s (takeDrawerClear l s).2 := by
  unfold takeDrawerClear
  split <;> simp [SameChannels]

theorem takePrintBegin_sameChannels (l : LaneId) (s : State) : SameChannels s (takePrintBegin l s).2 := by
  unfold takePrintBegin
  dsimp only
  repeat' split
  all_goals simp [SameChannels]

theorem takePrintData_sameChannels (l : LaneId) (j : Byte) (o : List Byte) (s : State) :
    SameChannels s (takePrintData l j o s).2 := by
  unfold takePrintData
  dsimp only
  repeat' split
  all_goals simp [SameChannels]

theorem takePrintEnd_sameChannels (l : LaneId) (j : Byte) (s : State) : SameChannels s (takePrintEnd l j s).2 := by
  unfold takePrintEnd
  dsimp only
  split <;> simp [SameChannels]

theorem takePrintCancel_sameChannels (l : LaneId) (j : Byte) (s : State) : SameChannels s (takePrintCancel l j s).2 := by
  unfold takePrintCancel
  dsimp only
  split <;> simp [SameChannels]

@[simp] theorem counted_sameChannels (s : State) : SameChannels s s.counted := sameChannels_of_lanes rfl rfl

theorem takeLaneStatus_sameChannels (l : LaneId) (n : Byte) (s : State) : SameChannels s (takeLaneStatus l n s).2 := by
  unfold takeLaneStatus
  split <;> simp [SameChannels]

theorem takeStaffGrant_sameChannels (l : LaneId) (n : BitVec 32) (s : State) : SameChannels s (takeStaffGrant l n s).2 := by
  unfold takeStaffGrant
  split <;> simp [SameChannels]

theorem toRecord_sameChannels (addr : Byte) (set : BitVec 16) (g : Attention → BitVec 16 → Attention) (s : State) :
    SameChannels s (toRecord addr set g s).2 := by
  unfold toRecord
  split
  · unfold partAttention
    split
    · exact sameChannels_of_lanes rfl rfl
    · simp [SameChannels]
  · refine toLane_sameChannels addr s _ fun l => ?_
    unfold laneAttention
    split <;> simp [SameChannels]

/-! ## Requests to the part -/

theorem takeSettingsWrite_sameChannels (r : RawSettings) (s : State) : SameChannels s (takeSettingsWrite r s).2 := by
  unfold takeSettingsWrite
  split <;> simp [SameChannels]

theorem takeSetDate_sameChannels (y m d : Byte) (s : State) : SameChannels s (takeSetDate y m d s).2 := by
  unfold takeSetDate
  dsimp only
  split <;> exact sameChannels_of_lanes rfl rfl

theorem takeRestart_sameChannels (s : State) : SameChannels s (takeRestart s).2 := by
  unfold takeRestart
  split <;> exact sameChannels_of_lanes rfl rfl

theorem loadAnswer_sameChannels {α : Type} (x : Load α) (w : Nat) (s : State) : SameChannels s (loadAnswer x w s).2 := by
  unfold loadAnswer
  dsimp only
  split <;> exact ⟨fun _ _ => rfl, rfl⟩

theorem takeItemPut_sameChannels (r : List RawItem) (s : State) : SameChannels s (takeItemPut r s).2 :=
  have hs (t : List ItemRecord) : SameChannels s { s with items := t } := sameChannels_of_lanes rfl rfl
  (hs _).trans (loadAnswer_sameChannels _ 2 _)

theorem takeItemRemove_sameChannels (c : BitVec 48) (s : State) : SameChannels s (takeItemRemove c s).2 := by
  unfold takeItemRemove
  dsimp only
  repeat' split
  all_goals exact sameChannels_of_lanes rfl rfl

theorem takeItemGet_sameChannels (c : BitVec 48) (s : State) : SameChannels s (takeItemGet c s).2 := by
  unfold takeItemGet
  repeat' split
  all_goals exact sameChannels_of_lanes rfl rfl

theorem takeBinPut_sameChannels (r : List RawRange) (s : State) : SameChannels s (takeBinPut r s).2 :=
  have hs (t : List CardRange) : SameChannels s { s with ranges := t } := sameChannels_of_lanes rfl rfl
  (hs _).trans (loadAnswer_sameChannels _ 1 _)

theorem takeBinRemove_sameChannels (n : BitVec 32) (s : State) : SameChannels s (takeBinRemove n s).2 := by
  unfold takeBinRemove
  dsimp only
  repeat' split
  all_goals exact sameChannels_of_lanes rfl rfl

theorem takeBinRead_sameChannels (n : BitVec 32) (s : State) : SameChannels s (takeBinRead n s).2 := by
  unfold takeBinRead
  dsimp only
  split <;> exact sameChannels_of_lanes rfl rfl

theorem takeGlyphPut_sameChannels (c : Byte) (p : List Byte) (s : State) : SameChannels s (takeGlyphPut c p s).2 := by
  unfold takeGlyphPut
  split <;> exact sameChannels_of_lanes rfl rfl

theorem takeGlyphClear_sameChannels (c : Byte) (s : State) : SameChannels s (takeGlyphClear c s).2 := by
  unfold takeGlyphClear
  split <;> exact sameChannels_of_lanes rfl rfl

theorem takeCalRead_sameChannels (a c : Byte) (s : State) : SameChannels s (takeCalRead a c s).2 := by
  unfold takeCalRead
  split <;> exact sameChannels_of_lanes rfl rfl

end Sys2Proof.Machine
end

