-- ==== Sys2Proof/Proofs/ZeroLaw.lean ====
section
/-! SUPPORT. The zero law of the channels: what each operation of the weighing channels does to it (R8, R12, R16, R17, R21,
R178). -/

namespace Sys2Proof.Machine

/-! ## A channel replaced -/

/-- A lane's channel read after a write to the same or to the other channel. -/
theorem Lane.chan_setChan_eq (n : Lane) (c d : Chan) (x : Channel) :
    (n.setChan c x).chan d = if d = c then x else n.chan d := by
  cases c <;> cases d <;> rfl

/-- A channel read after a write to the same or to another channel. -/
theorem chan_setChan_eq (s : State) (l m : LaneId) (c d : Chan) (x : Channel) :
    (s.setChan l c x).chan m d = if m = l ∧ d = c then x else s.chan m d := by
  rw [setChan_eq, State.chan]
  by_cases hm : m = l
  · subst hm
    simp only [lane_setLane_same, Lane.chan_setChan_eq, true_and]
    rfl
  · simp only [hm, false_and, if_false, lane_setLane_ne s l m _ hm]
    rfl

@[simp] theorem setChan_calWrite (s : State) (l : LaneId) (c : Chan) (x : Channel) : (s.setChan l c x).calWrite = s.calWrite :=
  rfl

@[simp] theorem setChan_self (s : State) (l : LaneId) (c : Chan) : s.setChan l c (s.chan l c) = s := by
  rw [setChan_eq, State.chan, Lane.setChan_chan, setLane_lane]

@[simp] theorem setChan_setChan (s : State) (l : LaneId) (c : Chan) (x y : Channel) :
    (s.setChan l c x).setChan l c y = s.setChan l c y := by
  simp [setChan_eq]

/-- Everything a display check can do to the channels: the display record and the display timer of its channel (R25). -/
theorem displayCheck_channels (s : State) (l : LaneId) (c : Chan) :
    ∃ d t, SameChannels (s.setChan l c { s.chan l c with display := d, displayTimer := t }) (s.displayCheck l c) := by
  unfold State.displayCheck
  dsimp only
  split
  · exact ⟨(s.chan l c).display, (s.chan l c).displayTimer, by rw [setChan_self]; exact ⟨fun _ _ => rfl, rfl⟩⟩
  · obtain ⟨hc, hw⟩ := offerDisplay_sameChannels s l c (s.chan l c).shown
    refine ⟨if (s.offerDisplay l c (s.chan l c).shown).1 then some (s.chan l c).shown else (s.chan l c).display,
      some (s.laneSettings l).displayInterval, fun m e => ?_, hw⟩
    rw [State.modChan, chan_setChan_eq, chan_setChan_eq, hc, hc]

@[simp] theorem displayCheck_calWrite (s : State) (l : LaneId) (c : Chan) : (s.displayCheck l c).calWrite = s.calWrite := by
  obtain ⟨d, t, -, h⟩ := displayCheck_channels s l c
  exact h

/-! ## The law of one channel -/

/-- The states in which the zero law speaks of a channel (R8, R21). -/
def Channel.holdsZero (x : Channel) : Prop :=
  x.state = .running ∨ (x.state = .fault ∧ x.cause = .sensor ∧ x.ret = some .running)

/-- A channel in any other state meets the law. -/
theorem zeroLaw_of_not_holdsZero {x : Channel} (h : ¬ x.holdsZero) : ZeroLaw x := fun hx => absurd hx h

/-- The law reads state, cause, return state, calibration and zeros alone. -/
theorem ZeroLaw.congr {x y : Channel} (h : ZeroLaw x) (hs : y.holdsZero → x.holdsZero) (hk : y.calib = x.calib)
    (hi : y.zi = x.zi) (ho : y.zo = x.zo) : ZeroLaw y := by
  intro hy
  rw [hk, hi, ho]
  exact h (hs hy)

/-- A channel that holds a zero has its calibration and both zeros. -/
theorem ZeroLaw.zeros {x : Channel} (h : ZeroLaw x) (hx : x.holdsZero) :
    ∃ k zi zo, x.calib = some k ∧ x.zi = some zi ∧ x.zo = some zo ∧ |zo - zi| ≤ ((k.max / 50 : Nat) : Int) := by
  obtain ⟨k, hk, zi, hi, zo, ho, hle⟩ := h hx
  exact ⟨k, zi, zo, hk, hi, ho, hle⟩

/-- An entry into FAULT meets the law: one of cause SENSOR with return state RUNNING keeps the zeros of a RUNNING channel. -/
theorem ZeroLaw.toFault {x : Channel} (h : ZeroLaw x) (cause : FaultCause) (ret : Option ReturnState)
    (hr : ret = some .running → x.state = .running) : ZeroLaw (x.toFault cause ret) := by
  refine h.congr (fun hx => ?_) rfl rfl rfl
  rcases hx with hx | ⟨-, -, hx⟩
  · simp [Channel.toFault] at hx
  · exact .inl (hr hx)

/-- Zero tracking and ZERO set the offset to a W within the range of the initial zero (R17, R21). -/
theorem ZeroLaw.setOffset {x : Channel} (h : ZeroLaw x) (k : Calib) (w : Int) (hk : x.calib = some k)
    (hw : |w - x.zi.getD 0| ≤ ((k.max / 50 : Nat) : Int)) : ZeroLaw { x with zo := some w } := by
  intro hx
  obtain ⟨k', zi, -, hk', hzi, -, -⟩ := h.zeros hx
  obtain rfl : k = k' := by simpa [hk] using hk'
  exact ⟨k, hk, zi, hzi, w, rfl, by simpa [hzi] using hw⟩

/-- Stages 5 to 10 keep the law (R17). -/
theorem ZeroLaw.finish {x : Channel} (h : ZeroLaw x) (c : Calib) (raw : Nat) (w : Int) (stable : Bool)
    (hc : x.calib = some c) : ZeroLaw (x.finish c raw w stable).1 := by
  cases htr : (stable && !isLimit raw && zeroTracks c x w (w - x.zo.getD 0)) with
  | false => exact h.congr id rfl rfl (by simp [Channel.finish, htr])
  | true =>
    have hw : |w - x.zi.getD 0| ≤ ((c.max / 50 : Nat) : Int) := by
      simp only [zeroTracks, Bool.and_eq_true, decide_eq_true_eq] at htr
      exact htr.2.2
    exact (h.setOffset c w hc hw).congr id rfl rfl (by simp [Channel.finish, htr])

/-- The channel that takes its initial zero meets the law (R16). -/
theorem zeroLaw_takeZero (x : Channel) (k : Calib) (w : Int) (hk : x.calib = some k) : ZeroLaw (x.takeZero w) :=
  fun _ => ⟨k, hk, w, rfl, w, rfl, by rw [sub_self, abs_zero]; exact Int.natCast_nonneg _⟩

/-! ## The law of the part -/

/-- The law reads the lanes and the calibration write alone. -/
theorem ChannelLaw.of_lanes {s t : State} (h : ChannelLaw s) (hl : t.lanes = s.lanes) (hw : t.calWrite = s.calWrite) :
    ChannelLaw t := by
  obtain ⟨hc, -⟩ := sameChannels_of_lanes hl hw
  exact ⟨fun l c => hc l c ▸ h.1 l c, fun w hin => hc w.lane w.channel ▸ h.2 w (hw ▸ hin)⟩

/-- What touches no channel and no calibration write keeps the law. -/
theorem ChannelLaw.same {s t : State} (h : ChannelLaw s) (k : SameChannels s t) : ChannelLaw t := by
  obtain ⟨hc, hw⟩ := k
  refine ⟨fun l c => ?_, fun w hin => ?_⟩
  · rw [hc]
    exact h.1 l c
  · rw [hc]
    exact h.2 w (hw ▸ hin)

theorem calWriting_iff (s : State) (l : LaneId) (c : Chan) :
    s.calWriting l c = true ↔ ∃ w, s.calWrite = some w ∧ w.lane = l ∧ w.channel = c := by
  unfold State.calWriting
  cases s.calWrite <;> simp

/-- A channel that is being calibrated does not work (R178). -/
theorem ChannelLaw.idle {s : State} (h : ChannelLaw s) {l : LaneId} {c : Chan} (hw : s.calWriting l c = true) :
    (s.chan l c).working = false := by
  obtain ⟨w, hin, rfl, rfl⟩ := (calWriting_iff s l c).mp hw
  exact h.2 w hin

/-- A channel replaced by one that meets the law and does not work while it is being calibrated. -/
theorem ChannelLaw.setChan {s : State} (h : ChannelLaw s) (l : LaneId) (c : Chan) {x : Channel} (hx : ZeroLaw x)
    (hw : s.calWriting l c = true → x.working = false) : ChannelLaw (s.setChan l c x) := by
  refine ⟨fun m d => ?_, fun w hin => ?_⟩
  · rw [chan_setChan_eq]
    split
    · exact hx
    · exact h.1 m d
  · rw [chan_setChan_eq]
    split
    · rename_i hm
      exact hw ((calWriting_iff s l c).mpr ⟨w, hin, hm⟩)
    · exact h.2 w hin

/-- A channel replaced by one in the same state. -/
theorem ChannelLaw.setChan_state {s : State} (h : ChannelLaw s) (l : LaneId) (c : Chan) {x : Channel} (hx : ZeroLaw x)
    (hs : x.state = (s.chan l c).state) : ChannelLaw (s.setChan l c x) :=
  h.setChan l c hx fun hw => by
    have hi := h.idle hw
    simpa [Channel.working, hs] using hi

theorem ChannelLaw.displayCheck {s : State} (h : ChannelLaw s) (l : LaneId) (c : Chan) : ChannelLaw (s.displayCheck l c) := by
  obtain ⟨d, t, hd⟩ := displayCheck_channels s l c
  have hx : ZeroLaw { s.chan l c with display := d, displayTimer := t } := (h.1 l c).congr id rfl rfl rfl
  exact (h.setChan_state l c hx rfl).same hd

/-- An entry into FAULT keeps the law (R7, R9). -/
theorem ChannelLaw.enterFault {s : State} (h : ChannelLaw s) (l : LaneId) (c : Chan) (cause : FaultCause)
    (ret : Option ReturnState) (hr : ret = some .running → (s.chan l c).state = .running) :
    ChannelLaw (s.enterFault l c cause ret) := by
  have hf : ChannelLaw (s.modChan l c fun x => x.toFault cause ret) :=
    h.setChan l c ((h.1 l c).toFault cause ret hr) fun _ => rfl
  unfold State.enterFault
  dsimp only
  refine ChannelLaw.displayCheck ?_ l c
  split
  · exact (hf.same (raiseLane_sameChannels _ l _)).same (bagLoss_sameChannels _ l)
  · exact hf.same (raiseLane_sameChannels _ l _)

/-! ## Samples -/

theorem ChannelLaw.filterIn {s : State} (h : ChannelLaw s) (l : LaneId) (c : Chan) (raw : Nat) :
    ChannelLaw (s.setChan l c ((s.chan l c).filterIn raw)) :=
  h.setChan_state l c ((h.1 l c).congr id rfl rfl rfl) rfl

/-- Stages 5 to 10 and the handing on of the reading keep the law. -/
theorem ChannelLaw.finishEvaluation {s : State} (h : ChannelLaw s) (l : LaneId) (ch : Chan) (c : Calib) (raw : Nat) (w : Int)
    (stable : Bool) (hc : (s.chan l ch).calib = some c) : ChannelLaw (s.finishEvaluation l ch c raw w stable) :=
  (h.setChan_state l ch ((h.1 l ch).finish c raw w stable hc) rfl).same (handReading_sameChannels _ l ch c _ _)

/-- An evaluation keeps the law (R16, R17). -/
theorem ChannelLaw.evaluate {s : State} (h : ChannelLaw s) (l : LaneId) (ch : Chan) (raw : Nat) :
    ChannelLaw (s.evaluate l ch raw) := by
  have hx := h.1 l ch
  unfold State.evaluate
  dsimp only
  split
  · exact h.filterIn l ch raw
  · rename_i c hc
    have hin : ZeroLaw ((s.chan l ch).weighIn c raw).1 := hx.congr id rfl rfl rfl
    split
    · rename_i hs
      split
      · refine ChannelLaw.displayCheck (ChannelLaw.finishEvaluation ?_ l ch c raw _ _ ?_) l ch
        · refine ChannelLaw.same (h.setChan l ch (zeroLaw_takeZero ((s.chan l ch).weighIn c raw).1 c _ hc) fun hw => ?_)
            (reportRunning_sameChannels _ l ch)
          have hi := h.idle hw
          simp [Channel.working, hs] at hi
        · rw [(reportRunning_sameChannels _ l ch).1, chan_setChan]
          exact hc
      · exact h.setChan_state l ch hin rfl
    · refine ChannelLaw.displayCheck (ChannelLaw.finishEvaluation (h.setChan_state l ch hin rfl) l ch c raw _ _ ?_) l ch
      rw [chan_setChan]
      exact hc
    · exact h.filterIn l ch raw
    · exact h.filterIn l ch raw

/-- The return from FAULT, SENSOR keeps the law: the zeros of the return state RUNNING are those of the fault (R8). -/
theorem ChannelLaw.sensorReturn {s : State} (h : ChannelLaw s) (l : LaneId) (ch : Chan) (raw : Nat)
    (hf : (s.chan l ch).state = .fault) (hc : (s.chan l ch).cause = .sensor) (hw : s.calWriting l ch = false) :
    ChannelLaw (s.sensorReturn l ch raw) := by
  have idle {x : Channel} : s.calWriting l ch = true → x.working = false := by simp [hw]
  unfold State.sensorReturn
  dsimp only
  split
  · exact h.filterIn l ch raw
  · refine ChannelLaw.displayCheck (ChannelLaw.evaluate (h.setChan l ch ?_ idle) l ch raw) l ch
    exact zeroLaw_of_not_holdsZero (by simp [Channel.holdsZero])
  · rename_i hr
    have hx : ZeroLaw { s.chan l ch with state := .running, cause := .noCause, ret := none, silence := some 250 } :=
      (h.1 l ch).congr (fun _ => .inr ⟨hf, hc, hr⟩) rfl rfl rfl
    refine ChannelLaw.displayCheck (ChannelLaw.evaluate ?_ l ch raw) l ch
    split
    · exact (h.setChan l ch hx idle).same (bagRecovery_sameChannels _ l)
    · exact h.setChan l ch hx idle

/-- A sample arrival keeps the law (R2). -/
theorem ChannelLaw.sample {s : State} (h : ChannelLaw s) (l : LaneId) (ch : Chan) (raw : Nat) :
    ChannelLaw (s.sample l ch raw) := by
  unfold State.sample
  dsimp only
  split
  · exact h.evaluate l ch raw
  · exact h.evaluate l ch raw
  · exact h.filterIn l ch raw
  · rename_i hf
    split
    · rename_i hc
      exact h.sensorReturn l ch raw hf hc.1 hc.2
    · exact h.filterIn l ch raw

/-! ## Timers -/

theorem ChannelLaw.silenceExpires {s : State} (h : ChannelLaw s) (l : LaneId) (ch : Chan) :
    ChannelLaw (s.silenceExpires l ch) := by
  unfold State.silenceExpires
  dsimp only
  split
  · exact h
  · split
    · exact h.enterFault l ch _ _ (by simp)
    · rename_i hr
      exact h.enterFault l ch _ _ fun _ => hr
    · exact h
    · exact h

theorem ChannelLaw.initialZeroExpires {s : State} (h : ChannelLaw s) (l : LaneId) (ch : Chan) :
    ChannelLaw (s.initialZeroExpires l ch) := by
  unfold State.initialZeroExpires
  dsimp only
  split
  · exact h.enterFault l ch _ _ (by simp)
  · exact h

theorem ChannelLaw.displayExpires {s : State} (h : ChannelLaw s) (l : LaneId) (ch : Chan) :
    ChannelLaw (s.displayExpires l ch) := by
  unfold State.displayExpires
  split
  · have hx : ZeroLaw { s.chan l ch with displayTimer := none } := (h.1 l ch).congr id rfl rfl rfl
    exact (h.setChan_state l ch hx rfl).displayCheck l ch
  · exact h

/-! ## Requests -/

/-- A request with a channel field is the owner's for its channel, or leaves the state (R1). -/
theorem withChannel_keeps {channel : Byte} {s : State} {g : Chan → Reply × State} (h : ChannelLaw s)
    (hg : ∀ c, ChannelLaw (g c).2) : ChannelLaw (withChannel channel s g).2 := by
  unfold withChannel
  split
  · exact h
  · exact hg _

theorem ChannelLaw.takeChannelStart {s : State} (h : ChannelLaw s) (l : LaneId) (channel : Byte) :
    ChannelLaw (takeChannelStart l channel s).2 := by
  refine withChannel_keeps h fun c => ?_
  have started (hw : ¬ s.calWriting l c = true) : ChannelLaw (takeChannelStart.started l s c).2 :=
    (h.setChan l c (zeroLaw_of_not_holdsZero (by simp [Channel.holdsZero, Channel.toStarting]))
      fun hw' => absurd hw' hw).displayCheck l c
  dsimp only
  split
  · exact h
  · rename_i hw
    split
    · exact h
    · exact h
    · exact started hw
    · split
      · exact started hw
      · exact h
      · split
        · exact started hw
        · exact h
      · exact h

theorem ChannelLaw.takeChannelStop {s : State} (h : ChannelLaw s) (l : LaneId) (channel : Byte) :
    ChannelLaw (takeChannelStop l channel s).2 := by
  refine withChannel_keeps h fun c => ?_
  have stopped : ChannelLaw (s.modChan l c Channel.toStopped) :=
    h.setChan l c (zeroLaw_of_not_holdsZero (by simp [Channel.holdsZero, Channel.toStopped])) fun _ => rfl
  dsimp only
  split
  · exact h
  · split
    · exact h.setChan_state l c ((h.1 l c).congr id rfl rfl rfl) rfl
    · refine ChannelLaw.displayCheck ?_ l c
      split
      · exact stopped.same (bagLoss_sameChannels _ l)
      · exact stopped

theorem ChannelLaw.takeChannelSetup {s : State} (h : ChannelLaw s) (l : LaneId) (channel f m : Byte) :
    ChannelLaw (takeChannelSetup l channel f m s).2 := by
  refine withChannel_keeps h fun c => ?_
  dsimp only
  split
  · exact h
  · exact h.setChan_state l c ((h.1 l c).congr id rfl rfl rfl) rfl

theorem ChannelLaw.takeZeroRequest {s : State} (h : ChannelLaw s) (l : LaneId) (channel : Byte) :
    ChannelLaw (takeZeroRequest l channel s).2 := by
  refine withChannel_keeps h fun c => ?_
  dsimp only
  split
  · exact h
  · exact h
  · exact h
  · split
    · exact h
    · split
      · exact h
      · split
        · exact h
        · split
          · rename_i e k _ hk
            split
            · exact h
            · rename_i hw
              split
              · exact h
              · exact h.setChan_state l c ((h.1 l c).setOffset k e.w hk (not_lt.mp hw)) rfl
          · exact h

theorem ChannelLaw.tareTaken {s : State} (h : ChannelLaw s) (l : LaneId) (c : Chan) (t : Int) (k : TareKind) :
    ChannelLaw (tareTaken l c t k s).2 :=
  h.setChan_state l c ((h.1 l c).congr id rfl rfl rfl) rfl

theorem ChannelLaw.takeTareWeighed {s : State} (h : ChannelLaw s) (l : LaneId) (channel : Byte) :
    ChannelLaw (takeTareWeighed l channel s).2 := by
  refine withChannel_keeps h fun c => ?_
  dsimp only
  repeat' split
  all_goals try exact h
  exact h.tareTaken l c _ _

theorem ChannelLaw.takeTarePreset {s : State} (h : ChannelLaw s) (l : LaneId) (channel form : Byte) (v : BitVec 32) :
    ChannelLaw (takeTarePreset l channel form v s).2 := by
  refine withChannel_keeps h fun c => ?_
  dsimp only
  repeat' split
  all_goals try exact h
  exact h.tareTaken l c _ _

theorem ChannelLaw.takeClearTare {s : State} (h : ChannelLaw s) (l : LaneId) (channel : Byte) :
    ChannelLaw (takeClearTare l channel s).2 := by
  refine withChannel_keeps h fun c => ?_
  split
  · exact h
  · exact h.setChan_state l c ((h.1 l c).congr id rfl rfl rfl) rfl

/-- LANE_RESET takes the tares alone from the channels (R167). -/
theorem reset1_chan (n : Lane) (c : Chan) : n.reset1.chan c = (n.chan c).clearTare := by
  have h := Lane.bagReset_sameScales { n.clearBasket with
    platter := n.platter.clearTare, bag := n.bag.clearTare, weigh := none,
    card := { n.card.hunt with slot := none }, authority := none }
  cases c
  · exact h.1
  · exact h.2

theorem modLane_chan (s : State) (l m : LaneId) (g : Lane → Lane) (c : Chan) :
    (s.modLane l g).chan m c = if m = l then (g (s.lane l)).chan c else s.chan m c := by
  rw [modLane_eq, State.chan]
  split
  · rename_i hm
    rw [hm, lane_setLane_same]
  · rename_i hm
    rw [lane_setLane_ne s l m _ hm]
    rfl

theorem ChannelLaw.reset1 {s : State} (h : ChannelLaw s) (l : LaneId) : ChannelLaw (s.modLane l Lane.reset1) := by
  refine ⟨fun m c => ?_, fun w hw => ?_⟩
  · rw [modLane_chan]
    split
    · rw [reset1_chan]
      exact (h.1 l c).congr id rfl rfl rfl
    · exact h.1 m c
  · rw [modLane_chan]
    split
    · rename_i hm
      rw [reset1_chan, ← hm]
      exact h.2 w hw
    · exact h.2 w hw

theorem ChannelLaw.takeLaneReset {s : State} (h : ChannelLaw s) (l : LaneId) : ChannelLaw (takeLaneReset l s).2 := by
  unfold Sys2Proof.Machine.takeLaneReset
  dsimp only
  split
  · exact h
  · exact ((h.reset1 l).same (drawerReset_sameChannels _ l)).same (printReset_sameChannels _ l)

/-- CAL_WRITE starts a write of a channel that does not work (R178). -/
theorem ChannelLaw.takeCalWrite {s : State} (h : ChannelLaw s) (lane channel : Byte) (r : RawCal) (tag : Byte) :
    ChannelLaw (takeCalWrite lane channel r tag s).2 := by
  unfold Sys2Proof.Machine.takeCalWrite
  split
  · rename_i l c _ _
    dsimp only
    repeat' split
    all_goals try exact h
    rename_i hw _ _
    refine ⟨h.1, fun w hin => ?_⟩
    obtain rfl : _ = w := Option.some.inj hin
    rw [Bool.not_eq_true] at hw
    exact hw
  · exact h
  · exact h
  · exact h

/-- The new copy of a channel that does not work leaves no zero to keep (R12). -/
theorem zeroLaw_newCopy {x : Channel} (hx : x.working = false) (k : Calib) : ZeroLaw (x.newCopy k) := by
  refine zeroLaw_of_not_holdsZero fun h => ?_
  unfold Channel.newCopy at h
  dsimp only at h
  split at h
  · rename_i hf
    rcases h with h | ⟨-, h, -⟩
    · exact ChanState.noConfusion (hf.1.symm.trans h)
    · exact FaultCause.noConfusion h
  · rename_i hf
    rcases h with h | ⟨h, h', -⟩
    · simp [Channel.working, show x.state = .running from h] at hx
    · exact hf ⟨h, h'⟩

theorem ChannelLaw.calWriteCompletes {s : State} (h : ChannelLaw s) : ChannelLaw s.calWriteCompletes := by
  unfold State.calWriteCompletes
  split
  · exact h
  · rename_i w hw
    have hidle : (s.chan w.lane w.channel).working = false := h.2 w hw
    have hcopy (u : State) (hu : ∀ l c, u.chan l c = s.chan l c) (hn : u.calWrite = none) :
        ChannelLaw (u.takeCopy w.lane w.channel w.record) := by
      have hlaw : ChannelLaw u := ⟨fun l c => by rw [hu]; exact h.1 l c, by simp [hn]⟩
      have hset : ChannelLaw (u.setChan w.lane w.channel ((u.chan w.lane w.channel).newCopy w.record)) :=
        hlaw.setChan _ _ (zeroLaw_newCopy (by rw [hu]; exact hidle) _) fun hcw => by simp [State.calWriting, hn] at hcw
      unfold State.takeCopy
      dsimp only
      split
      · exact hset.displayCheck _ _
      · exact hset
    exact hcopy _ (fun _ _ => rfl) rfl

/-! ## Start-up -/

/-- A start-up's display check and entries leave no calibration write. -/
theorem startChannel_law {s : State} (h : ChannelLaw s) (hw : s.calWrite = none) (l : LaneId) (c : Chan) (copy : Option Calib) :
    ChannelLaw (s.startChannel l c copy) ∧ (s.startChannel l c copy).calWrite = none := by
  unfold State.startChannel
  split
  · refine ⟨ChannelLaw.displayCheck (h.setChan l c ?_ fun hcw => ?_) l c, by rw [displayCheck_calWrite]; exact hw⟩
    · exact zeroLaw_of_not_holdsZero (by simp [Channel.holdsZero, Channel.toStarting])
    · simp [State.calWriting, hw] at hcw
  · refine ⟨h.enterFault l c _ _ (by simp), ?_⟩
    unfold State.enterFault
    dsimp only
    rw [displayCheck_calWrite]
    split
    · rw [(bagLoss_sameChannels _ l).2, (raiseLane_sameChannels _ l _).2]
      exact hw
    · rw [(raiseLane_sameChannels _ l _).2]
      exact hw

theorem startLane_law {s : State} (h : ChannelLaw s) (hw : s.calWrite = none) (l : LaneId) :
    ChannelLaw (s.startLane l) ∧ (s.startLane l).calWrite = none := by
  unfold State.startLane
  split
  · dsimp only
    obtain ⟨hp, hpw⟩ := startChannel_law (h.same (modLane_sameChannels s l (fun n => { n with
      till := Till.start n.till.rawHigh (s.laneSettings l).leftOpenTime
      port := { n.port with silence := some 2000 } }) rfl rfl)) hw l .platter _
    exact startChannel_law hp hpw l .bag _
  · exact ⟨h, hw⟩

theorem blank_chan (s : State) (cause : ResetCause) (check : SelfCheck) (l : LaneId) (c : Chan) :
    (s.blank cause check).chan l c = Channel.blank := by
  cases c <;> simp [State.chan, State.lane, State.blank, Lane.blank, Lane.chan]

/-- Every channel blank and no write: the part before its channels start (R180). -/
theorem blank_law (s : State) (cause : ResetCause) (check : SelfCheck) : ChannelLaw (s.blank cause check) := by
  refine ⟨fun l c => ?_, by simp [State.blank]⟩
  rw [blank_chan]
  exact zeroLaw_of_not_holdsZero (by simp [Channel.holdsZero, Channel.blank])

theorem startUp_law (s : State) (cause : ResetCause) (check : SelfCheck) : ChannelLaw (s.startUp cause check) := by
  have lanes (ls : List LaneId) (u : State) (h : ChannelLaw u) (hw : u.calWrite = none) :
      ChannelLaw (ls.foldl State.startLane u) := by
    induction ls generalizing u with
    | nil => exact h
    | cons l ls ih =>
      obtain ⟨hl, hlw⟩ := startLane_law h hw l
      exact ih _ hl hlw
  have supply (u : State) (h : ChannelLaw u) : ChannelLaw u.compareSupply := by
    unfold State.compareSupply
    split
    · have hs : ChannelLaw { u with supplyLow := true } := h.of_lanes rfl rfl
      exact hs.same (raisePart_sameChannels _ _)
    · exact h
  exact supply _ (lanes allLanes _ ((blank_law s cause check).same (enqueue_sameChannels _ _)) rfl)

/-! ## The trunk link -/

/-- Every request keeps the law at its owner (R170). -/
theorem ChannelLaw.take {s : State} (h : ChannelLaw s) (i : Instr) : ChannelLaw (take i s).2 := by
  have lane (addr : Byte) (g : LaneId → Reply × State) (hg : ∀ l, ChannelLaw (g l).2) : ChannelLaw (toLane addr s g).2 := by
    obtain ⟨l, hl⟩ | hl := toLane_cases addr s g <;> rw [hl]
    · exact hg l
    · exact h
  have same (addr : Byte) (g : LaneId → Reply × State) (hg : ∀ l, SameChannels s (g l).2) : ChannelLaw (toLane addr s g).2 :=
    h.same (toLane_sameChannels addr s g hg)
  cases i with
  | item a _ c q p k => exact same a _ fun l => takeItem_sameChannels l c q p k s
  | void a _ p => exact same a _ fun l => takeVoid_sameChannels l p s
  | cancelWeigh a _ => exact same a _ fun l => takeCancelWeigh_sameChannels l s
  | tender a _ k m => exact same a _ fun l => takeTender_sameChannels l k m s
  | newBasket a _ => exact same a _ fun l => takeNewBasket_sameChannels l s
  | abandonBasket a _ => exact same a _ fun l => takeAbandonBasket_sameChannels l s
  | basketRead a _ p => exact same a _ fun l => takeBasketRead_sameChannels l p s
  | laneMode a _ m => exact same a _ fun l => takeLaneMode_sameChannels l m s
  | channelStart a _ c => exact lane a _ fun l => h.takeChannelStart l c
  | channelStop a _ c => exact lane a _ fun l => h.takeChannelStop l c
  | channelSetup a _ c f m => exact lane a _ fun l => h.takeChannelSetup l c f m
  | zero a _ c => exact lane a _ fun l => h.takeZeroRequest l c
  | tareWeighed a _ c _ => exact lane a _ fun l => h.takeTareWeighed l c
  | tarePreset a _ c f v => exact lane a _ fun l => h.takeTarePreset l c f v
  | clearTare a _ c => exact lane a _ fun l => h.takeClearTare l c
  | bagOverride a _ => exact same a _ fun l => takeBagOverride_sameChannels l s
  | cancelCard a _ => exact same a _ fun l => takeCancelCard_sameChannels l s
  | drawerOpen a _ => exact same a _ fun l => takeDrawerOpen_sameChannels l s
  | drawerClear a _ => exact same a _ fun l => takeDrawerClear_sameChannels l s
  | printBegin a _ => exact same a _ fun l => takePrintBegin_sameChannels l s
  | printData a _ j o => exact same a _ fun l => takePrintData_sameChannels l j o s
  | printEnd a _ j => exact same a _ fun l => takePrintEnd_sameChannels l j s
  | printCancel a _ j => exact same a _ fun l => takePrintCancel_sameChannels l j s
  | laneStatus a _ n => exact same a _ fun l => takeLaneStatus_sameChannels l n s
  | laneReset a _ => exact lane a _ fun l => h.takeLaneReset l
  | staffGrant a _ n => exact same a _ fun l => takeStaffGrant_sameChannels l n s
  | staffWithdraw a _ => exact same a _ fun l => dropStaff_sameChannels s l
  | clearAttention a _ c => exact h.same (toRecord_sameChannels a c Attention.clearing s)
  | attentionMask a _ c => exact h.same (toRecord_sameChannels a c Attention.masking s)
  | partStatus _ => exact h.same (counted_sameChannels s)
  | settingsWrite _ r => exact h.same (takeSettingsWrite_sameChannels r s)
  | setDate _ y m d => exact h.same (takeSetDate_sameChannels y m d s)
  | restart _ => exact h.same (takeRestart_sameChannels s)
  | itemPut _ r => exact h.same (takeItemPut_sameChannels r s)
  | itemRemove _ c => exact h.same (takeItemRemove_sameChannels c s)
  | itemGet _ c => exact h.same (takeItemGet_sameChannels c s)
  | binPut _ r => exact h.same (takeBinPut_sameChannels r s)
  | binRemove _ n => exact h.same (takeBinRemove_sameChannels n s)
  | binRead _ n => exact h.same (takeBinRead_sameChannels n s)
  | glyphPut _ c p => exact h.same (takeGlyphPut_sameChannels c p s)
  | glyphClear _ c => exact h.same (takeGlyphClear_sameChannels c s)
  | calWrite t a c r _ => exact h.takeCalWrite a c r t
  | calRead _ a c => exact h.same (takeCalRead_sameChannels a c s)
  | _ => exact h

theorem ChannelLaw.dispatch {s : State} (h : ChannelLaw s) (f : Frame) : ChannelLaw (s.dispatch f) := by
  have hres : ChannelLaw s.reserve := h.of_lanes rfl rfl
  have hreply : ChannelLaw (s.reserve.replyTo f).2 := by
    unfold State.replyTo
    split
    · exact hres
    · exact hres.take _
  unfold State.dispatch settle
  split
  · exact hreply.of_lanes rfl rfl
  · exact hreply

theorem ChannelLaw.drain {s : State} (h : ChannelLaw s) (n : Nat) : ChannelLaw (State.drain n s) := by
  induction n generalizing s with
  | zero => exact h
  | succ n ih =>
    unfold State.drain
    split
    · exact h
    · rename_i f rest _
      split
      · exact h
      · have hb : ChannelLaw (s.setBuffer rest) := h.of_lanes rfl rfl
        exact ih (hb.dispatch f)

theorem ChannelLaw.arrive {s : State} (h : ChannelLaw s) (f : Frame) : ChannelLaw (s.arrive f) := by
  have heard : ChannelLaw s.heardHost := h.of_lanes rfl rfl
  unfold State.arrive
  dsimp only
  split
  · exact h.same (discardFrame_sameChannels s)
  · split
    · exact heard.same (raisePart_sameChannels _ _)
    · have hb : ChannelLaw (s.heardHost.setBuffer (s.heardHost.receiveBuffer ++ [f])) := heard.of_lanes rfl rfl
      exact hb.drain _

theorem ChannelLaw.frameSent {s : State} (h : ChannelLaw s) : ChannelLaw s.frameSent := by
  unfold State.frameSent
  split
  · exact h
  · rename_i f rest _
    split
    · have hb : ChannelLaw { s with upstream := rest } := h.of_lanes rfl rfl
      exact hb.drain _
    · exact h
    · exact h.of_lanes rfl rfl

theorem ChannelLaw.onPart {s : State} (h : ChannelLaw s) {g : State → State} (hg : ChannelLaw (g s)) :
    ChannelLaw (s.onPart g) := by
  unfold State.onPart
  split
  · exact hg
  · exact h

theorem ChannelLaw.onLane {s : State} (h : ChannelLaw s) (l : LaneId) {g : State → State} (hg : ChannelLaw (g s)) :
    ChannelLaw (s.onLane l g) := by
  unfold State.onLane
  split
  · exact hg
  · exact h

theorem ChannelLaw.request {s : State} (h : ChannelLaw s) (i : Instr) : ChannelLaw (s.request i) := by
  unfold State.request
  split
  · exact h
  · exact h.onPart (h.arrive _)

theorem ChannelLaw.withCalEn {s : State} (h : ChannelLaw s) (en : Bool) : ChannelLaw (s.withCalEn en) :=
  h.of_lanes rfl rfl

/-- Every command keeps the zero law. -/
theorem exec_channelLaw {s t : State} (i : Instr) (h : ChannelLaw s) (he : exec i s = .next t) : ChannelLaw t := by
  have next {u : State} (hu : exec i s = .next u) (hl : ChannelLaw u) : ChannelLaw t := by
    obtain rfl : u = t := Host.Outcome.next.inj (hu.symm.trans he)
    exact hl
  cases i with
  | calWrite _ _ _ _ en => exact next rfl ((h.withCalEn en).request _)
  | calWriteComplete => exact next rfl (h.onPart h.calWriteCompletes)
  | goodFrame f en => exact next rfl ((h.withCalEn en).onPart ((h.withCalEn en).arrive f))
  | frameError _ => exact next rfl (h.onPart (h.same (discardFrame_sameChannels s)))
  | upstreamFrameSent en => exact next rfl ((h.withCalEn en).onPart (h.withCalEn en).frameSent)
  | restartReset check =>
    refine next rfl ?_
    unfold State.restartReset
    split
    · exact startUp_law s _ _
    · exact h
  | linkSilenceExpiry => exact next rfl (h.onPart (h.same (linkExpires_sameChannels s)))
  | powerOn inputs => exact next rfl (startUp_law (s.readInputs inputs) _ _)
  | brownOut => exact next rfl ((blank_law s .brownOut s.selfCheck).of_lanes rfl rfl)
  | supplyLowSet => exact next rfl (h.same (supplyFalls_sameChannels s))
  | supplyLowClear => exact next rfl (h.same (supplyRises_sameChannels s))
  | sampleArrival l c raw => exact next rfl (h.onLane l (h.sample l c raw.toNat))
  | channelSilenceExpiry l c => exact next rfl (h.onLane l (h.silenceExpires l c))
  | initialZeroExpiry l c => exact next rfl (h.onLane l (h.initialZeroExpires l c))
  | displayTimerExpiry l c => exact next rfl (h.onLane l (h.displayExpires l c))
  | weighTimerExpiry l => exact next rfl (h.onLane l (h.same (weighExpires_sameChannels s l)))
  | placementTimerExpiry l => exact next rfl (h.onLane l (h.same (placementExpires_sameChannels s l)))
  | removalTimerExpiry l => exact next rfl (h.onLane l (h.same (removalExpires_sameChannels s l)))
  | readerCharacter l v p => exact next rfl (h.onLane l (h.same (readerChar_sameChannels s l v p)))
  | gapTimerExpiry l => exact next rfl (h.onLane l (h.same (gapExpires_sameChannels s l)))
  | result a tag o m ap => exact next rfl (h.onPart (h.same (paymentArrive_sameChannels s _)))
  | paymentFrameSent => exact next rfl (h.onPart (h.same (paymentSent_sameChannels s)))
  | responseTimerExpiry => exact next rfl (h.onPart (h.same (responseExpires_sameChannels s)))
  | drawerSensorLevel l high =>
    have hp := h.same (sensorPin_sameChannels s l high)
    exact next rfl (hp.onLane l (hp.same (debounceUpdate_sameChannels _ l)))
  | debounceTimerExpiry l => exact next rfl (h.onLane l (h.same (debounceExpires_sameChannels s l)))
  | pulseTimerExpiry l => exact next rfl (h.onLane l (h.same (pulseExpires_sameChannels s l)))
  | checkTimerExpiry l => exact next rfl (h.onLane l (h.same (checkExpires_sameChannels s l)))
  | leftOpenExpiry l => exact next rfl (h.onLane l (h.same (leftOpenExpires_sameChannels s l)))
  | lineDone l _ => exact next rfl (h.onLane l (h.same (printerArrive_sameChannels s l _)))
  | lineFailed l _ => exact next rfl (h.onLane l (h.same (printerArrive_sameChannels s l _)))
  | printerStatus l _ => exact next rfl (h.onLane l (h.same (printerArrive_sameChannels s l _)))
  | printerSilenceExpiry l => exact next rfl (h.onLane l (h.same (printerSilent_sameChannels s l)))
  | answerTimerExpiry l => exact next rfl (h.onLane l (h.same (answerExpires_sameChannels s l)))
  | staffHoldExpiry l => exact next rfl (h.onLane l (h.same (staffExpires_sameChannels s l)))
  | supplyAboveBrownOut inputs =>
    refine next rfl ?_
    unfold State.aboveBrownOut
    split
    · exact h
    · exact startUp_law (s.readInputs inputs) _ _
  | paymentFrameDiscarded cause => exact next rfl (h.onPart (h.same (paymentBroken_sameChannels s cause)))
  | printerFrameDiscarded l cause => exact next rfl (h.onLane l (h.same (printerBroken_sameChannels s l cause)))
  | _ => exact next rfl (h.request _)

/-- Settles O11: the law is kept by every command, and a step is a command on the rest of the queue, or none. -/
theorem zeroLawKept : Obligations.ZeroLawKept := by
  intro s t h hs
  unfold step at hs
  split at hs
  · obtain rfl : s = t := Host.Outcome.next.inj hs
    exact h
  · rename_i c rest _
    exact exec_channelLaw (s := { s with pending := rest }) c (h.of_lanes rfl rfl) hs

end Sys2Proof.Machine
end

