-- ==== Sys2Proof/Proofs/Rounding.lean ====
section
/-! The exact quotients of the evaluation (R13, R14, R19, R35), and the values after a power-on (R180). -/

namespace Sys2Proof.Machine

/-! ## Rounding -/

/-- Round half up is within half of the quotient, and a half goes up (00, Rounding). -/
theorem roundHalfUp_bounds (n d : Nat) (hd : 0 < d) :
    2 * n < (2 * roundHalfUp n d + 1) * d ∧ 2 * roundHalfUp n d * d ≤ 2 * n + d := by
  have hdiv := Nat.div_add_mod (2 * n + d) (2 * d)
  have hmod := Nat.mod_lt (2 * n + d) (show 0 < 2 * d by omega)
  have hq : 2 * d * roundHalfUp n d = 2 * roundHalfUp n d * d := by ring
  have hq' : (2 * roundHalfUp n d + 1) * d = 2 * roundHalfUp n d * d + d := by ring
  simp only [roundHalfUp] at hq hq' ⊢
  omega

/-- Round half up of a whole quotient is that quotient. -/
theorem roundHalfUp_one (n : Nat) : roundHalfUp n 1 = n := by
  simp only [roundHalfUp]
  omega

/-- A quotient rounded half away from zero, times its divisor: within half a divisor, and away from zero at exactly half. -/
theorem roundHalfAway_bounds (n : Int) (d : Nat) (hd : 0 < d) :
    2 * |d * roundHalfAway n d - n| ≤ d ∧ (2 * |d * roundHalfAway n d - n| = d → |n| ≤ |d * roundHalfAway n d|) := by
  obtain ⟨hlo, hhi⟩ := roundHalfUp_bounds n.natAbs d hd
  have hq : (2 * roundHalfUp n.natAbs d + 1) * d = 2 * (d * roundHalfUp n.natAbs d) + d := by ring
  have hq' : 2 * roundHalfUp n.natAbs d * d = 2 * (d * roundHalfUp n.natAbs d) := by ring
  unfold roundHalfAway
  split
  · have hc : (d : Int) * (roundHalfUp n.natAbs d : Int) = ((d * roundHalfUp n.natAbs d : Nat) : Int) := by push_cast; rfl
    rw [hc]
    simp only [Int.abs_eq_natAbs]
    omega
  · have hc : (d : Int) * -(roundHalfUp n.natAbs d : Int) = -((d * roundHalfUp n.natAbs d : Nat) : Int) := by
      push_cast; ring
    rw [hc]
    simp only [Int.abs_eq_natAbs]
    omega

/-- Settles O17, each quotient by the bounds of its rounding. -/
theorem roundingAndWeights : Obligations.RoundingAndWeights := by
  refine ⟨fun w hw => ?_, fun k a => ?_, fun n d hd => ⟨Dvd.intro _ rfl, roundHalfAway_bounds n d hd⟩, fun net p => ?_⟩
  · exact roundHalfUp_bounds w.sum w.length (List.length_pos_iff.mpr hw)
  · exact roundHalfAway_bounds _ 1024 (by decide)
  · simp only [weighedPrice, roundHalfUp, Int.toNat_natCast]
    omega

/-! ## Reset values -/

@[simp] theorem reset_lane (l : LaneId) : State.reset.lane l = Lane.reset := Four.get_make _ l

/-- Settles O4: every lane is at its reset record, and the part's own fields are read off. -/
theorem resetHoldsTheSpecValues : Obligations.ResetHoldsTheSpecValues := by
  refine ⟨fun l => ?_, by decide⟩
  rw [reset_lane]
  refine ⟨rfl, rfl, rfl, rfl, rfl, rfl, rfl, rfl, rfl, rfl, rfl, rfl, rfl, rfl, rfl, rfl, rfl, fun c => ?_⟩
  cases c <;> decide

end Sys2Proof.Machine
end

