-- ==== Sys2Proof/Proofs/Displays.lean ====
section
/-! Display notices (R25, R171, R189), and the two timers that end in FAULT (R7, R9, R10, R80). -/

namespace Sys2Proof.Machine

/-! ## Events at a lane -/

theorem live_of_runs {s : State} {l : LaneId} (h : s.Runs l) : s.live l = true := by
  obtain ⟨hp, he⟩ := h
  simp [State.live, hp, he]

/-- An event at a lane that runs has its effect. -/
theorem onLane_runs {s : State} {l : LaneId} (h : s.Runs l) (g : State → State) : s.onLane l g = g s :=
  onLane_live s l g (live_of_runs h)

/-! ## Offering a display notice (R171) -/

theorem replaceDisplay_first (l : LaneId) (c : Chan) (f g : Frame) (a b : List Frame) (hg : isDisplay l c g = true)
    (ha : ∀ x ∈ a, isDisplay l c x = false) : replaceDisplay l c f (a ++ g :: b) = some (a ++ f :: b) := by
  induction a with
  | nil => simp [replaceDisplay, hg]
  | cons x a ih =>
    obtain ⟨hx, ha⟩ := List.forall_mem_cons.mp ha
    simp [replaceDisplay, hx, ih ha]

theorem replaceDisplay_none (l : LaneId) (c : Chan) (f : Frame) (q : List Frame) (h : ∀ x ∈ q, isDisplay l c x = false) :
    replaceDisplay l c f q = none := by
  induction q with
  | nil => rfl
  | cons x q ih =>
    obtain ⟨hx, hq⟩ := List.forall_mem_cons.mp h
    simp [replaceDisplay, hx, ih hq]

/-- The WEIGHT_DISPLAY frame of a channel (R189). -/
def displayFrame (l : LaneId) (c : Chan) (d : Display) : Frame := ⟨laneAddr l, kindDisplay, 0, displayPayload c d⟩

/-- A notice of the channel that waits behind the head is replaced in place. -/
theorem offerDisplay_replaces (s : State) (l : LaneId) (c : Chan) (d : Display) (h g : Frame) (a b : List Frame)
    (hq : s.upstream = h :: (a ++ g :: b)) (hg : isDisplay l c g = true) (ha : ∀ x ∈ a, isDisplay l c x = false) :
    s.offerDisplay l c d = (true, { s with upstream := h :: (a ++ displayFrame l c d :: b) }) := by
  simp [State.offerDisplay, hq, replaceDisplay_first l c _ g a b hg ha, displayFrame]

/-- With no notice of the channel behind the head, the notice joins the tail when at least 16 records are free. -/
theorem offerDisplay_new (s : State) (l : LaneId) (c : Chan) (d : Display)
    (hq : ∀ x ∈ s.upstream.drop 1, isDisplay l c x = false) :
    s.offerDisplay l c d =
      if s.upstream.length + s.reserved ≤ 48 then (true, s.enqueue (displayFrame l c d)) else (false, s) := by
  have room : 16 ≤ s.freeRecords ↔ s.upstream.length + s.reserved ≤ 48 := by
    simp only [State.freeRecords]
    omega
  unfold State.offerDisplay
  cases hu : s.upstream with
  | nil =>
    simp only [room, hu]
    rfl
  | cons h t =>
    rw [hu, List.drop_one, List.tail_cons] at hq
    simp only [replaceDisplay_none l c _ t hq, room, hu]
    rfl

/-- A display check with the timer stopped and new content offers the notice and starts the timer (R25). -/
theorem displayCheck_due (s : State) (l : LaneId) (c : Chan) (ht : (s.chan l c).displayTimer = none)
    (hd : (s.chan l c).display ≠ some (s.chan l c).shown) :
    s.displayCheck l c =
      (s.offerDisplay l c (s.chan l c).shown).2.setChan l c
        { s.chan l c with
          display := if (s.offerDisplay l c (s.chan l c).shown).1 then some (s.chan l c).shown else (s.chan l c).display
          displayTimer := some (s.laneSettings l).displayInterval } := by
  obtain ⟨hc, -⟩ := offerDisplay_sameChannels s l c (s.chan l c).shown
  simp [State.displayCheck, ht, hd, State.modChan, hc]

/-- After a display check a second one does nothing: the timer runs or the content is the display record's (R25). -/
theorem displayCheck_twice (s : State) (l : LaneId) (c : Chan) : (s.displayCheck l c).displayCheck l c = s.displayCheck l c := by
  by_cases ht : (s.chan l c).displayTimer = none
  · by_cases hd : (s.chan l c).display = some (s.chan l c).shown
    · rw [displayCheck_same s l c hd, displayCheck_same s l c hd]
    · refine displayCheck_running _ l c ?_
      rw [displayCheck_due s l c ht hd, chan_setChan]
      rfl
  · rw [← ne_eq, Option.ne_none_iff_isSome] at ht
    rw [displayCheck_running s l c ht, displayCheck_running s l c ht]

/-- The display timer's expiry is a display check of the channel with its timer stopped (R25). -/
theorem exec_displayTimerExpiry (s : State) (l : LaneId) (c : Chan) (h : s.Runs l)
    (ht : (s.chan l c).displayTimer.isSome = true) :
    exec (.displayTimerExpiry l c) s =
      .next ((s.setChan l c { s.chan l c with displayTimer := none }).displayCheck l c) := by
  change Host.Outcome.next (s.onLane l fun x => x.displayExpires l c) = _
  rw [onLane_runs h, State.displayExpires, if_pos ht]
  rfl

/-- Offering a display notice reads no channel. -/
theorem offerDisplay_setChan (s : State) (l : LaneId) (c : Chan) (d : Display) (x : Channel) :
    (s.setChan l c x).offerDisplay l c d =
      ((s.offerDisplay l c d).1, (s.offerDisplay l c d).2.setChan l c x) := by
  have hu : (s.setChan l c x).upstream = s.upstream := rfl
  have hf : (s.setChan l c x).freeRecords = s.freeRecords := rfl
  unfold State.offerDisplay
  rw [hu, hf]
  dsimp only
  split
  · split <;> rfl
  · split
    · rfl
    · split <;> rfl

/-- The display timer's expiry with new content: the notice is offered, and the timer starts again (R25). -/
theorem exec_displayTimerExpiry_due (s : State) (l : LaneId) (c : Chan) (h : s.Runs l)
    (ht : (s.chan l c).displayTimer.isSome = true) (hd : (s.chan l c).display ≠ some (s.chan l c).shown) :
    exec (.displayTimerExpiry l c) s =
      .next ((s.offerDisplay l c (s.chan l c).shown).2.setChan l c
        { s.chan l c with
          display := if (s.offerDisplay l c (s.chan l c).shown).1 then some (s.chan l c).shown else (s.chan l c).display
          displayTimer := some (s.laneSettings l).displayInterval }) := by
  rw [exec_displayTimerExpiry s l c h ht, displayCheck_due _ l c (by rw [chan_setChan]) (by rw [chan_setChan]; exact hd),
    chan_setChan, offerDisplay_setChan, setChan_setChan]
  rfl

/-- Settles O18: the check of a channel whose timer has stopped, by what the queue holds of the channel. -/
theorem displayChecksFollowTheTimer : Obligations.DisplayChecksFollowTheTimer := by
  refine ⟨fun s l c h ht hd => ?_, fun s l c x g a b h ht hd hq hg ha => ?_, fun s l c h ht hd hq => ?_⟩
  · rw [exec_displayTimerExpiry s l c h ht, displayCheck_same _ l c (by rw [chan_setChan]; exact hd)]
  · rw [exec_displayTimerExpiry_due s l c h ht hd, offerDisplay_replaces s l c _ x g a b hq hg ha]
    rfl
  · rw [exec_displayTimerExpiry_due s l c h ht hd, offerDisplay_new s l c _ hq]
    dsimp only
    split <;> rfl

/-! ## Timers that end in FAULT -/

theorem faultCond_eq (c : Chan) : faultCond c = if c = .bag then .bagFault else .platterFault := by
  cases c <;> rfl

/-- An entry into FAULT of a calibrated channel: windows, evaluation, reading and timers gone, then the condition, the loss
and the display check in their order (R7, R9, R10; log 10). -/
theorem enterFault_eq (s : State) (l : LaneId) (c : Chan) (cause : FaultCause) (ret : Option ReturnState)
    (h : cause ≠ .uncalibrated) :
    s.enterFault l c cause ret =
      let y := s.setChan l c { s.chan l c with
        state := .fault, cause := cause, ret := ret, filter := [], stability := [], latest := none, reading := none,
        silence := none, initialZero := none }
      let z := y.raiseLane l (if c = .bag then .bagFault else .platterFault)
      (if c = .bag then z.bagLoss l else z).displayCheck l c := by
  simp only [State.enterFault, faultCond_eq, State.modChan, Channel.toFault, if_neg h]

/-- The loss of the bag channel does nothing in SUSPENDED (R80). -/
theorem bagLoss_suspended (s : State) (l : LaneId) (h : (s.lane l).bagCheck.state = .suspended) : s.bagLoss l = s := by
  simp [State.bagLoss, h]

/-- The loss of the bag channel in any other state: FAULTED, with its BAG_EVENT (R80, R83). -/
theorem bagLoss_faulted (s : State) (l : LaneId) (h : (s.lane l).bagCheck.state ≠ .suspended) :
    s.bagLoss l = (s.setBag l ((s.lane l).bagCheck.enter .faulted)).offerBag l .faulted none
      ((s.lane l).bagCheck.awaiting.getD 0) := by
  simp [State.bagLoss, h]

/-- Settles O44: both expiries are entries into FAULT, and the loss of the bag channel is its own definition. -/
theorem channelTimersEndInFault : Obligations.ChannelTimersEndInFault := by
  refine ⟨fun s l c h hs hst => ?_, fun s l c h hz hst => ?_, fun s l => ?_⟩
  · change Host.Outcome.next (s.onLane l fun x => x.silenceExpires l c) = _
    have hn : (s.chan l c).silence.isNone = false := by simpa using hs
    rw [onLane_runs h, ← enterFault_eq s l c .sensor _ (by decide)]
    rcases hst with hst | hst <;> simp [State.silenceExpires, hn, hst]
  · change Host.Outcome.next (s.onLane l fun x => x.initialZeroExpires l c) = _
    rw [onLane_runs h, ← enterFault_eq s l c .noZero none (by decide)]
    simp [State.initialZeroExpires, hz, hst]
  · by_cases hb : (s.lane l).bagCheck.state = .suspended
    · exact (bagLoss_suspended s l hb).trans (if_pos hb).symm
    · refine Eq.trans ?_ (if_neg hb).symm
      rw [bagLoss_faulted s l hb, State.offerBag, setBag_eq, lane_setLane_same]
      rfl

end Sys2Proof.Machine
end

