-- ==== Sys2Proof/Proofs/WeighingRequests.lean ====
section
/-! CHANNEL_START, CHANNEL_STOP, CHANNEL_SETUP, ZERO, TARE and CLEAR_TARE at their lane (R4 to R6, R21 to R24): how a request
command reaches its owner, what each owner answers, and the two obligations. -/

namespace Sys2Proof.Machine

/-! ## A request command reaches its owner at once (R169, R170) -/

theorem ofCode_code (k : ReqKind) : ReqKind.ofCode k.code = some k := by cases k <;> rfl

theorem requestKind_lane (l : LaneId) (k : ReqKind) (h : k.fits false = true) : requestKind (laneAddr l) k.code = some k := by
  have ha : (laneAddr l == 15) = false := by simpa using laneAddr_ne_part l
  rw [requestKind, ha, ofCode_code]
  exact if_pos h

theorem requestKind_part (k : ReqKind) (h : k.fits true = true) : requestKind 15 k.code = some k := by
  simp [requestKind, ofCode_code, h]

/-- The payload of every request kind fits a frame (R184). -/
theorem lengthOk_le {k : ReqKind} {n : Nat} (h : k.lengthOk n = true) : n ≤ 240 := by
  cases k <;> simp only [ReqKind.lengthOk, Bool.and_eq_true, beq_iff_eq, decide_eq_true_eq] at h <;> omega

@[simp] theorem settle_receiveBuffer (f : Frame) (n : Nat) (r : Reply × State) :
    (settle f n r).receiveBuffer = r.2.receiveBuffer := by
  unfold settle
  split <;> rfl

/-- A frame that is dispatched at once and leaves no frame waiting. -/
theorem arrive_settles (s : State) (f : Frame) (i : Instr) (h : s.Ready) (hp : f.payload.length ≤ 240)
    (hr : s.taken.replyTo f = take i s.taken) (hb : (take i s.taken).2.receiveBuffer = []) :
    s.arrive f = settle f s.upstream.length (take i s.taken) := by
  have hd : s.heardHost.dispatch f = settle f s.upstream.length (take i s.taken) := by
    rw [State.dispatch, heardHost_reserve, hr]
    rfl
  rw [arrive_ready s f h hp, hd]
  exact drain_nil 3 _ (by rw [settle_receiveBuffer, hb])

/-- A lane request at a lane that serves: the owner's reply, settled. -/
theorem laneRequest_settles (s : State) (l : LaneId) (i : Instr) (k : ReqKind) (tag : Byte) (p : List Byte) (h : s.Serves l)
    (hi : encodeRequest i = some (requestFrame (laneAddr l) k tag p)) (hf : k.fits false = true)
    (hl : k.lengthOk p.length = true) (hr : requestOf s.calEn k (requestFrame (laneAddr l) k tag p) = i)
    (hb : (take i s.taken).2.receiveBuffer = []) :
    s.request i = settle (requestFrame (laneAddr l) k tag p) s.upstream.length (take i s.taken) := by
  obtain ⟨hready, hen, hcheck⟩ := h
  have hreply := replyTo_lane s.taken l _ k i rfl hen hcheck (requestKind_lane l k hf) hl hr
  simp only [State.request, hi, onPart_running s _ hready.1]
  exact arrive_settles s _ i hready (lengthOk_le hl) hreply hb

/-- A part request at a part that serves: the owner's reply, settled. -/
theorem partRequest_settles (s : State) (i : Instr) (k : ReqKind) (tag : Byte) (p : List Byte) (h : s.ServesPart)
    (hi : encodeRequest i = some (requestFrame 15 k tag p)) (hf : k.fits true = true)
    (hl : k.lengthOk p.length = true) (hr : requestOf s.calEn k (requestFrame 15 k tag p) = i)
    (hb : (take i s.taken).2.receiveBuffer = []) :
    s.request i = settle (requestFrame 15 k tag p) s.upstream.length (take i s.taken) := by
  obtain ⟨hready, hcheck⟩ := h
  have hreply := replyTo_part s.taken _ k i rfl hcheck (requestKind_part k hf) hl hr
  simp only [State.request, hi, onPart_running s _ hready.1]
  exact arrive_settles s _ i hready (lengthOk_le hl) hreply hb

@[simp] theorem toLane_laneAddr (l : LaneId) (s : State) (g : LaneId → Reply × State) : toLane (laneAddr l) s g = g l := by
  simp [toLane]

/-- A lane request command at a lane that serves: the owner's reply, settled. -/
theorem exec_lane {s : State} {l : LaneId} {i : Instr} (k : ReqKind) (tag : Byte) (p : List Byte) {r : Reply × State}
    (h : s.Serves l) (hx : exec i s = .next (s.request i))
    (hi : encodeRequest i = some (requestFrame (laneAddr l) k tag p)) (hf : k.fits false = true)
    (hl : k.lengthOk p.length = true) (hr : requestOf s.calEn k (requestFrame (laneAddr l) k tag p) = i)
    (ht : take i s.taken = r) (hb : r.2.receiveBuffer = s.taken.receiveBuffer) :
    exec i s = .next (settle (requestFrame (laneAddr l) k tag p) s.upstream.length r) := by
  subst ht
  have hempty : s.taken.receiveBuffer = [] := h.1.2.1
  rw [hx, laneRequest_settles s l i k tag p h hi hf hl hr (hb.trans hempty)]

/-! ## The receive buffer is the trunk link's own -/

@[simp] theorem setChan_receiveBuffer (s : State) (l : LaneId) (c : Chan) (x : Channel) :
    (s.setChan l c x).receiveBuffer = s.receiveBuffer := rfl

@[simp] theorem raiseLane_receiveBuffer (s : State) (l : LaneId) (c : LaneCond) :
    (s.raiseLane l c).receiveBuffer = s.receiveBuffer := by
  obtain h | ⟨a, h | ⟨f, -, h⟩⟩ := raiseLane_cases s l c <;> rw [h] <;> rfl

@[simp] theorem offerLane_receiveBuffer (s : State) (l : LaneId) (k : Byte) (p : List Byte) :
    (s.offerLane l k p).receiveBuffer = s.receiveBuffer := by
  unfold State.offerLane
  split <;> simp

@[simp] theorem bagLoss_receiveBuffer (s : State) (l : LaneId) : (s.bagLoss l).receiveBuffer = s.receiveBuffer := by
  unfold State.bagLoss State.offerBag
  dsimp only
  split
  · rfl
  · rw [offerLane_receiveBuffer]
    rfl

@[simp] theorem displayCheck_receiveBuffer (s : State) (l : LaneId) (c : Chan) :
    (s.displayCheck l c).receiveBuffer = s.receiveBuffer := by
  obtain ⟨q, h, -⟩ := offerDisplay_cases s l c (s.chan l c).shown
  unfold State.displayCheck
  dsimp only
  split
  · rfl
  · rw [State.modChan, setChan_receiveBuffer, h]

/-! ## The channel field (R1) -/

@[simp] theorem chanOf_chanValue (c : Chan) : chanOf (chanValue c) = some c := by cases c <;> rfl

theorem chanOf_foreign {b : Byte} (h : 1 < b.toNat) : chanOf b = none := by
  unfold chanOf
  split <;> simp_all

theorem withChannel_some {b : Byte} {c : Chan} (h : chanOf b = some c) (s : State) (g : Chan → Reply × State) :
    withChannel b s g = g c := by
  simp [withChannel, h]

theorem withChannel_none {b : Byte} (h : chanOf b = none) (s : State) (g : Chan → Reply × State) :
    withChannel b s g = refuse .badValue s := by
  simp [withChannel, h]

/-- A request with a channel field leaves the receive buffer when its owner does, for either channel. -/
theorem withChannel_receiveBuffer {b : Byte} {s : State} {g : Chan → Reply × State}
    (hg : ∀ c, chanOf b = some c → (withChannel b s g).2.receiveBuffer = s.receiveBuffer) :
    (withChannel b s g).2.receiveBuffer = s.receiveBuffer := by
  cases h : chanOf b with
  | none => rw [withChannel_none h]; rfl
  | some c => exact hg c h

/-! ## CHANNEL_START, CHANNEL_STOP and CHANNEL_SETUP (R4, R5, R6) -/

/-- CHANNEL_START by the channel's state (R4, R178). -/
theorem takeChannelStart_eq {ch : Byte} {c : Chan} (hc : chanOf ch = some c) (l : LaneId) (s : State) :
    takeChannelStart l ch s =
      let x := s.chan l c
      if s.calWriting l c = true then refuse .calBusy s
      else if x.state = .starting ∨ x.state = .running then refuse .channelRunning s
      else if x.state = .fault ∧ (x.cause = .sensor ∨ x.cause = .noCause ∨ (x.cause = .uncalibrated ∧ x.calib = none)) then
        refuse .channelFault s
      else accept [] ((s.setChan l c x.toStarting).displayCheck l c) := by
  rw [takeChannelStart, withChannel_some hc]
  dsimp only
  split
  · rfl
  · cases (s.chan l c).state with
    | starting => rfl
    | running => rfl
    | stopped => rfl
    | fault =>
      cases (s.chan l c).cause with
      | noCause => rfl
      | sensor => rfl
      | noZero => rfl
      | uncalibrated => cases (s.chan l c).calib <;> rfl

theorem exec_channelStart {s : State} {l : LaneId} (h : s.Serves l) (tag ch : Byte) :
    exec (.channelStart (laneAddr l) tag ch) s =
      .next (settle (requestFrame (laneAddr l) .channelStart tag [ch]) s.upstream.length (takeChannelStart l ch s.taken)) := by
  refine exec_lane .channelStart tag [ch] h rfl rfl rfl rfl rfl (toLane_laneAddr l _ _) (withChannel_receiveBuffer fun c hc => ?_)
  refine (congrArg (fun r : Reply × State => r.2.receiveBuffer) (takeChannelStart_eq hc l s.taken)).trans ?_
  dsimp only
  split_ifs <;> simp

/-- CHANNEL_STOP by the channel's state and copy (R5). -/
theorem takeChannelStop_eq {ch : Byte} {c : Chan} (hc : chanOf ch = some c) (l : LaneId) (s : State) :
    takeChannelStop l ch s =
      let x := s.chan l c
      if x.state = .stopped then accept [] s
      else if x.calib = none then
        accept [] (s.setChan l c { x.clearTare with filter := [], stability := [], silence := none, initialZero := none })
      else
        let z := s.setChan l c x.toStopped
        accept [] ((if c = .bag ∧ (x.state = .starting ∨ x.state = .running) then z.bagLoss l else z).displayCheck l c) := by
  rw [takeChannelStop, withChannel_some hc]
  simp only [Option.isNone_iff_eq_none]
  rfl

theorem exec_channelStop {s : State} {l : LaneId} (h : s.Serves l) (tag ch : Byte) :
    exec (.channelStop (laneAddr l) tag ch) s =
      .next (settle (requestFrame (laneAddr l) .channelStop tag [ch]) s.upstream.length (takeChannelStop l ch s.taken)) := by
  refine exec_lane .channelStop tag [ch] h rfl rfl rfl rfl rfl (toLane_laneAddr l _ _) (withChannel_receiveBuffer fun c hc => ?_)
  refine (congrArg (fun r : Reply × State => r.2.receiveBuffer) (takeChannelStop_eq hc l s.taken)).trans ?_
  dsimp only
  split_ifs <;> simp

/-- CHANNEL_SETUP by the channel's state (R6). -/
theorem takeChannelSetup_eq {ch : Byte} {c : Chan} (hc : chanOf ch = some c) (l : LaneId) (f m : Byte) (s : State) :
    takeChannelSetup l ch f m s =
      let x := s.chan l c
      let f' := clampTo 1 32 f.toNat
      let m' := clampTo 4 64 m.toNat
      if x.state = .starting ∨ x.state = .running then refuse .channelRunning s
      else
        (.answer true (if f' = f.toNat ∧ m' = m.toNat then .ok else .clamped) [octet f', octet m'],
          s.setChan l c { x with filter := [], stability := [], filterLength := f', stabilityLength := m' }) := by
  rw [takeChannelSetup, withChannel_some hc]

theorem exec_channelSetup {s : State} {l : LaneId} (h : s.Serves l) (tag ch f m : Byte) :
    exec (.channelSetup (laneAddr l) tag ch f m) s =
      .next (settle (requestFrame (laneAddr l) .channelSetup tag [ch, f, m]) s.upstream.length
        (takeChannelSetup l ch f m s.taken)) := by
  refine exec_lane .channelSetup tag [ch, f, m] h rfl rfl rfl rfl rfl (toLane_laneAddr l _ _)
    (withChannel_receiveBuffer fun c hc => ?_)
  refine (congrArg (fun r : Reply × State => r.2.receiveBuffer) (takeChannelSetup_eq hc l f m s.taken)).trans ?_
  dsimp only
  split_ifs <;> simp

/-! ## ZERO, TARE and CLEAR_TARE (R21 to R24) -/

/-- ZERO by the tests of its table in order (R21). -/
theorem takeZeroRequest_eq {ch : Byte} {c : Chan} (hc : chanOf ch = some c) (l : LaneId) (s : State) :
    takeZeroRequest l ch s =
      let x := s.chan l c
      if x.state = .stopped ∨ x.state = .starting then refuse .channelStopped s
      else if x.state = .fault then refuse .channelFault s
      else if ∃ r ∈ x.reading, r.status = .motion then refuse .motion s
      else if ∃ r ∈ x.reading, r.status = .over ∨ r.status = .under then refuse .zeroRange s
      else if x.tareKind ≠ .noTare then refuse .tareActive s
      else match x.latest, x.calib with
        | some e, some k =>
          if ((k.max / 50 : Nat) : Int) < |e.w - x.zi.getD 0| then refuse .zeroRange s
          else if c = .bag ∧ (s.lane l).bagCheck.state ≠ .suspended then refuseBagBusy l s
          else accept [] (s.setChan l c { x with zo := some e.w })
        | _, _ => refuse .zeroRange s := by
  rw [takeZeroRequest, withChannel_some hc]
  dsimp only
  cases (s.chan l c).state with
  | stopped => rfl
  | starting => rfl
  | fault => rfl
  | running =>
    cases (s.chan l c).reading with
    | none => simp only [Option.map_none, reduceCtorEq, or_self, Option.mem_def, false_and, exists_false, if_false] <;> rfl
    | some r =>
      simp only [Option.map_some, Option.some.injEq, reduceCtorEq, or_self, Option.mem_def, exists_eq_left', if_false] <;> rfl

/-- The two range tests of a tare, of the value and of the value rounded to d1, as one (R22, R23). -/
theorem tareTests_eq {α : Type} (k : Calib) (v : Int) (no yes : α) :
    (if !tareInRange k v then no else if !tareInRange k (roundTo v k.d1) then no else yes) =
      if ¬ (0 < v ∧ v ≤ k.max ∧ 0 < roundTo v k.d1 ∧ roundTo v k.d1 ≤ k.max) then no else yes := by
  have range (t : Int) : tareInRange k t = true ↔ 0 < t ∧ t ≤ (k.max : Int) := by simp [tareInRange]
  by_cases hv : tareInRange k v = true
  · by_cases ht : tareInRange k (roundTo v k.d1) = true
    · obtain ⟨hv0, hvm⟩ := (range v).mp hv
      obtain ⟨ht0, htm⟩ := (range _).mp ht
      simp [hv, ht, hv0, hvm, ht0, htm]
    · have hn : ¬ (0 < v ∧ v ≤ k.max ∧ 0 < roundTo v k.d1 ∧ roundTo v k.d1 ≤ k.max) :=
        fun ⟨_, _, h⟩ => ht ((range _).mpr h)
      rw [if_pos hn]
      simp [hv, ht]
  · have hn : ¬ (0 < v ∧ v ≤ k.max ∧ 0 < roundTo v k.d1 ∧ roundTo v k.d1 ≤ k.max) :=
      fun ⟨h0, hm, _⟩ => hv ((range v).mpr ⟨h0, hm⟩)
    rw [if_pos hn]
    simp [hv]

/-- A tare that is taken changes the tare alone, and is the detail (R22, R23). -/
theorem tareTaken_eq (l : LaneId) (c : Chan) (t : Int) (k : TareKind) (s : State) :
    tareTaken l c t k s = accept (beInt 4 t ++ [k.value]) (s.setChan l c { s.chan l c with tare := t, tareKind := k }) := rfl

/-- TARE weighed by the tests of its table in order (R22). -/
theorem takeTareWeighed_eq {ch : Byte} {c : Chan} (hc : chanOf ch = some c) (l : LaneId) (s : State) :
    takeTareWeighed l ch s =
      let x := s.chan l c
      if c = .bag then refuse .notPlatter s
      else if x.state = .stopped ∨ x.state = .starting then refuse .channelStopped s
      else if x.state = .fault then refuse .channelFault s
      else if ∃ r ∈ x.reading, r.status = .motion then refuse .motion s
      else if ∃ r ∈ x.reading, r.status = .over ∨ r.status = .under then refuse .tareRange s
      else match x.latest.bind (·.g), x.calib with
        | some g, some k =>
          let t := roundTo g k.d1
          if ¬ (0 < g ∧ g ≤ k.max ∧ 0 < t ∧ t ≤ k.max) then refuse .tareRange s
          else tareTaken l c t .weighed s
        | _, _ => refuse .tareRange s := by
  rw [takeTareWeighed, withChannel_some hc]
  simp only [tareTests_eq]
  split
  · rfl
  · cases (s.chan l c).state with
    | stopped => rfl
    | starting => rfl
    | fault => rfl
    | running =>
      cases (s.chan l c).reading with
      | none => simp only [Option.map_none, reduceCtorEq, or_self, Option.mem_def, false_and, exists_false, if_false] <;> rfl
      | some r =>
        simp only [Option.map_some, Option.some.injEq, reduceCtorEq, or_self, Option.mem_def, exists_eq_left', if_false] <;> rfl

/-- TARE preset: its form octet, then the tests of its table in order (R23). -/
theorem takeTarePreset_eq {ch : Byte} {c : Chan} (hc : chanOf ch = some c) (l : LaneId) (form : Byte) (v : BitVec 32)
    (s : State) :
    takeTarePreset l ch form v s =
      let x := s.chan l c
      if form ≠ 1 then refuse .badValue s
      else if c = .bag then refuse .notPlatter s
      else if x.state = .stopped ∨ x.state = .starting then refuse .channelStopped s
      else if x.state = .fault then refuse .channelFault s
      else match x.calib with
        | some k =>
          let t := roundTo v.toNat k.d1
          if ¬ (0 < v.toNat ∧ v.toNat ≤ k.max ∧ 0 < t ∧ t ≤ k.max) then refuse .tareRange s
          else tareTaken l c t .preset s
        | none => refuse .tareRange s := by
  rw [takeTarePreset, withChannel_some hc]
  simp only [tareTests_eq, Int.natCast_pos, Int.ofNat_le]
  split
  · rfl
  · split
    · rfl
    · cases (s.chan l c).state with
      | stopped => rfl
      | starting => rfl
      | fault => rfl
      | running => simp only [reduceCtorEq, or_self, if_false] <;> rfl

/-- CLEAR_TARE takes the tare of the platter alone (R24). -/
theorem takeClearTare_eq {ch : Byte} {c : Chan} (hc : chanOf ch = some c) (l : LaneId) (s : State) :
    takeClearTare l ch s =
      if c = .bag then refuse .notPlatter s
      else accept [] (s.setChan l c { s.chan l c with tare := 0, tareKind := .noTare }) := by
  rw [takeClearTare, withChannel_some hc]
  rfl

theorem takeZeroRequest_receiveBuffer (l : LaneId) (ch : Byte) (s : State) :
    (takeZeroRequest l ch s).2.receiveBuffer = s.receiveBuffer := by
  refine withChannel_receiveBuffer fun c hc => ?_
  refine (congrArg (fun r : Reply × State => r.2.receiveBuffer) (takeZeroRequest_eq hc l s)).trans ?_
  dsimp only
  repeat' split
  all_goals rfl

theorem takeTareWeighed_receiveBuffer (l : LaneId) (ch : Byte) (s : State) :
    (takeTareWeighed l ch s).2.receiveBuffer = s.receiveBuffer := by
  refine withChannel_receiveBuffer fun c hc => ?_
  refine (congrArg (fun r : Reply × State => r.2.receiveBuffer) (takeTareWeighed_eq hc l s)).trans ?_
  dsimp only
  repeat' split
  all_goals rfl

theorem takeTarePreset_receiveBuffer (l : LaneId) (ch form : Byte) (v : BitVec 32) (s : State) :
    (takeTarePreset l ch form v s).2.receiveBuffer = s.receiveBuffer := by
  refine withChannel_receiveBuffer fun c hc => ?_
  refine (congrArg (fun r : Reply × State => r.2.receiveBuffer) (takeTarePreset_eq hc l form v s)).trans ?_
  dsimp only
  repeat' split
  all_goals rfl

theorem takeClearTare_receiveBuffer (l : LaneId) (ch : Byte) (s : State) :
    (takeClearTare l ch s).2.receiveBuffer = s.receiveBuffer := by
  refine withChannel_receiveBuffer fun c hc => ?_
  refine (congrArg (fun r : Reply × State => r.2.receiveBuffer) (takeClearTare_eq hc l s)).trans ?_
  split <;> rfl

theorem exec_zero {s : State} {l : LaneId} (h : s.Serves l) (tag ch : Byte) :
    exec (.zero (laneAddr l) tag ch) s =
      .next (settle (requestFrame (laneAddr l) .zero tag [ch]) s.upstream.length (takeZeroRequest l ch s.taken)) :=
  exec_lane .zero tag [ch] h rfl rfl rfl rfl rfl (toLane_laneAddr l _ _) (takeZeroRequest_receiveBuffer l ch _)

/-- The value field of a TARE is read back from its octets (R182, R184). -/
theorem tareValue (c f : Byte) (v : BitVec 32) : BitVec.ofNat 32 (fieldAt ([c, f] ++ be 4 v.toNat) 2 4) = v := by
  have hv : unbe (be 4 v.toNat) = v.toNat := unbe_be_of_lt 4 _ v.isLt
  simp [fieldAt, List.take_of_length_le, hv]

theorem exec_tareWeighed {s : State} {l : LaneId} (h : s.Serves l) (tag ch : Byte) (v : BitVec 32) :
    exec (.tareWeighed (laneAddr l) tag ch v) s =
      .next (settle (requestFrame (laneAddr l) .tare tag ([ch, 0] ++ be 4 v.toNat)) s.upstream.length
        (takeTareWeighed l ch s.taken)) := by
  refine exec_lane .tare tag _ h rfl rfl rfl (by simp [ReqKind.lengthOk]) ?_ (toLane_laneAddr l _ _)
    (takeTareWeighed_receiveBuffer l ch _)
  simp only [requestOf, requestFrame, tareValue]
  rfl

theorem exec_tarePreset {s : State} {l : LaneId} (h : s.Serves l) (tag ch form : Byte) (v : BitVec 32) (hf : form ≠ 0) :
    exec (.tarePreset (laneAddr l) tag ch form v) s =
      .next (settle (requestFrame (laneAddr l) .tare tag ([ch, form] ++ be 4 v.toNat)) s.upstream.length
        (takeTarePreset l ch form v s.taken)) := by
  refine exec_lane .tare tag _ h rfl rfl rfl (by simp [ReqKind.lengthOk]) ?_ (toLane_laneAddr l _ _)
    (takeTarePreset_receiveBuffer l ch form v _)
  simp only [requestOf, requestFrame, tareValue]
  exact if_neg hf

theorem exec_clearTare {s : State} {l : LaneId} (h : s.Serves l) (tag ch : Byte) :
    exec (.clearTare (laneAddr l) tag ch) s =
      .next (settle (requestFrame (laneAddr l) .clearTare tag [ch]) s.upstream.length (takeClearTare l ch s.taken)) :=
  exec_lane .clearTare tag [ch] h rfl rfl rfl rfl rfl (toLane_laneAddr l _ _) (takeClearTare_receiveBuffer l ch _)

/-! ## The obligations -/

/-- Settles O40: each command reaches its owner, whose answer its equation gives. -/
theorem channelRequestsByState : Obligations.ChannelRequestsByState := by
  refine ⟨fun s l c tag h => ?_, fun s l c tag h => ?_, fun s l c tag f m h => ?_, fun s l tag ch a b v h hch => ?_⟩
  · rw [exec_channelStart h, takeChannelStart_eq (chanOf_chanValue c)]
    simp only [apply_ite (settle _ _)]
    rfl
  · rw [exec_channelStop h, takeChannelStop_eq (chanOf_chanValue c)]
    simp only [apply_ite (settle _ _)]
    rfl
  · rw [exec_channelSetup h, takeChannelSetup_eq (chanOf_chanValue c)]
    simp only [apply_ite (settle _ _)]
    rfl
  · have none (g : Chan → Reply × State) : withChannel ch s.taken g = refuse .badValue s.taken :=
      withChannel_none (chanOf_foreign hch) _ g
    rw [exec_channelStart h, exec_channelStop h, exec_channelSetup h, exec_zero h, exec_tareWeighed h, exec_clearTare h]
    simp only [takeChannelStart, takeChannelStop, takeChannelSetup, takeZeroRequest, takeTareWeighed, takeClearTare, none]
    exact ⟨rfl, rfl, rfl, rfl, rfl, rfl⟩

/-- Settles O41: each command reaches its owner, whose tests its equation gives in their order. -/
theorem zeroAndTareAreTestedInOrder : Obligations.ZeroAndTareAreTestedInOrder := by
  refine ⟨fun s l c tag h => ?_, fun s l c tag v h => ?_, fun s l c tag form v h hf => ?_, fun s l c tag h => ?_,
    fun s l tag ch form v h hch hf => ?_⟩
  · have hx : s.taken.chan l c = s.chan l c := rfl
    rw [exec_zero h, takeZeroRequest_eq (chanOf_chanValue c)]
    simp only [apply_ite (settle _ _), hx]
    cases (s.chan l c).latest with
    | none => rfl
    | some e =>
      cases (s.chan l c).calib with
      | none => rfl
      | some k =>
        simp only [apply_ite (settle _ _)]
        rfl
  · have hx : s.taken.chan l c = s.chan l c := rfl
    rw [exec_tareWeighed h, takeTareWeighed_eq (chanOf_chanValue c)]
    simp only [tareTaken_eq, apply_ite (settle _ _), hx]
    cases (s.chan l c).latest.bind (·.g) with
    | none => rfl
    | some g =>
      cases (s.chan l c).calib with
      | none => rfl
      | some k =>
        simp only [apply_ite (settle _ _)]
        rfl
  · have hx : s.taken.chan l c = s.chan l c := rfl
    rw [exec_tarePreset h tag _ form v hf, takeTarePreset_eq (chanOf_chanValue c)]
    simp only [tareTaken_eq, apply_ite (settle _ _), hx]
    cases (s.chan l c).calib with
    | none => rfl
    | some k =>
      simp only [apply_ite (settle _ _)]
      rfl
  · rw [exec_clearTare h, takeClearTare_eq (chanOf_chanValue c), apply_ite (settle _ _)]
    rfl
  · rw [exec_tarePreset h tag ch form v hf, takeTarePreset, withChannel_none (chanOf_foreign hch)]
    rfl

end Sys2Proof.Machine
end

