-- ==== Sys2Proof/Proofs/Calibration.lean ====
section
/-! CAL_WRITE and CAL_WRITE_COMPLETE (R11, R12, R177, R178). -/

namespace Sys2Proof.Machine

/-! ## The request frame -/

/-- A number of `w` octets is read back from the place where it was written (R182). -/
theorem fieldAt_be (p q : List Byte) (w n : Nat) (h : n < 256 ^ w) : fieldAt (p ++ (be w n ++ q)) p.length w = n := by
  rw [fieldAt, List.drop_left, List.take_left' (be_length w n), unbe_be_of_lt w n h]

/-- A calibration record is read back from its octets (R193). -/
theorem rawCalAt_octets (r : RawCal) : rawCalAt (rawCalOctets r) = r := by
  have hmax := fieldAt_be [] (be 4 r.d1.toNat ++ be 4 r.m1.toNat ++ be 4 r.d2.toNat ++ be 4 r.zc.toNat ++ be 2 r.span.toNat)
    4 r.max.toNat r.max.isLt
  have hd1 := fieldAt_be (be 4 r.max.toNat) (be 4 r.m1.toNat ++ be 4 r.d2.toNat ++ be 4 r.zc.toNat ++ be 2 r.span.toNat)
    4 r.d1.toNat r.d1.isLt
  have hm1 := fieldAt_be (be 4 r.max.toNat ++ be 4 r.d1.toNat) (be 4 r.d2.toNat ++ be 4 r.zc.toNat ++ be 2 r.span.toNat)
    4 r.m1.toNat r.m1.isLt
  have hd2 := fieldAt_be (be 4 r.max.toNat ++ be 4 r.d1.toNat ++ be 4 r.m1.toNat) (be 4 r.zc.toNat ++ be 2 r.span.toNat)
    4 r.d2.toNat r.d2.isLt
  have hzc := fieldAt_be (be 4 r.max.toNat ++ be 4 r.d1.toNat ++ be 4 r.m1.toNat ++ be 4 r.d2.toNat) (be 2 r.span.toNat)
    4 r.zc.toNat r.zc.isLt
  have hspan := fieldAt_be (be 4 r.max.toNat ++ be 4 r.d1.toNat ++ be 4 r.m1.toNat ++ be 4 r.d2.toNat ++ be 4 r.zc.toNat) []
    2 r.span.toNat r.span.isLt
  simp only [List.append_assoc, List.nil_append, List.append_nil, List.length_append, List.length_nil, be_length,
    Nat.reduceAdd] at hmax hd1 hm1 hd2 hzc hspan
  simp only [rawCalAt, rawCalOctets, List.append_assoc, hmax, hd1, hm1, hd2, hzc, hspan, BitVec.ofNat_toNat,
    BitVec.setWidth_eq]

/-! ## CAL_WRITE at the store (R178) -/

theorem working_iff (x : Channel) : x.working = true ↔ x.state = .starting ∨ x.state = .running := by
  simp [Channel.working]

/-- CAL_WRITE by its tests in order (R178). -/
theorem takeCalWrite_eq (l : LaneId) (c : Chan) (record : RawCal) (tag : Byte) (s : State) :
    takeCalWrite (laneAddr l) (chanValue c) record tag s =
      if s.enabled l = false then refuse .noLane s
      else if s.calEn = false then refuse .calLocked s
      else if s.supplyLow = true then refuse .supplyLow s
      else if s.calWrite.isSome = true then refuse .calBusy s
      else if (s.chan l c).state = .starting ∨ (s.chan l c).state = .running then refuse .channelRunning s
      else if (calibOf record).valid = false then refuse .badCalibration s
      else if 65535 ≤ (s.stored l c).audit then refuse .auditFull s
      else (.deferred,
        { s.setStored l c { s.stored l c with audit := (s.stored l c).audit + 1 } with
          calWrite := some ⟨l, c, calibOf record, tag⟩ }) := by
  rw [takeCalWrite, laneOf_laneAddr, chanOf_chanValue]
  simp only [Bool.not_eq_true', working_iff]
  rfl

theorem laneOf_foreign {b : Byte} (h : 3 < b.toNat) : laneOf b = none := by
  unfold laneOf
  split <;> simp_all

/-- A lane or channel field that names nothing (R178, R182). -/
theorem takeCalWrite_foreign {lane channel : Byte} (h : 3 < lane.toNat ∨ 1 < channel.toNat) (record : RawCal) (tag : Byte)
    (s : State) : takeCalWrite lane channel record tag s = refuse .badValue s := by
  rcases h with h | h
  · rw [takeCalWrite, laneOf_foreign h]
    cases chanOf channel <;> rfl
  · rw [takeCalWrite, chanOf_foreign h]
    cases laneOf lane <;> rfl

theorem takeCalWrite_receiveBuffer (lane channel : Byte) (record : RawCal) (tag : Byte) (s : State) :
    (takeCalWrite lane channel record tag s).2.receiveBuffer = s.receiveBuffer := by
  unfold takeCalWrite
  dsimp only
  repeat' split
  all_goals rfl

/-- A CAL_WRITE at a part that serves: the store's reply, settled, at the level of CAL_EN given (R178; log 2). -/
theorem exec_calWrite {s : State} (h : s.ServesPart) (tag lane channel : Byte) (record : RawCal) (en : Bool) :
    exec (.calWrite tag lane channel record en) s =
      .next (settle (requestFrame 15 .calWrite tag ([lane, channel] ++ rawCalOctets record)) s.upstream.length
        (takeCalWrite lane channel record tag (s.withCalEn en).taken)) := by
  have hempty : s.receiveBuffer = [] := h.1.2.1
  have hu : (s.withCalEn en).ServesPart := h
  have hr : requestOf en .calWrite (requestFrame 15 .calWrite tag ([lane, channel] ++ rawCalOctets record)) =
      .calWrite tag lane channel record en := by
    change Instr.calWrite tag lane channel (rawCalAt (rawCalOctets record)) en = _
    rw [rawCalAt_octets]
  change Host.Outcome.next ((s.withCalEn en).request _) = _
  rw [partRequest_settles (s.withCalEn en) _ .calWrite tag _ hu rfl rfl (by simp [ReqKind.lengthOk, rawCalOctets]) hr
    ((takeCalWrite_receiveBuffer lane channel record tag _).trans hempty)]
  rfl

/-! ## Completion (R12, R178) -/

/-- The channel's copy of a completed write, by whether the channel is in FAULT with cause SENSOR (R12). -/
theorem takeCopy_eq (s : State) (l : LaneId) (c : Chan) (k : Calib) :
    s.takeCopy l c k =
      let x := s.chan l c
      let sensor := x.state = .fault ∧ x.cause = .sensor
      let z := s.setChan l c { x with
        calib := some k, zi := none, zo := none, tare := 0, tareKind := .noTare, stability := [],
        cause := if sensor then .noZero else x.cause, ret := if sensor then none else x.ret }
      if sensor then z.displayCheck l c else z := by
  unfold State.takeCopy Channel.newCopy
  dsimp only
  by_cases hx : (s.chan l c).state = .fault ∧ (s.chan l c).cause = .sensor
  · simp only [if_pos hx]
    rfl
  · simp only [if_neg hx]
    rfl

/-- Settles O35: the store's tests by their equation, the completion by that of the copy. -/
theorem calibrationWritesThroughTheStore : Obligations.CalibrationWritesThroughTheStore := by
  refine ⟨fun s l c tag record en h => ?_, fun s tag lane channel record en h hf => ?_, fun s w hp hw => ?_⟩
  · rw [exec_calWrite h, takeCalWrite_eq]
    simp only [apply_ite (settle _ _)]
    rfl
  · rw [exec_calWrite h, takeCalWrite_foreign hf]
    rfl
  · change Host.Outcome.next (s.onPart State.calWriteCompletes) = _
    simp only [onPart_running s _ hp, State.calWriteCompletes, hw, takeCopy_eq]
    rfl

end Sys2Proof.Machine
end

