-- ==== Sys2Proof/Proofs/Samples.lean ====
section
/-! Sample arrivals (R2, R8, R13 to R20): the stages of an evaluation, what an arrival leaves of the other lanes, and the two
obligations. -/

namespace Sys2Proof.Machine

/-! ## What an event at a lane leaves of the other lanes -/

/-- Every lane but one is as it was. -/
abbrev OthersSame (l : LaneId) (s t : State) : Prop := ∀ m, m ≠ l → t.lane m = s.lane m

@[simp] theorem modLane_othersSame (s : State) (l : LaneId) (g : Lane → Lane) : OthersSame l s (s.modLane l g) :=
  fun m hm => lane_setLane_ne s l m _ hm

@[simp] theorem setChan_othersSame (s : State) (l : LaneId) (c : Chan) (x : Channel) : OthersSame l s (s.setChan l c x) :=
  modLane_othersSame s l _

@[simp] theorem setBag_othersSame (s : State) (l : LaneId) (x : BagCheck) : OthersSame l s (s.setBag l x) :=
  modLane_othersSame s l _

@[simp] theorem setAttention_othersSame (s : State) (l : LaneId) (a : Attention) : OthersSame l s (s.setAttention l a) :=
  modLane_othersSame s l _

@[simp] theorem raiseLane_othersSame (s : State) (l : LaneId) (c : LaneCond) : OthersSame l s (s.raiseLane l c) := by
  intro m hm
  obtain h | ⟨a, h | ⟨f, -, h⟩⟩ := raiseLane_cases s l c <;> rw [h] <;> simp [hm]

@[simp] theorem offerLane_othersSame (s : State) (l : LaneId) (k : Byte) (p : List Byte) :
    OthersSame l s (s.offerLane l k p) := by
  intro m hm
  unfold State.offerLane
  split <;> simp [hm]

@[simp] theorem offerBag_othersSame (s : State) (l : LaneId) (ev : BagEvent) (d : Option Int) (pos : Nat) :
    OthersSame l s (s.offerBag l ev d pos) := by
  intro m hm
  simp [State.offerBag, hm]

@[simp] theorem displayCheck_othersSame (s : State) (l : LaneId) (c : Chan) : OthersSame l s (s.displayCheck l c) := by
  intro m hm
  obtain ⟨q, h, -⟩ := offerDisplay_cases s l c (s.chan l c).shown
  unfold State.displayCheck
  dsimp only
  split
  · rfl
  · rw [State.modChan, setChan_othersSame _ l c _ m hm, h]
    rfl

@[simp] theorem bagHold_othersSame (s : State) (l : LaneId) (b d : Option Int) : OthersSame l s (s.bagHold l b d) := by
  intro m hm
  simp [State.bagHold, hm]

@[simp] theorem bagStable_othersSame (s : State) (l : LaneId) (g : Int) : OthersSame l s (s.bagStable l g) := by
  intro m hm
  have expecting (e : Int) (after : BagState) (ev : BagEvent) : (s.bagExpecting l g e after ev).lane m = s.lane m := by
    unfold State.bagExpecting
    dsimp only
    repeat' split
    all_goals simp [hm]
  unfold State.bagStable
  dsimp only
  split
  · unfold State.bagArmed
    dsimp only
    split <;> simp [hm]
  · unfold State.bagSettled
    dsimp only
    repeat' split
    all_goals simp [hm]
  · unfold State.bagUnexpected
    dsimp only
    split <;> simp [hm]
  · exact expecting _ _ _
  · exact expecting _ _ _
  · rfl
  · rfl
  · rfl

@[simp] theorem bagReading_othersSame (s : State) (l : LaneId) (g : Int) (stable : Bool) :
    OthersSame l s (s.bagReading l g stable) := by
  intro m hm
  unfold State.bagReading
  dsimp only
  split <;> simp [hm]

@[simp] theorem bagRecovery_othersSame (s : State) (l : LaneId) : OthersSame l s (s.bagRecovery l) := by
  intro m hm
  unfold State.bagRecovery
  dsimp only
  split <;> simp [hm]

@[simp] theorem appendEntry_othersSame (s : State) (l : LaneId) (e : Entry) : OthersSame l s (s.appendEntry l e) := by
  intro m hm
  unfold State.appendEntry
  dsimp only
  split <;> simp [State.expectPlacement, hm]

@[simp] theorem takeCapture_othersSame (s : State) (l : LaneId) (w : WeighRequest) (t : CaptureTare) (price : Nat) :
    OthersSame l s (s.takeCapture l w t price) := by
  intro m hm
  simp [State.takeCapture, hm]

@[simp] theorem noteFailure_othersSame (s : State) (l : LaneId) (w : WeighRequest) (f : FailedTest) :
    OthersSame l s (s.noteFailure l w f) := by
  intro m hm
  unfold State.noteFailure
  dsimp only
  split <;> simp [hm]

@[simp] theorem endWeigh_othersSame (s : State) (l : LaneId) (o : WeighOutcome) : OthersSame l s (s.endWeigh l o) := by
  intro m hm
  unfold State.endWeigh
  split <;> simp [hm]

@[simp] theorem platterReading_othersSame (s : State) (l : LaneId) (c : Calib) (r : Reading) (g : Int) :
    OthersSame l s (s.platterReading l c r g) := by
  intro m hm
  have armed : (if g ≤ ((5 * c.d1 : Nat) : Int) then s.modLane l fun n => { n with armed := true } else s).lane m =
      s.lane m := by
    split <;> simp [hm]
  unfold State.platterReading
  dsimp only
  split
  · exact armed
  · split
    · rw [noteFailure_othersSame _ _ _ _ m hm, armed]
    · rw [endWeigh_othersSame _ _ _ m hm, armed]
    · rw [takeCapture_othersSame _ _ _ _ _ m hm, armed]

@[simp] theorem handReading_othersSame (s : State) (l : LaneId) (ch : Chan) (c : Calib) (r : Reading) (g : Int) :
    OthersSame l s (s.handReading l ch c r g) := by
  cases ch
  · exact platterReading_othersSame s l c r g
  · exact bagReading_othersSame s l g _

/-! ## The stages of an evaluation, as the statements write them -/

/-- The stability result (R15): a full window in which no two weights differ by more than d1. -/
abbrev FullWindow (v : List Int) (len d1 : Nat) : Prop := v.length = len ∧ ∀ a ∈ v, ∀ b ∈ v, a - b ≤ (d1 : Int)

/-- The spread of a window is at most `d` when no two of its weights differ by more (R15). -/
theorem spread_le_iff (h : Int) (t : List Int) (d : Int) :
    t.foldl max h - t.foldl min h ≤ d ↔ ∀ a ∈ h :: t, ∀ b ∈ h :: t, a - b ≤ d := by
  obtain ⟨hmax, himax⟩ := List.max?_eq_some_iff.mp (List.max?_cons' (x := h) (xs := t))
  obtain ⟨hmin, himin⟩ := List.min?_eq_some_iff.mp (List.min?_cons' (x := h) (xs := t))
  constructor
  · intro hd a ha b hb
    have := himax a ha
    have := himin b hb
    omega
  · intro hd
    exact hd _ hmax _ hmin

theorem windowStable_eq (v : List Int) (len d1 : Nat) (hv : v ≠ []) : windowStable v len d1 = decide (FullWindow v len d1) := by
  cases v with
  | nil => exact absurd rfl hv
  | cons h t => simp only [windowStable, spread_le_iff, Bool.beq_eq_decide_eq, Bool.decide_and]

theorem stabilityIn_ne_nil (l : List Int) (len : Nat) (w : Int) (h : 1 ≤ len) : stabilityIn l len w ≠ [] := by
  cases l with
  | nil => simp [stabilityIn, Nat.not_lt.mpr h]
  | cons a l =>
    unfold stabilityIn
    dsimp only
    split <;> simp

/-- A converter limit (R13). -/
abbrev Limit (raw : BitVec 20) : Prop := raw = 0 ∨ raw = 1048575

theorem isLimit_eq (raw : BitVec 20) : isLimit raw.toNat = decide (Limit raw) := by
  have h0 : raw.toNat = 0 ↔ raw = 0 := by rw [← BitVec.toNat_inj]; rfl
  have h1 : raw.toNat = 1048575 ↔ raw = 1048575 := by rw [← BitVec.toNat_inj]; rfl
  simp only [isLimit, Limit, ← h0, ← h1, Bool.beq_eq_decide_eq, Bool.decide_or]

namespace Channel

variable (x : Channel) (k : Calib) (raw : BitVec 20)

/-- The filter window after a count (R13). -/
abbrev filtered : List Nat :=
  if x.filterLength < (x.filter ++ [raw.toNat]).length then (x.filter ++ [raw.toNat]).drop 1 else x.filter ++ [raw.toNat]

/-- The calibrated weight W (R14). -/
abbrev weight : Int := calibrated k (average (x.filtered raw))

/-- The stability window after W (R15). -/
abbrev window : List Int :=
  if x.stabilityLength < (x.stability ++ [x.weight k raw]).length then (x.stability ++ [x.weight k raw]).drop 1
  else x.stability ++ [x.weight k raw]

/-- The stability result of the evaluation (R15). -/
abbrev Steady : Prop := FullWindow (x.window k raw) x.stabilityLength k.d1

/-- Zero tracking acts (R17). -/
abbrev Tracks : Prop :=
  x.Steady k raw ∧ ¬ Limit raw ∧ x.tareKind = .noTare ∧ |x.weight k raw - x.zo.getD 0| ≤ ((k.d1 / 2 : Nat) : Int) ∧
    |x.weight k raw - x.zi.getD 0| ≤ ((k.max / 50 : Nat) : Int)

/-- The gross (R17). -/
abbrev gross : Int := if x.Tracks k raw then 0 else x.weight k raw - x.zo.getD 0

/-- The channel after stages 1 to 3 (R13 to R15). -/
theorem weighIn_eq (h : 1 ≤ x.stabilityLength) :
    x.weighIn k raw.toNat =
      ({ x with
          filter := x.filtered raw, stability := x.window k raw
          latest := some ⟨x.weight k raw, none, decide (x.Steady k raw)⟩, silence := some 250 },
        x.weight k raw, decide (x.Steady k raw)) := by
  have hs := windowStable_eq _ x.stabilityLength k.d1 (stabilityIn_ne_nil x.stability x.stabilityLength (x.weight k raw) h)
  unfold weighIn
  dsimp only
  exact hs ▸ rfl

end Channel

/-- The reading status (R18). -/
abbrev statusOf (k : Calib) (raw : BitVec 20) (g : Int) (full : Prop) [Decidable full] : ReadStatus :=
  if raw = 0 then .under else if raw = 1048575 then .over
  else if ((k.max + 9 * k.d2 : Nat) : Int) < g then .over
  else if g < -((20 * k.d1 : Nat) : Int) then .under
  else if full then .stable else .motion

theorem readStatus_eq (k : Calib) (raw : BitVec 20) (g : Int) (full : Prop) [Decidable full] :
    readStatus k raw.toNat g (decide full) = statusOf k raw g full := by
  have h0 : raw.toNat = 0 ↔ raw = 0 := by rw [← BitVec.toNat_inj]; rfl
  have h1 : raw.toNat = 1048575 ↔ raw = 1048575 := by rw [← BitVec.toNat_inj]; rfl
  simp only [readStatus, statusOf, h0, h1, decide_eq_true_eq]

/-- The reading of a status, a gross and a tare (R19, R20). -/
abbrev readingOf (k : Calib) (status : ReadStatus) (g tare : Int) (kind : TareKind) : Reading :=
  let n := g - tare
  let d := if |n| ≤ k.m1 then k.d1 else k.d2
  let shown := status = .stable ∨ status = .motion
  ⟨status, if shown then some (roundTo n d) else none, tare, kind, if shown then some d else none,
    decide (kind ≠ .noTare), decide (shown ∧ |g| ≤ (k.d1 / 4 : Nat))⟩

theorem formReading_eq (k : Calib) (raw : BitVec 20) (g tare : Int) (kind : TareKind) (full : Prop) [Decidable full] :
    formReading k raw.toNat g tare kind (decide full) = readingOf k (statusOf k raw g full) g tare kind := by
  have hn : (kind != .noTare) = decide (kind ≠ .noTare) := by cases kind <;> rfl
  unfold formReading
  rw [readStatus_eq, hn]
  rfl

/-- Stages 5 to 10 (R17 to R20), with zero tracking as a condition of its own. -/
theorem Channel.finish_eq (x : Channel) (k : Calib) (raw : BitVec 20) (w : Int) (full tracks : Prop) [Decidable full]
    [Decidable tracks]
    (h : (decide full && !isLimit raw.toNat && zeroTracks k x w (w - x.zo.getD 0)) = decide tracks) :
    x.finish k raw.toNat w (decide full) =
      let g := if tracks then 0 else w - x.zo.getD 0
      let r := readingOf k (statusOf k raw g full) g x.tare x.tareKind
      ({ x with zo := if tracks then some w else x.zo, latest := some ⟨w, some g, decide full⟩, reading := some r }, r, g) := by
  simp only [Channel.finish, h, decide_eq_true_eq, formReading_eq]

/-- Zero tracking (R17) is the condition of the model's `finish`. -/
theorem zeroTracks_eq (x : Channel) (k : Calib) (raw : BitVec 20) :
    (decide (x.Steady k raw) && !isLimit raw.toNat &&
      zeroTracks k x (x.weight k raw) (x.weight k raw - x.zo.getD 0)) = decide (x.Tracks k raw) := by
  have hn : (x.tareKind == .noTare) = decide (x.tareKind = .noTare) := by cases x.tareKind <;> rfl
  simp only [zeroTracks, isLimit_eq, hn, Channel.Tracks, Bool.decide_and, decide_not, Bool.and_assoc]

/-- A whole evaluation of a channel in RUNNING: stages 1 to 10 (R13 to R20). -/
def Channel.evaluated (x : Channel) (k : Calib) (raw : Nat) : Channel × Reading × Int :=
  let e := x.weighIn k raw
  e.1.finish k raw e.2.1 e.2.2

/-- The reading an evaluation in RUNNING forms (R18 to R20). -/
abbrev Channel.formed (x : Channel) (k : Calib) (raw : BitVec 20) : Reading :=
  readingOf k (statusOf k raw (x.gross k raw) (x.Steady k raw)) (x.gross k raw) x.tare x.tareKind

/-- The channel an evaluation in RUNNING leaves (R13 to R20). -/
abbrev Channel.ranOn (x : Channel) (k : Calib) (raw : BitVec 20) : Channel :=
  { x with
    state := .running, cause := .noCause, ret := none, filter := x.filtered raw, stability := x.window k raw
    silence := some 250, zo := if x.Tracks k raw then some (x.weight k raw) else x.zo
    latest := some ⟨x.weight k raw, some (x.gross k raw), decide (x.Steady k raw)⟩, reading := some (x.formed k raw) }

/-- Stages 1 to 10 on a channel put in RUNNING. -/
theorem Channel.evaluated_eq (x : Channel) (k : Calib) (raw : BitVec 20) (h : 1 ≤ x.stabilityLength) :
    ({ x with state := .running, cause := .noCause, ret := none, silence := some 250 } : Channel).evaluated k raw.toNat =
      (x.ranOn k raw, x.formed k raw, x.gross k raw) := by
  unfold Channel.evaluated
  rw [Channel.weighIn_eq _ k raw (by exact h)]
  exact Channel.finish_eq _ k raw _ _ (x.Tracks k raw) (zeroTracks_eq x k raw)

/-- The silence timer an evaluation starts does not depend on its value before. -/
theorem Channel.evaluated_silence (x : Channel) (k : Calib) (raw : Nat) (hr : x.state = .running) (hc : x.cause = .noCause)
    (hret : x.ret = none) :
    ({ x with state := .running, cause := .noCause, ret := none, silence := some 250 } : Channel).evaluated k raw =
      x.evaluated k raw := by
  rw [← hr, ← hc, ← hret]
  rfl

/-! ## Evaluations of a channel that stays in, or returns to, RUNNING -/

theorem finishEvaluation_eq {s : State} {l : LaneId} {ch : Chan} {x : Channel} (h : s.chan l ch = x) (k : Calib) (raw : Nat)
    (w : Int) (stable : Bool) :
    s.finishEvaluation l ch k raw w stable =
      (s.setChan l ch (x.finish k raw w stable).1).handReading l ch k (x.finish k raw w stable).2.1
        (x.finish k raw w stable).2.2 := by
  subst h
  rfl

/-- An evaluation in RUNNING, as one write of the channel, the reading handed on and one display check. -/
theorem evaluate_running (s : State) (l : LaneId) (ch : Chan) (k : Calib) (raw : Nat)
    (hr : (s.chan l ch).state = .running) (hk : (s.chan l ch).calib = some k) :
    s.evaluate l ch raw =
      let e := (s.chan l ch).evaluated k raw
      ((s.setChan l ch e.1).handReading l ch k e.2.1 e.2.2).displayCheck l ch := by
  simp only [State.evaluate, hk, hr, finishEvaluation_eq (chan_setChan s l ch _), setChan_setChan]
  rfl

/-- What an evaluation leaves once its channel is written: that channel but for its display, every other channel, every
other lane. -/
theorem evaluated_leaves {s s1 : State} {l : LaneId} {c : Chan} {x : Channel} (h1 : SameChannels (s.setChan l c x) s1)
    (hl : OthersSame l s s1) (k : Calib) (r : Reading) (g : Int) :
    let t := (s1.handReading l c k r g).displayCheck l c
    ∃ d timer, t.chan l c = { x with display := d, displayTimer := timer } ∧ (∀ m, m ≠ l → t.lane m = s.lane m) ∧
      ∀ e, e ≠ c → t.chan l e = s.chan l e := by
  intro t
  obtain ⟨hh, -⟩ := h1.trans (handReading_sameChannels s1 l c k r g)
  obtain ⟨d, timer, hd, -⟩ := displayCheck_channels (s1.handReading l c k r g) l c
  refine ⟨d, timer, ?_, fun m hm => ?_, fun e he => ?_⟩
  · rw [hd, chan_setChan, hh, chan_setChan]
  · rw [displayCheck_othersSame _ l c m hm, handReading_othersSame _ l c k r g m hm, hl m hm]
  · rw [hd, chan_setChan_eq, if_neg (fun hc => he hc.2), hh, chan_setChan_eq, if_neg (fun hc => he hc.2)]

theorem exec_sampleArrival {s : State} {l : LaneId} (h : s.Runs l) (c : Chan) (raw : BitVec 20) :
    exec (.sampleArrival l c raw) s = .next (s.sample l c raw.toNat) :=
  congrArg Host.Outcome.next (onLane_runs h fun x => x.sample l c raw.toNat)

/-! ## The bag check's recovery, and a write of its channel (R81) -/

theorem bagRecovery_setChan (s : State) (l : LaneId) (x : Channel) :
    (s.setChan l .bag x).bagRecovery l =
      let b := (s.lane l).bagCheck
      if b.state = .faulted then (s.setChan l .bag x).modLane l fun n => { n with bagCheck := { b with
        state := .arming, placement := none, removal := none, excursion := false, latestGross := none, latestStable := none } }
      else s.setChan l .bag x := by
  have hb : ((s.setChan l .bag x).lane l).bagCheck = (s.lane l).bagCheck := by
    simp only [setChan_eq, lane_setLane_same]
    rfl
  unfold State.bagRecovery
  dsimp only
  rw [hb]
  cases hs : (s.lane l).bagCheck.state <;> rfl

theorem bagRecovery_setChan_again (s : State) (l : LaneId) (x y : Channel) :
    ((s.setChan l .bag x).bagRecovery l).setChan l .bag y = (s.setChan l .bag y).bagRecovery l := by
  simp only [bagRecovery_setChan]
  split
  · simp only [setChan_eq, State.modLane, setLane_setLane, lane_setLane_same]
    rfl
  · exact setChan_setChan s l .bag x y

/-! ## The return to RUNNING from FAULT, SENSOR (R8) -/

theorem sensorReturn_running (s : State) (l : LaneId) (c : Chan) (k : Calib) (raw : Nat)
    (hret : (s.chan l c).ret = some .running) (hk : (s.chan l c).calib = some k) :
    s.sensorReturn l c raw =
      let e := ({ s.chan l c with state := .running, cause := .noCause, ret := none, silence := some 250 } : Channel).evaluated k raw
      let s1 := s.setChan l c e.1
      ((if c = .bag then s1.bagRecovery l else s1).handReading l c k e.2.1 e.2.2).displayCheck l c := by
  unfold State.sensorReturn
  simp only [hret]
  generalize hx : ({ s.chan l c with state := .running, cause := .noCause, ret := none, silence := some 250 } : Channel) = x
  have hrun : x.state = .running := by rw [← hx]
  have hcal : x.calib = some k := by rw [← hx]; exact hk
  cases c with
  | platter =>
    simp only [reduceCtorEq, if_false]
    rw [evaluate_running _ l .platter k raw (by simpa using hrun) (by simpa using hcal)]
    simp only [chan_setChan, setChan_setChan, displayCheck_twice]
  | bag =>
    have hc : ((s.setChan l .bag x).bagRecovery l).chan l .bag = x := by
      rw [(bagRecovery_sameChannels _ l).1, chan_setChan]
    simp only [if_true]
    rw [evaluate_running _ l .bag k raw (by rw [hc, hrun]) (by rw [hc, hcal])]
    simp only [hc, bagRecovery_setChan_again, displayCheck_twice]

/-- Settles O43: an arrival in RUNNING is one write of the evaluated channel, the reading handed on and one display
check; the return from FAULT, SENSOR is the same after the recovery of the bag check. -/
theorem runningEvaluationFormsTheReading : Obligations.RunningEvaluationFormsTheReading := by
  unfold Obligations.RunningEvaluationFormsTheReading
  refine ⟨fun s l c raw k h hr hcr hk hl => ?_, fun s l c raw k h hf hcause hret hw hk hl => ?_⟩
  · obtain ⟨hcause, hret⟩ := hcr
    have hs : s.sample l c raw.toNat = s.evaluate l c raw.toNat := by simp only [State.sample, hr]
    obtain ⟨d, timer, hleaves⟩ := evaluated_leaves (x := (s.chan l c).ranOn k raw) ⟨fun _ _ => rfl, rfl⟩
      (setChan_othersSame s l c _) k ((s.chan l c).formed k raw) ((s.chan l c).gross k raw)
    rw [exec_sampleArrival h, hs, evaluate_running s l c k _ hr hk, ← Channel.evaluated_silence _ k _ hr hcause hret,
      Channel.evaluated_eq _ k raw hl]
    exact ⟨_, d, timer, rfl, hleaves⟩
  · have hs : s.sample l c raw.toNat = s.sensorReturn l c raw.toNat := by
      simp only [State.sample, hf, hcause, hw, and_self, if_true]
    rw [exec_sampleArrival h, hs, sensorReturn_running s l c k _ hret hk, Channel.evaluated_eq _ k raw hl]
    cases c with
    | platter =>
      obtain ⟨d, timer, hx, hm, ho⟩ := evaluated_leaves (x := (s.chan l .platter).ranOn k raw) ⟨fun _ _ => rfl, rfl⟩
        (setChan_othersSame s l .platter _) k ((s.chan l .platter).formed k raw) ((s.chan l .platter).gross k raw)
      exact ⟨_, d, timer, rfl, hx, hm, ho, rfl⟩
    | bag =>
      obtain ⟨d, timer, hx, hm, ho⟩ := evaluated_leaves (x := (s.chan l .bag).ranOn k raw)
        (bagRecovery_sameChannels _ l) (fun m hm => (bagRecovery_othersSame _ l m hm).trans (setChan_othersSame s l .bag _ m hm))
        k ((s.chan l .bag).formed k raw) ((s.chan l .bag).gross k raw)
      refine ⟨_, d, timer, rfl, hx, hm, ho, ?_⟩
      simp only [if_true, bagRecovery_setChan]
      rfl

/-! ## Arrivals outside RUNNING (R2, R8, R16) -/

/-- A channel that does not work takes the count into its filter window (R2). -/
theorem filterIn_eq (x : Channel) (raw : BitVec 20) : x.filterIn raw.toNat = { x with filter := x.filtered raw } := by
  unfold Channel.filterIn
  rfl

/-- The initial zero may be taken (R16). -/
abbrev Channel.ZeroDue (x : Channel) (k : Calib) (raw : BitVec 20) : Prop :=
  x.Steady k raw ∧ ¬ Limit raw ∧ |x.weight k raw| ≤ ((k.max / 10 : Nat) : Int)

theorem Channel.zeroDue_eq (x : Channel) (k : Calib) (raw : BitVec 20) :
    (decide (x.Steady k raw) && !isLimit raw.toNat && decide (|x.weight k raw| ≤ ((k.max / 10 : Nat) : Int))) =
      decide (x.ZeroDue k raw) := by
  simp only [isLimit_eq, Channel.ZeroDue, Bool.decide_and, decide_not, Bool.and_assoc]

/-- The reading the initial zero forms: gross 0, stable (R16, R19, R20). -/
abbrev zeroReading (k : Calib) (tare : Int) (kind : TareKind) : Reading :=
  let d := if |0 - tare| ≤ k.m1 then k.d1 else k.d2
  ⟨.stable, some (roundTo (0 - tare) d), tare, kind, some d, decide (kind ≠ .noTare), true⟩

theorem readingOf_zero (k : Calib) (raw : BitVec 20) (tare : Int) (kind : TareKind) (full : Prop) [Decidable full]
    (hf : full) (hl : ¬ Limit raw) : readingOf k (statusOf k raw 0 full) 0 tare kind = zeroReading k tare kind := by
  obtain ⟨h0, h1⟩ := not_or.mp hl
  have hover : ¬ ((k.max + 9 * k.d2 : Nat) : Int) < 0 := by omega
  have hunder : ¬ (0 : Int) < -((20 * k.d1 : Nat) : Int) := by omega
  have hs : statusOf k raw 0 full = .stable := by
    simp only [statusOf, h0, h1, hover, hunder, hf, if_true, if_false]
  have hz : |(0 : Int)| ≤ ((k.d1 / 4 : Nat) : Int) := by rw [abs_zero]; exact Int.natCast_nonneg _
  rw [hs]
  simp only [readingOf, zeroReading, true_or, if_true, hz, and_self, decide_true]

/-- Stages 5 to 10 on a channel whose zero offset is the weight (R16). -/
theorem Channel.finish_zero (x : Channel) (k : Calib) (raw : BitVec 20) (w : Int) (full : Prop) [Decidable full] (hf : full)
    (hl : ¬ Limit raw) (hz : x.zo = some w) :
    x.finish k raw.toNat w (decide full) =
      ({ x with latest := some ⟨w, some 0, true⟩, reading := some (zeroReading k x.tare x.tareKind) },
        zeroReading k x.tare x.tareKind, 0) := by
  rw [Channel.finish_eq x k raw w full
    ((decide full && !isLimit raw.toNat && zeroTracks k x w (w - x.zo.getD 0)) = true) (by simp)]
  simp only [hz, Option.getD_some, Int.sub_self, ite_self, readingOf_zero k raw _ _ full hf hl, decide_eq_true hf]

/-- The channel the initial zero leaves (R16). -/
abbrev Channel.zeroTaken (x : Channel) (k : Calib) (raw : BitVec 20) : Channel :=
  { x with
    state := .running, filter := x.filtered raw, stability := x.window k raw, zi := some (x.weight k raw)
    zo := some (x.weight k raw), latest := some ⟨x.weight k raw, some 0, true⟩
    reading := some (zeroReading k x.tare x.tareKind), silence := some 250, initialZero := none }

theorem evaluate_waits (s : State) (l : LaneId) (c : Chan) (k : Calib) (raw : BitVec 20)
    (hs : (s.chan l c).state = .starting) (hk : (s.chan l c).calib = some k) (hl : 1 ≤ (s.chan l c).stabilityLength)
    (hz : ¬ (s.chan l c).ZeroDue k raw) :
    s.evaluate l c raw.toNat =
      s.setChan l c { s.chan l c with
        filter := (s.chan l c).filtered raw, stability := (s.chan l c).window k raw
        latest := some ⟨(s.chan l c).weight k raw, none, decide ((s.chan l c).Steady k raw)⟩, silence := some 250 } := by
  simp only [State.evaluate, hk, hs, Channel.weighIn_eq _ k raw hl, Channel.zeroDue_eq, decide_eq_true_eq, hz, if_false]

/-- The report of RUNNING touches no channel, so the channel may be written before or after it (R16). -/
theorem reportRunning_setChan_again (s : State) (l : LaneId) (c : Chan) (x y : Channel) :
    ((s.setChan l c x).reportRunning l c).setChan l c y = (s.setChan l c y).reportRunning l c := by
  cases c with
  | platter =>
    simp only [State.reportRunning, setChan_eq, State.modLane, setLane_setLane, lane_setLane_same]
    rfl
  | bag => exact bagRecovery_setChan_again s l x y

/-- A platter reading of gross 0 arms the log itself, so an arming before it changes nothing (R30). -/
theorem platterReading_armed (s : State) (l : LaneId) (k : Calib) (r : Reading) :
    (s.modLane l fun n => { n with armed := true }).platterReading l k r 0 = s.platterReading l k r 0 := by
  have hg : (0 : Int) ≤ ((5 * k.d1 : Nat) : Int) := Int.natCast_nonneg _
  have ht : (s.modLane l fun n => { n with armed := true }).modLane l (fun n => { n with armed := true }) =
      s.modLane l fun n => { n with armed := true } := by
    simp only [State.modLane, lane_setLane_same, setLane_setLane]
  unfold State.platterReading
  simp only [hg, if_true, ht]

theorem evaluate_takesZero (s : State) (l : LaneId) (c : Chan) (k : Calib) (raw : BitVec 20)
    (hs : (s.chan l c).state = .starting) (hk : (s.chan l c).calib = some k) (hl : 1 ≤ (s.chan l c).stabilityLength)
    (hz : (s.chan l c).ZeroDue k raw) :
    s.evaluate l c raw.toNat =
      ((((s.setChan l c ((s.chan l c).zeroTaken k raw)).reportRunning l c).handReading l c k
        (zeroReading k (s.chan l c).tare (s.chan l c).tareKind) 0).displayCheck l c) := by
  obtain ⟨hfull, hlim, -⟩ := id hz
  have hc (x : Channel) : ((s.setChan l c x).reportRunning l c).chan l c = x := by
    rw [(reportRunning_sameChannels _ l c).1, chan_setChan]
  have hdue := ((s.chan l c).zeroDue_eq k raw).trans (decide_eq_true hz)
  have hfin (x : Channel) (hx : x.zo = some ((s.chan l c).weight k raw)) :=
    x.finish_zero k raw _ ((s.chan l c).Steady k raw) hfull hlim hx
  simp only [State.evaluate, hk, hs, Channel.weighIn_eq _ k raw hl, hdue, if_true, finishEvaluation_eq (hc _),
    Channel.takeZero, hfin, reportRunning_setChan_again, Channel.zeroTaken]

theorem sensorReturn_starting (s : State) (l : LaneId) (c : Chan) (k : Calib) (raw : BitVec 20)
    (hret : (s.chan l c).ret = some .starting) (hk : (s.chan l c).calib = some k) (hf : (s.chan l c).filter = [])
    (hst : (s.chan l c).stability = []) (hl : 2 ≤ (s.chan l c).stabilityLength) (hfl : 1 ≤ (s.chan l c).filterLength) :
    s.sensorReturn l c raw.toNat =
      (s.setChan l c { s.chan l c with
        state := .starting, cause := .noCause, ret := none, silence := some 250, initialZero := some 10000
        filter := [raw.toNat], stability := [calibrated k raw.toNat]
        latest := some ⟨calibrated k raw.toNat, none, false⟩ }).displayCheck l c := by
  unfold State.sensorReturn
  simp only [hret]
  generalize hx : ({ s.chan l c with
    state := .starting, cause := .noCause, ret := none, silence := some 250, initialZero := some 10000 } : Channel) = x
  have hstate : x.state = .starting := by rw [← hx]
  have hfilter : x.filtered raw = [raw.toNat] := by
    simp [← hx, Channel.filtered, hf, Nat.not_lt.mpr hfl]
  have hweight : x.weight k raw = calibrated k raw.toNat := by
    simp [Channel.weight, hfilter, average, roundHalfUp_one]
  have hwindow : x.window k raw = [calibrated k raw.toNat] := by
    rw [← hweight]
    simp [← hx, Channel.window, hst]
    omega
  have hsteady : ¬ x.Steady k raw := by
    rintro ⟨hlen, -⟩
    rw [hwindow] at hlen
    simp [← hx] at hlen
    omega
  rw [evaluate_waits _ l c k raw (by rw [chan_setChan, hstate]) (by rw [chan_setChan, ← hx, hk])
    (by rw [chan_setChan, ← hx]; exact Nat.le_of_succ_le hl) (by rw [chan_setChan]; exact fun h => hsteady h.1)]
  simp only [chan_setChan, setChan_setChan, hfilter, hwindow, hweight, decide_eq_false hsteady]
  rw [← hx]

/-- Settles O42: an arrival at a channel that does not work only fills its filter; in STARTING it waits or takes the initial
zero; a return to STARTING is its first evaluation there. -/
theorem samplesBeforeRunning : Obligations.SamplesBeforeRunning := by
  unfold Obligations.SamplesBeforeRunning
  refine ⟨fun s l c raw h hidle => ?_, fun s l c raw k h hs hk hl => ?_, fun s l c raw k h hs hk hl => ?_,
    fun s l c raw k h hf hcause hret hw hk hempty hlen => ?_⟩
  · have hs : s.sample l c raw.toNat = s.setChan l c ((s.chan l c).filterIn raw.toNat) := by
      obtain hstop | ⟨hf, hcw⟩ := hidle
      · simp only [State.sample, hstop]
      · have hn : ¬ ((s.chan l c).cause = .sensor ∧ s.calWriting l c = false) := by
          rintro ⟨hc, hw⟩
          obtain hne | hwr := hcw
          · exact hne hc
          · rw [hw] at hwr; cases hwr
        simp only [State.sample, hf, hn, if_false]
    rw [exec_sampleArrival h, hs, filterIn_eq]
  · intro x raws w wt ws v full limit hz
    have hstart : s.sample l c raw.toNat = s.evaluate l c raw.toNat := by simp only [State.sample, hs]
    rw [exec_sampleArrival h, hstart, evaluate_waits s l c k raw hs hk hl hz]
  · intro x raws w wt ws v full limit hz
    have hstart : s.sample l c raw.toNat = s.evaluate l c raw.toNat := by simp only [State.sample, hs]
    rw [exec_sampleArrival h, hstart, evaluate_takesZero s l c k raw hs hk hl hz]
    cases c with
    | platter =>
      simp only [State.reportRunning, State.handReading, platterReading_armed]
      rfl
    | bag =>
      simp only [State.reportRunning, bagRecovery_setChan]
      rfl
  · obtain ⟨hfilter, hstab⟩ := hempty
    obtain ⟨hl, hfl⟩ := hlen
    have hs : s.sample l c raw.toNat = s.sensorReturn l c raw.toNat := by
      simp only [State.sample, hf, hcause, hw, and_self, if_true]
    rw [exec_sampleArrival h, hs, sensorReturn_starting s l c k raw hret hk hfilter hstab hl hfl]

end Sys2Proof.Machine
end

