-- ==== Sys2Proof/Proofs/LaneReset.lean ====
section
/-! LANE_RESET (R167): what the blocks of a lane make of it (R29, R62, R66, R118, R131, R156), and the obligation. -/

namespace Sys2Proof.Machine

/-! ## Print holds given up (R40, R141) -/

/-- The holds that references have on the record of a capture number. -/
abbrev holdsOn (refs : List Reference) (num : Nat) : Nat := refs.countP fun r => r.hold && r.capture == some num

/-- A record less the holds that `h` counts on its number. -/
abbrev Capture.less (h : Nat → Nat) (c : Capture) : Capture := { c with holds := c.holds - h c.number }

theorem Capture.less_less (g h : Nat → Nat) (c : Capture) : (c.less g).less h = c.less fun num => g num + h num := by
  simp only [Capture.less, Nat.sub_sub]

theorem Capture.less_zero (c : Capture) (h : Nat → Nat) (hz : h c.number = 0) : c.less h = c := by
  simp only [Capture.less, hz, Nat.sub_zero]

/-- Releasing the holds of one reference (R141). -/
theorem Lane.releaseHolds_one (n : Lane) (r : Reference) :
    n.releaseHolds [r] = { n with log := n.log.map (Capture.less (holdsOn [r])) } := by
  have none (h : ∀ num, holdsOn [r] num = 0) : n = { n with log := n.log.map (Capture.less (holdsOn [r])) } := by
    have hid : n.log.map (Capture.less (holdsOn [r])) = n.log :=
      (List.map_congr_left fun c _ => c.less_zero _ (h c.number)).trans (List.map_id _)
    rw [hid]
  obtain ⟨capture, resolved, hold⟩ := r
  match hold, capture with
  | false, _ => exact none fun num => by simp [holdsOn]
  | true, .none => exact none fun num => by simp [holdsOn]
  | true, some num =>
    refine congrArg (fun log => { n with log := log }) (List.map_congr_left fun c _ => ?_)
    by_cases hc : c.number = num
    · simp [Capture.less, holdsOn, hc]
    · have hc' : ¬ num = c.number := fun h => hc h.symm
      simp [Capture.less, holdsOn, hc, hc']

theorem Lane.releaseHolds_eq (n : Lane) (refs : List Reference) :
    n.releaseHolds refs = { n with log := n.log.map (Capture.less (holdsOn refs)) } := by
  induction refs generalizing n with
  | nil =>
    have hid : n.log.map (Capture.less (holdsOn [])) = n.log :=
      (List.map_congr_left fun c _ => c.less_zero _ rfl).trans (List.map_id _)
    rw [hid]
    rfl
  | cons r refs ih =>
    have hcons : n.releaseHolds (r :: refs) = (n.releaseHolds [r]).releaseHolds refs := rfl
    have hsum (num : Nat) : holdsOn (r :: refs) num = holdsOn [r] num + holdsOn refs num :=
      List.countP_append (l₁ := [r]) (l₂ := refs)
    rw [hcons, ih, Lane.releaseHolds_one]
    simp only [List.map_map]
    refine congrArg (fun log => { n with log := log }) (List.map_congr_left fun c _ => ?_)
    exact (c.less_less _ _).trans (congrArg (fun h => c.less h) (funext hsum).symm)

/-! ## Jobs cancelled (R141, R156) -/

/-- The port once jobs are cancelled: the exchange of a PRINTING one is no job's, and a cut is owed when such a job sent a
LINE last (R141). -/
def Port.without (p : Port) (jobs : List Job) : Port :=
  { p with
    exchange := p.exchange.map fun x =>
      if ∃ j ∈ jobs, j.state = .printing ∧ x.owner = .job j.number then { x with owner := .nobody } else x
    cutOwed := p.cutOwed || jobs.any fun j => j.state == .printing && j.lastSent == .line }

/-- The holds of the references of jobs on a capture number. -/
abbrev holdsOfJobs (jobs : List Job) (num : Nat) : Nat := (jobs.map fun j => holdsOn j.refs num).sum

/-- A lane once jobs are cancelled. -/
def Lane.without (n : Lane) (jobs : List Job) : Lane :=
  { n with
    log := n.log.map (Capture.less (holdsOfJobs jobs)), port := n.port.without jobs
    jobs := n.jobs.filter fun j => jobs.all fun i => j.number != i.number }

theorem Port.without_cons (p : Port) (j : Job) (jobs : List Job) : (p.without [j]).without jobs = p.without (j :: jobs) := by
  have hx (x : Exchange) :
      (if ∃ i ∈ jobs, i.state = .printing ∧
          (if ∃ i ∈ [j], i.state = .printing ∧ x.owner = .job i.number then { x with owner := .nobody } else x).owner =
            .job i.number then
        { (if ∃ i ∈ [j], i.state = .printing ∧ x.owner = .job i.number then { x with owner := .nobody } else x) with
          owner := .nobody }
        else if ∃ i ∈ [j], i.state = .printing ∧ x.owner = .job i.number then { x with owner := .nobody } else x) =
      (if ∃ i ∈ j :: jobs, i.state = .printing ∧ x.owner = .job i.number then { x with owner := .nobody } else x) := by
    by_cases hj : j.state = .printing ∧ x.owner = .job j.number
    · simp [hj]
    · simp [hj]
  simp only [Port.without, Option.map_map, List.any_cons, List.any_nil, Bool.or_false, Bool.or_assoc]
  exact congrArg (fun e => ({ p with
    exchange := e
    cutOwed := p.cutOwed || ((j.state == .printing && j.lastSent == .line) ||
      jobs.any fun j => j.state == .printing && j.lastSent == .line) } : Port))
    (congrArg (fun f => p.exchange.map f) (funext hx))

theorem Port.without_idle (p : Port) (jobs : List Job) (h : ∀ j ∈ jobs, j.state ≠ .printing) : p.without jobs = p := by
  obtain ⟨state, receiver, silence, exchange, answer, cutOwed, counter⟩ := p
  have hno (x : Exchange) : ¬ ∃ j ∈ jobs, j.state = .printing ∧ x.owner = .job j.number :=
    fun ⟨j, hj, hp, _⟩ => h j hj hp
  have hcut : (jobs.any fun j => j.state == .printing && j.lastSent == .line) = false := by
    rw [List.any_eq_false]
    exact fun j hj => by simp [h j hj]
  simp only [Port.without, hno, if_false, hcut, Bool.or_false, Option.map_id_fun', id_eq]

theorem holdsOfJobs_one (j : Job) : holdsOfJobs [j] = holdsOn j.refs := by
  funext num
  simp [holdsOfJobs]

theorem Lane.without_nil (n : Lane) : n.without [] = n := by
  have hlog : n.log.map (Capture.less (holdsOfJobs [])) = n.log :=
    (List.map_congr_left fun c _ => c.less_zero _ rfl).trans (List.map_id _)
  have hjobs : (n.jobs.filter fun j => List.all [] fun i : Job => j.number != i.number) = n.jobs :=
    List.filter_true n.jobs
  rw [Lane.without, hlog, hjobs, Port.without_idle _ _ (by simp)]

theorem Lane.without_cons (n : Lane) (j : Job) (jobs : List Job) : (n.without [j]).without jobs = n.without (j :: jobs) := by
  have hlog : (n.log.map (Capture.less (holdsOfJobs [j]))).map (Capture.less (holdsOfJobs jobs)) =
      n.log.map (Capture.less (holdsOfJobs (j :: jobs))) := by
    have hsum : (fun num => holdsOfJobs [j] num + holdsOfJobs jobs num) = holdsOfJobs (j :: jobs) := by
      funext num
      simp [holdsOfJobs]
    rw [List.map_map]
    exact List.map_congr_left fun c _ => (c.less_less _ _).trans (congrArg (fun h => c.less h) hsum)
  have hjobs : ((n.jobs.filter fun x => [j].all fun i => x.number != i.number).filter fun x =>
      jobs.all fun i => x.number != i.number) = n.jobs.filter fun x => (j :: jobs).all fun i => x.number != i.number := by
    rw [List.filter_filter]
    exact List.filter_congr fun x _ => by simp [Bool.and_comm]
  simp only [Lane.without, hlog, hjobs, Port.without_cons]

theorem Lane.cancelJob_eq (n : Lane) (j : Job) : n.cancelJob j = n.without [j] := by
  have hjobs : (fun x : Job => [j].all fun i => x.number != i.number) = fun x => x.number != j.number := by
    funext x
    simp
  unfold Lane.cancelJob Lane.dropJob Lane.without
  rw [hjobs, holdsOfJobs_one, Lane.releaseHolds_eq]
  cases hs : j.state with
  | printing => simp [Port.without, hs]
  | filling => rw [Port.without_idle _ _ (by simp [hs])]
  | ready => rw [Port.without_idle _ _ (by simp [hs])]
  | suspended => rw [Port.without_idle _ _ (by simp [hs])]

theorem Lane.cancelJobs_eq (n : Lane) (jobs : List Job) : jobs.foldl Lane.cancelJob n = n.without jobs := by
  induction jobs generalizing n with
  | nil => exact n.without_nil.symm
  | cons j jobs ih => rw [List.foldl_cons, ih, Lane.cancelJob_eq, Lane.without_cons]

/-- No job is left once each of a lane's jobs is cancelled. -/
theorem Lane.without_jobs (n : Lane) : (n.without n.jobs).jobs = [] := by
  refine List.filter_eq_nil_iff.mpr fun j hj hall => ?_
  have := List.all_eq_true.mp hall j hj
  simp at this

/-! ## The port with no job (R150) -/

/-- The port once it has chosen among the frames of no job: an owed cut is sent when no exchange is in flight and the
printer is usable (R150). -/
def Port.idle (p : Port) : Port :=
  if p.exchange = none ∧ (p.state = .ready ∨ p.state = .paperLow) ∧ p.cutOwed = true then p.send kindCut [] .owedCut else p

theorem port_noJobs (s : State) (l : LaneId) (h : (s.lane l).jobs = []) :
    s.port l = s.setPort l (s.lane l).port.idle := by
  have hself : s.setPort l (s.lane l).port = s := by rw [setPort_eq, setLane_lane]
  have hselect : s.selectJob l = s := by
    simp [State.selectJob, Lane.printingJob, Lane.suspendedJob, h]
  have hprint : (s.lane l).printingJob = none := by simp [Lane.printingJob, h]
  have hfree : ((s.lane l).port.exchange.isSome || !(s.lane l).port.usable) = true ↔
      ¬ ((s.lane l).port.exchange = none ∧ ((s.lane l).port.state = .ready ∨ (s.lane l).port.state = .paperLow)) := by
    simp [Port.usable, Option.isSome_iff_ne_none, imp_iff_not_or]
  unfold State.port State.pump
  simp only [hselect, hprint, hfree, Port.idle, ← and_assoc]
  by_cases hready : (s.lane l).port.exchange = none ∧ ((s.lane l).port.state = .ready ∨ (s.lane l).port.state = .paperLow)
  · by_cases hcut : (s.lane l).port.cutOwed = true
    · simp only [hready, hcut, and_self, not_true_eq_false, if_true, if_false]
    · simp only [hready, hcut, and_false, if_false, hself, ite_self, Bool.false_eq_true]
  · simp only [hready, not_false_eq_true, false_and, if_true, if_false, hself]

/-! ## Lane Reset (R167) -/

theorem withTerminal_iff (n : Lane) : n.withTerminal = true ↔ ∃ x ∈ n.card.slot, x.out := by
  unfold Lane.withTerminal
  cases n.card.slot <;> simp

/-- The bag check state after a reset of its lane (R66). -/
def Lane.bagStart (n : Lane) : BagCheckState :=
  if n.mode = .self then (if n.bag.state = .running then .arming else .faulted) else .suspended

theorem bagReset_eq (n : Lane) :
    n.bagReset = { n with bagCheck := { BagCheck.blank with
      state := n.bagStart, b := n.bagCheck.b, previousGross := n.bagCheck.previousGross } } := by
  unfold Lane.bagReset Lane.bagStart
  cases n.mode with
  | self => by_cases hr : n.bag.state = .running <;> simp [hr] <;> rfl
  | attended => rfl
  | closed => rfl

theorem basketCleared_keeps (x : BagCheck) : x.basketCleared.b = x.b ∧ x.basketCleared.previousGross = x.previousGross := by
  unfold BagCheck.basketCleared
  split <;> exact ⟨rfl, rfl⟩

/-- The drawer after a reset of its lane (R131). -/
def Till.afterReset (t : Till) : Till := if t.state = .waitingPower then { t with state := .closed, retry := false } else t

/-- The lane a LANE_RESET leaves (R167). -/
def Lane.resetAll (n : Lane) : Lane :=
  { n with
    platter := { n.platter with tare := 0, tareKind := .noTare }, bag := { n.bag with tare := 0, tareKind := .noTare }
    weigh := none
    log := (n.log.map fun c => { c with basketHeld := false }).map (Capture.less (holdsOfJobs n.jobs))
    entries := [], tenders := [], token := false
    bagCheck := { BagCheck.blank with
      state := n.bagStart, b := n.bagCheck.b, previousGross := n.bagCheck.previousGross }
    card := ⟨false, [], false, none, n.card.lastSwipe, none⟩
    till := n.till.afterReset, jobs := [], port := (n.port.without n.jobs).idle, authority := none }

theorem reset1_eq (n : Lane) :
    n.reset1 = { n with
      platter := { n.platter with tare := 0, tareKind := .noTare }, bag := { n.bag with tare := 0, tareKind := .noTare }
      weigh := none, log := n.log.map fun c => { c with basketHeld := false }
      entries := [], tenders := [], token := false
      bagCheck := { BagCheck.blank with
        state := n.bagStart, b := n.bagCheck.b, previousGross := n.bagCheck.previousGross }
      card := ⟨false, [], false, none, n.card.lastSwipe, none⟩, authority := none } := by
  obtain ⟨hb, hg⟩ := basketCleared_keeps n.bagCheck
  unfold Lane.reset1
  dsimp only
  rw [bagReset_eq]
  simp only [Lane.clearBasket, hb, hg]
  rfl

theorem drawerReset_eq (s : State) (l : LaneId) :
    s.drawerReset l =
      { s.setTill l (s.till l).afterReset with
        powerQueue := if (s.till l).state = .waitingPower then s.powerQueue.filter (· != l) else s.powerQueue } := by
  unfold State.drawerReset Till.afterReset
  dsimp only
  split
  · rfl
  · rw [State.till, setTill_eq, setLane_lane]

/-- A lane with its print jobs reset (R156). -/
def Lane.printed (n : Lane) : Lane :=
  { n.without n.jobs with jobs := [], port := (n.port.without n.jobs).idle }

theorem printReset_eq (s : State) (l : LaneId) : s.printReset l = s.setLane l (s.lane l).printed := by
  have hmod : (s.modLane l fun n => n.jobs.foldl Lane.cancelJob n) =
      s.setLane l ((s.lane l).without (s.lane l).jobs) := by rw [modLane_eq, Lane.cancelJobs_eq]
  have hjobs := Lane.without_jobs (s.lane l)
  rw [State.printReset, hmod, port_noJobs _ l (by rw [lane_setLane_same, hjobs]), setPort_eq, lane_setLane_same,
    setLane_setLane, Lane.printed, ← hjobs]
  rfl

/-- The lane that LANE_RESET leaves is the one its blocks leave in turn. -/
theorem resetAll_eq (n : Lane) : n.resetAll = ({ n.reset1 with till := n.till.afterReset } : Lane).printed := by
  rw [reset1_eq]
  rfl

/-- The parts of Lane Reset together: the lane of `resetAll`, and its drawer out of the queue. -/
theorem laneReset_eq (s : State) (l : LaneId) :
    ((s.modLane l Lane.reset1).drawerReset l).printReset l =
      { s.setLane l (s.lane l).resetAll with
        powerQueue := if (s.lane l).till.state = .waitingPower then s.powerQueue.filter (· != l) else s.powerQueue } := by
  have htill : (s.modLane l Lane.reset1).till l = (s.lane l).till := by
    rw [State.till, modLane_eq, lane_setLane_same, reset1_eq]
  have hdrawer : (s.modLane l Lane.reset1).setTill l (s.lane l).till.afterReset =
      s.setLane l { (s.lane l).reset1 with till := (s.lane l).till.afterReset } := by
    rw [setTill_eq, modLane_eq, lane_setLane_same, setLane_setLane]
  rw [printReset_eq, drawerReset_eq, htill, hdrawer, resetAll_eq]
  generalize ({ (s.lane l).reset1 with till := (s.lane l).till.afterReset } : Lane) = n
  have hn : State.lane { s.setLane l n with
      powerQueue := if (s.lane l).till.state = .waitingPower then (s.modLane l Lane.reset1).powerQueue.filter (· != l)
        else (s.modLane l Lane.reset1).powerQueue } l = n := lane_setLane_same s l n
  rw [hn]
  simp only [State.setLane, Four.set_set]
  rfl

theorem takeLaneReset_eq (l : LaneId) (s : State) :
    takeLaneReset l s =
      let n := s.lane l
      if ∃ x ∈ n.card.slot, x.out then refuse .laneBusy s
      else
        accept [n.mode.value, 0, n.bagStart.value, n.till.afterReset.state.value, octet n.jobs.length]
          { s.setLane l n.resetAll with
            powerQueue := if n.till.state = .waitingPower then s.powerQueue.filter (· != l) else s.powerQueue } := by
  unfold takeLaneReset
  simp only [withTerminal_iff, laneReset_eq]
  have hn (q : List LaneId) : State.lane { s.setLane l (s.lane l).resetAll with powerQueue := q } l = (s.lane l).resetAll :=
    lane_setLane_same s l _
  rw [hn]
  rfl

theorem exec_laneReset {s : State} {l : LaneId} (h : s.Serves l) (tag : Byte) :
    exec (.laneReset (laneAddr l) tag) s =
      .next (settle (requestFrame (laneAddr l) .laneReset tag []) s.upstream.length (takeLaneReset l s.taken)) := by
  refine exec_lane .laneReset tag [] h rfl rfl rfl rfl rfl (toLane_laneAddr l _ _) ?_
  rw [takeLaneReset_eq]
  dsimp only
  split <;> rfl

/-- Settles O37: the lane of `resetAll` has each block as its chapter resets it, and the capture records keep their
certified fields. -/
theorem laneResetReturnsACleanSale : Obligations.LaneResetReturnsACleanSale := by
  unfold Obligations.LaneResetReturnsACleanSale
  refine ⟨fun s l tag h hout => ?_, fun s l tag h hout => ?_⟩
  · rw [exec_laneReset h, takeLaneReset_eq]
    exact congrArg (fun r => Host.Outcome.next (settle _ s.upstream.length r)) (if_pos hout)
  · have hno : ¬ ∃ x ∈ (s.taken.lane l).card.slot, x.out := fun ⟨x, hx, ho⟩ => hout x hx ho
    have hlog : (s.lane l).resetAll.log = (s.lane l).log.map fun c => { c with
        basketHeld := false
        holds := c.holds - (((s.lane l).jobs.map fun j => j.refs.countP fun r => r.hold && r.capture == some c.number).sum) } :=
      List.map_map
    refine ⟨(s.lane l).resetAll, ?_, rfl, rfl, rfl, rfl, rfl, ?_, hlog, rfl, rfl, rfl, rfl, rfl, rfl, rfl, rfl, rfl, rfl, rfl,
      rfl, rfl⟩
    · rw [exec_laneReset h, takeLaneReset_eq]
      dsimp only
      rw [if_neg hno]
      rfl
    · rw [hlog, List.map_map]
      rfl

end Sys2Proof.Machine
end

