-- ==== Sys2Proof/Proofs/StartUp.lean ====
section
/-! Start-up (R3, R12, R132, R177 to R180): what it leaves of every block, and the obligation. -/

namespace Sys2Proof.Machine

/-! ## A lane and the upstream queue replaced together -/

/-- The state with a lane and the upstream queue replaced: all that the start of a lane changes. -/
def State.having (s : State) (l : LaneId) (n : Lane) (q : List Frame) : State := { s.setLane l n with upstream := q }

@[simp] theorem having_lane (s : State) (l : LaneId) (n : Lane) (q : List Frame) : (s.having l n q).lane l = n :=
  lane_setLane_same s l n

@[simp] theorem having_having (s : State) (l : LaneId) (n m : Lane) (q r : List Frame) :
    (s.having l n q).having l m r = s.having l m r := by
  simp [State.having, State.setLane]

@[simp] theorem setLane_having (s : State) (l : LaneId) (n m : Lane) (q : List Frame) :
    (s.setLane l n).having l m q = s.having l m q := by
  simp [State.having]

theorem having_self (s : State) (l : LaneId) : s.having l (s.lane l) s.upstream = s := by
  simp [State.having]

/-! ## A channel starts (R3, R12) -/

/-- A display notice is accepted while 16 records are free, and the head of the queue stays (R171). -/
theorem offerDisplay_room (s : State) (l : LaneId) (c : Chan) (d : Display) {f : Frame} {r : List Frame}
    (hq : s.upstream = f :: r) (hr : r.length + s.reserved ≤ 47) :
    ∃ r', r'.length ≤ r.length + 1 ∧ s.offerDisplay l c d = (true, { s with upstream := f :: r' }) := by
  have hroom : 16 ≤ s.freeRecords := by
    simp only [State.freeRecords, hq, List.length_cons]
    omega
  unfold State.offerDisplay
  simp only [hq, hroom, if_true]
  split
  · rename_i t ht
    exact ⟨t, by have := replaceDisplay_length l c _ r t ht; omega, rfl⟩
  · exact ⟨r ++ [⟨laneAddr l, kindDisplay, 0, displayPayload c d⟩], by simp, by simp [State.enqueue, hq]⟩

/-- The first display check of a channel at a start-up (R25). -/
theorem displayCheck_first (s : State) (l : LaneId) (c : Chan) {f : Frame} {r : List Frame} (hq : s.upstream = f :: r)
    (hr : r.length + s.reserved ≤ 47) (ht : (s.chan l c).displayTimer = none) (hd : (s.chan l c).display = none) :
    ∃ r', r'.length ≤ r.length + 1 ∧
      s.displayCheck l c = s.having l ((s.lane l).setChan c { s.chan l c with
        display := some (s.chan l c).shown, displayTimer := some (s.laneSettings l).displayInterval }) (f :: r') := by
  obtain ⟨r', hlen, hoffer⟩ := offerDisplay_room s l c (s.chan l c).shown hq hr
  refine ⟨r', hlen, ?_⟩
  rw [displayCheck_due s l c ht (by simp [hd]), hoffer]
  rfl

/-- A lane with a channel started from its stored record (R3, R12). -/
def Lane.startedChan (n : Lane) (c : Chan) (copy : Option Calib) : Lane :=
  match copy with
  | some k =>
    n.setChan c { Channel.blank with
      state := .starting, calib := some k, silence := some 250, initialZero := some 10000
      display := some ⟨.starting, .noCause, none⟩, displayTimer := some 200 }
  | none =>
    { n.setChan c Channel.resetUncalibrated with
      attention := ⟨addCond n.attention.set (faultCond c).bit, n.attention.mask⟩ }

/-- A blank channel put in FAULT, UNCALIBRATED, with its condition notified (R3, R10, R161). -/
theorem raise_uncalibrated (s : State) (l : LaneId) (c : Chan) {f : Frame} {r : List Frame} (hq : s.upstream = f :: r)
    (hr : r.length + s.reserved ≤ 46) (hm : hasCond (s.lane l).attention.mask (faultCond c).bit = false)
    (ha : hasCond (s.lane l).attention.set (faultCond c).bit = false) (x : Channel) :
    ∃ g, (s.setChan l c x).raiseLane l (faultCond c) =
      s.having l { (s.lane l).setChan c x with
        attention := ⟨addCond (s.lane l).attention.set (faultCond c).bit, (s.lane l).attention.mask⟩ } (f :: (r ++ [g])) := by
  have hatt : ((s.setChan l c x).lane l).attention = (s.lane l).attention := by
    rw [setChan_eq, lane_setLane_same, Lane.setChan_attention]
  have hroom : (s.setChan l c x).upstream.length + (s.setChan l c x).reserved < 64 := by
    change s.upstream.length + s.reserved < 64
    rw [hq, List.length_cons]
    omega
  rw [raiseLane_notified _ l _ (by rw [hatt, ha]) (by rw [hatt, hm]) hroom, hatt, setAttention_eq, setChan_eq,
    lane_setLane_same, setLane_setLane]
  generalize (⟨laneAddr l, kindAttention, 0, attentionPayload (laneAddr l) (octet (faultCond c).bit)
    (addCond (s.lane l).attention.set (faultCond c).bit) (s.lane l).attention.mask⟩ : Frame) = g
  refine ⟨g, ?_⟩
  rw [State.having, ← List.cons_append, ← hq]
  rfl

theorem startChannel_first (s : State) (l : LaneId) (c : Chan) (copy : Option Calib) {f : Frame} {r : List Frame}
    (hq : s.upstream = f :: r) (hr : r.length + s.reserved ≤ 46) (hx : s.chan l c = Channel.blank)
    (hi : (s.laneSettings l).displayInterval = 200) (hb : (s.lane l).bagCheck.state = .suspended)
    (ha : hasCond (s.lane l).attention.set (faultCond c).bit = false)
    (hm : hasCond (s.lane l).attention.mask (faultCond c).bit = false) :
    ∃ r', r'.length ≤ r.length + 2 ∧ s.startChannel l c copy = s.having l ((s.lane l).startedChan c copy) (f :: r') := by
  cases copy with
  | some k =>
    obtain ⟨r', hlen, h⟩ := displayCheck_first (s.setChan l c { (s.chan l c).toStarting with calib := some k }) l c
      (f := f) (r := r) hq (by exact Nat.le_succ_of_le hr) (by rw [chan_setChan, hx]; rfl) (by rw [chan_setChan, hx]; rfl)
    have hi' (x : Channel) : ((s.setChan l c x).laneSettings l).displayInterval = 200 := hi
    refine ⟨r', Nat.le_succ_of_le hlen, h.trans ?_⟩
    rw [hi', chan_setChan, setChan_eq, lane_setLane_same, setLane_having, Lane.setChan_setChan, hx]
    rfl
  | none =>
    obtain ⟨g, hg⟩ := raise_uncalibrated s l c hq hr hm ha ((s.chan l c).toFault .uncalibrated none)
    generalize hn : ({ (s.lane l).setChan c ((s.chan l c).toFault .uncalibrated none) with
      attention := ⟨addCond (s.lane l).attention.set (faultCond c).bit, (s.lane l).attention.mask⟩ } : Lane) = n at hg
    have hchan : (s.having l n (f :: (r ++ [g]))).chan l c = Channel.blank.toFault .uncalibrated none := by
      rw [State.chan, having_lane, ← hn, hx]
      exact Lane.chan_setChan _ c _
    have hloss : (s.having l n (f :: (r ++ [g]))).bagLoss l = s.having l n (f :: (r ++ [g])) := by
      refine bagLoss_suspended _ l ?_
      rw [having_lane, ← hn]
      exact (congrArg BagCheck.state (Lane.setChan_bagCheck _ c _)).trans hb
    obtain ⟨r', hlen, h⟩ := displayCheck_first (s.having l n (f :: (r ++ [g]))) l c (f := f) (r := r ++ [g]) rfl
      (by rw [List.length_append]; exact Nat.add_right_comm .. ▸ Nat.succ_le_succ hr) (by rw [hchan]; rfl) (by rw [hchan]; rfl)
    refine ⟨r', by simpa using hlen, ?_⟩
    have hi' : ((s.having l n (f :: (r ++ [g]))).laneSettings l).displayInterval = 200 := hi
    rw [State.startChannel, State.enterFault]
    simp only [State.modChan, hg, hloss, ite_self]
    rw [h, hi', hchan, having_lane, having_having, ← hn]
    cases c <;> rfl

/-! ## A lane starts (R132, R148) -/

/-- A lane whose drawer and printer port have started (R132, R148). -/
def Lane.wired (rawHigh : Bool) : Lane :=
  { Lane.blank rawHigh with till := Till.start rawHigh 30, port := { Port.blank with silence := some 2000 } }

/-- A lane right after a start-up, from the level of its sensor and the stored records of its channels. -/
def Lane.fresh (rawHigh : Bool) (platter bag : Option Calib) : Lane :=
  ((Lane.wired rawHigh).startedChan .platter platter).startedChan .bag bag

theorem startedChan_attention (n : Lane) (c : Chan) (copy : Option Calib) :
    (n.startedChan c copy).attention =
      if copy.isNone then ⟨addCond n.attention.set (faultCond c).bit, n.attention.mask⟩ else n.attention := by
  cases copy with
  | none => rfl
  | some k => exact Lane.setChan_attention n c _

theorem wired_attention (rawHigh : Bool) : (Lane.wired rawHigh).attention = Attention.clear := rfl

/-- The condition of a channel without a stored record, and no other, is set by its start. -/
theorem platterStarted_attention (rawHigh : Bool) (copy : Option Calib) :
    ((Lane.wired rawHigh).startedChan .platter copy).attention = ⟨if copy.isNone then 1 else 0, 0⟩ := by
  rw [startedChan_attention, wired_attention]
  generalize copy.isNone = absent
  revert absent
  decide

theorem fresh_attention (rawHigh : Bool) (p b : Option Calib) :
    (Lane.fresh rawHigh p b).attention = ⟨(if p.isNone then 1 else 0) ||| (if b.isNone then 2 else 0), 0⟩ := by
  rw [Lane.fresh, startedChan_attention, platterStarted_attention]
  generalize p.isNone = noPlatter
  generalize b.isNone = noBag
  revert noPlatter noBag
  decide

theorem startLane_fresh (s : State) (l : LaneId) (rawHigh : Bool) {f : Frame} {r : List Frame} (hq : s.upstream = f :: r)
    (hr : r.length + s.reserved ≤ 44) (he : s.enabled l = true) (hn : s.lane l = Lane.blank rawHigh)
    (hs : s.laneSettings l = LaneSettings.default) :
    ∃ r', r'.length ≤ r.length + 4 ∧
      s.startLane l =
        s.having l (Lane.fresh rawHigh (s.stored l .platter).record (s.stored l .bag).record) (f :: r') := by
  have hi : (s.laneSettings l).displayInterval = 200 := congrArg LaneSettings.displayInterval hs
  have hstart : s.startLane l = ((s.setLane l (Lane.wired rawHigh)).startChannel l .platter
      (s.stored l .platter).record).startChannel l .bag (s.stored l .bag).record := by
    rw [State.startLane, if_pos he, modLane_eq, hn, hs]
    rfl
  have hlane : (s.setLane l (Lane.wired rawHigh)).lane l = Lane.wired rawHigh := lane_setLane_same s l _
  obtain ⟨p, hp, hplatter⟩ := startChannel_first (s.setLane l (Lane.wired rawHigh)) l .platter (s.stored l .platter).record
    (f := f) (r := r) hq (Nat.le_trans hr (by decide)) (by rw [State.chan, hlane]; rfl) hi (by rw [hlane]; rfl)
    (by rw [hlane, wired_attention]; decide) (by rw [hlane, wired_attention]; decide)
  rw [hlane, setLane_having] at hplatter
  generalize hk : (Lane.wired rawHigh).startedChan .platter (s.stored l .platter).record = k at hplatter
  have hatt : k.attention = ⟨if (s.stored l .platter).record.isNone then 1 else 0, 0⟩ := by
    rw [← hk, platterStarted_attention]
  have hblank : k.bag = Channel.blank ∧ k.bagCheck.state = .suspended := by
    rw [← hk]
    cases (s.stored l .platter).record <;> exact ⟨rfl, rfl⟩
  have hclear (absent : Bool) : hasCond (if absent then 1 else 0) (faultCond .bag).bit = false := by
    cases absent <;> decide
  obtain ⟨b, hb, hstarted⟩ := startChannel_first (s.having l k (f :: p)) l .bag (s.stored l .bag).record (f := f) (r := p) rfl
    (by change p.length + s.reserved ≤ 46; omega) (by rw [State.chan, having_lane]; exact hblank.1) hi
    (by rw [having_lane]; exact hblank.2) (by rw [having_lane, hatt]; exact hclear _) (by rw [having_lane, hatt]; exact hclear false)
  refine ⟨b, by omega, ?_⟩
  rw [hstart, hplatter, hstarted, having_lane, having_having, ← hk]
  rfl

/-- The blocks of a lane as `FreshLane` gives them. -/
theorem freshLane_of (t : State) (l : LaneId) (rawHigh : Bool)
    (h : t.lane l = Lane.fresh rawHigh (t.stored l .platter).record (t.stored l .bag).record) : FreshLane t l rawHigh := by
  unfold FreshLane
  rw [h]
  generalize hp : (t.stored l .platter).record = p
  generalize hb : (t.stored l .bag).record = b
  have htill : (Lane.fresh rawHigh p b).till = Till.start rawHigh 30 := by cases p <;> cases b <;> rfl
  have hchan (c : Chan) : (Lane.fresh rawHigh p b).chan c =
      match (t.stored l c).record with
      | some k =>
        { Channel.blank with
          state := .starting, calib := some k, silence := some 250, initialZero := some 10000
          display := some ⟨.starting, .noCause, none⟩, displayTimer := some 200 }
      | none => Channel.resetUncalibrated := by
    cases c with
    | platter => rw [hp]; cases p <;> cases b <;> rfl
    | bag => rw [hb]; cases p <;> cases b <;> rfl
  have hstart : Till.start rawHigh 30 =
      if rawHigh then { Till.blank true with state := .opened, sensorOpen := true, leftOpen := some 30000 }
      else Till.blank false := by cases rawHigh <;> rfl
  refine ⟨?_, ?_, ?_, ?_, ?_, ?_, ?_, ?_, ?_, ?_, ?_, ?_, ?_, ?_, ?_, htill.trans hstart, hchan, fresh_attention rawHigh p b⟩ <;>
    cases p <;> cases b <;> rfl

/-! ## The lanes start in order (R180) -/

/-- The lanes of a list started in turn: the queue keeps its head, each enabled one is fresh, the others are as they were. -/
theorem startLanes_fresh (rawHigh : LaneId → Bool) (ls : List LaneId) (hnd : ls.Nodup) (s : State) {f : Frame}
    {r : List Frame} (hq : s.upstream = f :: r) (hr : r.length + s.reserved + 4 * ls.length ≤ 48)
    (hn : ∀ l ∈ ls, s.lane l = Lane.blank (rawHigh l)) (hs : s.settings = Settings.default) :
    ∃ L r', ls.foldl State.startLane s = { s with lanes := L, upstream := f :: r' } ∧
      r'.length ≤ r.length + 4 * ls.length ∧ (∀ l, l ∉ ls → L.get l = s.lane l) ∧
      ∀ l ∈ ls, s.enabled l = true →
        L.get l = Lane.fresh (rawHigh l) (s.stored l .platter).record (s.stored l .bag).record := by
  induction ls generalizing s r with
  | nil => exact ⟨s.lanes, r, by rw [← hq]; rfl, Nat.le_refl _, fun _ _ => rfl, fun _ h => absurd h List.not_mem_nil⟩
  | cons k ls ih =>
    obtain ⟨hk, hnd⟩ := List.nodup_cons.mp hnd
    rw [List.length_cons] at hr
    obtain ⟨n, p, hstep, hp, hfresh⟩ : ∃ n p, s.startLane k = s.having k n (f :: p) ∧ p.length ≤ r.length + 4 ∧
        (s.enabled k = true → n = Lane.fresh (rawHigh k) (s.stored k .platter).record (s.stored k .bag).record) := by
      by_cases he : s.enabled k = true
      · obtain ⟨p, hp, hstart⟩ := startLane_fresh s k (rawHigh k) hq (by omega) he (hn k List.mem_cons_self)
          (by rw [State.laneSettings, hs]; exact Four.get_make _ k)
        exact ⟨_, p, hstart, hp, fun _ => rfl⟩
      · refine ⟨s.lane k, r, ?_, Nat.le_add_right _ _, fun h => absurd h he⟩
        rw [State.startLane, if_neg he, ← hq, having_self]
    have hother (l : LaneId) (hl : l ≠ k) : (s.having k n (f :: p)).lane l = s.lane l := lane_setLane_ne s k l n hl
    obtain ⟨L, r', hfold, hlen, hsame, hnew⟩ := ih hnd (s.having k n (f :: p)) (r := p) rfl
      (by change p.length + s.reserved + 4 * ls.length ≤ 48; omega)
      (fun l hl => (hother l (fun h => hk (h ▸ hl))).trans (hn l (List.mem_cons_of_mem _ hl))) hs
    refine ⟨L, r', ?_, by rw [List.length_cons]; omega, fun l hl => ?_, fun l hl he => ?_⟩
    · rw [List.foldl_cons, hstep, hfold]
      rfl
    · obtain ⟨hlk, hls⟩ := not_or.mp (fun h => hl (List.mem_cons.mpr h))
      rw [hsame l hls, hother l hlk]
    · obtain rfl | hls := List.mem_cons.mp hl
      · rw [hsame l hk, having_lane, hfresh he]
      · exact hnew l hls he

/-! ## The whole start-up (R177 to R180) -/

theorem stored_setStored (s : State) (l m : LaneId) (c d : Chan) (e : StoreEntry) :
    (s.setStored l c e).stored m d = if m = l ∧ d = c then e else s.stored m d := by
  by_cases hm : m = l
  · subst hm
    cases c <;> cases d <;> simp [State.stored, State.setStored]
  · simp [State.stored, State.setStored, hm]

/-- A record whose write was cut fails its check; the rest of the store is kept (R178). -/
theorem storeAfterLoss_stored (s : State) (l : LaneId) (c : Chan) :
    s.storeAfterLoss.stored l c = if s.calWriting l c then { s.stored l c with record := none } else s.stored l c := by
  unfold State.storeAfterLoss State.calWriting
  cases s.calWrite with
  | none => rfl
  | some w =>
    simp only [stored_setStored, Bool.and_eq_true, beq_iff_eq]
    by_cases h : w.lane = l ∧ w.channel = c
    · obtain ⟨rfl, rfl⟩ := h
      simp
    · rw [if_neg h, if_neg (fun hlc => h ⟨hlc.1.symm, hlc.2.symm⟩)]

/-- The comparison of the supply monitor at a part record without conditions (R179, R180). -/
theorem compareSupply_clear (s : State) {f : Frame} {r : List Frame} (hq : s.upstream = f :: r)
    (hr : r.length + s.reserved ≤ 62) (ha : s.attention = Attention.clear) (hl : s.supplyLow = false) :
    ∃ r', s.compareSupply = { s with
      upstream := f :: r', supplyLow := s.supplyBelow, attention := ⟨if s.supplyBelow then 8 else 0, 0⟩ } := by
  unfold State.compareSupply
  by_cases hb : s.supplyBelow = true
  · have hclear (u : State) (hu : u.attention = Attention.clear) :
        hasCond u.attention.set PartCond.supplyLow.bit = false ∧ hasCond u.attention.mask PartCond.supplyLow.bit = false := by
      rw [hu]
      decide
    obtain ⟨hset, hmask⟩ := hclear { s with supplyLow := true } ha
    obtain ⟨g, hg⟩ : ∃ g, State.raisePart { s with supplyLow := true } .supplyLow =
        State.enqueue { s with supplyLow := true, attention := ⟨addCond s.attention.set 3, s.attention.mask⟩ } g :=
      ⟨_, raisePart_notified _ _ hset hmask (by change s.upstream.length + s.reserved < 64; rw [hq, List.length_cons]; omega)⟩
    refine ⟨r ++ [g], ?_⟩
    rw [if_pos hb, hg, State.enqueue, ha, hq, hb]
    rfl
  · have hsame : s = { s with upstream := f :: r, supplyLow := false, attention := Attention.clear } := by
      rw [← hq, ← hl, ← ha]
    refine ⟨r, (if_neg hb).trans (hsame.trans ?_)⟩
    rw [Bool.not_eq_true] at hb
    rw [hb]
    rfl

/-- Start-up as one state: every field blank but the store, the HELLO_NOTICE at the head of the queue, the supply warning
and the enabled lanes. -/
theorem startUp_eq (s : State) (cause : ResetCause) (check : SelfCheck) :
    ∃ L r, s.startUp cause check =
        { s.blank cause check with
          lanes := L, upstream := (s.blank cause check).helloNotice :: r, supplyLow := s.supplyBelow
          attention := ⟨if s.supplyBelow then 8 else 0, 0⟩ } ∧
      ∀ l, s.enabled l = true →
        L.get l = Lane.fresh (s.lane l).till.rawHigh (s.storeAfterLoss.stored l .platter).record
          (s.storeAfterLoss.stored l .bag).record := by
  obtain ⟨L, r, hfold, hlen, -, hfresh⟩ := startLanes_fresh (fun l => (s.lane l).till.rawHigh) allLanes (by decide)
    ((s.blank cause check).enqueue (s.blank cause check).helloNotice) (f := (s.blank cause check).helloNotice) (r := []) rfl
    (by change 0 + 0 + 4 * 4 ≤ 48; decide) (fun l _ => Four.get_make _ l) rfl
  have hall (l : LaneId) : l ∈ allLanes := by revert l; decide
  obtain ⟨r', hsupply⟩ := compareSupply_clear { s.blank cause check with
    lanes := L, upstream := (s.blank cause check).helloNotice :: r } rfl (Nat.le_trans hlen (by decide)) rfl rfl
  refine ⟨L, r', ?_, fun l he => hfresh l (hall l) he⟩
  rw [State.startUp, hfold]
  exact hsupply

/-- What every start-up leaves, whatever its cause: the clauses of the statement from the power on. -/
abbrev StartedUp (s t : State) (cause : ResetCause) (check : SelfCheck) : Prop :=
  t.power = .running ∧ t.pending = s.pending ∧ t.resetCause = cause ∧ t.selfCheck = check ∧ t.items = [] ∧ t.ranges = [] ∧
  t.glyphs = [] ∧ t.settings = ⟨2, 10, 60, 2, Four.make fun _ => ⟨200, 30, 10000, 12, 20, 60, .openHigh, 60, 30⟩⟩ ∧
  t.date = none ∧ t.calWrite = none ∧ t.receiver = .hunting ∧ t.calEn = s.calEn ∧
  t.attention = ⟨if t.supplyLow then 8 else 0, 0⟩ ∧ t.receiveBuffer = [] ∧ t.reserved = 0 ∧ t.restart = none ∧
  t.linkTimer = some 10000 ∧ t.silent = false ∧ t.powerQueue = [] ∧ t.releasing = [] ∧
  t.pay = ⟨none, none, 3, 0, [], .hunting, none⟩ ∧
  (∃ rest, t.upstream = ⟨15, 0x81, 0, [0x0C, 0x04, 0x01, octet t.lanesEnabled, octet t.rateStrap.toNat, t.resetCause.value,
    selfCheckValue check] ++ counted (t.audits.map (be 2))⟩ :: rest) ∧
  (∀ l c, t.stored l c = if s.calWriting l c then { s.stored l c with record := none } else s.stored l c) ∧
  ∀ l, t.enabled l = true → FreshLane t l (s.lane l).till.rawHigh

theorem startUp_startedUp (s : State) (cause : ResetCause) (check : SelfCheck) :
    (s.startUp cause check).rateStrap = s.rateStrap ∧ (s.startUp cause check).lanesStrap = s.lanesStrap ∧
      (s.startUp cause check).supplyLow = s.supplyBelow ∧ StartedUp s (s.startUp cause check) cause check := by
  obtain ⟨L, r, h, hfresh⟩ := startUp_eq s cause check
  rw [h]
  refine ⟨rfl, rfl, rfl, rfl, rfl, rfl, rfl, rfl, rfl, rfl, rfl, rfl, rfl, rfl, rfl, rfl, rfl, rfl, rfl, rfl, rfl, rfl, rfl,
    rfl, ⟨r, rfl⟩, storeAfterLoss_stored s, fun l he => freshLane_of _ l _ (hfresh l he)⟩

/-- Settles O25: the three start-ups are one operation on the straps and the supply each of them finds; a brown-out leaves
the blank part held. -/
theorem startUpLeavesTheResetValues : Obligations.StartUpLeavesTheResetValues := by
  unfold Obligations.StartUpLeavesTheResetValues
  refine ⟨fun s i => ?_, fun s i hp => ?_, fun s check hp hr => ?_, fun s => ?_⟩
  · exact ⟨_, rfl, startUp_startedUp (s.readInputs i) .powerOn i.selfCheck⟩
  · have hx : exec (.supplyAboveBrownOut i) s = .next ((s.readInputs i).startUp .brownOut i.selfCheck) := by
      change Host.Outcome.next (s.aboveBrownOut i) = _
      rw [State.aboveBrownOut, hp]
    exact ⟨_, hx, startUp_startedUp (s.readInputs i) .brownOut i.selfCheck⟩
  · have hx : exec (.restartReset check) s = .next (s.startUp .restart check) := by
      change Host.Outcome.next (s.restartReset check) = _
      rw [State.restartReset, if_pos ⟨hp, hr⟩]
    exact ⟨_, hx, startUp_startedUp s .restart check⟩
  · exact ⟨_, rfl, rfl, rfl, rfl, rfl, rfl, rfl, rfl, storeAfterLoss_stored s⟩

end Sys2Proof.Machine
end

