-- ==== Sys2Proof/Proofs/CaptureLogs.lean ====
section
/-! SUPPORT. What leaves the capture logs alone, or changes no more of them than the flags and holds of R38: one lemma per
operation of the other blocks. -/

namespace Sys2Proof.Machine

/-! ## The relations -/

/-- Two lanes with the same capture log and the same capture counter. -/
abbrev SameLog (n m : Lane) : Prop := m.log = n.log ∧ m.nextCapture = n.nextCapture

/-- Two lanes whose capture logs agree but for the basket-held flags and the print-hold counts (R38). -/
abbrev SameCert (n m : Lane) : Prop :=
  m.log.map Capture.certified = n.log.map Capture.certified ∧ m.nextCapture = n.nextCapture

/-- Two states with the same capture logs. -/
abbrev SameLogs (s t : State) : Prop :=
  ∀ l, (t.lane l).log = (s.lane l).log ∧ (t.lane l).nextCapture = (s.lane l).nextCapture

/-- Two states whose capture logs agree but for the flags and the holds. -/
abbrev SameCerts (s t : State) : Prop :=
  ∀ l, (t.lane l).log.map Capture.certified = (s.lane l).log.map Capture.certified ∧
    (t.lane l).nextCapture = (s.lane l).nextCapture

theorem sameLogs_of_lanes {s t : State} (h : t.lanes = s.lanes) : SameLogs s t := by
  simp [SameLogs, State.lane, h]

theorem SameLogs.trans {s t u : State} (h : SameLogs s t) (k : SameLogs t u) : SameLogs s u :=
  fun l => ⟨(k l).1.trans (h l).1, (k l).2.trans (h l).2⟩

theorem SameCerts.trans {s t u : State} (h : SameCerts s t) (k : SameCerts t u) : SameCerts s u :=
  fun l => ⟨(k l).1.trans (h l).1, (k l).2.trans (h l).2⟩

theorem SameLogs.certs {s t : State} (h : SameLogs s t) : SameCerts s t := fun l => ⟨by rw [(h l).1], (h l).2⟩

theorem sameCerts_of_lanes {s t : State} (h : t.lanes = s.lanes) : SameCerts s t := (sameLogs_of_lanes h).certs

/-- A lane replaced by one with the same log. -/
@[simp] theorem setLane_sameLogs (s : State) (l : LaneId) (n : Lane) (hl : n.log = (s.lane l).log)
    (hc : n.nextCapture = (s.lane l).nextCapture) : SameLogs s (s.setLane l n) := by
  intro m
  by_cases hm : m = l
  · subst hm
    rw [lane_setLane_same]
    exact ⟨hl, hc⟩
  · rw [lane_setLane_ne s l m n hm]
    exact ⟨rfl, rfl⟩

/-- A lane replaced by one whose log has the same certified fields. -/
@[simp] theorem setLane_sameCerts (s : State) (l : LaneId) (n : Lane)
    (hl : n.log.map Capture.certified = (s.lane l).log.map Capture.certified)
    (hc : n.nextCapture = (s.lane l).nextCapture) : SameCerts s (s.setLane l n) := by
  intro m
  by_cases hm : m = l
  · subst hm
    rw [lane_setLane_same]
    exact ⟨hl, hc⟩
  · rw [lane_setLane_ne s l m n hm]
    exact ⟨rfl, rfl⟩

@[simp] theorem modLane_sameLogs (s : State) (l : LaneId) (g : Lane → Lane) (hl : (g (s.lane l)).log = (s.lane l).log)
    (hc : (g (s.lane l)).nextCapture = (s.lane l).nextCapture) : SameLogs s (s.modLane l g) :=
  setLane_sameLogs s l _ hl hc

@[simp] theorem modLane_sameCerts (s : State) (l : LaneId) (g : Lane → Lane)
    (hl : (g (s.lane l)).log.map Capture.certified = (s.lane l).log.map Capture.certified)
    (hc : (g (s.lane l)).nextCapture = (s.lane l).nextCapture) : SameCerts s (s.modLane l g) :=
  setLane_sameCerts s l _ hl hc

@[simp] theorem setChan_sameLogs (s : State) (l : LaneId) (c : Chan) (x : Channel) : SameLogs s (s.setChan l c x) :=
  setLane_sameLogs s l _ (Lane.setChan_log _ c x) (Lane.setChan_nextCapture _ c x)

@[simp] theorem setTill_sameLogs (s : State) (l : LaneId) (t : Till) : SameLogs s (s.setTill l t) :=
  modLane_sameLogs s l _ rfl rfl

@[simp] theorem setBag_sameLogs (s : State) (l : LaneId) (x : BagCheck) : SameLogs s (s.setBag l x) :=
  modLane_sameLogs s l _ rfl rfl

@[simp] theorem setPort_sameLogs (s : State) (l : LaneId) (p : Port) : SameLogs s (s.setPort l p) :=
  modLane_sameLogs s l _ rfl rfl

@[simp] theorem setCard_sameLogs (s : State) (l : LaneId) (u : CardUnit) : SameLogs s (s.setCard l u) :=
  modLane_sameLogs s l _ rfl rfl

@[simp] theorem setAttention_sameLogs (s : State) (l : LaneId) (a : Attention) : SameLogs s (s.setAttention l a) :=
  modLane_sameLogs s l _ rfl rfl

/-! ## The upstream queue and the conditions -/

@[simp] theorem enqueue_sameLogs (s : State) (f : Frame) : SameLogs s (s.enqueue f) := fun _ => ⟨rfl, rfl⟩

@[simp] theorem raiseLane_sameLogs (s : State) (l : LaneId) (c : LaneCond) : SameLogs s (s.raiseLane l c) := by
  obtain h | ⟨a, h | ⟨f, -, h⟩⟩ := raiseLane_cases s l c <;> rw [h] <;> simp [SameLogs]

@[simp] theorem raisePart_sameLogs (s : State) (c : PartCond) : SameLogs s (s.raisePart c) := by
  obtain h | ⟨a, h | ⟨f, -, h⟩⟩ := raisePart_cases s c <;> rw [h] <;> exact sameLogs_of_lanes rfl

@[simp] theorem offerLane_sameLogs (s : State) (l : LaneId) (k : Byte) (p : List Byte) :
    SameLogs s (s.offerLane l k p) := by
  unfold State.offerLane
  split <;> simp [SameLogs]

@[simp] theorem offerPart_sameLogs (s : State) (k : Byte) (p : List Byte) : SameLogs s (s.offerPart k p) := by
  unfold State.offerPart
  split <;> simp [SameLogs]

@[simp] theorem offerDisplay_sameLogs (s : State) (l : LaneId) (c : Chan) (d : Display) :
    SameLogs s (s.offerDisplay l c d).2 := by
  obtain ⟨q, h, -⟩ := offerDisplay_cases s l c d
  rw [h]
  exact sameLogs_of_lanes rfl

/-! ## The payment link -/

@[simp] theorem Lane.setSlot_sameLog (n : Lane) (o : Option Slot) : SameLog n (n.setSlot o) := ⟨rfl, rfl⟩

@[simp] theorem transmit_sameLogs (s : State) (f : Frame) : SameLogs s (s.transmit f) :=
  sameLogs_of_lanes rfl

@[simp] theorem grant_sameLogs (s : State) (l : LaneId) (x : Slot) : SameLogs s (s.grant l x) :=
  (sameLogs_of_lanes rfl).trans (modLane_sameLogs _ l _ rfl rfl)

@[simp] theorem tryGrant_sameLogs (s : State) : SameLogs s s.tryGrant := by
  unfold State.tryGrant
  split
  · simp [SameLogs]
  · split
    · simp [SameLogs]
    · split <;> simp [SameLogs]

@[simp] theorem offerResult_sameLogs (s : State) (l : LaneId) (r : CardResult) : SameLogs s (s.offerResult l r) := by
  simp [SameLogs, State.offerResult]

@[simp] theorem handoffEnd_sameLogs (s : State) (f : InFlight) (x : Slot) (o : HandoffOutcome) (rcv : Option Byte)
    (a : Option Approval) : SameLogs s (s.handoffEnd f x o rcv a) := by
  have ended (u : State) (p : PayLink) (r : CardResult) :
      SameLogs u ((State.offerResult { u with pay := p } f.lane r).tryGrant) :=
    have hp : SameLogs u { u with pay := p } := sameLogs_of_lanes rfl
    (hp.trans (offerResult_sameLogs _ f.lane r)).trans (tryGrant_sameLogs _)
  exact (modLane_sameLogs s f.lane (fun n => n.setSlot none) rfl rfl).trans (ended _ _ _)

@[simp] theorem stray_sameLogs (s : State) (r : ResultFrame) : SameLogs s (s.stray r) :=
  ((offerPart_sameLogs s _ _).trans (sameLogs_of_lanes rfl)).trans (raisePart_sameLogs _ _)

@[simp] theorem verdict_sameLogs (s : State) (f : InFlight) (x : Slot) (r : ResultFrame) :
    SameLogs s (s.verdict f x r) := by
  unfold State.verdict
  dsimp only
  split <;> simp [SameLogs]

@[simp] theorem takeResult_sameLogs (s : State) (r : ResultFrame) : SameLogs s (s.takeResult r) := by
  unfold State.takeResult
  split
  · simp [SameLogs]
  · split
    · split <;> simp [SameLogs]
    · simp [SameLogs]

@[simp] theorem paymentArrive_sameLogs (s : State) (f : Frame) : SameLogs s (s.paymentArrive f) := by
  unfold State.paymentArrive
  split
  · exact sameLogs_of_lanes rfl
  · simp [SameLogs]

@[simp] theorem paymentBroken_sameLogs (s : State) (cause : PaymentDiscard) : SameLogs s (s.paymentBroken cause) := by
  have hd : SameLogs s s.paymentDiscarded := sameLogs_of_lanes rfl
  cases cause with
  | gap => exact hd
  | length => exact hd
  | check => exact hd
  | kind f => exact paymentArrive_sameLogs s f
  | payloadLength f => exact paymentArrive_sameLogs s f

@[simp] theorem responseExpires_sameLogs (s : State) : SameLogs s s.responseExpires := by
  unfold State.responseExpires
  split
  · simp [SameLogs]
  · split
    · simp [SameLogs]
    · split
      · simp [SameLogs]
      · dsimp only
        split <;> simp [SameLogs]

@[simp] theorem paymentSent_sameLogs (s : State) : SameLogs s s.paymentSent := by
  unfold State.paymentSent
  split
  · simp [SameLogs]
  · have hq (t : List Frame) : SameLogs s { s with pay := { s.pay with transmit := t } } := sameLogs_of_lanes rfl
    dsimp only
    split
    · exact (hq _).trans (tryGrant_sameLogs _)
    · exact hq _

/-! ## The bag check -/

@[simp] theorem Lane.setEntryBag_sameLog (n : Lane) (pos : Nat) (b : BagState) : SameLog n (n.setEntryBag pos b) :=
  ⟨rfl, rfl⟩

@[simp] theorem Lane.endAwaited_sameLog (n : Lane) : SameLog n n.endAwaited := by
  unfold Lane.endAwaited
  split
  · simp [SameLog]
  · split <;> simp [SameLog]

@[simp] theorem Lane.leaveSelf_sameLog (n : Lane) : SameLog n (Lane.bagModeChange.leaveSelf n) := by
  unfold Lane.bagModeChange.leaveSelf
  dsimp only
  split
  · simp [SameLog]
  · split <;> simp [SameLog]

@[simp] theorem Lane.enterSelf_sameLog (n : Lane) : SameLog n (Lane.bagModeChange.enterSelf n) := by
  unfold Lane.bagModeChange.enterSelf
  split <;> simp [SameLog]

@[simp] theorem Lane.bagModeChange_sameLog (n : Lane) (a b : LaneMode) : SameLog n (n.bagModeChange a b) := by
  unfold Lane.bagModeChange
  split <;> simp [SameLog]

@[simp] theorem Lane.bagReset_sameLog (n : Lane) : SameLog n n.bagReset := by
  unfold Lane.bagReset
  dsimp only
  split
  · split <;> simp [SameLog]
  · simp [SameLog]
  · simp [SameLog]

@[simp] theorem offerBag_sameLogs (s : State) (l : LaneId) (ev : BagEvent) (d : Option Int) (pos : Nat) :
    SameLogs s (s.offerBag l ev d pos) := by
  simp [SameLogs, State.offerBag]

@[simp] theorem expectPlacement_sameLogs (s : State) (l : LaneId) (pos : Nat) (e : Entry) :
    SameLogs s (s.expectPlacement l pos e) := by
  simp [SameLogs, State.expectPlacement]

@[simp] theorem expectRemoval_sameLogs (s : State) (l : LaneId) (pos : Nat) (e : Entry) :
    SameLogs s (s.expectRemoval l pos e) := by
  simp [SameLogs, State.expectRemoval]

@[simp] theorem bagHold_sameLogs (s : State) (l : LaneId) (b d : Option Int) : SameLogs s (s.bagHold l b d) := by
  simp [SameLogs, State.bagHold]

@[simp] theorem bagArmed_sameLogs (s : State) (l : LaneId) (g : Int) : SameLogs s (s.bagArmed l g) := by
  unfold State.bagArmed
  dsimp only
  split <;> simp [SameLogs]

@[simp] theorem bagSettled_sameLogs (s : State) (l : LaneId) (g : Int) : SameLogs s (s.bagSettled l g) := by
  unfold State.bagSettled
  dsimp only
  split
  · simp [SameLogs]
  · split <;> simp [SameLogs]

@[simp] theorem bagUnexpected_sameLogs (s : State) (l : LaneId) (g : Int) : SameLogs s (s.bagUnexpected l g) := by
  unfold State.bagUnexpected
  dsimp only
  split <;> simp [SameLogs]

@[simp] theorem bagExpecting_sameLogs (s : State) (l : LaneId) (g m : Int) (after : BagState) (ev : BagEvent) :
    SameLogs s (s.bagExpecting l g m after ev) := by
  unfold State.bagExpecting
  dsimp only
  split
  · simp [SameLogs]
  · split
    · simp [SameLogs]
    · split <;> simp [SameLogs]

@[simp] theorem bagStable_sameLogs (s : State) (l : LaneId) (g : Int) : SameLogs s (s.bagStable l g) := by
  unfold State.bagStable
  dsimp only
  split <;> simp [SameLogs]

@[simp] theorem bagReading_sameLogs (s : State) (l : LaneId) (g : Int) (stable : Bool) :
    SameLogs s (s.bagReading l g stable) := by
  unfold State.bagReading
  dsimp only
  split <;> simp [SameLogs]

@[simp] theorem placementExpires_sameLogs (s : State) (l : LaneId) : SameLogs s (s.placementExpires l) := by
  unfold State.placementExpires
  split <;> simp [SameLogs]

@[simp] theorem removalExpires_sameLogs (s : State) (l : LaneId) : SameLogs s (s.removalExpires l) := by
  unfold State.removalExpires
  split <;> simp [SameLogs]

@[simp] theorem bagCancel_sameLogs (s : State) (l : LaneId) (pos : Nat) : SameLogs s (s.bagCancel l pos) := by
  unfold State.bagCancel
  dsimp only
  split
  · split <;> simp [SameLogs]
  · simp [SameLogs]

@[simp] theorem bagOverridden_sameLogs (s : State) (l : LaneId) : SameLogs s (s.bagOverridden l) := by
  unfold State.bagOverridden
  dsimp only
  split <;> simp [SameLogs]

@[simp] theorem bagLoss_sameLogs (s : State) (l : LaneId) : SameLogs s (s.bagLoss l) := by
  unfold State.bagLoss
  dsimp only
  split <;> simp [SameLogs]

@[simp] theorem bagRecovery_sameLogs (s : State) (l : LaneId) : SameLogs s (s.bagRecovery l) := by
  unfold State.bagRecovery
  dsimp only
  split <;> simp [SameLogs]

/-! ## Weigh request, basket, captures -/

@[simp] theorem endWeigh_sameLogs (s : State) (l : LaneId) (o : WeighOutcome) : SameLogs s (s.endWeigh l o) := by
  unfold State.endWeigh
  split <;> simp [SameLogs]

@[simp] theorem weighExpires_sameLogs (s : State) (l : LaneId) : SameLogs s (s.weighExpires l) := by
  unfold State.weighExpires
  split
  · simp [SameLogs]
  · split <;> simp [SameLogs]

@[simp] theorem appendEntry_sameLogs (s : State) (l : LaneId) (e : Entry) : SameLogs s (s.appendEntry l e) := by
  unfold State.appendEntry
  dsimp only
  split <;> simp [SameLogs]

/-- A change of the records that spares their certified fields. -/
theorem map_certified (f : Capture → Capture) (h : ∀ c, (f c).certified = c.certified) (log : List Capture) :
    (log.map f).map Capture.certified = log.map Capture.certified := by
  rw [List.map_map]
  exact List.map_congr_left fun c _ => h c

@[simp] theorem Lane.clearBasket_sameCert (n : Lane) : SameCert n n.clearBasket :=
  ⟨map_certified (fun c => { c with basketHeld := false }) (fun _ => rfl) n.log, rfl⟩

@[simp] theorem noteFailure_sameLogs (s : State) (l : LaneId) (w : WeighRequest) (f : FailedTest) :
    SameLogs s (s.noteFailure l w f) := by
  unfold State.noteFailure
  dsimp only
  split <;> simp [SameLogs]

@[simp] theorem reportRunning_sameLogs (s : State) (l : LaneId) (ch : Chan) : SameLogs s (s.reportRunning l ch) := by
  cases ch <;> simp [SameLogs, State.reportRunning]

/-! ## Print jobs and the printer port -/

@[simp] theorem Lane.modHolds_sameCert (n : Lane) (num : Nat) (g : Nat → Nat) : SameCert n (n.modHolds num g) :=
  ⟨map_certified (fun c => if c.number == num then { c with holds := g c.holds } else c) (fun c => by split <;> rfl) n.log,
    rfl⟩

@[simp] theorem Lane.modJob_sameLog (n : Lane) (num : Nat) (g : Job → Job) : SameLog n (n.modJob num g) := ⟨rfl, rfl⟩

@[simp] theorem Lane.dropJob_sameLog (n : Lane) (num : Nat) : SameLog n (n.dropJob num) := ⟨rfl, rfl⟩

@[simp] theorem Lane.resolve_sameCert (n : Lane) (num : Nat) : SameCert n (n.resolve num).1 := by
  unfold Lane.resolve
  split
  · split <;> simp [SameCert]
  · simp [SameCert]

@[simp] theorem scanOctets_sameCert (n : Lane) (x : ScanState) (l : List Byte) : SameCert n (scanOctets n x l).1 := by
  induction l generalizing n x with
  | nil => exact ⟨rfl, rfl⟩
  | cons b l ih =>
    unfold scanOctets
    split
    · exact ih n _
    · obtain ⟨hp, hb⟩ := ih (n.resolve _).1 _
      exact ⟨hp.trans (Lane.resolve_sameCert n _).1, hb.trans (Lane.resolve_sameCert n _).2⟩

@[simp] theorem Lane.releaseHolds_sameCert (n : Lane) (refs : List Reference) : SameCert n (n.releaseHolds refs) := by
  rw [Lane.releaseHolds_eq]
  exact ⟨map_certified (Capture.less _) (fun _ => rfl) n.log, rfl⟩

@[simp] theorem Lane.blockDone_sameCert (n : Lane) (num idx : Nat) : SameCert n (Lane.frameDone.blockDone n num idx) := by
  unfold Lane.frameDone.blockDone
  split
  · simp [SameCert]
  · split <;> simp [SameCert]

@[simp] theorem Lane.frameDone_sameCert (n : Lane) (num : Nat) : SameCert n (n.frameDone num) := by
  unfold Lane.frameDone
  split
  · simp [SameCert]
  · split
    · simp [SameCert]
    · simp [SameCert]
    · dsimp only
      split
      · split <;> simp [SameCert]
      · simp [SameCert]

@[simp] theorem Lane.without_sameCert (n : Lane) (jobs : List Job) : SameCert n (n.without jobs) :=
  ⟨map_certified (Capture.less _) (fun _ => rfl) n.log, rfl⟩

@[simp] theorem offerPrint_sameLogs (s : State) (l : LaneId) (j : Job) (e : PrintEvent) :
    SameLogs s (s.offerPrint l j e) := by
  simp [SameLogs, State.offerPrint]

@[simp] theorem suspend_sameLogs (s : State) (l : LaneId) (j : Job) (why : SuspendReason) :
    SameLogs s (s.suspend l j why) := by
  simp [SameLogs, State.suspend]

@[simp] theorem selectJob_sameLogs (s : State) (l : LaneId) : SameLogs s (s.selectJob l) := by
  unfold State.selectJob
  dsimp only
  split
  · simp [SameLogs]
  · split
    · simp [SameLogs]
    · split <;> simp [SameLogs]

@[simp] theorem sendJobFrame_sameLogs (s : State) (l : LaneId) (j : Job) (f : JobFrame) :
    SameLogs s (s.sendJobFrame l j f) := by
  simp [SameLogs, State.sendJobFrame]

@[simp] theorem completeJob_sameLogs (s : State) (l : LaneId) (j : Job) : SameLogs s (s.completeJob l j) := by
  simp [SameLogs, State.completeJob]

@[simp] theorem pump_sameLogs (l : LaneId) (k : Nat) (s : State) : SameLogs s (State.pump l k s) := by
  induction k generalizing s with
  | zero => exact fun _ => ⟨rfl, rfl⟩
  | succ k ih =>
    unfold State.pump
    dsimp only
    split
    · simp [SameLogs]
    · split
      · simp [SameLogs]
      · split
        · simp [SameLogs]
        · split
          · simp [SameLogs]
          · split
            · split <;> simp [SameLogs]
            · exact ((selectJob_sameLogs s l).trans (completeJob_sameLogs _ l _)).trans (ih _)

@[simp] theorem port_sameLogs (s : State) (l : LaneId) : SameLogs s (s.port l) := pump_sameLogs l _ s

@[simp] theorem exchangeDone_sameCerts (s : State) (l : LaneId) (o : ExchangeOwner) :
    SameCerts s (s.exchangeDone l o) := by
  cases o <;> simp [SameCerts, State.exchangeDone]

@[simp] theorem exchangeFailed_sameLogs (s : State) (l : LaneId) (o : ExchangeOwner) (why : SuspendReason) :
    SameLogs s (s.exchangeFailed l o why) := by
  unfold State.exchangeFailed
  split
  · simp [SameLogs]
  · simp [SameLogs]
  · dsimp only
    split <;> simp [SameLogs]

@[simp] theorem lineDone_sameCerts (s : State) (l : LaneId) (tag : Byte) : SameCerts s (s.lineDone l tag) := by
  unfold State.lineDone
  dsimp only
  split <;> simp [SameCerts]

@[simp] theorem lineFailed_sameLogs (s : State) (l : LaneId) (tag : Byte) : SameLogs s (s.lineFailed l tag) := by
  unfold State.lineFailed
  dsimp only
  split <;> simp [SameLogs]

@[simp] theorem answerExpires_sameLogs (s : State) (l : LaneId) : SameLogs s (s.answerExpires l) := by
  unfold State.answerExpires
  dsimp only
  split
  · simp [SameLogs]
  · split <;> simp [SameLogs]

@[simp] theorem statusStops_sameLogs (s : State) (l : LaneId) (st : PrinterState) (why : SuspendReason) :
    SameLogs s (s.statusStops l st why) := by
  unfold State.statusStops
  dsimp only
  split <;> simp [SameLogs]

@[simp] theorem statusRuns_sameLogs (s : State) (l : LaneId) (st : PrinterState) : SameLogs s (s.statusRuns l st) := by
  unfold State.statusRuns
  dsimp only
  split <;> simp [SameLogs]

@[simp] theorem printerStatus_sameLogs (s : State) (l : LaneId) (r : PrinterReport) :
    SameLogs s (s.printerStatus l r) := by
  cases r <;> simp [SameLogs, State.printerStatus]

@[simp] theorem printerSilent_sameLogs (s : State) (l : LaneId) : SameLogs s (s.printerSilent l) := by
  unfold State.printerSilent
  dsimp only
  split
  · simp [SameLogs]
  · split <;> simp [SameLogs]

@[simp] theorem noteMissing_sameLogs (s : State) (l : LaneId) (refs : List Reference) :
    SameLogs s (s.noteMissing l refs) := by
  unfold State.noteMissing
  split <;> simp [SameLogs]

@[simp] theorem printReset_sameCerts (s : State) (l : LaneId) : SameCerts s (s.printReset l) := by
  obtain ⟨hl, hc⟩ := (s.lane l).without_sameCert (s.lane l).jobs
  rw [printReset_eq]
  exact setLane_sameCerts s l _ hl hc

@[simp] theorem printerDiscarded_sameLogs (s : State) (l : LaneId) : SameLogs s (s.printerDiscarded l) := by
  simp [SameLogs, State.printerDiscarded]

@[simp] theorem printerArrive_sameCerts (s : State) (l : LaneId) (f : Frame) : SameCerts s (s.printerArrive l f) := by
  unfold State.printerArrive
  split <;> simp [SameCerts]

@[simp] theorem printerBroken_sameCerts (s : State) (l : LaneId) (cause : PrinterDiscard) :
    SameCerts s (s.printerBroken l cause) := by
  cases cause <;> simp [SameCerts, State.printerBroken]

/-! ## The drawers -/

@[simp] theorem sensorPin_sameLogs (s : State) (l : LaneId) (high : Bool) : SameLogs s (s.sensorPin l high) := by
  simp [SameLogs, State.sensorPin]

@[simp] theorem debounceUpdate_sameLogs (s : State) (l : LaneId) : SameLogs s (s.debounceUpdate l) := by
  simp [SameLogs, State.debounceUpdate]

@[simp] theorem offerDrawer_sameLogs (s : State) (l : LaneId) (e : DrawerEvent) (attempt : Option Nat) :
    SameLogs s (s.offerDrawer l e attempt) := by
  simp [SameLogs, State.offerDrawer]

@[simp] theorem admitOne_sameLogs (s : State) (l : LaneId) : SameLogs s (s.admitOne l) :=
  (sameLogs_of_lanes rfl).trans (setTill_sameLogs _ l _)

@[simp] theorem admitHeads_sameLogs (n : Nat) (s : State) : SameLogs s (State.admitHeads n s) := by
  induction n generalizing s with
  | zero => exact fun _ => ⟨rfl, rfl⟩
  | succ n ih =>
    unfold State.admitHeads
    split
    · simp [SameLogs]
    · exact (admitOne_sameLogs s _).trans (ih _)

@[simp] theorem admission_sameLogs (s : State) : SameLogs s s.admission := admitHeads_sameLogs 4 s

@[simp] theorem confirmRelease_sameLogs (s : State) (l : LaneId) : SameLogs s (s.confirmRelease l) := by
  simp [SameLogs, State.confirmRelease]

@[simp] theorem toChecking_sameLogs (s : State) (l : LaneId) (cut : Bool) : SameLogs s (s.toChecking l cut) := by
  have hr (q : List LaneId) : SameLogs s { s with releasing := q } := sameLogs_of_lanes rfl
  unfold State.toChecking
  dsimp only
  refine SameLogs.trans ?_ (admission_sameLogs _)
  split
  · exact ((hr _).trans (setTill_sameLogs _ l _)).trans (confirmRelease_sameLogs _ l)
  · exact (hr _).trans (setTill_sameLogs _ l _)

@[simp] theorem pulseExpires_sameLogs (s : State) (l : LaneId) : SameLogs s (s.pulseExpires l) := by
  unfold State.pulseExpires
  split <;> simp [SameLogs]

theorem cutDrawers_sameLogs (ls : List LaneId) (s : State) : SameLogs s (ls.foldl State.cutDrawer s) := by
  induction ls generalizing s with
  | nil => exact fun _ => ⟨rfl, rfl⟩
  | cons l ls ih => exact (toChecking_sameLogs s l true).trans (ih _)

@[simp] theorem cutAll_sameLogs (s : State) : SameLogs s s.cutAll := cutDrawers_sameLogs _ s

@[simp] theorem cutToBudget_sameLogs (s : State) : SameLogs s s.cutToBudget := cutDrawers_sameLogs _ s

@[simp] theorem checkExpires_sameLogs (s : State) (l : LaneId) : SameLogs s (s.checkExpires l) := by
  have hq (q : List LaneId) : SameLogs s { s with powerQueue := q } := sameLogs_of_lanes rfl
  unfold State.checkExpires
  dsimp only
  split
  · simp [SameLogs]
  · split
    · exact ((hq _).trans (setTill_sameLogs _ l _)).trans (admission_sameLogs _)
    · split
      · simp [SameLogs]
      · exact (((hq _).trans (setTill_sameLogs _ l _)).trans (offerDrawer_sameLogs _ l _ _)).trans
          (admission_sameLogs _)

@[simp] theorem forcedOpening_sameLogs (s : State) (l : LaneId) : SameLogs s (s.forcedOpening l) := by
  have hq : SameLogs s { s with powerQueue := s.powerQueue.filter fun k => k != l } := sameLogs_of_lanes rfl
  refine hq.trans ?_
  unfold State.forcedOpening
  dsimp only
  refine ((setTill_sameLogs _ l _).trans (offerDrawer_sameLogs _ l _ _)).trans (raiseLane_sameLogs _ l _)

@[simp] theorem foundOpen_sameLogs (s : State) (l : LaneId) : SameLogs s (s.foundOpen l) := by
  simp [SameLogs, State.foundOpen]

@[simp] theorem drawerCloses_sameLogs (s : State) (l : LaneId) : SameLogs s (s.drawerCloses l) := by
  simp [SameLogs, State.drawerCloses]

@[simp] theorem sensorChange_sameLogs (s : State) (l : LaneId) : SameLogs s (s.sensorChange l) := by
  unfold State.sensorChange
  dsimp only
  split <;> simp [SameLogs]

@[simp] theorem debounceExpires_sameLogs (s : State) (l : LaneId) : SameLogs s (s.debounceExpires l) := by
  unfold State.debounceExpires
  dsimp only
  split <;> simp [SameLogs]

@[simp] theorem leftOpenExpires_sameLogs (s : State) (l : LaneId) : SameLogs s (s.leftOpenExpires l) := by
  unfold State.leftOpenExpires
  dsimp only
  split <;> simp [SameLogs]

@[simp] theorem joinQueue_sameLogs (s : State) (l : LaneId) (token : Bool) : SameLogs s (s.joinQueue l token) := by
  unfold State.joinQueue
  exact ((modLane_sameLogs s l (fun n => { n with
      token := if token then false else n.token
      till := { n.till with state := .waitingPower, retry := false } }) rfl rfl).trans
    (sameLogs_of_lanes rfl)).trans (admission_sameLogs _)

@[simp] theorem drawerReset_sameLogs (s : State) (l : LaneId) : SameLogs s (s.drawerReset l) := by
  unfold State.drawerReset
  dsimp only
  split
  · exact SameLogs.trans (sameLogs_of_lanes rfl) (setTill_sameLogs _ l _)
  · simp [SameLogs]

/-! ## Staff authority, settings, supply -/

@[simp] theorem grantStaff_sameLogs (s : State) (l : LaneId) (src : AuthoritySource) (number : Nat) :
    SameLogs s (s.grantStaff l src number) := by
  simp [SameLogs, State.grantStaff]

@[simp] theorem dropStaff_sameLogs (s : State) (l : LaneId) : SameLogs s (s.dropStaff l) := by
  simp [SameLogs, State.dropStaff]

@[simp] theorem staffExpires_sameLogs (s : State) (l : LaneId) : SameLogs s (s.staffExpires l) := by
  unfold State.staffExpires
  split
  · simp [SameLogs]
  · split <;> simp [SameLogs]

@[simp] theorem polaritySetting_sameLogs (old : Settings) (s : State) (l : LaneId) :
    SameLogs s (State.polaritySetting old s l) := by
  unfold State.polaritySetting
  split <;> simp [SameLogs]

@[simp] theorem budgetSetting_sameLogs (s : State) (old : Settings) : SameLogs s (s.budgetSetting old) := by
  unfold State.budgetSetting
  split
  · simp [SameLogs]
  · split <;> simp [SameLogs]

@[simp] theorem linkSetting_sameLogs (s : State) (old : Settings) : SameLogs s (s.linkSetting old) := by
  unfold State.linkSetting
  split
  · simp [SameLogs]
  · exact sameLogs_of_lanes rfl

@[simp] theorem writeSettings_sameLogs (s : State) (t : Settings) : SameLogs s (s.writeSettings t) := by
  have hs : SameLogs s { s with settings := t } := sameLogs_of_lanes rfl
  refine hs.trans ?_
  unfold State.writeSettings
  simp [SameLogs, allLanes]

@[simp] theorem supplyFalls_sameLogs (s : State) : SameLogs s s.supplyFalls := by
  unfold State.supplyFalls
  dsimp only
  split
  · have hs : SameLogs s { s with supplyBelow := true, supplyLow := true } := sameLogs_of_lanes rfl
    exact (hs.trans (raisePart_sameLogs _ _)).trans (cutAll_sameLogs _)
  · exact sameLogs_of_lanes rfl

@[simp] theorem supplyRises_sameLogs (s : State) : SameLogs s s.supplyRises := by
  unfold State.supplyRises
  dsimp only
  split
  · exact (sameLogs_of_lanes rfl).trans (admission_sameLogs _)
  · exact sameLogs_of_lanes rfl

/-! ## Cards -/

@[simp] theorem reportSwipe_sameLogs (s : State) (l : LaneId) (e : CardEvent) : SameLogs s (s.reportSwipe l e) := by
  simp [SameLogs, State.reportSwipe]

@[simp] theorem paymentSwipe_sameLogs (s : State) (l : LaneId) (w : Swipe) (r : CardRange) :
    SameLogs s (s.paymentSwipe l w r) := by
  unfold State.paymentSwipe
  dsimp only
  split <;> simp [SameLogs]

@[simp] theorem staffSwipe_sameLogs (s : State) (l : LaneId) (w : Swipe) (r : CardRange) :
    SameLogs s (s.staffSwipe l w r) := by
  unfold State.staffSwipe
  dsimp only
  split <;> simp [SameLogs]

@[simp] theorem classRule_sameLogs (s : State) (l : LaneId) (w : Swipe) (r : CardRange) :
    SameLogs s (s.classRule l w r) := by
  unfold State.classRule
  split
  · simp [SameLogs, State.loyaltySwipe]
  · split <;> simp [SameLogs]
  · split <;> simp [SameLogs]
  · simp [SameLogs]
  · simp [SameLogs]

@[simp] theorem checkDigitStep_sameLogs (s : State) (l : LaneId) (w : Swipe) (r : CardRange) :
    SameLogs s (s.checkDigitStep l w r) := by
  unfold State.checkDigitStep
  split <;> simp [SameLogs]

@[simp] theorem classify_sameLogs (s : State) (l : LaneId) (w : Swipe) : SameLogs s (s.classify l w) := by
  unfold State.classify
  split
  · simp [SameLogs]
  · split
    · simp [SameLogs]
    · split <;> simp [SameLogs, State.secondSwipe]

@[simp] theorem judge_sameLogs (s : State) (l : LaneId) (body : List (BitVec 4)) (lrc : BitVec 4) (bad : Bool) :
    SameLogs s (s.judge l body lrc bad) := by
  unfold State.judge
  split
  · simp [SameLogs, State.refuseSwipe]
  · split
    · simp [SameLogs, State.refuseSwipe]
    · split <;> simp [SameLogs, State.refuseSwipe]

@[simp] theorem readerChar_sameLogs (s : State) (l : LaneId) (v : BitVec 4) (p : Bool) :
    SameLogs s (s.readerChar l v p) := by
  unfold State.readerChar
  dsimp only
  split
  · split <;> simp [SameLogs]
  · split
    · simp [SameLogs, State.refuseSwipe]
    · split <;> simp [SameLogs]

@[simp] theorem gapExpires_sameLogs (s : State) (l : LaneId) : SameLogs s (s.gapExpires l) := by
  unfold State.gapExpires
  dsimp only
  split <;> simp [SameLogs, State.refuseSwipe]

/-! ## The trunk link -/

@[simp] theorem discardFrame_sameLogs (s : State) : SameLogs s s.discardFrame :=
  (sameLogs_of_lanes rfl).trans (raisePart_sameLogs _ _)

@[simp] theorem linkExpires_sameLogs (s : State) : SameLogs s s.linkExpires := by
  unfold State.linkExpires
  split
  · simp [SameLogs]
  · exact (sameLogs_of_lanes rfl).trans (raisePart_sameLogs _ _)

end Sys2Proof.Machine
end

