-- ==== Sys2Proof/Proofs/RequestLogs.lean ====
section
/-! SUPPORT. What the requests of the host and the status reads leave of the capture logs. -/

namespace Sys2Proof.Machine

theorem toLane_sameCerts (addr : Byte) (s : State) (g : LaneId → Reply × State)
    (h : ∀ l, SameCerts s (g l).2) : SameCerts s (toLane addr s g).2 := by
  obtain ⟨l, hl⟩ | hl := toLane_cases addr s g <;> rw [hl]
  · exact h l
  · exact fun _ => ⟨rfl, rfl⟩

/-! ## Requests to a lane -/

/-- A test of a request that chooses between two outcomes. -/
theorem sameCerts_ite {s : State} {p : Prop} [Decidable p] {a b : Reply × State} (ha : SameCerts s a.2)
    (hb : SameCerts s b.2) : SameCerts s (if p then a else b).2 := by
  split
  · exact ha
  · exact hb

theorem takeItem_sameCerts (l : LaneId) (code : BitVec 48) (q : Byte) (price : BitVec 32) (skip : Byte) (s : State) :
    SameCerts s (takeItem l code q price skip s).2 := by
  unfold takeItem
  dsimp only
  repeat' apply sameCerts_ite
  all_goals try split
  all_goals simp [SameCerts]

theorem takeVoid_sameCerts (l : LaneId) (p : Byte) (s : State) : SameCerts s (takeVoid l p s).2 := by
  unfold takeVoid
  dsimp only
  repeat' split
  all_goals simp [SameCerts]

theorem takeCancelWeigh_sameCerts (l : LaneId) (s : State) : SameCerts s (takeCancelWeigh l s).2 := by
  unfold takeCancelWeigh
  split <;> simp [SameCerts]

theorem takeTender_sameCerts (l : LaneId) (k : Byte) (m : BitVec 32) (s : State) :
    SameCerts s (takeTender l k m s).2 := by
  unfold takeTender
  dsimp only
  repeat' split
  all_goals simp [SameCerts, Lane.addTender]

theorem takeNewBasket_sameCerts (l : LaneId) (s : State) : SameCerts s (takeNewBasket l s).2 := by
  unfold takeNewBasket
  dsimp only
  repeat' split
  all_goals simp [SameCerts, takeNewBasket.cleared]

theorem takeAbandonBasket_sameCerts (l : LaneId) (s : State) : SameCerts s (takeAbandonBasket l s).2 := by
  unfold takeAbandonBasket
  dsimp only
  repeat' split
  all_goals simp [SameCerts]

theorem takeBasketRead_sameCerts (l : LaneId) (p : Byte) (s : State) : SameCerts s (takeBasketRead l p s).2 := by
  unfold takeBasketRead
  split <;> simp [SameCerts]

theorem takeLaneMode_sameCerts (l : LaneId) (m : Byte) (s : State) : SameCerts s (takeLaneMode l m s).2 := by
  unfold takeLaneMode
  dsimp only
  repeat' split
  all_goals simp [SameCerts, modeAnswer]

theorem takeBagOverride_sameCerts (l : LaneId) (s : State) : SameCerts s (takeBagOverride l s).2 := by
  unfold takeBagOverride
  dsimp only
  repeat' split
  all_goals simp [SameCerts]

theorem takeCancelCard_sameCerts (l : LaneId) (s : State) : SameCerts s (takeCancelCard l s).2 := by
  unfold takeCancelCard
  dsimp only
  repeat' split
  all_goals simp [SameCerts, slotAnswer]

theorem takeDrawerOpen_sameCerts (l : LaneId) (s : State) : SameCerts s (takeDrawerOpen l s).2 := by
  unfold takeDrawerOpen
  dsimp only
  repeat' split
  all_goals simp [SameCerts, drawerOpened]

theorem takeDrawerClear_sameCerts (l : LaneId) (s : State) : SameCerts s (takeDrawerClear l s).2 := by
  unfold takeDrawerClear
  split <;> simp [SameCerts]

theorem takePrintBegin_sameCerts (l : LaneId) (s : State) : SameCerts s (takePrintBegin l s).2 := by
  unfold takePrintBegin
  dsimp only
  repeat' split
  all_goals simp [SameCerts]

theorem takePrintData_sameCerts (l : LaneId) (j : Byte) (o : List Byte) (s : State) :
    SameCerts s (takePrintData l j o s).2 := by
  unfold takePrintData
  dsimp only
  repeat' split
  all_goals simp [SameCerts]

theorem takePrintEnd_sameCerts (l : LaneId) (j : Byte) (s : State) : SameCerts s (takePrintEnd l j s).2 := by
  unfold takePrintEnd
  dsimp only
  split <;> simp [SameCerts]

theorem takePrintCancel_sameCerts (l : LaneId) (j : Byte) (s : State) : SameCerts s (takePrintCancel l j s).2 := by
  unfold takePrintCancel
  dsimp only
  split <;> simp [SameCerts, Lane.cancelJob_eq]

@[simp] theorem counted_sameCerts (s : State) : SameCerts s s.counted := sameCerts_of_lanes rfl

theorem takeLaneStatus_sameCerts (l : LaneId) (n : Byte) (s : State) : SameCerts s (takeLaneStatus l n s).2 := by
  unfold takeLaneStatus
  split <;> simp [SameCerts]

theorem takeStaffGrant_sameCerts (l : LaneId) (n : BitVec 32) (s : State) : SameCerts s (takeStaffGrant l n s).2 := by
  unfold takeStaffGrant
  split <;> simp [SameCerts]

theorem toRecord_sameCerts (addr : Byte) (set : BitVec 16) (g : Attention → BitVec 16 → Attention) (s : State) :
    SameCerts s (toRecord addr set g s).2 := by
  unfold toRecord
  split
  · unfold partAttention
    split
    · exact sameCerts_of_lanes rfl
    · simp [SameCerts]
  · refine toLane_sameCerts addr s _ fun l => ?_
    unfold laneAttention
    split <;> simp [SameCerts]

/-! ## Requests to the part -/

theorem takeSettingsWrite_sameCerts (r : RawSettings) (s : State) : SameCerts s (takeSettingsWrite r s).2 := by
  unfold takeSettingsWrite
  split <;> simp [SameCerts]

theorem takeSetDate_sameCerts (y m d : Byte) (s : State) : SameCerts s (takeSetDate y m d s).2 := by
  unfold takeSetDate
  dsimp only
  split <;> exact sameCerts_of_lanes rfl

theorem takeRestart_sameCerts (s : State) : SameCerts s (takeRestart s).2 := by
  unfold takeRestart
  split <;> exact sameCerts_of_lanes rfl

theorem loadAnswer_sameCerts {α : Type} (x : Load α) (w : Nat) (s : State) : SameCerts s (loadAnswer x w s).2 := by
  unfold loadAnswer
  dsimp only
  split <;> exact fun _ => ⟨rfl, rfl⟩

theorem takeItemPut_sameCerts (r : List RawItem) (s : State) : SameCerts s (takeItemPut r s).2 :=
  have hs (t : List ItemRecord) : SameCerts s { s with items := t } := sameCerts_of_lanes rfl
  (hs _).trans (loadAnswer_sameCerts _ 2 _)

theorem takeItemRemove_sameCerts (c : BitVec 48) (s : State) : SameCerts s (takeItemRemove c s).2 := by
  unfold takeItemRemove
  dsimp only
  repeat' split
  all_goals exact sameCerts_of_lanes rfl

theorem takeItemGet_sameCerts (c : BitVec 48) (s : State) : SameCerts s (takeItemGet c s).2 := by
  unfold takeItemGet
  repeat' split
  all_goals exact sameCerts_of_lanes rfl

theorem takeBinPut_sameCerts (r : List RawRange) (s : State) : SameCerts s (takeBinPut r s).2 :=
  have hs (t : List CardRange) : SameCerts s { s with ranges := t } := sameCerts_of_lanes rfl
  (hs _).trans (loadAnswer_sameCerts _ 1 _)

theorem takeBinRemove_sameCerts (n : BitVec 32) (s : State) : SameCerts s (takeBinRemove n s).2 := by
  unfold takeBinRemove
  dsimp only
  repeat' split
  all_goals exact sameCerts_of_lanes rfl

theorem takeBinRead_sameCerts (n : BitVec 32) (s : State) : SameCerts s (takeBinRead n s).2 := by
  unfold takeBinRead
  dsimp only
  split <;> exact sameCerts_of_lanes rfl

theorem takeGlyphPut_sameCerts (c : Byte) (p : List Byte) (s : State) : SameCerts s (takeGlyphPut c p s).2 := by
  unfold takeGlyphPut
  split <;> exact sameCerts_of_lanes rfl

theorem takeGlyphClear_sameCerts (c : Byte) (s : State) : SameCerts s (takeGlyphClear c s).2 := by
  unfold takeGlyphClear
  split <;> exact sameCerts_of_lanes rfl

theorem takeCalRead_sameCerts (a c : Byte) (s : State) : SameCerts s (takeCalRead a c s).2 := by
  unfold takeCalRead
  split <;> exact sameCerts_of_lanes rfl

end Sys2Proof.Machine
end

