-- ==== Sys2Proof/Proofs/CaptureNumbers.lean ====
section
/-! SUPPORT. Numbers in circular order (R36, R136), and the place of a capture in its log (R37, R38). -/

namespace Sys2Proof.Machine

/-! ## Numbers in circular order (R36, R136) -/

/-- The number after `n`, from 1 to `m` in circular order. -/
def circularNext (m n : Nat) : Nat := if m ≤ n then 1 else n + 1

theorem nextNumber_eq : nextNumber = circularNext 65535 := rfl

theorem nextJobNumber_eq : nextJobNumber = circularNext 255 := rfl

theorem repeat_apply {α : Type} (f : α → α) (i : Nat) (a : α) : Nat.repeat f i (f a) = Nat.repeat f (i + 1) a := by
  induction i with
  | zero => rfl
  | succ i ih => exact congrArg f ih

/-- The number `i` places after `n`. -/
theorem repeat_circularNext {m n : Nat} (hn : 1 ≤ n ∧ n ≤ m) (i : Nat) :
    Nat.repeat (circularNext m) i n = (n - 1 + i) % m + 1 := by
  induction i with
  | zero =>
    rw [Nat.repeat, Nat.add_zero, Nat.mod_eq_of_lt (by omega)]
    omega
  | succ i ih =>
    have hlt := Nat.mod_lt (n - 1 + i) (show 0 < m by omega)
    rw [Nat.repeat, ih, circularNext, ← Nat.add_assoc, ← Nat.mod_add_mod (n - 1 + i) m 1]
    split
    · rw [show (n - 1 + i) % m + 1 = m by omega, Nat.mod_self]
    · rw [Nat.mod_eq_of_lt (show (n - 1 + i) % m + 1 < m by omega)]

/-- No two of the first `m` numbers from `n` are the same. -/
theorem repeat_circularNext_inj {m n i j : Nat} (hn : 1 ≤ n ∧ n ≤ m) (hi : i < m) (hj : j < m)
    (h : Nat.repeat (circularNext m) i n = Nat.repeat (circularNext m) j n) : i = j := by
  rw [repeat_circularNext hn, repeat_circularNext hn, Nat.add_right_cancel_iff] at h
  have hmod : i ≡ j [MOD m] := Nat.ModEq.add_left_cancel' (n - 1) h
  exact hmod.eq_of_lt_of_lt hi hj

/-- The first number from `n` on that is not used, looked for in `k` places. -/
def firstUnused (m : Nat) (used : List Nat) : Nat → Nat → Nat
  | 0, n => n
  | k + 1, n => if n ∈ used then firstUnused m used k (circularNext m n) else n

/-- What a search finds: the first unused number, or the one after all the places looked at. -/
theorem firstUnused_cases (m : Nat) (used : List Nat) (k n : Nat) :
    ∃ p ≤ k, firstUnused m used k n = Nat.repeat (circularNext m) p n ∧
      (∀ i < p, Nat.repeat (circularNext m) i n ∈ used) ∧ (p < k → firstUnused m used k n ∉ used) := by
  induction k generalizing n with
  | zero => exact ⟨0, Nat.le_refl _, rfl, fun i hi => absurd hi (Nat.not_lt_zero i), fun h => absurd h (Nat.lt_irrefl 0)⟩
  | succ k ih =>
    by_cases hn : n ∈ used
    · obtain ⟨p, hp, heq, hused, hfree⟩ := ih (circularNext m n)
      simp only [repeat_apply] at heq hused
      refine ⟨p + 1, Nat.succ_le_succ hp, ?_, fun i hi => ?_, fun h => ?_⟩
      · rw [firstUnused, if_pos hn, heq]
      · cases i with
        | zero => exact hn
        | succ i => exact hused i (Nat.lt_of_succ_lt_succ hi)
      · rw [firstUnused, if_pos hn]
        exact hfree (Nat.lt_of_succ_lt_succ h)
    · refine ⟨0, Nat.zero_le _, ?_, fun i hi => absurd hi (Nat.not_lt_zero i), fun _ => ?_⟩
      · rw [firstUnused, if_neg hn]
        rfl
      · rwa [firstUnused, if_neg hn]

/-- A search of more places than there are used numbers finds the first unused one, by counting. -/
theorem firstUnused_spec {m n k : Nat} {used : List Nat} (hn : 1 ≤ n ∧ n ≤ m) (hk : used.length < k) (hm : k ≤ m) :
    ∃ p, firstUnused m used k n = Nat.repeat (circularNext m) p n ∧
      (∀ i < p, Nat.repeat (circularNext m) i n ∈ used) ∧ firstUnused m used k n ∉ used ∧
      1 ≤ firstUnused m used k n ∧ firstUnused m used k n ≤ m := by
  obtain ⟨p, hp, heq, hused, hfree⟩ := firstUnused_cases m used k n
  have hsome : p < k := by
    by_contra hall
    obtain rfl : p = k := by omega
    have hnodup : ((List.range p).map fun i => Nat.repeat (circularNext m) i n).Nodup := by
      refine List.Nodup.map_on (fun i hi j hj h => ?_) List.nodup_range
      rw [List.mem_range] at hi hj
      exact repeat_circularNext_inj hn (by omega) (by omega) h
    have hsub : ((List.range p).map fun i => Nat.repeat (circularNext m) i n) ⊆ used := by
      intro x hx
      obtain ⟨i, hi, rfl⟩ := List.mem_map.mp hx
      exact hused i (List.mem_range.mp hi)
    have hlen := (List.subperm_of_subset hnodup hsub).length_le
    rw [List.length_map, List.length_range] at hlen
    omega
  have hrange := repeat_circularNext hn p
  have hlt := Nat.mod_lt (n - 1 + p) (show 0 < m by omega)
  exact ⟨p, heq, hused, hfree hsome, by omega, by omega⟩

/-- The search of R36 in these terms. -/
theorem findNumber_eq (log : List Capture) (k n : Nat) :
    findNumber log k n = firstUnused 65535 (log.map (·.number)) k n := by
  induction k generalizing n with
  | zero => rfl
  | succ k ih => simp [findNumber, firstUnused, ih, nextNumber_eq]

/-- The search of R136 in these terms. -/
theorem findJobNumber_eq (jobs : List Job) (k n : Nat) :
    findJobNumber jobs k n = firstUnused 255 (jobs.map (·.number)) k n := by
  induction k generalizing n with
  | zero => rfl
  | succ k ih => simp [findJobNumber, firstUnused, ih, nextJobNumber_eq]

/-! ## The place of a capture (R37, R38) -/

/-- The log with a capture in its place: the first record that is not held, else the end. -/
def placed (c : Capture) (log : List Capture) : List Capture :=
  match log.findIdx? fun x => !x.held with
  | some i => log.set i c
  | none => log ++ [c]

theorem placed_cons (c x : Capture) (log : List Capture) :
    placed c (x :: log) = if x.held then x :: placed c log else c :: log := by
  unfold placed
  rw [List.findIdx?_cons]
  cases x.held with
  | false => rfl
  | true => cases (log.findIdx? fun x => !x.held) <;> rfl

/-- A log with room takes the capture in its place. -/
theorem fillFree_eq (c : Capture) (k : Nat) (log : List Capture)
    (h : log.length < k ∨ (log.length ≤ k ∧ ∃ x ∈ log, x.held = false)) :
    fillFree c k log = some (placed c log) := by
  induction k generalizing log with
  | zero =>
    obtain h | ⟨h, x, hx, -⟩ := h
    · exact absurd h (Nat.not_lt_zero _)
    · rw [List.length_eq_zero_iff.mp (Nat.le_zero.mp h)] at hx
      exact absurd hx List.not_mem_nil
  | succ k ih =>
    cases log with
    | nil => rfl
    | cons y log =>
      rw [placed_cons, fillFree]
      cases hy : y.held with
      | false => rfl
      | true =>
        have hlog : log.length < k ∨ (log.length ≤ k ∧ ∃ x ∈ log, x.held = false) := by
          simpa [hy] using h
        simp [ih log hlog]

/-- A log that is full of held records takes no capture. -/
theorem fillFree_full (c : Capture) (k : Nat) (log : List Capture) (hk : k ≤ log.length) (h : ∀ x ∈ log, x.held = true) :
    fillFree c k log = none := by
  induction k generalizing log with
  | zero => rfl
  | succ k ih =>
    cases log with
    | nil => exact absurd hk (Nat.not_succ_le_zero k)
    | cons y log =>
      obtain ⟨hy, h⟩ := List.forall_mem_cons.mp h
      simp [fillFree, hy, ih log (Nat.le_of_succ_le_succ hk) h]

/-- Every record of the log after a capture is the capture or was there. -/
theorem mem_placed {c x : Capture} {log : List Capture} (h : x ∈ placed c log) : x = c ∨ x ∈ log := by
  unfold placed at h
  split at h
  · exact (List.mem_or_eq_of_mem_set h).symm
  · simpa [or_comm] using h

theorem placed_nodup {c : Capture} {log : List Capture} (hd : (log.map (·.number)).Nodup)
    (hc : c.number ∉ log.map (·.number)) : ((placed c log).map (·.number)).Nodup := by
  unfold placed
  split
  · rw [List.map_set]
    exact hd.set hc
  · rw [List.map_append]
    exact List.nodup_append.mpr ⟨hd, List.nodup_singleton _, fun a ha b hb => by
      rw [List.map_singleton, List.mem_singleton] at hb
      rintro rfl
      exact hc (hb ▸ ha)⟩

theorem placed_length_le {c : Capture} {log : List Capture} {k : Nat}
    (h : log.length < k ∨ (log.length ≤ k ∧ ∃ x ∈ log, x.held = false)) : (placed c log).length ≤ k := by
  unfold placed
  split
  · rw [List.length_set]
    omega
  · rename_i hnone
    rw [List.findIdx?_eq_none_iff] at hnone
    obtain h | ⟨-, x, hx, hf⟩ := h
    · rw [List.length_append]
      exact h
    · simpa [hf] using hnone x hx

/-- A held record stays at its index (R38). -/
theorem placed_held {c r : Capture} {log : List Capture} {i : Nat} (hi : log[i]? = some r) (hr : r.held = true) :
    (placed c log)[i]? = some r := by
  unfold placed
  split
  · rename_i j hj
    obtain ⟨hlt, hfree, -⟩ := List.findIdx?_eq_some_iff_getElem.mp hj
    have hne : j ≠ i := by
      rintro rfl
      obtain ⟨_, rfl⟩ := List.getElem?_eq_some_iff.mp hi
      simp [hr] at hfree
    rw [List.getElem?_set_ne hne, hi]
  · obtain ⟨hlt, -⟩ := List.getElem?_eq_some_iff.mp hi
    rw [List.getElem?_append_left hlt, hi]

end Sys2Proof.Machine
end

