-- ==== Sys2Proof/Proofs/LogLaw.lean ====
section
/-! The law of the capture log (R36 to R41): platter readings, every command, start-ups, and the obligation. -/

namespace Sys2Proof.Machine

/-! ## A platter reading (R30 to R37) -/

/-- A step that leaves the capture logs, or takes one capture on one lane: its record has the number found from the counter
and is put in its place, and the counter passes on (R36, R37). -/
def Logs (s t : State) : Prop :=
  SameLogs s t ∨ ∃ l c, c.number = findNumber (s.lane l).log (logSize + 1) (s.lane l).nextCapture ∧
    (t.lane l).log = (fillFree c logSize (s.lane l).log).getD (s.lane l).log ∧
    (t.lane l).nextCapture = nextNumber c.number ∧
    ∀ m, m ≠ l → SameLog (s.lane m) (t.lane m)

theorem SameLogs.then_logs {s t u : State} (h : SameLogs s t) (k : Logs t u) : Logs s u := by
  obtain k | ⟨l, c, hnum, hlog, hnext, hother⟩ := k
  · exact .inl (h.trans k)
  · obtain ⟨hl, hc⟩ := h l
    rw [hl] at hnum hlog
    rw [hc] at hnum
    exact .inr ⟨l, c, hnum, hlog, hnext, fun m hm => ⟨(hother m hm).1.trans (h m).1, (hother m hm).2.trans (h m).2⟩⟩

theorem Logs.then_same {s t u : State} (h : Logs s t) (k : SameLogs t u) : Logs s u := by
  obtain h | ⟨l, c, hnum, hlog, hnext, hother⟩ := h
  · exact .inl (h.trans k)
  · exact .inr ⟨l, c, hnum, (k l).1.trans hlog, (k l).2.trans hnext,
      fun m hm => ⟨(k m).1.trans (hother m hm).1, (k m).2.trans (hother m hm).2⟩⟩

theorem takeCapture_logs (s : State) (l : LaneId) (w : WeighRequest) (t : CaptureTare) (price : Nat) :
    Logs s (s.takeCapture l w t price) := by
  refine .inr ⟨l, ⟨findNumber (s.lane l).log (logSize + 1) (s.lane l).nextCapture, t.net, t.d, t.tare, t.kind, w.price,
    price,
    true, 0⟩, rfl, ?_, ?_, fun m hm => ?_⟩
  · simp [State.takeCapture]
  · simp [State.takeCapture]
  · rw [takeCapture_othersSame s l w t price m hm]
    exact ⟨rfl, rfl⟩

theorem platterReading_logs (s : State) (l : LaneId) (c : Calib) (r : Reading) (g : Int) :
    Logs s (s.platterReading l c r g) := by
  have armed : SameLogs s (if g ≤ ((5 * c.d1 : Nat) : Int) then s.modLane l fun n => { n with armed := true } else s) := by
    split <;> simp [SameLogs]
  unfold State.platterReading
  dsimp only
  split
  · exact .inl armed
  · split
    · exact .inl (armed.trans (noteFailure_sameLogs _ l _ _))
    · exact .inl (armed.trans (endWeigh_sameLogs _ l _))
    · exact armed.then_logs (takeCapture_logs _ l _ _ _)

theorem handReading_logs (s : State) (l : LaneId) (ch : Chan) (c : Calib) (r : Reading) (g : Int) :
    Logs s (s.handReading l ch c r g) := by
  cases ch
  · exact platterReading_logs s l c r g
  · exact .inl (bagReading_sameLogs s l g _)

/-! ## Channels (R2, R7 to R10, R16) -/

@[simp] theorem displayCheck_sameLogs (s : State) (l : LaneId) (c : Chan) : SameLogs s (s.displayCheck l c) := by
  unfold State.displayCheck
  dsimp only
  split <;> simp [SameLogs, State.modChan]

@[simp] theorem enterFault_sameLogs (s : State) (l : LaneId) (c : Chan) (cause : FaultCause) (ret : Option ReturnState) :
    SameLogs s (s.enterFault l c cause ret) := by
  unfold State.enterFault
  dsimp only
  split <;> simp [SameLogs, State.modChan]

theorem finishEvaluation_logs (s : State) (l : LaneId) (ch : Chan) (c : Calib) (raw : Nat) (w : Int) (stable : Bool) :
    Logs s (s.finishEvaluation l ch c raw w stable) :=
  (setChan_sameLogs s l ch _).then_logs (handReading_logs _ l ch c _ _)

theorem evaluate_logs (s : State) (l : LaneId) (ch : Chan) (raw : Nat) : Logs s (s.evaluate l ch raw) := by
  have set (x : Channel) : SameLogs s (s.setChan l ch x) := setChan_sameLogs s l ch x
  have finish {u : State} (h : SameLogs s u) (c : Calib) (w : Int) (stable : Bool) :
      Logs s ((u.finishEvaluation l ch c raw w stable).displayCheck l ch) :=
    (h.then_logs (finishEvaluation_logs u l ch c raw w stable)).then_same (displayCheck_sameLogs _ l ch)
  unfold State.evaluate
  dsimp only
  split
  · exact .inl (set _)
  · split
    · split
      · exact finish ((set _).trans (reportRunning_sameLogs _ l ch)) _ _ _
      · exact .inl (set _)
    · exact finish (set _) _ _ _
    · exact .inl (set _)
    · exact .inl (set _)

theorem sensorReturn_logs (s : State) (l : LaneId) (ch : Chan) (raw : Nat) : Logs s (s.sensorReturn l ch raw) := by
  have set (x : Channel) : SameLogs s (s.setChan l ch x) := setChan_sameLogs s l ch x
  have evaluated {u : State} (h : SameLogs s u) : Logs s ((u.evaluate l ch raw).displayCheck l ch) :=
    (h.then_logs (evaluate_logs u l ch raw)).then_same (displayCheck_sameLogs _ l ch)
  unfold State.sensorReturn
  dsimp only
  split
  · exact .inl (set _)
  · exact evaluated (set _)
  · refine evaluated ?_
    split
    · exact (set _).trans (bagRecovery_sameLogs _ l)
    · exact set _

/-- A sample arrival leaves the logs or takes one capture (R2, R37). -/
theorem sample_logs (s : State) (l : LaneId) (ch : Chan) (raw : Nat) : Logs s (s.sample l ch raw) := by
  have idle : Logs s (s.setChan l ch ((s.chan l ch).filterIn raw)) := .inl (setChan_sameLogs s l ch _)
  unfold State.sample
  dsimp only
  split
  · exact evaluate_logs s l ch raw
  · exact evaluate_logs s l ch raw
  · exact idle
  · split
    · exact sensorReturn_logs s l ch raw
    · exact idle

theorem silenceExpires_sameLogs (s : State) (l : LaneId) (ch : Chan) : SameLogs s (s.silenceExpires l ch) := by
  unfold State.silenceExpires
  dsimp only
  repeat' split
  all_goals simp [SameLogs]

theorem initialZeroExpires_sameLogs (s : State) (l : LaneId) (ch : Chan) : SameLogs s (s.initialZeroExpires l ch) := by
  unfold State.initialZeroExpires
  dsimp only
  split <;> simp [SameLogs]

theorem displayExpires_sameLogs (s : State) (l : LaneId) (ch : Chan) : SameLogs s (s.displayExpires l ch) := by
  unfold State.displayExpires
  split <;> simp [SameLogs, State.modChan]

/-! ## Requests to a channel -/

theorem withChannel_sameCerts {channel : Byte} {s : State} {g : Chan → Reply × State} (h : ∀ c, SameCerts s (g c).2) :
    SameCerts s (withChannel channel s g).2 := by
  unfold withChannel
  split
  · exact fun _ => ⟨rfl, rfl⟩
  · exact h _

theorem takeChannelStart_sameCerts (l : LaneId) (channel : Byte) (s : State) :
    SameCerts s (takeChannelStart l channel s).2 := by
  refine withChannel_sameCerts fun c => ?_
  dsimp only
  repeat' split
  all_goals simp [SameCerts, takeChannelStart.started, State.modChan]

theorem takeChannelStop_sameCerts (l : LaneId) (channel : Byte) (s : State) :
    SameCerts s (takeChannelStop l channel s).2 := by
  refine withChannel_sameCerts fun c => ?_
  dsimp only
  repeat' split
  all_goals simp [SameCerts, State.modChan]

theorem takeChannelSetup_sameCerts (l : LaneId) (channel f m : Byte) (s : State) :
    SameCerts s (takeChannelSetup l channel f m s).2 := by
  refine withChannel_sameCerts fun c => ?_
  dsimp only
  split <;> simp [SameCerts]

theorem takeZeroRequest_sameCerts (l : LaneId) (channel : Byte) (s : State) :
    SameCerts s (takeZeroRequest l channel s).2 := by
  refine withChannel_sameCerts fun c => ?_
  dsimp only
  repeat' split
  all_goals simp [SameCerts]

theorem takeTareWeighed_sameCerts (l : LaneId) (channel : Byte) (s : State) :
    SameCerts s (takeTareWeighed l channel s).2 := by
  refine withChannel_sameCerts fun c => ?_
  dsimp only
  repeat' split
  all_goals simp [SameCerts, tareTaken, State.modChan]

theorem takeTarePreset_sameCerts (l : LaneId) (channel form : Byte) (v : BitVec 32) (s : State) :
    SameCerts s (takeTarePreset l channel form v s).2 := by
  refine withChannel_sameCerts fun c => ?_
  dsimp only
  repeat' split
  all_goals simp [SameCerts, tareTaken, State.modChan]

theorem takeClearTare_sameCerts (l : LaneId) (channel : Byte) (s : State) :
    SameCerts s (takeClearTare l channel s).2 := by
  refine withChannel_sameCerts fun c => ?_
  split <;> simp [SameCerts, State.modChan]

theorem takeLaneReset_sameCerts (l : LaneId) (s : State) : SameCerts s (takeLaneReset l s).2 := by
  rw [takeLaneReset_eq]
  dsimp only
  split
  · exact fun _ => ⟨rfl, rfl⟩
  · have hlog : (s.lane l).resetAll.log.map Capture.certified = (s.lane l).log.map Capture.certified :=
      (map_certified (Capture.less _) (fun _ => rfl) _).trans
        (map_certified (fun c => { c with basketHeld := false }) (fun _ => rfl) _)
    exact (setLane_sameCerts s l (s.lane l).resetAll hlog rfl).trans (sameCerts_of_lanes rfl)

theorem takeCalWrite_sameCerts (lane channel : Byte) (r : RawCal) (tag : Byte) (s : State) :
    SameCerts s (takeCalWrite lane channel r tag s).2 := by
  unfold takeCalWrite
  dsimp only
  repeat' split
  all_goals exact sameCerts_of_lanes rfl

theorem calWriteCompletes_sameLogs (s : State) : SameLogs s s.calWriteCompletes := by
  unfold State.calWriteCompletes
  split
  · simp [SameLogs]
  · rename_i w _
    have copied (u : State) : SameLogs u (u.takeCopy w.lane w.channel w.record) := by
      unfold State.takeCopy
      dsimp only
      split <;> simp [SameLogs]
    exact SameLogs.trans (sameLogs_of_lanes rfl) (copied _)

/-! ## The trunk link (R169, R170) -/

/-- Every request of the host leaves the certified fields of every record, and the counters. -/
theorem take_sameCerts (i : Instr) (s : State) : SameCerts s (take i s).2 := by
  have lane (addr : Byte) {g : LaneId → Reply × State} (hg : ∀ l, SameCerts s (g l).2) : SameCerts s (toLane addr s g).2 :=
    toLane_sameCerts addr s g hg
  cases i with
  | item a _ c q p k => exact lane a fun l => takeItem_sameCerts l c q p k s
  | void a _ p => exact lane a fun l => takeVoid_sameCerts l p s
  | cancelWeigh a _ => exact lane a fun l => takeCancelWeigh_sameCerts l s
  | tender a _ k m => exact lane a fun l => takeTender_sameCerts l k m s
  | newBasket a _ => exact lane a fun l => takeNewBasket_sameCerts l s
  | abandonBasket a _ => exact lane a fun l => takeAbandonBasket_sameCerts l s
  | basketRead a _ p => exact lane a fun l => takeBasketRead_sameCerts l p s
  | laneMode a _ m => exact lane a fun l => takeLaneMode_sameCerts l m s
  | channelStart a _ c => exact lane a fun l => takeChannelStart_sameCerts l c s
  | channelStop a _ c => exact lane a fun l => takeChannelStop_sameCerts l c s
  | channelSetup a _ c f m => exact lane a fun l => takeChannelSetup_sameCerts l c f m s
  | zero a _ c => exact lane a fun l => takeZeroRequest_sameCerts l c s
  | tareWeighed a _ c _ => exact lane a fun l => takeTareWeighed_sameCerts l c s
  | tarePreset a _ c f v => exact lane a fun l => takeTarePreset_sameCerts l c f v s
  | clearTare a _ c => exact lane a fun l => takeClearTare_sameCerts l c s
  | bagOverride a _ => exact lane a fun l => takeBagOverride_sameCerts l s
  | cancelCard a _ => exact lane a fun l => takeCancelCard_sameCerts l s
  | drawerOpen a _ => exact lane a fun l => takeDrawerOpen_sameCerts l s
  | drawerClear a _ => exact lane a fun l => takeDrawerClear_sameCerts l s
  | printBegin a _ => exact lane a fun l => takePrintBegin_sameCerts l s
  | printData a _ j o => exact lane a fun l => takePrintData_sameCerts l j o s
  | printEnd a _ j => exact lane a fun l => takePrintEnd_sameCerts l j s
  | printCancel a _ j => exact lane a fun l => takePrintCancel_sameCerts l j s
  | laneStatus a _ n => exact lane a fun l => takeLaneStatus_sameCerts l n s
  | laneReset a _ => exact lane a fun l => takeLaneReset_sameCerts l s
  | staffGrant a _ n => exact lane a fun l => takeStaffGrant_sameCerts l n s
  | staffWithdraw a _ => exact lane a fun l => (dropStaff_sameLogs s l).certs
  | clearAttention a _ c => exact toRecord_sameCerts a c Attention.clearing s
  | attentionMask a _ c => exact toRecord_sameCerts a c Attention.masking s
  | partStatus _ => exact counted_sameCerts s
  | settingsWrite _ r => exact takeSettingsWrite_sameCerts r s
  | setDate _ y m d => exact takeSetDate_sameCerts y m d s
  | restart _ => exact takeRestart_sameCerts s
  | itemPut _ r => exact takeItemPut_sameCerts r s
  | itemRemove _ c => exact takeItemRemove_sameCerts c s
  | itemGet _ c => exact takeItemGet_sameCerts c s
  | binPut _ r => exact takeBinPut_sameCerts r s
  | binRemove _ n => exact takeBinRemove_sameCerts n s
  | binRead _ n => exact takeBinRead_sameCerts n s
  | glyphPut _ c p => exact takeGlyphPut_sameCerts c p s
  | glyphClear _ c => exact takeGlyphClear_sameCerts c s
  | calWrite t a c r _ => exact takeCalWrite_sameCerts a c r t s
  | calRead _ a c => exact takeCalRead_sameCerts a c s
  | _ => exact fun _ => ⟨rfl, rfl⟩

theorem dispatch_sameCerts (s : State) (f : Frame) : SameCerts s (s.dispatch f) := by
  have hreserve : SameCerts s s.reserve := sameCerts_of_lanes rfl
  have hreply : SameCerts s (s.reserve.replyTo f).2 := by
    unfold State.replyTo
    split
    · exact hreserve
    · exact hreserve.trans (take_sameCerts _ _)
  unfold State.dispatch settle
  split
  · exact hreply.trans (sameCerts_of_lanes rfl)
  · exact hreply

theorem drain_sameCerts (n : Nat) (s : State) : SameCerts s (State.drain n s) := by
  induction n generalizing s with
  | zero => exact fun _ => ⟨rfl, rfl⟩
  | succ n ih =>
    unfold State.drain
    split
    · exact fun _ => ⟨rfl, rfl⟩
    · rename_i f rest _
      split
      · exact fun _ => ⟨rfl, rfl⟩
      · have hbuffer : SameCerts s (s.setBuffer rest) := sameCerts_of_lanes rfl
        exact (hbuffer.trans (dispatch_sameCerts _ f)).trans (ih _)

theorem arrive_sameCerts (s : State) (f : Frame) : SameCerts s (s.arrive f) := by
  have heard : SameCerts s s.heardHost := sameCerts_of_lanes rfl
  unfold State.arrive
  dsimp only
  split
  · exact (discardFrame_sameLogs s).certs
  · split
    · exact heard.trans (raisePart_sameLogs _ _).certs
    · exact SameCerts.trans (sameCerts_of_lanes rfl) (drain_sameCerts _ _)

theorem frameSent_sameCerts (s : State) : SameCerts s s.frameSent := by
  unfold State.frameSent
  split
  · exact fun _ => ⟨rfl, rfl⟩
  · split
    · exact SameCerts.trans (sameCerts_of_lanes rfl) (drain_sameCerts _ _)
    · exact fun _ => ⟨rfl, rfl⟩
    · exact sameCerts_of_lanes rfl

theorem onPart_sameCerts {s : State} {g : State → State} (h : SameCerts s (g s)) : SameCerts s (s.onPart g) := by
  unfold State.onPart
  split
  · exact h
  · exact fun _ => ⟨rfl, rfl⟩

theorem onLane_sameCerts {s : State} {l : LaneId} {g : State → State} (h : SameCerts s (g s)) :
    SameCerts s (s.onLane l g) := by
  unfold State.onLane
  split
  · exact h
  · exact fun _ => ⟨rfl, rfl⟩

theorem request_sameCerts (s : State) (i : Instr) : SameCerts s (s.request i) := by
  unfold State.request
  split
  · exact fun _ => ⟨rfl, rfl⟩
  · exact onPart_sameCerts (arrive_sameCerts s _)

/-! ## Every command -/

/-- Every command but the start-ups leaves the certified fields of every record, or is an arrival that takes a capture. -/
theorem exec_certs {i : Instr} {s t : State} (hi : restartsPart i = false) (h : exec i s = .next t) :
    SameCerts s t ∨ Logs s t := by
  have next {u : State} (hu : exec i s = .next u) (hc : SameCerts s u) : SameCerts s t ∨ Logs s t := by
    obtain rfl : u = t := Host.Outcome.next.inj (hu.symm.trans h)
    exact .inl hc
  have part {g : State → State} (hu : exec i s = .next (s.onPart g)) (hg : SameLogs s (g s)) : SameCerts s t ∨ Logs s t :=
    next hu (onPart_sameCerts hg.certs)
  have lane {l : LaneId} {g : State → State} (hu : exec i s = .next (s.onLane l g)) (hg : SameCerts s (g s)) :
      SameCerts s t ∨ Logs s t := next hu (onLane_sameCerts hg)
  have en (level : Bool) : SameCerts s (s.withCalEn level) := sameCerts_of_lanes rfl
  cases i with
  | calWrite _ _ _ _ level => exact next rfl ((en level).trans (request_sameCerts _ _))
  | calWriteComplete => exact part rfl (calWriteCompletes_sameLogs s)
  | goodFrame f level => exact next rfl ((en level).trans (onPart_sameCerts (arrive_sameCerts _ f)))
  | frameError _ => exact part rfl (discardFrame_sameLogs s)
  | upstreamFrameSent level => exact next rfl ((en level).trans (onPart_sameCerts (frameSent_sameCerts _)))
  | restartReset _ => exact nomatch hi
  | linkSilenceExpiry => exact part rfl (linkExpires_sameLogs s)
  | powerOn _ => exact nomatch hi
  | brownOut => exact nomatch hi
  | supplyLowSet => exact next rfl (supplyFalls_sameLogs s).certs
  | supplyLowClear => exact next rfl (supplyRises_sameLogs s).certs
  | sampleArrival l c raw =>
    obtain rfl : s.onLane l (fun x => x.sample l c raw.toNat) = t := Host.Outcome.next.inj h
    unfold State.onLane
    split
    · exact .inr (sample_logs s l c raw.toNat)
    · exact .inl fun _ => ⟨rfl, rfl⟩
  | channelSilenceExpiry l c => exact lane rfl (silenceExpires_sameLogs s l c).certs
  | initialZeroExpiry l c => exact lane rfl (initialZeroExpires_sameLogs s l c).certs
  | displayTimerExpiry l c => exact lane rfl (displayExpires_sameLogs s l c).certs
  | weighTimerExpiry l => exact lane rfl (weighExpires_sameLogs s l).certs
  | placementTimerExpiry l => exact lane rfl (placementExpires_sameLogs s l).certs
  | removalTimerExpiry l => exact lane rfl (removalExpires_sameLogs s l).certs
  | readerCharacter l v p => exact lane rfl (readerChar_sameLogs s l v p).certs
  | gapTimerExpiry l => exact lane rfl (gapExpires_sameLogs s l).certs
  | result a tag o m ap => exact part rfl (paymentArrive_sameLogs s _)
  | paymentFrameSent => exact part rfl (paymentSent_sameLogs s)
  | responseTimerExpiry => exact part rfl (responseExpires_sameLogs s)
  | drawerSensorLevel l high =>
    exact next rfl ((sensorPin_sameLogs s l high).certs.trans (onLane_sameCerts (debounceUpdate_sameLogs _ l).certs))
  | debounceTimerExpiry l => exact lane rfl (debounceExpires_sameLogs s l).certs
  | pulseTimerExpiry l => exact lane rfl (pulseExpires_sameLogs s l).certs
  | checkTimerExpiry l => exact lane rfl (checkExpires_sameLogs s l).certs
  | leftOpenExpiry l => exact lane rfl (leftOpenExpires_sameLogs s l).certs
  | lineDone l _ => exact lane rfl (printerArrive_sameCerts s l _)
  | lineFailed l _ => exact lane rfl (printerArrive_sameCerts s l _)
  | printerStatus l _ => exact lane rfl (printerArrive_sameCerts s l _)
  | printerSilenceExpiry l => exact lane rfl (printerSilent_sameLogs s l).certs
  | answerTimerExpiry l => exact lane rfl (answerExpires_sameLogs s l).certs
  | staffHoldExpiry l => exact lane rfl (staffExpires_sameLogs s l).certs
  | supplyAboveBrownOut _ => exact nomatch hi
  | paymentFrameDiscarded cause => exact part rfl (paymentBroken_sameLogs s cause)
  | printerFrameDiscarded l cause => exact lane rfl (printerBroken_sameCerts s l cause)
  | _ => exact next rfl (request_sameCerts s _)

/-! ## The law of the capture log -/

/-- The law of one lane's capture log (R36, R38). -/
def Lane.LogKept (n : Lane) : Prop :=
  n.log.length ≤ 80 ∧ (n.log.map (·.number)).Nodup ∧ (∀ c ∈ n.log, 1 ≤ c.number ∧ c.number ≤ 65535) ∧
    1 ≤ n.nextCapture ∧ n.nextCapture ≤ 65535

theorem logLaw_iff (s : State) : LogLaw s ↔ ∀ l, (s.lane l).LogKept := Iff.rfl

/-- The numbers of a log are among its certified fields (R38). -/
theorem numbers_of_certified (log : List Capture) :
    log.map (·.number) = (log.map Capture.certified).map (·.1) := by
  rw [List.map_map]
  rfl

theorem SameCert.numbers {n m : Lane} (h : SameCert n m) : m.log.map (·.number) = n.log.map (·.number) := by
  rw [numbers_of_certified, numbers_of_certified, h.1]

theorem SameCert.logKept {n m : Lane} (h : SameCert n m) (hn : n.LogKept) : m.LogKept := by
  obtain ⟨hlen, hd, hrange, hcounter⟩ := hn
  have hnum := h.numbers
  have hl : m.log.length = n.log.length := by simpa using congrArg List.length hnum
  refine ⟨hl ▸ hlen, hnum ▸ hd, fun c hc => ?_, h.2 ▸ hcounter⟩
  obtain ⟨c', hc', heq⟩ : ∃ c' ∈ n.log, c'.number = c.number := by
    have hmem : c.number ∈ m.log.map (·.number) := List.mem_map_of_mem hc
    rwa [hnum, List.mem_map] at hmem
  exact heq ▸ hrange c' hc'

/-- The number a capture takes is its own, and in range (R36). -/
theorem captureNumber_spec {n : Lane} (h : n.LogKept) :
    ∃ p, findNumber n.log (logSize + 1) n.nextCapture = Nat.repeat nextNumber p n.nextCapture ∧
      (∀ i < p, Nat.repeat nextNumber i n.nextCapture ∈ n.log.map (·.number)) ∧
      findNumber n.log (logSize + 1) n.nextCapture ∉ n.log.map (·.number) ∧
      1 ≤ findNumber n.log (logSize + 1) n.nextCapture ∧ findNumber n.log (logSize + 1) n.nextCapture ≤ 65535 := by
  obtain ⟨hlen, -, -, hcounter⟩ := h
  rw [findNumber_eq, nextNumber_eq]
  exact firstUnused_spec hcounter (by rw [List.length_map, logSize]; omega) (by decide)

/-- The log after a capture is the log with it in its place, or the full log of held records as it was (R37, R38). -/
theorem fillFree_cases (c : Capture) (log : List Capture) (h : log.length ≤ 80) :
    ((log.length < 80 ∨ (log.length ≤ 80 ∧ ∃ x ∈ log, x.held = false)) ∧
      (fillFree c logSize log).getD log = placed c log) ∨ (fillFree c logSize log).getD log = log := by
  by_cases hroom : log.length < 80 ∨ (log.length ≤ 80 ∧ ∃ x ∈ log, x.held = false)
  · exact .inl ⟨hroom, by rw [logSize, fillFree_eq c 80 log hroom]; rfl⟩
  · simp only [not_or, not_and, not_exists, Bool.not_eq_false] at hroom
    exact .inr (by rw [logSize, fillFree_full c 80 log (Nat.le_of_not_lt hroom.1) fun x hx => hroom.2 h x hx]; rfl)

/-- A capture keeps the law of its log. -/
theorem Lane.LogKept.capture {n m : Lane} {c : Capture} (h : n.LogKept)
    (hnum : c.number = findNumber n.log (logSize + 1) n.nextCapture)
    (hlog : m.log = (fillFree c logSize n.log).getD n.log) (hnext : m.nextCapture = nextNumber c.number) : m.LogKept := by
  obtain ⟨p, -, -, hfree, hlo, hhi⟩ := captureNumber_spec h
  obtain ⟨hlen, hd, hrange, -⟩ := h
  rw [← hnum] at hfree hlo hhi
  have hcounter : 1 ≤ m.nextCapture ∧ m.nextCapture ≤ 65535 := by
    rw [hnext, nextNumber]
    split <;> omega
  obtain ⟨hroom, hplaced⟩ | hfull := fillFree_cases c n.log hlen
  · rw [hplaced] at hlog
    rw [Lane.LogKept, hlog]
    refine ⟨placed_length_le hroom, placed_nodup hd hfree, fun x hx => ?_, hcounter⟩
    obtain rfl | hx := mem_placed hx
    · exact ⟨hlo, hhi⟩
    · exact hrange x hx
  · rw [hfull] at hlog
    rw [Lane.LogKept, hlog]
    exact ⟨hlen, hd, hrange, hcounter⟩

theorem SameCerts.logLaw {s t : State} (h : SameCerts s t) (hs : LogLaw s) : LogLaw t :=
  fun l => SameCert.logKept (h l) (hs l)

theorem Logs.logLaw {s t : State} (h : Logs s t) (hs : LogLaw s) : LogLaw t := by
  obtain h | ⟨l, c, hnum, hlog, hnext, hother⟩ := h
  · exact h.certs.logLaw hs
  · intro m
    by_cases hm : m = l
    · subst hm
      exact Lane.LogKept.capture (hs m) hnum hlog hnext
    · obtain ⟨hl, hc⟩ := hother m hm
      exact SameCert.logKept ⟨congrArg _ hl, hc⟩ (hs m)

/-! ## Start-up (R180) -/

/-- The capture logs after a start-up are empty, their counters 1. -/
theorem startUp_sameLogs (s : State) (cause : ResetCause) (check : SelfCheck) :
    SameLogs (s.blank cause check) (s.startUp cause check) := by
  have channel (u : State) (l : LaneId) (c : Chan) (copy : Option Calib) : SameLogs u (u.startChannel l c copy) := by
    unfold State.startChannel
    split <;> simp [SameLogs, State.modChan]
  have start (u : State) (l : LaneId) : SameLogs u (u.startLane l) := by
    unfold State.startLane
    split
    · exact ((modLane_sameLogs u l _ rfl rfl).trans (channel _ l .platter _)).trans (channel _ l .bag _)
    · exact fun _ => ⟨rfl, rfl⟩
  have lanes (ls : List LaneId) (u : State) : SameLogs u (ls.foldl State.startLane u) := by
    induction ls generalizing u with
    | nil => exact fun _ => ⟨rfl, rfl⟩
    | cons l ls ih => exact (start u l).trans (ih _)
  have supply (u : State) : SameLogs u u.compareSupply := by
    unfold State.compareSupply
    split
    · exact SameLogs.trans (sameLogs_of_lanes rfl) (raisePart_sameLogs _ _)
    · exact fun _ => ⟨rfl, rfl⟩
  exact ((enqueue_sameLogs _ _).trans (lanes allLanes _)).trans (supply _)

theorem blank_logLaw (s : State) (cause : ResetCause) (check : SelfCheck) : LogLaw (s.blank cause check) := fun l => by
  have hl : (s.blank cause check).lane l = Lane.blank (s.lane l).till.rawHigh := Four.get_make _ l
  rw [hl]
  simp [Lane.blank]

theorem startUp_logLaw (s : State) (cause : ResetCause) (check : SelfCheck) : LogLaw (s.startUp cause check) :=
  (startUp_sameLogs s cause check).certs.logLaw (blank_logLaw s cause check)

/-- Every command keeps the law of the capture log. -/
theorem exec_logLaw {i : Instr} {s t : State} (h : LogLaw s) (he : exec i s = .next t) : LogLaw t := by
  have started {u : State} (hu : exec i s = .next u) (hl : LogLaw u) : LogLaw t := by
    obtain rfl : u = t := Host.Outcome.next.inj (hu.symm.trans he)
    exact hl
  cases hi : restartsPart i with
  | false =>
    obtain hc | hc := exec_certs hi he
    · exact hc.logLaw h
    · exact hc.logLaw h
  | true =>
    cases i with
    | powerOn inputs => exact started rfl (startUp_logLaw _ _ _)
    | brownOut => exact started rfl ((sameCerts_of_lanes rfl).logLaw (blank_logLaw s .brownOut s.selfCheck))
    | supplyAboveBrownOut inputs =>
      refine started rfl ?_
      unfold State.aboveBrownOut
      split
      · exact h
      · exact startUp_logLaw _ _ _
    | restartReset check =>
      refine started rfl ?_
      unfold State.restartReset
      split
      · exact startUp_logLaw _ _ _
      · exact h
    | _ => exact nomatch hi

/-- A held record stays at its index with its certified fields, whatever the command but a start-up (R38, R41). -/
theorem exec_held {i : Instr} {s t : State} {l : LaneId} {k : Nat} {r : Capture} (hi : restartsPart i = false)
    (h : LogLaw s) (he : exec i s = .next t) (hk : (s.lane l).log[k]? = some r) (hr : r.held = true) :
    ∃ r', (t.lane l).log[k]? = some r' ∧ r'.certified = r.certified := by
  have same (hc : SameCert (s.lane l) (t.lane l)) : ∃ r', (t.lane l).log[k]? = some r' ∧ r'.certified = r.certified := by
    have hmap : ((t.lane l).log.map Capture.certified)[k]? = some r.certified := by
      rw [hc.1, List.getElem?_map, hk]
      rfl
    rwa [List.getElem?_map, Option.map_eq_some_iff] at hmap
  obtain hc | hc | ⟨m, c, -, hlog, -, hother⟩ := exec_certs hi he
  · exact same (hc l)
  · exact same (hc.certs l)
  · by_cases hm : l = m
    · subst hm
      obtain ⟨-, hplaced⟩ | hfull := fillFree_cases c (s.lane l).log (h l).1
      · exact ⟨r, by rw [hlog, hplaced, placed_held hk hr], rfl⟩
      · exact ⟨r, by rw [hlog, hfull, hk], rfl⟩
    · exact ⟨r, by rw [(hother l hm).1, hk], rfl⟩

/-- Settles O14: no command but a start-up and an arrival that takes a capture touches a certified field, the capture has a
number of its own and passes over held records, and a start-up empties the logs. -/
theorem captureLogKept : Obligations.CaptureLogKept := by
  unfold Obligations.CaptureLogKept
  refine ⟨fun s t h hs => ?_, fun c s t l k r hi h he hk hr => ?_⟩
  · unfold step at hs
    split at hs
    · obtain rfl : s = t := Host.Outcome.next.inj hs
      exact h
    · rename_i c rest _
      exact exec_logLaw (s := { s with pending := rest }) ((sameCerts_of_lanes rfl).logLaw h) hs
  · obtain ⟨r', hr', hcert⟩ := exec_held hi h he hk hr
    refine ⟨⟨r', hr', hcert⟩, fun k' q hq hnum => ?_⟩
    obtain ⟨-, hd, -⟩ := exec_logLaw h he l
    have hlt : k < ((t.lane l).log.map (·.number)).length := by
      rw [List.length_map]
      exact (List.getElem?_eq_some_iff.mp hr').1
    have hsame : ((t.lane l).log.map (·.number))[k]? = ((t.lane l).log.map (·.number))[k']? := by
      rw [List.getElem?_map, List.getElem?_map, hr', hq]
      exact congrArg some ((congrArg (·.1) hcert).trans hnum.symm)
    exact ((List.getElem?_inj hlt hd).mp hsame).symm

end Sys2Proof.Machine
end

