-- ==== Sys2Proof/Proofs/WeighRequests.lean ====
section
/-! ITEM and CANCEL_WEIGH at their lane (R26, R28, R52 to R55): what each answers, and the two obligations. -/

namespace Sys2Proof.Machine

/-! ## What an accepted or refused request leaves (R170) -/

/-- A lane request refused at dispatch, in the words of the statements. -/
theorem settle_refuse (s : State) (l : LaneId) (k : ReqKind) (tag : Byte) (p : List Byte) (c : Code) :
    settle (requestFrame (laneAddr l) k tag p) s.upstream.length (refuse c s.taken) =
      s.refuses (laneAddr l) k.code tag c := rfl

/-- A lane request refused with BAG_BUSY at dispatch, in the words of the statements. -/
theorem settle_refuseBagBusy (s : State) (l : LaneId) (k : ReqKind) (tag : Byte) (p : List Byte) :
    settle (requestFrame (laneAddr l) k tag p) s.upstream.length (refuseBagBusy l s.taken) =
      s.answers (laneAddr l) k.code tag false .bagBusy [(s.lane l).bagCheck.state.value] id := rfl

/-! ## Offers leave a lane but for its attention record (R161, R171) -/

theorem raiseLane_lane (s : State) (l : LaneId) (c : LaneCond) :
    ∃ a, (s.raiseLane l c).lane l = { s.lane l with attention := a } := by
  obtain h | ⟨a, h | ⟨f, -, h⟩⟩ := raiseLane_cases s l c <;> rw [h]
  · exact ⟨(s.lane l).attention, rfl⟩
  · exact ⟨a, lane_setLane_same s l _⟩
  · exact ⟨a, lane_setLane_same s l _⟩

theorem offerLane_lane (s : State) (l : LaneId) (k : Byte) (p : List Byte) :
    ∃ a, (s.offerLane l k p).lane l = { s.lane l with attention := a } := by
  unfold State.offerLane
  split
  · exact ⟨(s.lane l).attention, rfl⟩
  · exact raiseLane_lane s l _

/-! ## The end of a weigh request (R42) -/

/-- The WEIGH_ENDED of an outcome other than PRICED, as the statements write it (R190). -/
abbrev weighEnded (w : WeighRequest) (outcome reason : Byte) : List Byte :=
  be 6 w.code ++ [outcome, reason] ++ List.replicate 25 0

theorem endWeigh_some {s : State} {l : LaneId} {w : WeighRequest} (h : (s.lane l).weigh = some w) (o : WeighOutcome) :
    s.endWeigh l o =
      (s.setLane l { s.lane l with weigh := none }).offerLane l 0x83 (weighEnded w o.value o.reason) := by
  simp only [State.endWeigh, h]
  rfl

theorem endWeigh_none {s : State} {l : LaneId} (h : (s.lane l).weigh = none) (o : WeighOutcome) : s.endWeigh l o = s := by
  simp only [State.endWeigh, h]

@[simp] theorem endWeigh_receiveBuffer (s : State) (l : LaneId) (o : WeighOutcome) :
    (s.endWeigh l o).receiveBuffer = s.receiveBuffer := by
  cases h : (s.lane l).weigh with
  | none => rw [endWeigh_none h]
  | some w => rw [endWeigh_some h, offerLane_receiveBuffer, setLane_receiveBuffer]

/-- The weigh timer's expiry with a request pending (R27). -/
theorem exec_weighTimerExpiry {s : State} {l : LaneId} {w : WeighRequest} (h : s.Runs l) (hw : (s.lane l).weigh = some w)
    (ht : w.timer.isSome = true) :
    exec (.weighTimerExpiry l) s =
      .next ((s.setLane l { s.lane l with weigh := none }).offerLane l 0x83 (weighEnded w 1 0)) := by
  change Host.Outcome.next (s.onLane l fun x => x.weighExpires l) = _
  rw [onLane_runs h]
  simp only [State.weighExpires, hw, ht, if_true, endWeigh_some hw]
  rfl

/-- The weigh timer's expiry with no request does nothing (R28). -/
theorem exec_weighTimerExpiry_none {s : State} {l : LaneId} (h : (s.lane l).weigh = none) :
    exec (.weighTimerExpiry l) s = .next s := by
  change Host.Outcome.next (s.onLane l fun x => x.weighExpires l) = _
  have hx : s.weighExpires l = s := by simp only [State.weighExpires, h]
  simp only [State.onLane, hx, ite_self]

/-- The lane with the arming test made (R30). -/
def Lane.armedAt (n : Lane) (k : Calib) (g : Int) : Lane :=
  { n with armed := decide (g ≤ ((5 * k.d1 : Nat) : Int) ∨ n.armed = true) }

/-- The arming test of a platter reading (R30). -/
theorem armingTest_eq (s : State) (l : LaneId) (k : Calib) (g : Int) :
    (if g ≤ ((5 * k.d1 : Nat) : Int) then s.modLane l fun n => { n with armed := true } else s) =
      s.setLane l ((s.lane l).armedAt k g) := by
  by_cases hg : g ≤ ((5 * k.d1 : Nat) : Int)
  · have hsame : (s.lane l).armedAt k g = { s.lane l with armed := true } := by
      simp only [Lane.armedAt, hg, true_or, decide_true]
    rw [if_pos hg, hsame, modLane_eq]
  · have hsame : (s.lane l).armedAt k g = s.lane l := by
      simp only [Lane.armedAt, hg, false_or, Bool.decide_eq_true]
    rw [if_neg hg, hsame, setLane_lane]

/-- A platter reading with no request pending only arms (R28, R30). -/
theorem platterReading_none {s : State} {l : LaneId} (h : (s.lane l).weigh = none) (k : Calib) (r : Reading) (g : Int) :
    s.platterReading l k r g = s.setLane l ((s.lane l).armedAt k g) := by
  have hw : ((s.setLane l ((s.lane l).armedAt k g)).lane l).weigh = none := by rw [lane_setLane_same]; exact h
  unfold State.platterReading
  rw [armingTest_eq]
  simp only [hw]

/-! ## An entry is appended (R54, R71) -/

/-- The lane with an entry appended, an AWAITING one handed to the bag check. -/
def Lane.withEntry (n : Lane) (e : Entry) (k : LaneSettings) : Lane :=
  if e.bag = .awaiting then
    { n with
      entries := n.entries ++ [e]
      bagCheck := { n.bagCheck with
        state := .awaitingPlace, awaiting := some (n.entries.length + 1), e := e.expected
        a := e.tolerance.getD 0 + k.baseTolerance, placement := some (k.placementTime * 1000), removal := none
        excursion := false, latestGross := none, latestStable := none } }
  else { n with entries := n.entries ++ [e] }

theorem appendEntry_eq (s : State) (l : LaneId) (e : Entry) :
    s.appendEntry l e = s.setLane l ((s.lane l).withEntry e (s.laneSettings l)) := by
  unfold State.appendEntry Lane.withEntry
  by_cases h : e.bag = .awaiting
  · simp [h, State.expectPlacement, setBag_eq, modLane_eq]
    rfl
  · simp [h, modLane_eq]

@[simp] theorem Lane.withEntry_entries (n : Lane) (e : Entry) (k : LaneSettings) :
    (n.withEntry e k).entries = n.entries ++ [e] := by
  unfold Lane.withEntry
  split <;> rfl

@[simp] theorem Lane.withEntry_weigh (n : Lane) (e : Entry) (k : LaneSettings) : (n.withEntry e k).weigh = n.weigh := by
  unfold Lane.withEntry
  split <;> rfl

@[simp] theorem Lane.withEntry_tenders (n : Lane) (e : Entry) (k : LaneSettings) :
    (n.withEntry e k).tenders = n.tenders := by
  unfold Lane.withEntry
  split <;> rfl

/-- The total rises by the line price of an entry that is not voided (R51). -/
theorem Lane.withEntry_total (n : Lane) {e : Entry} (h : e.voided = false) (k : LaneSettings) :
    (n.withEntry e k).total = n.total + e.linePrice := by
  simp [Lane.total, h]

theorem Lane.withEntry_due (n : Lane) {e : Entry} (h : e.voided = false) (k : LaneSettings) :
    (n.withEntry e k).due = n.due + e.linePrice := by
  simp only [Lane.due, Lane.withEntry_total n h, Lane.tendered, Lane.withEntry_tenders]
  push_cast
  ring

/-! ## CANCEL_WEIGH (R28) -/

theorem takeCancelWeigh_eq (l : LaneId) (s : State) :
    takeCancelWeigh l s =
      match (s.lane l).weigh with
      | none => refuse .noWeigh s
      | some w =>
        accept [] ((s.setLane l { s.lane l with weigh := none }).offerLane l 0x83 (weighEnded w 2 0)) := by
  unfold takeCancelWeigh
  cases h : (s.lane l).weigh with
  | none => rfl
  | some w =>
    rw [endWeigh_some h]
    rfl

theorem exec_cancelWeigh {s : State} {l : LaneId} (h : s.Serves l) (tag : Byte) :
    exec (.cancelWeigh (laneAddr l) tag) s =
      .next (settle (requestFrame (laneAddr l) .cancelWeigh tag []) s.upstream.length (takeCancelWeigh l s.taken)) := by
  refine exec_lane .cancelWeigh tag [] h rfl rfl rfl rfl rfl (toLane_laneAddr l _ _) ?_
  unfold takeCancelWeigh
  split
  · exact endWeigh_receiveBuffer _ l _
  · rfl

/-- The octets after the outcome of a WEIGH_ENDED PRICED are 25 (R190). -/
theorem weighPricedPayload_eq (code pos : Nat) (c : Capture) (bag : BagState) :
    ∃ rest : List Byte, rest.length = 25 ∧ weighPricedPayload code pos c bag = be 6 code ++ [0, 0] ++ rest :=
  ⟨[octet pos] ++ be 2 c.number ++ beInt 4 c.net ++ be 4 c.d ++ beInt 4 c.tare ++ [c.tareKind.value] ++ be 4 c.unitPrice ++
    be 4 c.price ++ [bag.value], by simp, by simp [weighPricedPayload]⟩

theorem weighedEntry_kind (mode : LaneMode) (w : WeighRequest) (c : Capture) : (weighedEntry mode w c).kind = .weighed := by
  unfold weighedEntry
  cases mode with
  | attended => rfl
  | closed => rfl
  | self => cases w.exempt <;> rfl

/-- A capture ends the request PRICED, its WEIGHED entry in the basket (R37). -/
theorem takeCapture_ends (s : State) (l : LaneId) (w : WeighRequest) (t : CaptureTare) (price : Nat) :
    let u := (s.takeCapture l w t price).lane l
    u.weigh = none ∧ (∃ e, u.entries = (s.lane l).entries ++ [e] ∧ e.kind = .weighed) ∧
      ∃ (x : State) (rest : List Byte), rest.length = 25 ∧
        s.takeCapture l w t price = x.offerLane l 0x83 (be 6 w.code ++ [0, 0] ++ rest) := by
  unfold State.takeCapture
  dsimp only
  generalize Capture.mk _ _ _ _ _ _ _ _ _ = c
  rw [appendEntry_eq, setLane_setLane, lane_setLane_same, lane_setLane_same]
  obtain ⟨rest, hlen, hpayload⟩ := weighPricedPayload_eq w.code
    ((s.lane l).entries ++ [weighedEntry (s.lane l).mode w c]).length c (weighedEntry (s.lane l).mode w c).bag
  rw [Lane.withEntry_entries, hpayload]
  generalize hn : Lane.withEntry _ _ _ = n
  obtain ⟨a, ha⟩ := offerLane_lane (s.setLane l n) l kindWeighEnded (be 6 w.code ++ [0, 0] ++ rest)
  rw [ha, lane_setLane_same, ← hn]
  exact ⟨Lane.withEntry_weigh _ _ _, ⟨_, Lane.withEntry_entries _ _ _, weighedEntry_kind _ w c⟩, _, rest, hlen, rfl⟩

/-- Settles O47: the request ends with its notice after the answer; a request that is gone has neither expiry nor capture,
and an expiry or a capture taken first ends it. -/
theorem cancelWeighEndsThePendingRequest : Obligations.CancelWeighEndsThePendingRequest := by
  unfold Obligations.CancelWeighEndsThePendingRequest
  refine ⟨fun s l tag h => ?_, fun s l w h hw ht => exec_weighTimerExpiry h hw ht, fun s l k r g hw => ⟨?_, ?_⟩,
    fun s l w t price => takeCapture_ends s l w t price⟩
  · have hn : s.taken.lane l = s.lane l := rfl
    rw [exec_cancelWeigh h, takeCancelWeigh_eq, hn]
    dsimp only
    cases (s.lane l).weigh <;> rfl
  · exact exec_weighTimerExpiry_none hw
  · rw [platterReading_none hw, ← armingTest_eq]
    rfl

/-! ## ITEM (R52 to R55, R26) -/

/-- The fields of an ITEM are read back from its octets (R184). -/
theorem requestOf_item (en : Bool) (a tag : Byte) (code : BitVec 48) (quantity : Byte) (price : BitVec 32) (skip : Byte) :
    requestOf en .item (requestFrame a .item tag (be 6 code.toNat ++ [quantity] ++ be 4 price.toNat ++ [skip])) =
      .item a tag code quantity price skip := by
  have hcode := fieldAt_be [] ([quantity] ++ (be 4 price.toNat ++ [skip])) 6 code.toNat code.isLt
  have hprice := fieldAt_be (be 6 code.toNat ++ [quantity]) [skip] 4 price.toNat price.isLt
  simp only [List.append_assoc, List.nil_append, List.length_append, List.length_nil, List.length_cons,
    be_length] at hcode hprice
  simp only [List.singleton_append] at hcode hprice
  simp [requestOf, requestFrame, hcode, hprice, octetAt]

theorem itemCodeOk_eq (c : Nat) : itemCodeOk c = !decide (c < 1 ∨ 9999999999999 < c) := by
  rw [Bool.eq_iff_iff, itemCodeOk, Bool.and_eq_true, decide_eq_true_eq, decide_eq_true_eq, maxItemCode, Bool.not_eq_true',
    decide_eq_false_iff_not]
  omega

/-- The bag state of a counted entry (R53). -/
abbrev countedState (mode : LaneMode) (item : Option ItemRecord) (exempt : Prop) [Decidable exempt] : BagState :=
  if ¬ mode = .self ∨ item = none then .notChecked else if exempt then .exempt else .awaiting

/-- The counted entry of an ITEM, its bag fields by its bag state (R53). -/
theorem countedEntry_eq (mode : LaneMode) (item : Option ItemRecord) (c q p : Nat) (skip : Byte) :
    let bag := countedState mode item ((item.map fun r => r.bagRule) = some .exempt ∨ (mode = .self ∧ skip = 1))
    countedEntry mode item c q p (skip == 1) =
      { kind := .counted, code := c, quantity := q, unitPrice := p, linePrice := q * p, capture := none
        net := none, voided := false, bag := bag
        expected := if bag = .awaiting then (item.bind fun r => r.expectedWeight).map fun w => ((q * w : Nat) : Int) else none
        tolerance :=
          if bag = .awaiting then some ((q * ((item.bind fun r => r.tolerance).getD 0) : Nat) : Int) else none } := by
  have hstate : countedBag mode item (skip == 1) q =
      let bag := countedState mode item ((item.map fun r => r.bagRule) = some .exempt ∨ (mode = .self ∧ skip = 1))
      (bag, if bag = .awaiting then (item.bind fun r => r.expectedWeight).map fun w => ((q * w : Nat) : Int) else none,
        if bag = .awaiting then some ((q * ((item.bind fun r => r.tolerance).getD 0) : Nat) : Int) else none) := by
    cases mode with
    | attended => rfl
    | closed => rfl
    | self =>
      cases item with
      | none => rfl
      | some r =>
        by_cases hr : r.bagRule = .exempt
        · simp [countedBag, countedState, hr]
        · simp only [countedBag, countedState]
          by_cases hk : skip = 1#8 <;> simp [hr, hk]
  dsimp only
  simp only [countedEntry, hstate]

/-- The weigh request a WEIGHED item makes (R26). -/
theorem newWeigh_eq (r : ItemRecord) (mode : LaneMode) (skip : Byte) (time : Nat) :
    newWeigh r (r.bagRule == .exempt || (mode == .self && skip == 1)) time =
      ⟨r.code, r.unitPrice.getD 0, r.presetTare, r.tolerance,
        decide ((some r.bagRule) = some .exempt ∨ (mode = .self ∧ skip = 1)), some (time * 1000), false, .noReading⟩ := by
  have hx : (r.bagRule == .exempt || (mode == .self && skip == 1)) =
      decide ((some r.bagRule) = some .exempt ∨ (mode = .self ∧ skip = 1)) := by
    rw [Bool.eq_iff_iff]
    simp
  rw [hx]
  rfl

/-- A counted entry is appended (R53, R55). -/
def itemCounted (l : LaneId) (e : Entry) (s : State) : Reply × State :=
  accept ([0, octet ((s.lane l).entries.length + 1)] ++ be 4 e.linePrice ++ [e.bag.value] ++
    be 4 ((s.lane l).total + e.linePrice) ++ beInt 4 ((s.lane l).due + e.linePrice))
    (s.setLane l ((s.lane l).withEntry e (s.laneSettings l)))

theorem itemCounted_notChecked (l : LaneId) {e : Entry} (h : e.bag = .notChecked) (s : State) :
    itemCounted l e s =
      accept ([0, octet ((s.lane l).entries.length + 1)] ++ be 4 e.linePrice ++ [0] ++ be 4 ((s.lane l).total + e.linePrice) ++
        beInt 4 ((s.lane l).due + e.linePrice)) (s.setLane l { s.lane l with entries := (s.lane l).entries ++ [e] }) := by
  simp only [itemCounted, Lane.withEntry, h]
  rfl

theorem itemCounted_eq (l : LaneId) {e : Entry} (h : e.voided = false) (s : State) :
    (let s1 := s.appendEntry l e
      let n1 := s1.lane l
      accept ([0, octet n1.entries.length] ++ be 4 e.linePrice ++ [e.bag.value] ++ be 4 n1.total ++ beInt 4 n1.due) s1) =
      itemCounted l e s := by
  simp only [appendEntry_eq, lane_setLane_same, Lane.withEntry_entries, Lane.withEntry_total _ h, Lane.withEntry_due _ h,
    List.length_append, List.length_singleton]
  rfl

/-- ITEM by its flag octet, its tests in order, and its item (R52, R53, R26). -/
theorem takeItem_eq (l : LaneId) (code : BitVec 48) (quantity : Byte) (price : BitVec 32) (skip : Byte) (s : State) :
    takeItem l code quantity price skip s =
      let n := s.lane l
      let c := code.toNat
      let q := quantity.toNat
      let item := s.itemOf c
      let self := n.mode = .self
      let weighed := (item.map fun r => r.kind) = some .weighed
      let counted := itemCounted l (countedEntry n.mode item c q price.toNat (skip == 1)) s
      if 1 < skip.toNat then refuse .badValue s
      else if n.mode = .closed then refuse .laneClosed s
      else if n.basketState = .tendering then refuse .tenderStarted s
      else if n.basketState = .settled then refuse .basketSettled s
      else if 64 ≤ n.entries.length then refuse .basketFull s
      else if self ∧ item = none then refuse .unknownItem s
      else if self ∧ n.bagCheck.state ≠ .settled then refuseBagBusy l s
      else if self ∧ skip = 1 ∧ n.authority = none then refuse .authorityNeeded s
      else if c < 1 ∨ 9999999999999 < c ∨ q < 1 ∨ 99 < q ∨ (weighed ∧ q ≠ 1) ∨
          (¬ weighed ∧ 9999999 < price.toNat) then
        refuse .badValue s
      else if ¬ weighed ∧ 9999999 < q * price.toNat then refuse .priceLimit s
      else if weighed ∧ n.weigh ≠ none then refuse .weighPending s
      else match item with
        | some r =>
          if r.kind = .weighed then
            accept [1] (s.setLane l { n with
              weigh := some (newWeigh r (r.bagRule == .exempt || (n.mode == .self && skip == 1))
                (s.laneSettings l).weighTime) })
          else counted
        | none => counted := by
  have hstaff : (s.lane l).staffed = false ↔ (s.lane l).authority = none := by simp [Lane.staffed]
  have hcounted (item : Option ItemRecord) :=
    itemCounted_eq l (e := countedEntry (s.lane l).mode item code.toNat quantity.toNat price.toNat (skip == 1)) rfl s
  dsimp only at hcounted
  unfold takeItem
  dsimp only
  simp only [hcounted]
  generalize s.itemOf code.toNat = item
  cases item with
  | none =>
    simp [itemCodeOk_eq, hstaff, or_assoc, and_assoc]
  | some r =>
    cases hk : r.kind with
    | counted =>
      simp [hk, itemCodeOk_eq, hstaff, or_assoc, and_assoc]
    | weighed =>
      simp [hk, itemCodeOk_eq, hstaff, or_assoc, and_assoc, modLane_eq, Option.isSome_iff_ne_none]

/-- A test leaves the receive buffer when both its outcomes do. -/
theorem receiveBuffer_ite {c : Prop} [Decidable c] {a b : Reply × State} {buffer : List Frame}
    (ha : a.2.receiveBuffer = buffer) (hb : b.2.receiveBuffer = buffer) : (if c then a else b).2.receiveBuffer = buffer := by
  split
  · exact ha
  · exact hb

theorem exec_item {s : State} {l : LaneId} (h : s.Serves l) (tag : Byte) (code : BitVec 48) (quantity : Byte)
    (price : BitVec 32) (skip : Byte) :
    exec (.item (laneAddr l) tag code quantity price skip) s =
      .next (settle (requestFrame (laneAddr l) .item tag (be 6 code.toNat ++ [quantity] ++ be 4 price.toNat ++ [skip]))
        s.upstream.length (takeItem l code quantity price skip s.taken)) := by
  refine exec_lane .item tag _ h rfl rfl rfl (by simp [ReqKind.lengthOk]) (requestOf_item _ _ tag code quantity price skip)
    (toLane_laneAddr l _ _) ?_
  refine (congrArg (fun r : Reply × State => r.2.receiveBuffer) (takeItem_eq l code quantity price skip s.taken)).trans ?_
  dsimp only
  iterate 11 refine receiveBuffer_ite rfl ?_
  cases s.taken.itemOf code.toNat with
  | none => rfl
  | some r => exact receiveBuffer_ite rfl rfl

/-- Settles O45: the tests in their order, then the request of a WEIGHED item or the entry of a counted one. -/
theorem itemIsTestedAndEntered : Obligations.ItemIsTestedAndEntered := by
  unfold Obligations.ItemIsTestedAndEntered
  intro s l tag code quantity price skip h n c q item self weighed exempt bag e
  have hn : s.taken.lane l = n := rfl
  have hitem : s.taken.itemOf code.toNat = item := rfl
  have he : countedEntry n.mode item c q price.toNat (skip == 1) = e := countedEntry_eq n.mode item c q price.toNat skip
  rw [exec_item h, takeItem_eq]
  dsimp only
  rw [hn, hitem, he]
  simp only [apply_ite (settle _ _), settle_refuse, settle_refuseBagBusy]
  clear_value item
  cases item with
  | none =>
    have hbag : e.bag = .notChecked := if_pos (Or.inr rfl)
    dsimp only
    rw [itemCounted_notChecked l hbag]
    rfl
  | some r =>
    dsimp only
    rw [newWeigh_eq]
    cases hk : r.kind with
    | counted => rfl
    | weighed => rfl

end Sys2Proof.Machine
end

