-- ==== Sys2Proof/Proofs/BasketClears.lean ====
section
/-! NEW_BASKET and ABANDON_BASKET (R62, R63, R82), and the obligation. -/

namespace Sys2Proof.Machine

/-! ## The basket clear (R62, R82) -/

/-- The bag check state after a basket clear (R82). -/
abbrev BagCheckState.afterClear (st : BagCheckState) : BagCheckState :=
  if st = .awaitingPlace ∨ st = .awaitingRemoval ∨ st = .held then .settled else st

/-- The bag check loses its expectation, and keeps its readings but where the clear enters SETTLED (R82). -/
theorem basketCleared_eq (x : BagCheck) :
    x.basketCleared = { x with
      state := x.state.afterClear, awaiting := none, e := none, a := 0, placement := none, removal := none
      excursion := if x.state.afterClear ≠ x.state then false else x.excursion
      latestGross := if x.state.afterClear ≠ x.state then none else x.latestGross
      latestStable := if x.state.afterClear ≠ x.state then none else x.latestStable } := by
  unfold BagCheck.basketCleared
  cases hx : x.state <;> simp [hx, BagCheck.drop, BagCheck.enter]

theorem clearBasket_state (n : Lane) : n.clearBasket.bagCheck.state = n.bagCheck.state.afterClear := by
  simp only [Lane.clearBasket, basketCleared_eq]

/-- The end of a weigh request leaves the bag check (R42). -/
theorem endWeigh_bagCheck (s : State) (l : LaneId) (o : WeighOutcome) :
    ((s.endWeigh l o).lane l).bagCheck = (s.lane l).bagCheck := by
  cases h : (s.lane l).weigh with
  | none => rw [endWeigh_none h]
  | some w =>
    rw [endWeigh_some h]
    obtain ⟨a, ha⟩ := offerLane_lane (s.setLane l { s.lane l with weigh := none }) l 0x83 (weighEnded w o.value o.reason)
    rw [ha, lane_setLane_same]

/-- A basket clear taken: the lane cleared, and its pending weigh request ended (R62, R29). -/
def basketClear (l : LaneId) (s : State) : Reply × State :=
  accept [(s.lane l).bagCheck.state.afterClear.value] ((s.setLane l (s.lane l).clearBasket).endWeigh l .cancelled)

theorem basketClear_eq (l : LaneId) (s : State) :
    accept [(((s.modLane l Lane.clearBasket).endWeigh l .cancelled).lane l).bagCheck.state.value]
      ((s.modLane l Lane.clearBasket).endWeigh l .cancelled) = basketClear l s := by
  simp only [endWeigh_bagCheck, modLane_eq, lane_setLane_same, clearBasket_state]
  rfl

theorem basketClear_receiveBuffer (l : LaneId) (s : State) : (basketClear l s).2.receiveBuffer = s.receiveBuffer :=
  endWeigh_receiveBuffer _ l _

/-- A basket clear at dispatch, in the words of the statements. -/
theorem settle_basketClear (s : State) (l : LaneId) (k : ReqKind) (tag : Byte) (p : List Byte) :
    settle (requestFrame (laneAddr l) k tag p) s.upstream.length (basketClear l s.taken) =
      s.accepts (laneAddr l) k.code tag [(s.lane l).bagCheck.state.afterClear.value] (fun x =>
        match (s.lane l).weigh with
        | none => x.setLane l (s.lane l).clearBasket
        | some w => (x.setLane l { (s.lane l).clearBasket with weigh := none }).offerLane l 0x83 (weighEnded w 2 0)) := by
  have hn : s.taken.lane l = s.lane l := rfl
  have hw : ((s.taken.setLane l (s.lane l).clearBasket).lane l).weigh = (s.lane l).weigh := by rw [lane_setLane_same]; rfl
  unfold basketClear
  rw [hn]
  cases h : (s.lane l).weigh with
  | none =>
    rw [endWeigh_none (hw.trans h)]
    rfl
  | some w =>
    rw [endWeigh_some (hw.trans h), lane_setLane_same, setLane_setLane]
    rfl

/-! ## NEW_BASKET and ABANDON_BASKET (R63) -/

theorem takeNewBasket_eq (l : LaneId) (s : State) :
    takeNewBasket l s =
      let n := s.lane l
      if n.basketState = .opened ∨ n.basketState = .tendering then refuse .basketActive s
      else if n.basketState = .empty then accept [n.bagCheck.state.value] (s.endWeigh l .cancelled)
      else if n.till.state = .releasing ∨ n.till.state = .checking ∨ n.till.state = .opened ∨
        n.till.state = .leftOpen then
        refuse .drawerOpen s
      else basketClear l s := by
  unfold takeNewBasket
  have hclear : takeNewBasket.cleared l s = basketClear l s := basketClear_eq l s
  simp only [hclear]
  cases (s.lane l).basketState with
  | empty => rfl
  | opened => rfl
  | tendering => rfl
  | settled => cases (s.lane l).till.state <;> rfl

theorem takeAbandonBasket_eq (l : LaneId) (s : State) :
    takeAbandonBasket l s =
      let n := s.lane l
      if n.basketState = .empty then refuse .badValue s
      else if n.basketState = .settled then refuse .basketSettled s
      else if n.mode = .self ∧ n.authority = none then refuse .authorityNeeded s
      else if ∃ t ∈ n.tenders, t.kind = .card then refuse .basketPaid s
      else if n.card.slot ≠ none then refuse .handoffPending s
      else basketClear l s := by
  unfold takeAbandonBasket
  simp only [basketClear_eq, Lane.staffed, Lane.handoffOutstanding, Bool.and_eq_true, decide_eq_true_eq, Bool.not_eq_true',
    Option.isSome_eq_false_iff, Option.isNone_iff_eq_none, List.any_eq_true, beq_iff_eq, Option.isSome_iff_ne_none]

theorem exec_newBasket {s : State} {l : LaneId} (h : s.Serves l) (tag : Byte) :
    exec (.newBasket (laneAddr l) tag) s =
      .next (settle (requestFrame (laneAddr l) .newBasket tag []) s.upstream.length (takeNewBasket l s.taken)) := by
  refine exec_lane .newBasket tag [] h rfl rfl rfl rfl rfl (toLane_laneAddr l _ _) ?_
  rw [takeNewBasket_eq]
  exact receiveBuffer_ite rfl (receiveBuffer_ite (endWeigh_receiveBuffer _ l _)
    (receiveBuffer_ite rfl (basketClear_receiveBuffer l _)))

theorem exec_abandonBasket {s : State} {l : LaneId} (h : s.Serves l) (tag : Byte) :
    exec (.abandonBasket (laneAddr l) tag) s =
      .next (settle (requestFrame (laneAddr l) .abandonBasket tag []) s.upstream.length (takeAbandonBasket l s.taken)) := by
  refine exec_lane .abandonBasket tag [] h rfl rfl rfl rfl rfl (toLane_laneAddr l _ _) ?_
  rw [takeAbandonBasket_eq]
  iterate 5 refine receiveBuffer_ite rfl ?_
  exact basketClear_receiveBuffer l _

/-- On an EMPTY basket only the pending weigh request ends (R29, R63). -/
theorem settle_endWeigh (s : State) (l : LaneId) (k : ReqKind) (tag : Byte) (p detail : List Byte) :
    settle (requestFrame (laneAddr l) k tag p) s.upstream.length (accept detail (s.taken.endWeigh l .cancelled)) =
      s.accepts (laneAddr l) k.code tag detail (fun x =>
        match (s.lane l).weigh with
        | none => x
        | some w => (x.setLane l { s.lane l with weigh := none }).offerLane l 0x83 (weighEnded w 2 0)) := by
  have hw : (s.taken.lane l).weigh = (s.lane l).weigh := rfl
  cases h : (s.lane l).weigh with
  | none =>
    rw [endWeigh_none (hw.trans h)]
    rfl
  | some w =>
    rw [endWeigh_some (hw.trans h)]
    rfl

/-- Settles O49: the tests in their order, then the basket clear with the bag check's part written out. -/
theorem basketClearsEndTheSale : Obligations.BasketClearsEndTheSale := by
  unfold Obligations.BasketClearsEndTheSale
  constructor
  · intro s l tag h n st entered cleared
    have hn : s.taken.lane l = n := rfl
    have hcleared : n.clearBasket = cleared := by rw [Lane.clearBasket, basketCleared_eq]
    rw [exec_newBasket h, takeNewBasket_eq]
    simp only [hn, apply_ite (settle _ _), settle_refuse, settle_endWeigh, settle_basketClear]
    rw [show s.lane l = n from rfl, hcleared]
    rfl
  · intro s l tag h n st entered cleared
    have hn : s.taken.lane l = n := rfl
    have hcleared : n.clearBasket = cleared := by rw [Lane.clearBasket, basketCleared_eq]
    rw [exec_abandonBasket h, takeAbandonBasket_eq]
    simp only [hn, apply_ite (settle _ _), settle_refuse, settle_basketClear]
    rw [show s.lane l = n from rfl, hcleared]
    rfl

end Sys2Proof.Machine
end

