-- ==== Sys2Proof/Proofs/Captures.lean ====
section
/-! Platter readings against a pending weigh request (R30 to R43), and the obligation. -/

namespace Sys2Proof.Machine

/-! ## The tests of a platter reading against a pending request (R31 to R35) -/

/-- The tare of a capture (R32), as the statements write it: value, kind, net and division. -/
abbrev chosenTare (k : Calib) (itemTare : Option Nat) (g nd t : Int) (tk : TareKind) (d : Nat) :
    Option (Int × TareKind × Int × Nat) :=
  if tk = .weighed ∨ tk = .preset then some (t, tk, nd, d)
  else match itemTare with
    | none => some (0, .noTare, nd, d)
    | some it =>
      let v := roundTo it k.d1
      let net := g - v
      let d' := if |net| ≤ k.m1 then k.d1 else k.d2
      if 0 < v ∧ v ≤ k.max then some (v, .item, roundTo net d', d') else none

theorem captureTare_eq (k : Calib) (it : Option Nat) (g nd t : Int) (tk : TareKind) (d : Nat) (st : ReadStatus)
    (net centre : Bool) :
    captureTare k ⟨st, some nd, t, tk, some d, net, centre⟩ g it =
      (chosenTare k it g nd t tk d).map fun x => ⟨x.1, x.2.1, x.2.2.1, x.2.2.2⟩ := by
  have hitem (i : Nat) : captureTare.withItem k g i =
      (chosenTare k (some i) g nd t .noTare d).map fun x => ⟨x.1, x.2.1, x.2.2.1, x.2.2.2⟩ := by
    have hk : ¬ (TareKind.noTare = .weighed ∨ TareKind.noTare = .preset) := by simp
    unfold captureTare.withItem chosenTare
    dsimp only
    rw [if_neg hk, apply_ite (Option.map _)]
    rfl
  cases tk with
  | weighed => rfl
  | preset => rfl
  | noTare =>
    cases it with
    | none => rfl
    | some i => exact hitem i
  | item =>
    cases it with
    | none => rfl
    | some i => exact hitem i

/-- The first test of a capture's net, lane, basket and log that fails (R33, R34). -/
abbrev firstFailure (n : Lane) (k : Calib) (net : Int) : Option FailedTest :=
  if net < ((20 * k.d1 : Nat) : Int) then some .underMinimum
  else if (k.max : Int) < net then some .overCapacity
  else if n.mode = .self ∧ n.bagCheck.state ≠ .settled then some .bagNotSettled
  else if (n.basketState ≠ .empty ∧ n.basketState ≠ .opened) ∨ 64 ≤ n.entries.length then some .basketNotOpen
  else if 80 ≤ n.log.length ∧ ∀ c ∈ n.log, c.held = true then some .logFull else none

/-- A capture that fails no test finds room in the log (R34). -/
theorem firstFailure_room {n : Lane} {k : Calib} {net : Int} (h : firstFailure n k net = none) :
    ¬ (80 ≤ n.log.length ∧ ∀ c ∈ n.log, c.held = true) := by
  intro hfull
  unfold firstFailure at h
  rw [if_pos hfull] at h
  split_ifs at h

theorem weighedPrice_eq (net : Int) (p : Nat) : weighedPrice net p = (net.toNat * p + 500000) / 1000000 := by
  simp only [weighedPrice, roundHalfUp]
  omega

/-- The tests of a STABLE reading on an armed platter of a lane that is not closed (R32 to R35). -/
theorem captureTests_stable {n : Lane} (hm : n.mode ≠ .closed) (ha : n.armed = true) (k : Calib) (w : WeighRequest)
    (g nd t : Int) (tk : TareKind) (d : Nat) (net centre : Bool) :
    captureTests n k w ⟨.stable, some nd, t, tk, some d, net, centre⟩ g =
      match chosenTare k w.itemTare g nd t tk d with
      | none => .refused .refusedTareRange
      | some x =>
        match firstFailure n k x.2.2.1 with
        | some f => .fails f
        | none =>
          let price := (x.2.2.1.toNat * w.price + 500000) / 1000000
          if 9999999 < price then .refused .refusedPriceLimit else .taken ⟨x.1, x.2.1, x.2.2.1, x.2.2.2⟩ price := by
  unfold captureTests logSize
  rw [if_neg hm, if_neg (by simp), if_neg (by simp [ha]), captureTare_eq]
  cases chosenTare k w.itemTare g nd t tk d with
  | none => rfl
  | some x =>
    simp only [Option.map_some, weighedPrice_eq, firstFailure, Bool.and_eq_true, Bool.or_eq_true, decide_eq_true_eq,
      bne_iff_ne, List.all_eq_true]
    split_ifs <;> rfl

/-! ## What becomes of a reading with a request pending (R31) -/

/-- The tests are those of the lane with the arming test made (R30, R31). -/
theorem platterReading_some {s : State} {l : LaneId} {w : WeighRequest} (h : (s.lane l).weigh = some w) (k : Calib)
    (r : Reading) (g : Int) :
    s.platterReading l k r g =
      let s1 := s.setLane l ((s.lane l).armedAt k g)
      match captureTests ((s.lane l).armedAt k g) k w r g with
      | .fails f => s1.noteFailure l w f
      | .refused o => s1.endWeigh l o
      | .taken t p => s1.takeCapture l w t p := by
  have hw : ((s.lane l).armedAt k g).weigh = some w := h
  unfold State.platterReading
  rw [armingTest_eq]
  simp only [lane_setLane_same, hw] <;> rfl

/-- A failed test is noted in the request (R43). -/
theorem noteFailure_noted {s : State} {l : LaneId} {w : WeighRequest} {f : FailedTest}
    (h : f ≠ .logFull ∨ w.logFullReported = true) :
    s.noteFailure l w f = s.setLane l { s.lane l with weigh := some { w with failed := f } } := by
  have hc : ¬ (decide (f = .logFull) && !w.logFullReported) = true := by
    obtain h | h := h <;> simp [h]
  unfold State.noteFailure
  rw [if_neg hc, modLane_eq]

/-- A full log is reported once per request (R34). -/
theorem noteFailure_logFull {s : State} {l : LaneId} {w : WeighRequest} (h : w.logFullReported = false) :
    s.noteFailure l w .logFull =
      (s.setLane l { s.lane l with
        weigh := some { w with failed := .logFull, logFullReported := true } }).raiseLane l .logFull := by
  unfold State.noteFailure
  rw [if_pos (by simp [h]), modLane_eq]

section Pending

variable {s : State} {l : LaneId} {w : WeighRequest} {k : Calib} {r : Reading} {g : Int}

theorem platterReading_fails (h : (s.lane l).weigh = some w) {f : FailedTest}
    (ht : captureTests ((s.lane l).armedAt k g) k w r g = .fails f) (hf : f ≠ .logFull ∨ w.logFullReported = true) :
    s.platterReading l k r g = s.setLane l { (s.lane l).armedAt k g with weigh := some { w with failed := f } } := by
  rw [platterReading_some h, ht]
  dsimp only
  rw [noteFailure_noted hf, setLane_setLane, lane_setLane_same]

theorem platterReading_logFull (h : (s.lane l).weigh = some w)
    (ht : captureTests ((s.lane l).armedAt k g) k w r g = .fails .logFull) (hf : w.logFullReported = false) :
    s.platterReading l k r g =
      (s.setLane l { (s.lane l).armedAt k g with
        weigh := some { w with failed := .logFull, logFullReported := true } }).raiseLane l .logFull := by
  rw [platterReading_some h, ht]
  dsimp only
  rw [noteFailure_logFull hf, setLane_setLane, lane_setLane_same]

theorem platterReading_refused (h : (s.lane l).weigh = some w) {o : WeighOutcome}
    (ht : captureTests ((s.lane l).armedAt k g) k w r g = .refused o) :
    s.platterReading l k r g =
      (s.setLane l { (s.lane l).armedAt k g with weigh := none }).offerLane l 0x83 (weighEnded w o.value o.reason) := by
  have hw : ((s.setLane l ((s.lane l).armedAt k g)).lane l).weigh = some w := by rw [lane_setLane_same]; exact h
  rw [platterReading_some h, ht]
  dsimp only
  rw [endWeigh_some hw, setLane_setLane, lane_setLane_same]

end Pending

/-- The tests that come before the tare, in order (R31). -/
theorem captureTests_early (n : Lane) (k : Calib) (w : WeighRequest) (r : Reading) (g : Int) :
    (n.mode = .closed → captureTests n k w r g = .fails .laneClosed) ∧
    (n.mode ≠ .closed → r.status ≠ .stable → captureTests n k w r g = .fails .notStable) ∧
    (n.mode ≠ .closed → r.status = .stable → n.armed = false → captureTests n k w r g = .fails .disarmed) := by
  unfold captureTests
  refine ⟨fun hm => if_pos hm, fun hm hr => ?_, fun hm hr ha => ?_⟩
  · rw [if_neg hm, if_pos hr]
  · rw [if_neg hm, if_neg (not_not.mpr hr), if_pos (by simp [ha])]

/-! ## A capture is taken (R36, R37) -/

/-- The entry of a capture (R37). -/
theorem weighedEntry_eq (mode : LaneMode) (w : WeighRequest) (c : Capture) :
    let bag : BagState := if mode ≠ .self then .notChecked else if w.exempt then .exempt else .awaiting
    weighedEntry mode w c =
      { kind := .weighed, code := w.code, quantity := 1, unitPrice := w.price, linePrice := c.price, capture := some c.number
        net := some c.net, voided := false, bag := bag, expected := if bag = .awaiting then some c.net else none
        tolerance := if bag = .awaiting then some ((w.tolerance.getD 0 : Nat) : Int) else none } := by
  cases mode with
  | attended => rfl
  | closed => rfl
  | self =>
    unfold weighedEntry
    cases w.exempt <;> rfl

/-- A log without room is full of held records. -/
theorem log_room {n : Lane} (h : n.log.length ≤ 80) (hfree : ¬ (80 ≤ n.log.length ∧ ∀ c ∈ n.log, c.held = true)) :
    n.log.length < 80 ∨ (n.log.length ≤ 80 ∧ ∃ x ∈ n.log, x.held = false) := by
  by_cases hlen : n.log.length < 80
  · exact .inl hlen
  · have hsome : ¬ ∀ c ∈ n.log, c.held = true := fun hall => hfree ⟨Nat.le_of_not_lt hlen, hall⟩
    push Not at hsome
    simpa [h] using Or.inr hsome

/-- A capture fills the lowest free record, disarms, appends its entry, and offers its WEIGH_ENDED (R37). -/
theorem takeCapture_eq {s : State} {l : LaneId} (w : WeighRequest) (t : CaptureTare) (price : Nat)
    (hroom : (s.lane l).log.length < 80 ∨ ((s.lane l).log.length ≤ 80 ∧ ∃ x ∈ (s.lane l).log, x.held = false)) :
    s.takeCapture l w t price =
      let n := s.lane l
      let num := findNumber n.log (logSize + 1) n.nextCapture
      let c : Capture := ⟨num, t.net, t.d, t.tare, t.kind, w.price, price, true, 0⟩
      let e := weighedEntry n.mode w c
      let m : Lane := { n with weigh := none, armed := false, nextCapture := nextNumber num, log := placed c n.log }
      (s.setLane l (m.withEntry e (s.laneSettings l))).offerLane l 0x83
        (weighPricedPayload w.code (n.entries.length + 1) c e.bag) := by
  unfold State.takeCapture
  dsimp only
  rw [logSize, fillFree_eq _ 80 _ hroom, appendEntry_eq, setLane_setLane, lane_setLane_same, lane_setLane_same,
    Lane.withEntry_entries]
  simp only [List.length_append, List.length_singleton]
  rfl

/-- Settles O52: the RUNNING evaluation of R20 hands its reading on, and each case of its tests is written out. -/
theorem capturesTakeOneCertifiedReading : Obligations.CapturesTakeOneCertifiedReading := by
  unfold Obligations.CapturesTakeOneCertifiedReading
  refine ⟨?_, ?_, ?_, ?_, fun s l w h hw ht => exec_weighTimerExpiry h hw ht⟩
  · intro s l raw k h hr hcr hk hl
    obtain ⟨hcause, hret⟩ := hcr
    have hs : s.sample l .platter raw.toNat = s.evaluate l .platter raw.toNat := by simp only [State.sample, hr]
    rw [exec_sampleArrival h, hs, evaluate_running s l .platter k _ hr hk,
      ← Channel.evaluated_silence _ k _ hr hcause hret, Channel.evaluated_eq _ k raw hl]
    rfl
  · intro s l k r g w hw n armed fails
    obtain ⟨hclosed, hstatus, harmed⟩ := captureTests_early (n.armedAt k g) k w r g
    refine ⟨fun hm => ?_, fun hm hr => ?_, fun hm hr ha => ?_⟩
    · exact platterReading_fails hw (hclosed hm) (.inl nofun)
    · exact platterReading_fails hw (hstatus hm hr) (.inl nofun)
    · exact platterReading_fails hw (harmed hm hr (decide_eq_false ha)) (.inl nofun)
  · intro s l k g nd t tk d net centre w f hw hm ha n armed tare first
    have htests := captureTests_stable (n := n.armedAt k g) hm (decide_eq_true ha) k w g nd t tk d net centre
    rw [show chosenTare k w.itemTare g nd t tk d = tare from rfl] at htests
    refine ⟨fun x hx hf hnew => ?_, fun x hx hf hnew => ?_, fun hnone => ?_, fun x hx hf hprice => ?_⟩
    · rw [Option.mem_def.mp hx] at htests
      refine platterReading_fails hw (htests.trans ?_) hnew
      dsimp only
      rw [show firstFailure (n.armedAt k g) k x.2.2.1 = some f from hf]
    · rw [Option.mem_def.mp hx] at htests
      refine platterReading_logFull hw (htests.trans ?_) hnew
      dsimp only
      rw [show firstFailure (n.armedAt k g) k x.2.2.1 = some .logFull from hf]
    · rw [hnone] at htests
      exact platterReading_refused hw htests
    · rw [Option.mem_def.mp hx] at htests
      refine platterReading_refused (o := .refusedPriceLimit) hw (htests.trans ?_)
      dsimp only
      rw [show firstFailure (n.armedAt k g) k x.2.2.1 = none from hf]
      exact if_pos hprice
  · intro s l k g nd t tk d net centre w v cn kind cd hw hm ha hlaw n tare first htare hfirst hprice after
    obtain ⟨passed, hnum, hpassed, hown, hlo, hhi⟩ := captureNumber_spec (hlaw l)
    simp only [List.mem_map, not_exists, not_and] at hpassed hown
    refine ⟨findNumber n.log (logSize + 1) n.nextCapture, passed, hlo, hhi, hown, hnum, hpassed, ?_⟩
    intro price c bag e m
    have htests := captureTests_stable (n := n.armedAt k g) hm (decide_eq_true ha) k w g nd t tk d net centre
    rw [show chosenTare k w.itemTare g nd t tk d = some (v, kind, cn, cd) from htare] at htests
    dsimp only at htests
    rw [show firstFailure (n.armedAt k g) k cn = none from hfirst, if_neg (Nat.not_lt.mpr hprice)] at htests
    have hroom := log_room (hlaw l).1 (firstFailure_room hfirst)
    rw [platterReading_some hw, htests]
    dsimp only
    rw [takeCapture_eq w _ _ (by rw [lane_setLane_same]; exact hroom), lane_setLane_same]
    simp only [setLane_setLane, weighedEntry_eq]
    rfl

end Sys2Proof.Machine
end

