-- ==== Sys2Proof/Proofs/PrintRequests.lean ====
section
/-! PRINT_BEGIN, PRINT_DATA, PRINT_END and PRINT_CANCEL (R134 to R141), and the obligation. -/

namespace Sys2Proof.Machine

/-! ## The printer port leaves the trunk link's buffer -/

@[simp] theorem modLane_receiveBuffer (s : State) (l : LaneId) (f : Lane → Lane) :
    (s.modLane l f).receiveBuffer = s.receiveBuffer := rfl

@[simp] theorem setPort_receiveBuffer (s : State) (l : LaneId) (p : Port) :
    (s.setPort l p).receiveBuffer = s.receiveBuffer := rfl

@[simp] theorem offerPrint_receiveBuffer (s : State) (l : LaneId) (j : Job) (e : PrintEvent) :
    (s.offerPrint l j e).receiveBuffer = s.receiveBuffer := offerLane_receiveBuffer s l _ _

@[simp] theorem suspend_receiveBuffer (s : State) (l : LaneId) (j : Job) (why : SuspendReason) :
    (s.suspend l j why).receiveBuffer = s.receiveBuffer := by simp [State.suspend]

@[simp] theorem selectJob_receiveBuffer (s : State) (l : LaneId) : (s.selectJob l).receiveBuffer = s.receiveBuffer := by
  unfold State.selectJob
  dsimp only
  split
  · rfl
  · split
    · rfl
    · split <;> simp

@[simp] theorem sendJobFrame_receiveBuffer (s : State) (l : LaneId) (j : Job) (f : JobFrame) :
    (s.sendJobFrame l j f).receiveBuffer = s.receiveBuffer := rfl

@[simp] theorem completeJob_receiveBuffer (s : State) (l : LaneId) (j : Job) :
    (s.completeJob l j).receiveBuffer = s.receiveBuffer := by simp [State.completeJob]

theorem pump_receiveBuffer (l : LaneId) (k : Nat) (s : State) : (State.pump l k s).receiveBuffer = s.receiveBuffer := by
  induction k generalizing s with
  | zero => rfl
  | succ k ih =>
    unfold State.pump
    dsimp only
    split
    · simp
    · split
      · simp
      · split
        · simp
        · split
          · simp
          · split
            · split <;> simp
            · simp [ih]

@[simp] theorem port_receiveBuffer (s : State) (l : LaneId) : (s.port l).receiveBuffer = s.receiveBuffer :=
  pump_receiveBuffer l _ s

@[simp] theorem noteMissing_receiveBuffer (s : State) (l : LaneId) (refs : List Reference) :
    (s.noteMissing l refs).receiveBuffer = s.receiveBuffer := by
  unfold State.noteMissing
  split
  · rfl
  · exact raiseLane_receiveBuffer s l _

/-! ## A lane's jobs by number and by state (R134, R136) -/

/-- The only member of a list that passes a test is the one a search finds. -/
theorem find?_eq_of_filter_le_one {α : Type} {p : α → Bool} {xs : List α} {x : α}
    (h : (xs.filter p).length ≤ 1) (hx : x ∈ xs) (hp : p x = true) : xs.find? p = some x := by
  rw [← List.head?_filter]
  have hmem : x ∈ xs.filter p := List.mem_filter.mpr ⟨hx, hp⟩
  cases hf : xs.filter p with
  | nil => simp [hf] at hmem
  | cons y ys =>
    obtain rfl : ys = [] := by
      rw [hf] at h
      exact List.eq_nil_of_length_eq_zero (by simpa using h)
    rw [hf, List.mem_singleton] at hmem
    rw [hmem]
    rfl

/-- Jobs with numbers of their own around one of them. -/
theorem jobs_split {jobs : List Job} {j : Job} (hd : (jobs.map (·.number)).Nodup) (hj : j ∈ jobs) :
    ∃ a b, jobs = a ++ j :: b ∧ (∀ y ∈ a, y.number ≠ j.number) ∧ ∀ y ∈ b, y.number ≠ j.number := by
  obtain ⟨a, b, rfl⟩ := List.append_of_mem hj
  rw [List.map_append, List.map_cons, List.nodup_append] at hd
  obtain ⟨-, hb, hab⟩ := hd
  refine ⟨a, b, rfl, fun y hy => hab _ (List.mem_map_of_mem hy) _ List.mem_cons_self, fun y hy h => ?_⟩
  exact (List.nodup_cons.mp hb).1 (h ▸ List.mem_map_of_mem hy)

theorem job_eq {n : Lane} {j : Job} (hd : (n.jobs.map (·.number)).Nodup) (hj : j ∈ n.jobs) : n.job j.number = some j := by
  obtain ⟨a, b, hjobs, ha, -⟩ := jobs_split hd hj
  unfold Lane.job
  rw [hjobs, List.find?_append, List.find?_eq_none.mpr fun y hy => by simpa using ha y hy]
  simp

/-- A change of the job of a number is a change of the one job that has it. -/
theorem modJob_eq {n : Lane} {j : Job} (hd : (n.jobs.map (·.number)).Nodup) (hj : j ∈ n.jobs)
    (m : Lane) (hm : m.jobs = n.jobs) (g : Job → Job) :
    m.modJob j.number g = { m with jobs := n.jobs.map fun y => if y.number = j.number then g j else y } := by
  obtain ⟨a, b, hjobs, ha, hb⟩ := jobs_split hd hj
  unfold Lane.modJob
  rw [hm]
  refine congrArg (fun jobs => { m with jobs := jobs }) (List.map_congr_left fun y hy => ?_)
  by_cases hn : y.number = j.number
  · have hyj : y = j := List.inj_on_of_nodup_map hd hy hj hn
    rw [hyj]
    simp
  · simp [hn]

/-- The stream octets of a lane whose one job is changed. -/
theorem streams_modified {jobs : List Job} {j : Job} (hd : (jobs.map (·.number)).Nodup) (hj : j ∈ jobs) (k : Job)
    (more : Nat) (hk : k.stream.length = j.stream.length + more) :
    ((jobs.map fun y => if y.number = j.number then k else y).map fun y => y.stream.length).sum =
      (jobs.map fun y => y.stream.length).sum + more := by
  obtain ⟨a, b, rfl, ha, hb⟩ := jobs_split hd hj
  have keeps (c : List Job) (hc : ∀ y ∈ c, y.number ≠ j.number) :
      (c.map fun y => if y.number = j.number then k else y) = c :=
    (List.map_congr_left fun y hy => if_neg (hc y hy)).trans (List.map_id c)
  simp only [List.map_append, List.map_cons, keeps a ha, keeps b hb, if_true, List.sum_append, List.sum_cons, hk]
  omega

theorem fillingOf_eq {n : Lane} {j : Job} {job : Byte} (h1 : (n.jobs.filter fun j => j.state == .filling).length ≤ 1)
    (hj : j ∈ n.jobs) (hs : j.state = .filling) (hn : j.number = job.toNat) : n.fillingOf job = some j := by
  have hf : n.fillingJob = some j := find?_eq_of_filter_le_one h1 hj (by simp [hs])
  simp only [Lane.fillingOf, hf, hn, if_true]

theorem fillingOf_none {n : Lane} {job : Byte} (h : ∀ j ∈ n.jobs, j.state = .filling → j.number ≠ job.toNat) :
    n.fillingOf job = none := by
  unfold Lane.fillingOf Lane.fillingJob
  cases hf : n.jobs.find? fun j => j.state == .filling with
  | none => rfl
  | some j => exact if_neg (h j (List.mem_of_find?_eq_some hf) (by simpa using List.find?_some hf))

/-! ## References in the octets of a job (R138) -/

/-- A complete reference is resolved by the record of its number when its print-hold count has room (R138, R40). -/
theorem resolve_eq (n : Lane) (num : Nat) :
    let found := ((n.log.find? fun c => c.number == num).map fun c => decide (c.holds < 255)).getD false
    let held : Lane := { n with log := n.log.map fun c => if c.number = num then { c with holds := c.holds + 1 } else c }
    n.resolve num = (if found then held else n, ⟨some num, found, found⟩) := by
  unfold Lane.resolve Lane.captureOf
  cases h : n.log.find? fun c => c.number == num with
  | none => rfl
  | some c =>
    by_cases hc : c.holds < 255
    · simp [maxHolds, hc, Lane.modHolds]
    · simp [maxHolds, hc]

theorem scanOctets_normal (n : Lane) (b : Byte) (rest : List Byte) :
    scanOctets n .normal (b :: rest) = scanOctets n (if b = 0x1E then .first else .normal) rest := by
  by_cases hb : b = 0x1E
  · rw [hb]
    rfl
  · simp only [scanOctets, scanOctet, if_neg hb]

theorem scanOctets_first (n : Lane) (b : Byte) (rest : List Byte) :
    scanOctets n .first (b :: rest) = scanOctets n (.second b) rest := rfl

theorem scanOctets_second (n : Lane) (hi b : Byte) (rest : List Byte) :
    scanOctets n (.second hi) (b :: rest) =
      let r := n.resolve (hi.toNat * 256 + b.toNat)
      let y := scanOctets r.1 .normal rest
      (y.1, y.2.1, r.2 :: y.2.2) := rfl

theorem scanOctets_append (n : Lane) (x : ScanState) (a b : List Byte) :
    scanOctets n x (a ++ b) =
      let y := scanOctets n x a
      let z := scanOctets y.1 y.2.1 b
      (z.1, z.2.1, y.2.2 ++ z.2.2) := by
  induction a generalizing n x with
  | nil => rfl
  | cons o a ih =>
    cases x with
    | normal => rw [List.cons_append, scanOctets_normal, scanOctets_normal, ih]
    | first => rw [List.cons_append, scanOctets_first, scanOctets_first, ih]
    | second hi => rw [List.cons_append, scanOctets_second, scanOctets_second]; dsimp only; rw [ih]; rfl

theorem resolve_jobs (n : Lane) (num : Nat) : (n.resolve num).1.jobs = n.jobs := by
  rw [resolve_eq]
  dsimp only
  split <;> rfl

theorem scanOctets_jobs (n : Lane) (x : ScanState) (octets : List Byte) : (scanOctets n x octets).1.jobs = n.jobs := by
  induction octets generalizing n x with
  | nil => rfl
  | cons b octets ih =>
    cases x with
    | normal => rw [scanOctets_normal, ih]
    | first => rw [scanOctets_first, ih]
    | second hi => rw [scanOctets_second]; exact (ih _ _).trans (resolve_jobs n _)

/-! ## The partition (R135) -/

theorem freeOctets_setLane (s : State) (l : LaneId) (n : Lane) :
    (s.setLane l n).freeOctets l = s.partition - (n.jobs.map fun j => j.stream.length).sum := by
  have h : (s.setLane l n).freeOctets l =
      s.partition - (((s.setLane l n).lane l).jobs.map fun j => j.stream.length).sum := rfl
  rw [h, lane_setLane_same]

theorem raiseLane_freeOctets (s : State) (l : LaneId) (c : LaneCond) : (s.raiseLane l c).freeOctets l = s.freeOctets l := by
  obtain ⟨a, ha⟩ := raiseLane_lane s l c
  have hp : (s.raiseLane l c).partition = s.partition := by
    obtain h | ⟨a, h | ⟨f, -, h⟩⟩ := raiseLane_cases s l c <;> rw [h] <;> rfl
  have hfree (t : State) : t.freeOctets l = t.partition - ((t.lane l).jobs.map fun j => j.stream.length).sum := rfl
  rw [hfree, hfree, hp, ha]

theorem noteMissing_freeOctets (s : State) (l : LaneId) (refs : List Reference) :
    (s.noteMissing l refs).freeOctets l = s.freeOctets l := by
  unfold State.noteMissing
  split
  · rfl
  · exact raiseLane_freeOctets s l _

/-! ## PRINT_BEGIN (R136) -/

theorem exec_printBegin {s : State} {l : LaneId} (h : s.Serves l) (tag : Byte) :
    exec (.printBegin (laneAddr l) tag) s =
      .next (settle (requestFrame (laneAddr l) .printBegin tag []) s.upstream.length (takePrintBegin l s.taken)) :=
  exec_lane .printBegin tag [] h rfl rfl rfl rfl rfl (toLane_laneAddr l _ _)
    (receiveBuffer_ite rfl (receiveBuffer_ite rfl rfl))

theorem fillingJob_isSome (n : Lane) : n.fillingJob.isSome = true ↔ ∃ j ∈ n.jobs, j.state = .filling := by
  simp [Lane.fillingJob, List.find?_isSome]

/-- An accepted PRINT_BEGIN: an empty job leaves the free octets (R135, R136). -/
theorem takePrintBegin_eq (l : LaneId) (s : State) :
    takePrintBegin l s =
      let n := s.lane l
      let num := firstUnused 255 (n.jobs.map (·.number)) 4 (nextJobNumber n.jobCounter)
      if ∃ j ∈ n.jobs, j.state = .filling then refuse .jobOpen s
      else if 4 ≤ n.jobs.length then refuse .jobQueueFull s
      else accept (octet num :: be 2 (s.freeOctets l))
        (s.setLane l { n with jobs := n.jobs ++ [newJob num], jobCounter := num }) := by
  have hfree (num : Nat) : (s.setLane l { s.lane l with
      jobs := (s.lane l).jobs ++ [newJob num], jobCounter := num }).freeOctets l = s.freeOctets l := by
    rw [freeOctets_setLane]
    simp only [List.map_append, List.sum_append, List.map_cons, List.map_nil]
    rfl
  unfold takePrintBegin maxJobs
  simp only [hfree, fillingJob_isSome, findJobNumber_eq]

/-- The number a new job takes is its own, and the first after the counter that is (R136). -/
theorem jobNumber_spec {n : Lane} (hlen : n.jobs.length < 4) (hcounter : n.jobCounter ≤ 255) :
    let num := firstUnused 255 (n.jobs.map (·.number)) 4 (nextJobNumber n.jobCounter)
    ∃ p, 1 ≤ num ∧ num ≤ 255 ∧ (∀ j ∈ n.jobs, j.number ≠ num) ∧
      num = Nat.repeat nextJobNumber (p + 1) n.jobCounter ∧
      ∀ i, i < p → ∃ j ∈ n.jobs, j.number = Nat.repeat nextJobNumber (i + 1) n.jobCounter := by
  have hstart : 1 ≤ nextJobNumber n.jobCounter ∧ nextJobNumber n.jobCounter ≤ 255 := by
    rw [nextJobNumber]
    split <;> omega
  obtain ⟨p, hnum, hpassed, hown, hlo, hhi⟩ := firstUnused_spec (used := n.jobs.map (·.number)) hstart
    (k := 4) (by rw [List.length_map]; exact hlen) (by decide)
  simp only [List.mem_map, not_exists, not_and, ← nextJobNumber_eq, repeat_apply] at hnum hpassed hown
  exact ⟨p, hlo, hhi, hown, hnum, hpassed⟩

/-! ## PRINT_DATA (R137, R138) -/

theorem exec_printData {s : State} {l : LaneId} (h : s.Serves l) (tag job : Byte) {octets : List Byte}
    (ho : 1 ≤ octets.length ∧ octets.length ≤ 236) :
    exec (.printData (laneAddr l) tag job octets) s =
      .next (settle (requestFrame (laneAddr l) .printData tag (job :: octets)) s.upstream.length
        (takePrintData l job octets s.taken)) := by
  obtain ⟨hlo, hhi⟩ := ho
  refine exec_lane .printData tag (job :: octets) h rfl rfl rfl ?_ rfl (toLane_laneAddr l _ _) ?_
  · simp only [ReqKind.lengthOk, List.length_cons, Bool.and_eq_true, decide_eq_true_eq]
    omega
  · unfold takePrintData
    dsimp only
    split
    · rfl
    · refine receiveBuffer_ite rfl ?_
      exact noteMissing_receiveBuffer _ l _

/-- Some reference is MISSING (R138). -/
theorem all_resolved_iff (refs : List Reference) :
    (refs.all (·.resolved)) = !(refs.any fun r => !r.resolved) := by
  simp [List.not_any_eq_all_not]

theorem noteMissing_eq (s : State) (l : LaneId) (refs : List Reference) :
    s.noteMissing l refs = if refs.any (fun r => !r.resolved) then s.raiseLane l .weightRefMissing else s := by
  unfold State.noteMissing
  rw [all_resolved_iff]
  cases refs.any fun r => !r.resolved <;> rfl

theorem Job.append_eq (j : Job) (octets : List Byte) (scan : ScanState) (refs : List Reference) :
    j.append octets scan refs = { j with
      stream := j.stream ++ octets, scan := scan, refs := j.refs ++ refs
      flags := { j.flags with weightMissing := j.flags.weightMissing || refs.any fun r => !r.resolved } } := by
  unfold Job.append
  rw [all_resolved_iff]
  cases refs.any fun r => !r.resolved
  · simp
  · simp

/-- PRINT_DATA for the FILLING job: the lane with the job's octets appended and its references scanned. -/
theorem takePrintData_eq {s : State} {l : LaneId} {j : Job} {job : Byte} (octets : List Byte)
    (hd : ((s.lane l).jobs.map (·.number)).Nodup) (hj : j ∈ (s.lane l).jobs) (hf : (s.lane l).fillingOf job = some j) :
    takePrintData l job octets s =
      let n := s.lane l
      let x := scanOctets n j.scan octets
      let missing := x.2.2.any fun r => !r.resolved
      let m : Lane := { x.1 with jobs := n.jobs.map fun y => if y.number = j.number then { j with
          stream := j.stream ++ octets, scan := x.2.1, refs := j.refs ++ x.2.2
          flags := { j.flags with weightMissing := j.flags.weightMissing || missing } } else y }
      if s.freeOctets l < octets.length then refuse .bufferFull s
      else accept (be 2 (s.freeOctets l - octets.length) ++
          [octet (x.2.2.countP fun r => r.resolved), octet (x.2.2.countP fun r => !r.resolved)])
        (if missing then (s.setLane l m).raiseLane l .weightRefMissing else s.setLane l m) := by
  have hcount (refs : List Reference) :
      refs.length - (refs.filter (·.resolved)).length = refs.countP fun r => !r.resolved := by
    have h := List.length_eq_countP_add_countP (fun r : Reference => r.resolved) (l := refs)
    rw [← List.countP_eq_length_filter]
    simp only [Bool.not_eq_true, Bool.decide_eq_false] at h
    omega
  unfold takePrintData
  dsimp only
  rw [hf]
  dsimp only
  rw [modJob_eq hd hj _ (scanOctets_jobs _ _ _), Job.append_eq, noteMissing_freeOctets, freeOctets_setLane,
    streams_modified hd hj _ octets.length (List.length_append), ← Nat.sub_sub, hcount, noteMissing_eq,
    ← List.countP_eq_length_filter]
  rfl

/-! ## PRINT_END (R139) -/

theorem exec_printEnd {s : State} {l : LaneId} (h : s.Serves l) (tag job : Byte) :
    exec (.printEnd (laneAddr l) tag job) s =
      .next (settle (requestFrame (laneAddr l) .printEnd tag [job]) s.upstream.length (takePrintEnd l job s.taken)) := by
  refine exec_lane .printEnd tag [job] h rfl rfl rfl rfl rfl (toLane_laneAddr l _ _) ?_
  unfold takePrintEnd
  dsimp only
  split
  · rfl
  · exact (port_receiveBuffer _ l).trans (noteMissing_receiveBuffer _ l _)

/-- No job but the FILLING ones are in the queue when a PRINT_END selects its job (R139, R140). -/
theorem selected_iff (n : Lane) :
    (n.printingJob.isNone && n.suspendedJob.isNone && !n.jobs.any fun x => x.state == .ready) = true ↔
      ∀ y ∈ n.jobs, y.state = .filling := by
  simp only [Lane.printingJob, Lane.suspendedJob, Bool.and_eq_true, Option.isNone_iff_eq_none, List.find?_eq_none,
    Bool.not_eq_true', List.any_eq_false, beq_iff_eq]
  constructor
  · rintro ⟨⟨hprinting, hsuspended⟩, hready⟩ y hy
    cases hs : y.state with
    | filling => rfl
    | ready => exact absurd hs (hready y hy)
    | printing => exact absurd hs (hprinting y hy)
    | suspended => exact absurd hs (hsuspended y hy)
  · intro h
    refine ⟨⟨fun y hy => ?_, fun y hy => ?_⟩, fun y hy => ?_⟩ <;> simp [h y hy]

/-- An incomplete reference at the end is MISSING (R139). -/
theorem endReferences_missing (j : Job) :
    ((endReferences j).any fun r => !r.resolved) = decide (j.scan ≠ .normal) := by
  by_cases h : j.scan = .normal <;> simp [endReferences, h]

theorem append_endReferences (j : Job) :
    j.refs ++ endReferences j = if j.scan ≠ .normal then j.refs ++ [⟨none, false, false⟩] else j.refs := by
  by_cases h : j.scan = .normal <;> simp [endReferences, h]

/-- PRINT_END for the FILLING job. -/
theorem takePrintEnd_eq {s : State} {l : LaneId} {j : Job} {job : Byte} (hd : ((s.lane l).jobs.map (·.number)).Nodup)
    (hj : j ∈ (s.lane l).jobs) (hf : (s.lane l).fillingOf job = some j) :
    takePrintEnd l job s =
      let n := s.lane l
      let missing := j.scan ≠ .normal
      let selected := ∀ y ∈ n.jobs, y.state = .filling
      let y := s.setLane l { n with jobs := n.jobs.map fun y => if y.number = j.number then { j with
          state := .ready, scan := .normal, refs := if missing then j.refs ++ [⟨none, false, false⟩] else j.refs
          flags := { j.flags with weightMissing := j.flags.weightMissing || decide missing } } else y }
      accept [if selected then 2 else 1, octet (n.jobs.takeWhile fun y => y.number != j.number).length]
        ((if missing then y.raiseLane l .weightRefMissing else y).port l) := by
  unfold takePrintEnd
  dsimp only
  rw [hf]
  dsimp only
  rw [modLane_eq, modJob_eq hd hj _ rfl, Job.append_eq, noteMissing_eq, append_endReferences, endReferences_missing]
  simp only [selected_iff, Lane.jobsAhead, List.append_nil, decide_eq_true_eq, apply_ite JobState.value]
  rfl

/-! ## PRINT_CANCEL (R141) -/

theorem exec_printCancel {s : State} {l : LaneId} (h : s.Serves l) (tag job : Byte) :
    exec (.printCancel (laneAddr l) tag job) s =
      .next (settle (requestFrame (laneAddr l) .printCancel tag [job]) s.upstream.length (takePrintCancel l job s.taken)) := by
  refine exec_lane .printCancel tag [job] h rfl rfl rfl rfl rfl (toLane_laneAddr l _ _) ?_
  unfold takePrintCancel
  split
  · rfl
  · exact (port_receiveBuffer _ l).trans (offerPrint_receiveBuffer _ l _ _)

/-- The lane a PRINT_CANCEL leaves, in the words of the statements (R141). -/
theorem cancelJob_written (n : Lane) (j : Job) :
    n.cancelJob j = { n with
      jobs := n.jobs.filter fun y => y.number != j.number
      log := n.log.map fun c => { c with holds := c.holds - j.refs.countP fun r => r.hold && r.capture == some c.number }
      port := if j.state = .printing then { n.port with
          exchange := n.port.exchange.map fun x => if x.owner = .job j.number then { x with owner := .nobody } else x
          cutOwed := n.port.cutOwed || decide (j.lastSent = .line) } else n.port } := by
  unfold Lane.cancelJob
  rw [Lane.releaseHolds_eq]
  cases hs : j.state <;> rfl

theorem takePrintCancel_some {s : State} {l : LaneId} {j : Job} {job : Byte} (hf : (s.lane l).job job.toNat = some j) :
    takePrintCancel l job s =
      accept [j.state.value] (((s.setLane l ((s.lane l).cancelJob j)).offerPrint l j (.cancelled j.state)).port l) := by
  simp only [takePrintCancel, hf, modLane_eq]

theorem takePrintCancel_none {s : State} {l : LaneId} {job : Byte} (h : ∀ j ∈ (s.lane l).jobs, j.number ≠ job.toNat) :
    takePrintCancel l job s = refuse .noJob s := by
  have hf : (s.lane l).job job.toNat = none := List.find?_eq_none.mpr fun j hj => by simpa using h j hj
  simp only [takePrintCancel, hf]

/-- Settles O58: the four requests at dispatch, and the scan for references octet by octet and payload by payload. -/
theorem printJobsAreBuiltAndCancelled : Obligations.PrintJobsAreBuiltAndCancelled := by
  unfold Obligations.PrintJobsAreBuiltAndCancelled
  refine ⟨?_, ?_, ?_, ?_, ?_, fun n x a b => scanOctets_append n x a b, ?_, ?_, ?_⟩
  · intro s l tag h n
    have hn : s.taken.lane l = n := rfl
    rw [exec_printBegin h, takePrintBegin_eq, hn]
    dsimp only
    refine ⟨fun hopen => ?_, fun hnone hfull => ?_⟩
    · rw [if_pos hopen]
      rfl
    · rw [if_neg (by simpa using hnone), if_pos hfull]
      rfl
  · intro s l tag h hnone hlen hcounter n after
    have hn : s.taken.lane l = n := rfl
    obtain ⟨passed, hlo, hhi, hown, hnum, hpassed⟩ := jobNumber_spec hlen hcounter
    refine ⟨_, passed, hlo, hhi, hown, hnum, hpassed, ?_⟩
    rw [exec_printBegin h, takePrintBegin_eq, hn]
    dsimp only
    rw [if_neg (by simpa using hnone), if_neg (Nat.not_le.mpr hlen)]
    rfl
  · intro s l tag job octets h ho hnone
    have hf : (s.taken.lane l).fillingOf job = none := fillingOf_none hnone
    rw [exec_printData h tag job ho, exec_printEnd h]
    simp only [takePrintData, takePrintEnd, hf, settle_refuse]
    exact ⟨rfl, rfl⟩
  · intro s l tag job octets j h hlaw ho hj hs hnum n x missing m
    obtain ⟨-, -, hfilling, -, hd, -⟩ := hlaw l
    have hf : (s.taken.lane l).fillingOf job = some j := fillingOf_eq hfilling hj hs hnum
    rw [exec_printData h tag job ho, takePrintData_eq (s := s.taken) octets hd hj hf]
    dsimp only
    rw [apply_ite (settle _ _)]
    rfl
  · intro n x b hi rest num found held y
    refine ⟨rfl, scanOctets_normal n b rest, rfl, ?_⟩
    rw [scanOctets_second, resolve_eq]
  · intro s l tag job j h hlaw hj hs hnum n missing selected y
    obtain ⟨-, -, hfilling, -, hd, -⟩ := hlaw l
    have hf : (s.taken.lane l).fillingOf job = some j := fillingOf_eq hfilling hj hs hnum
    rw [exec_printEnd h, takePrintEnd_eq (s := s.taken) hd hj hf]
    rfl
  · intro s l tag job j h hlaw hj hnum n p m
    obtain ⟨-, -, -, -, hd, -⟩ := hlaw l
    have hf : (s.taken.lane l).job job.toNat = some j := hnum ▸ job_eq hd hj
    rw [exec_printCancel h, takePrintCancel_some hf, cancelJob_written]
    rfl
  · intro s l tag job h hnone
    rw [exec_printCancel h, takePrintCancel_none (s := s.taken) hnone]
    rfl

end Sys2Proof.Machine
end

