-- ==== Sys2Proof/Proofs/KeptSales.lean ====
section
/-! SUPPORT. What leaves the baskets lawful and the item and range tables alone: the relation of two states, and one lemma per
operation of the notices, the drawers, the printer ports and the part's own blocks. -/

namespace Sys2Proof.Machine

/-! ## The law of one lane's basket (R33, R49, R53, R60, R61) -/

/-- The line price of an entry is the quantity times the unit price, or the price of its net. -/
def Entry.Priced (e : Entry) : Prop :=
  e.linePrice =
    match e.kind with
    | .counted => e.quantity * e.unitPrice
    | .weighed => weighedPrice (e.net.getD 0) e.unitPrice

/-- What BasketLaw says of one lane. -/
structure Lane.SaleLaw (n : Lane) : Prop where
  entries : n.entries.length ≤ 64
  tenders : n.tenders.length ≤ 8
  priced : ∀ e ∈ n.entries, e.Priced
  slot : ∀ x ∈ n.card.slot, n.tenders.length ≤ 7 ∧ 1 ≤ x.amount ∧ n.due = x.amount

theorem basketLaw_iff (s : State) : BasketLaw s ↔ ∀ l, (s.lane l).SaleLaw := by
  refine forall_congr' fun l => ⟨fun h => ?_, fun h => ⟨h.entries, h.tenders, h.priced, h.slot⟩⟩
  obtain ⟨he, ht, hp, hs⟩ := h
  exact ⟨he, ht, hp, hs⟩

/-- An entry without its bag state, which no price and no total reads. -/
def Entry.sold (e : Entry) : Entry := { e with bag := .notChecked }

/-- What the law of a lane's basket reads of it: the entries but for their bag states, the tenders and the card slot. -/
def Lane.sale (n : Lane) : List Entry × List Tender × Option Slot :=
  (n.entries.map Entry.sold, n.tenders, n.card.slot)

/-- The lane keeps its sale. -/
abbrev SameSale (n m : Lane) : Prop := m.sale = n.sale

theorem sameSale_iff {n m : Lane} :
    SameSale n m ↔
      m.entries.map Entry.sold = n.entries.map Entry.sold ∧ m.tenders = n.tenders ∧ m.card.slot = n.card.slot := by
  simp only [SameSale, Lane.sale, Prod.mk.injEq]

theorem SameSale.trans {n m k : Lane} (h : SameSale n m) (h' : SameSale m k) : SameSale n k := Eq.trans h' h

theorem sold_priced (e : Entry) : e.sold.Priced ↔ e.Priced := Iff.rfl

/-- The total reads the entries without their bag states. -/
theorem total_sold (n : Lane) : n.total = (((n.entries.map Entry.sold).filter fun e => !e.voided).map (·.linePrice)).sum := by
  rw [Lane.total, List.filter_map, List.map_map]
  rfl

theorem SameSale.due {n m : Lane} (h : SameSale n m) : m.due = n.due := by
  obtain ⟨he, ht, -⟩ := sameSale_iff.mp h
  rw [Lane.due, Lane.due, total_sold, total_sold, he, Lane.tendered, Lane.tendered, ht]

theorem SameSale.saleLaw {n m : Lane} (h : SameSale n m) (hn : n.SaleLaw) : m.SaleLaw := by
  have hdue := h.due
  obtain ⟨he, ht, hs⟩ := sameSale_iff.mp h
  have hlen : m.entries.length = n.entries.length := by simpa using congrArg List.length he
  refine ⟨hlen ▸ hn.entries, ht ▸ hn.tenders, fun e hm => ?_, ?_⟩
  · obtain ⟨e', hm', hsold⟩ := List.mem_map.mp (he ▸ List.mem_map_of_mem hm : e.sold ∈ n.entries.map Entry.sold)
    rw [← sold_priced, ← hsold, sold_priced]
    exact hn.priced e' hm'
  · rw [hs, ht, hdue]
    exact hn.slot

/-! ## The relation -/

/-- The parts of the state that the laws of the baskets and of the tables read. -/
def State.trade (s : State) : Four Lane × List ItemRecord × List CardRange := (s.lanes, s.items, s.ranges)

/-- Every basket that meets its law in `s` meets it in `t`, and the item table and the range table are those of `s`. -/
structure KeepsSales (s t : State) : Prop where
  baskets : ∀ l, (s.lane l).SaleLaw → (t.lane l).SaleLaw
  items : t.items = s.items
  ranges : t.ranges = s.ranges

theorem KeepsSales.refl (s : State) : KeepsSales s s := ⟨fun _ h => h, rfl, rfl⟩

section
variable {s t u : State} {l : LaneId} (h : KeepsSales s t)
include h

theorem KeepsSales.trans (k : KeepsSales t u) : KeepsSales s u :=
  ⟨fun l hl => k.baskets l (h.baskets l hl), k.items.trans h.items, k.ranges.trans h.ranges⟩

theorem KeepsSales.basketLaw (hs : BasketLaw s) : BasketLaw t :=
  (basketLaw_iff t).mpr fun l => h.baskets l ((basketLaw_iff s).mp hs l)

theorem KeepsSales.tableLaw (hs : TableLaw s) : TableLaw t := by
  rw [TableLaw, h.items, h.ranges]
  exact hs

/-- A write of the part's own blocks. -/
theorem KeepsSales.part (hu : u.trade = t.trade) : KeepsSales s u := by
  obtain ⟨hl, hi, hr⟩ := by simpa only [State.trade, Prod.mk.injEq] using hu
  exact ⟨fun l hs => by rw [State.lane, hl]; exact h.baskets l hs, hi.trans h.items, hr.trans h.ranges⟩

/-- A lane replaced by one whose basket is lawful when the lane's was. -/
theorem KeepsSales.lawful {n : Lane} (hn : (t.lane l).SaleLaw → n.SaleLaw) : KeepsSales s (t.setLane l n) := by
  refine h.trans ⟨fun m hm => ?_, rfl, rfl⟩
  by_cases hl : m = l
  · subst hl
    rw [lane_setLane_same]
    exact hn hm
  · rwa [lane_setLane_ne t l m n hl]

/-- A lane replaced by one with the same sale. -/
theorem KeepsSales.setLane {n : Lane} (hn : SameSale (t.lane l) n) :
    KeepsSales s (t.setLane l n) :=
  h.lawful hn.saleLaw

theorem KeepsSales.modLane {g : Lane → Lane} (hn : SameSale (t.lane l) (g (t.lane l))) :
    KeepsSales s (t.modLane l g) :=
  h.lawful hn.saleLaw

theorem KeepsSales.setTill {x : Till} : KeepsSales s (t.setTill l x) := h.modLane (by rfl)

theorem KeepsSales.setBag {x : BagCheck} : KeepsSales s (t.setBag l x) := h.modLane (by rfl)

theorem KeepsSales.setPort {x : Port} : KeepsSales s (t.setPort l x) := h.modLane (by rfl)

theorem KeepsSales.setAttention {a : Attention} : KeepsSales s (t.setAttention l a) := h.modLane (by rfl)

theorem KeepsSales.setChan {c : Chan} {x : Channel} : KeepsSales s (t.setChan l c x) := h.modLane (by cases c <;> rfl)

theorem KeepsSales.modChan {c : Chan} {g : Channel → Channel} : KeepsSales s (t.modChan l c g) := h.setChan

/-! ## Conditions and notices -/

theorem KeepsSales.enqueue {f : Frame} : KeepsSales s (t.enqueue f) := h.part (by rfl)

theorem KeepsSales.raiseLane {c : LaneCond} : KeepsSales s (t.raiseLane l c) := by
  obtain hr | ⟨a, hr | ⟨f, -, hr⟩⟩ := raiseLane_cases t l c <;> rw [hr]
  · exact h
  · exact h.setAttention
  · exact h.setAttention.enqueue

theorem KeepsSales.raisePart {c : PartCond} : KeepsSales s (t.raisePart c) := by
  obtain hr | ⟨a, hr | ⟨f, -, hr⟩⟩ := raisePart_cases t c <;> rw [hr]
  · exact h
  · exact h.part (by rfl)
  · exact h.part (by rfl)

theorem KeepsSales.offerLane {k : Byte} {p : List Byte} : KeepsSales s (t.offerLane l k p) := by
  unfold State.offerLane
  split
  · exact h.enqueue
  · exact h.raiseLane

theorem KeepsSales.offerPart {k : Byte} {p : List Byte} : KeepsSales s (t.offerPart k p) := by
  unfold State.offerPart
  split
  · exact h.enqueue
  · exact h.raisePart

theorem KeepsSales.displayCheck {c : Chan} : KeepsSales s (t.displayCheck l c) := by
  obtain ⟨q, hq, -⟩ := offerDisplay_cases t l c (t.chan l c).shown
  have offered : KeepsSales s (t.offerDisplay l c (t.chan l c).shown).2 := by
    rw [hq]
    exact h.part (by rfl)
  unfold State.displayCheck
  dsimp only
  split
  · exact h
  · exact offered.modChan

/-! ## The drawers -/

theorem KeepsSales.offerDrawer {e : DrawerEvent} {attempt : Option Nat} : KeepsSales s (t.offerDrawer l e attempt) :=
  h.offerLane

theorem KeepsSales.admission : KeepsSales s t.admission := by
  have heads (k : Nat) : ∀ {t}, KeepsSales s t → KeepsSales s (State.admitHeads k t) := by
    induction k with
    | zero => exact fun h => h
    | succ k ih =>
      intro t h
      unfold State.admitHeads
      split
      · exact h
      · exact ih (h.part (by rfl)).setTill
  exact heads 4 h

theorem KeepsSales.confirmRelease : KeepsSales s (t.confirmRelease l) := h.setTill.offerDrawer

theorem KeepsSales.toChecking {cut : Bool} : KeepsSales s (t.toChecking l cut) := by
  unfold State.toChecking
  dsimp only
  split
  · exact (h.part (by rfl)).setTill.confirmRelease.admission
  · exact (h.part (by rfl)).setTill.admission

theorem KeepsSales.cutDrawers {ls : List LaneId} : KeepsSales s (ls.foldl State.cutDrawer t) := by
  induction ls generalizing t with
  | nil => exact h
  | cons l ls ih => exact ih h.toChecking

theorem KeepsSales.pulseExpires : KeepsSales s (t.pulseExpires l) := by
  unfold State.pulseExpires
  split
  · exact h.toChecking
  · exact h

theorem KeepsSales.checkExpires : KeepsSales s (t.checkExpires l) := by
  unfold State.checkExpires
  dsimp only
  split
  · exact h
  · split
    · exact (h.part (by rfl)).setTill.admission
    · split
      · exact h.setTill.offerDrawer.raiseLane
      · exact (h.part (by rfl)).setTill.offerDrawer.admission

theorem KeepsSales.sensorChange : KeepsSales s (t.sensorChange l) := by
  unfold State.sensorChange
  dsimp only
  split
  · exact (h.part (by rfl)).setTill.offerDrawer.raiseLane
  · exact (h.part (by rfl)).setTill.offerDrawer.raiseLane
  · exact h.confirmRelease
  · exact h.setTill.offerDrawer
  · exact h.setTill.offerDrawer
  · exact h.setTill.offerDrawer
  all_goals exact h

theorem KeepsSales.debounceExpires : KeepsSales s (t.debounceExpires l) := by
  unfold State.debounceExpires
  dsimp only
  split
  · exact h.setTill.sensorChange
  · exact h

theorem KeepsSales.leftOpenExpires : KeepsSales s (t.leftOpenExpires l) := by
  unfold State.leftOpenExpires
  dsimp only
  split
  · exact h.setTill.offerDrawer.raiseLane
  · exact h

theorem KeepsSales.joinQueue {token : Bool} : KeepsSales s (t.joinQueue l token) := by
  have joined : KeepsSales s (t.modLane l fun n =>
      { n with token := if token then false else n.token, till := { n.till with state := .waitingPower, retry := false } }) :=
    (h.modLane (by rfl))
  exact (joined.part (by rfl)).admission

theorem KeepsSales.drawerReset : KeepsSales s (t.drawerReset l) := by
  unfold State.drawerReset
  dsimp only
  split
  · exact (h.part (by rfl)).setTill
  · exact h

omit h

/-! ## Print jobs and the printer port -/

theorem Lane.resolve_sameSale (n : Lane) (num : Nat) : SameSale n (n.resolve num).1 := by
  rw [resolve_eq]
  dsimp only
  split <;> exact rfl

theorem scanOctets_sameSale (n : Lane) (x : ScanState) (o : List Byte) : SameSale n (scanOctets n x o).1 := by
  induction o generalizing n x with
  | nil => exact rfl
  | cons b o ih =>
    unfold scanOctets
    split
    · exact ih n _
    · exact (Lane.resolve_sameSale n _).trans (ih (n.resolve _).1 _)

theorem Lane.frameDone_sameSale (n : Lane) (num : Nat) : SameSale n (n.frameDone num) := by
  have block (m : Lane) (idx : Nat) : SameSale m (Lane.frameDone.blockDone m num idx) := by
    unfold Lane.frameDone.blockDone
    split
    · exact rfl
    · split
      · exact rfl
      · rw [Lane.releaseHolds_eq]
        exact rfl
  unfold Lane.frameDone
  split
  · exact rfl
  · split
    · exact rfl
    · exact rfl
    · dsimp only
      split
      · split
        · exact rfl
        · exact block (n.modJob num _) _
      · exact rfl

include h

theorem KeepsSales.suspend {j : Job} {why : SuspendReason} : KeepsSales s (t.suspend l j why) := by
  have stopped : KeepsSales s (t.modLane l fun n =>
      { n.modJob j.number (fun x => { x with state := .suspended }) with port := n.port.abandon (.job j.number) }) :=
    h.modLane (by rfl)
  exact stopped.offerLane.raiseLane

theorem KeepsSales.selectJob : KeepsSales s (t.selectJob l) := by
  unfold State.selectJob
  dsimp only
  split
  · exact h
  · split
    · exact h
    · split
      · exact h.modLane (by rfl)
      · exact (h.modLane (by rfl)).suspend

theorem KeepsSales.port : KeepsSales s (t.port l) := by
  have pump (k : Nat) : ∀ {t}, KeepsSales s t → KeepsSales s (State.pump l k t) := by
    induction k with
    | zero => exact fun h => h
    | succ k ih =>
      intro t h
      have selected : KeepsSales s (t.selectJob l) := h.selectJob
      unfold State.pump
      dsimp only
      split
      · exact selected
      · split
        · exact selected.setPort
        · split
          · exact selected
          · split
            · exact selected.modLane (by rfl)
            · split
              · split
                · exact selected.modLane (by rfl)
                · exact selected
              · exact ih (KeepsSales.offerLane (selected.modLane (by rfl)))
  exact pump _ h

theorem KeepsSales.exchangeDone {o : ExchangeOwner} : KeepsSales s (t.exchangeDone l o) := by
  unfold State.exchangeDone
  split
  · exact h.modLane (by rfl)
  · exact h.modLane (by rfl)
  · exact h.modLane (Lane.frameDone_sameSale _ _)

theorem KeepsSales.exchangeFailed {o : ExchangeOwner} {why : SuspendReason} : KeepsSales s (t.exchangeFailed l o why) := by
  unfold State.exchangeFailed
  split
  · exact h.modLane (by rfl)
  · exact h.modLane (by rfl)
  · dsimp only
    split
    · exact h.modLane (by rfl)
    · exact (h.modLane (by rfl)).suspend

theorem KeepsSales.lineDone {tag : Byte} : KeepsSales s (t.lineDone l tag) := by
  unfold State.lineDone
  dsimp only
  split
  · exact h.setPort
  · exact h.setPort.exchangeDone.port

theorem KeepsSales.lineFailed {tag : Byte} : KeepsSales s (t.lineFailed l tag) := by
  unfold State.lineFailed
  dsimp only
  split
  · exact h.setPort
  · exact h.setPort.exchangeFailed.port

theorem KeepsSales.answerExpires : KeepsSales s (t.answerExpires l) := by
  unfold State.answerExpires
  dsimp only
  split
  · exact h
  · split
    · exact h
    · exact h.exchangeFailed.port

theorem KeepsSales.statusStops {st : PrinterState} {why : SuspendReason} : KeepsSales s (t.statusStops l st why) := by
  unfold State.statusStops
  dsimp only
  split
  · exact h.setPort
  · exact h.setPort.suspend

theorem KeepsSales.statusRuns {st : PrinterState} : KeepsSales s (t.statusRuns l st) := by
  unfold State.statusRuns
  dsimp only
  split
  · exact h.setPort.port
  · exact (h.setPort.modLane (by rfl)).offerLane.port

theorem KeepsSales.printerSilent : KeepsSales s (t.printerSilent l) := by
  unfold State.printerSilent
  dsimp only
  split
  · exact h
  · split
    · exact h.setPort.raiseLane
    · exact h.setPort.suspend

theorem KeepsSales.printerArrive {f : Frame} : KeepsSales s (t.printerArrive l f) := by
  unfold State.printerArrive
  split
  · exact h.setPort
  · exact h.lineDone
  · exact h.lineFailed
  · rename_i report _
    cases report with
    | ready => exact h.statusRuns
    | paperLow => exact KeepsSales.raiseLane h.statusRuns
    | paperOut => exact h.statusStops
    | coverOpen => exact h.statusStops

theorem KeepsSales.printerBroken {cause : PrinterDiscard} : KeepsSales s (t.printerBroken l cause) := by
  cases cause with
  | gap => exact h.setPort
  | length => exact h.setPort
  | check => exact h.setPort
  | address f => exact h.printerArrive
  | kind f => exact h.printerArrive
  | payloadLength f => exact h.printerArrive
  | statusValue f => exact h.printerArrive

theorem KeepsSales.noteMissing {refs : List Reference} : KeepsSales s (t.noteMissing l refs) := by
  unfold State.noteMissing
  split
  · exact h
  · exact h.raiseLane

theorem KeepsSales.printReset : KeepsSales s (t.printReset l) := by
  rw [printReset_eq]
  exact h.setLane (by rfl)

/-! ## Staff authority, settings, supply, the trunk link's own -/

theorem KeepsSales.grantStaff {src : AuthoritySource} {number : Nat} : KeepsSales s (t.grantStaff l src number) :=
  h.modLane (by rfl)

theorem KeepsSales.staffExpires : KeepsSales s (t.staffExpires l) := by
  unfold State.staffExpires
  split
  · exact h
  · split
    · exact h.modLane (by rfl)
    · exact h

theorem KeepsSales.polaritySetting {old : Settings} : KeepsSales s (State.polaritySetting old t l) := by
  unfold State.polaritySetting
  split
  · exact h.setTill
  · exact h

theorem KeepsSales.budgetSetting {old : Settings} : KeepsSales s (t.budgetSetting old) := by
  unfold State.budgetSetting
  split
  · exact h.admission
  · split
    · exact h.cutDrawers
    · exact h

theorem KeepsSales.linkSetting {old : Settings} : KeepsSales s (t.linkSetting old) := by
  unfold State.linkSetting
  split
  · exact h
  · exact h.part (by rfl)

theorem KeepsSales.writeSettings {r : Settings} : KeepsSales s (t.writeSettings r) := by
  unfold State.writeSettings
  simp only [allLanes, List.foldl_cons, List.foldl_nil]
  have linked : KeepsSales s (State.linkSetting { t with settings := r } t.settings) :=
    KeepsSales.linkSetting (h.part (by rfl))
  exact linked.polaritySetting.polaritySetting.polaritySetting.polaritySetting.budgetSetting

theorem KeepsSales.supplyFalls : KeepsSales s t.supplyFalls := by
  unfold State.supplyFalls
  dsimp only
  split
  · exact (h.part (by rfl)).raisePart.cutDrawers
  · exact h.part (by rfl)

theorem KeepsSales.supplyRises : KeepsSales s t.supplyRises := by
  unfold State.supplyRises
  dsimp only
  split
  · exact (h.part (by rfl)).admission
  · exact h.part (by rfl)

theorem KeepsSales.discardFrame : KeepsSales s t.discardFrame := (h.part (by rfl)).raisePart

theorem KeepsSales.linkExpires : KeepsSales s t.linkExpires := by
  unfold State.linkExpires
  split
  · exact h
  · exact (h.part (by rfl)).raisePart

end
end Sys2Proof.Machine
end

