-- ==== Sys2Proof/Proofs/SaleEvents.lean ====
section
/-! SUPPORT. What the weighing channels, the bag check, the cards and the payment link leave of the baskets and the tables:
entries enter priced (R33, R53), and a slot is taken for the due and freed (R60, R61). -/

namespace Sys2Proof.Machine

/-! ## The bag check -/

theorem Lane.setEntryBag_sameSale (n : Lane) (pos : Nat) (b : BagState) : SameSale n (n.setEntryBag pos b) := by
  refine sameSale_iff.mpr ⟨?_, rfl, rfl⟩
  refine List.ext_getElem? fun k => ?_
  simp only [Lane.setEntryBag, List.getElem?_map, List.getElem?_modify]
  cases n.entries[k]? with
  | none => rfl
  | some e => split <;> rfl

theorem Lane.endAwaited_sameSale (n : Lane) : SameSale n n.endAwaited := by
  unfold Lane.endAwaited
  split
  · exact rfl
  · split
    · exact rfl
    · exact Lane.setEntryBag_sameSale n _ _

theorem Lane.bagModeChange_sameSale (n : Lane) (a b : LaneMode) : SameSale n (n.bagModeChange a b) := by
  have leave : SameSale n (Lane.bagModeChange.leaveSelf n) := by
    unfold Lane.bagModeChange.leaveSelf
    dsimp only
    split
    · exact rfl
    · split
      · exact rfl
      · exact Lane.setEntryBag_sameSale n _ _
  have enter : SameSale n (Lane.bagModeChange.enterSelf n) := by
    unfold Lane.bagModeChange.enterSelf
    split <;> exact rfl
  unfold Lane.bagModeChange
  split
  · exact leave
  · exact leave
  · exact enter
  · exact enter
  all_goals exact rfl

section
variable {s t : State} {l : LaneId} (h : KeepsSales s t)
include h

theorem KeepsSales.offerBag {ev : BagEvent} {d : Option Int} {pos : Nat} : KeepsSales s (t.offerBag l ev d pos) := h.offerLane

theorem KeepsSales.bagHold {b d : Option Int} : KeepsSales s (t.bagHold l b d) := h.setBag.offerBag.raiseLane

theorem KeepsSales.bagExpecting {g m : Int} {after : BagState} {ev : BagEvent} :
    KeepsSales s (t.bagExpecting l g m after ev) := by
  unfold State.bagExpecting
  dsimp only
  split
  · exact KeepsSales.offerBag (h.modLane (Lane.setEntryBag_sameSale (t.lane l) _ after))
  · split
    · exact h.setBag
    · split
      · exact h
      · exact h.setBag.offerBag.raiseLane

theorem KeepsSales.bagStable {g : Int} : KeepsSales s (t.bagStable l g) := by
  unfold State.bagStable
  dsimp only
  split
  · unfold State.bagArmed
    dsimp only
    split
    · exact h.setBag.offerBag
    · exact h.bagHold
  · unfold State.bagSettled
    dsimp only
    split
    · exact h.setBag
    · split
      · exact h.setBag.offerBag
      · exact h.setBag.offerBag.raiseLane
  · unfold State.bagUnexpected
    dsimp only
    split
    · exact h.setBag.offerBag
    · exact h
  · exact h.bagExpecting
  · exact h.bagExpecting
  all_goals exact h

theorem KeepsSales.bagReading {g : Int} {stable : Bool} : KeepsSales s (t.bagReading l g stable) := by
  unfold State.bagReading
  dsimp only
  split
  · exact h.setBag.bagStable
  · exact h.setBag

theorem KeepsSales.placementExpires : KeepsSales s (t.placementExpires l) := by
  unfold State.placementExpires
  split
  · exact h.bagHold
  · exact h

theorem KeepsSales.removalExpires : KeepsSales s (t.removalExpires l) := by
  unfold State.removalExpires
  split
  · exact h.bagHold
  · exact h

theorem KeepsSales.bagCancel {pos : Nat} : KeepsSales s (t.bagCancel l pos) := by
  unfold State.bagCancel
  dsimp only
  split
  · split
    · exact h.setBag
    · exact h.setBag
    · exact h.setBag
    · exact h.setBag
    all_goals exact h
  · exact h

theorem KeepsSales.bagOverridden : KeepsSales s (t.bagOverridden l) := by
  have ended := Lane.endAwaited_sameSale (t.lane l)
  unfold State.bagOverridden
  dsimp only
  split
  · exact h.setLane (by exact ended)
  · exact (h.setLane (by exact ended)).offerBag

theorem KeepsSales.bagLoss : KeepsSales s (t.bagLoss l) := by
  unfold State.bagLoss
  dsimp only
  split
  · exact h
  · exact h.setBag.offerBag

theorem KeepsSales.bagRecovery : KeepsSales s (t.bagRecovery l) := by
  unfold State.bagRecovery
  dsimp only
  split
  · exact h.setBag
  · exact h

/-! ## Entries, captures and the weigh request (R33, R37, R42) -/

theorem KeepsSales.endWeigh {o : WeighOutcome} : KeepsSales s (t.endWeigh l o) := by
  unfold State.endWeigh
  split
  · exact h
  · exact (h.modLane (by rfl)).offerLane

theorem KeepsSales.weighExpires : KeepsSales s (t.weighExpires l) := by
  unfold State.weighExpires
  split
  · exact h
  · split
    · exact h.endWeigh
    · exact h

theorem KeepsSales.noteFailure {w : WeighRequest} {f : FailedTest} : KeepsSales s (t.noteFailure l w f) := by
  unfold State.noteFailure
  dsimp only
  split
  · exact (h.modLane (by rfl)).raiseLane
  · exact h.modLane (by rfl)

omit h

/-- A basket that is EMPTY or OPEN has no hand-off outstanding (R51). -/
theorem slot_none_of_open {n : Lane} (ht : n.basketState ≠ .tendering) (hs : n.basketState ≠ .settled) :
    n.card.slot = none := by
  unfold Lane.basketState Lane.handoffOutstanding at ht hs
  cases hx : n.card.slot with
  | none => rfl
  | some x =>
    rw [hx] at ht hs
    split_ifs at ht hs <;> simp_all

/-- A priced entry joins a basket that is EMPTY or OPEN and has room (R53). -/
theorem Lane.SaleLaw.withEntry {n : Lane} {e : Entry} (hn : n.SaleLaw) (hr : n.entries.length < 64) (hp : e.Priced)
    (ht : n.basketState ≠ .tendering) (hs : n.basketState ≠ .settled) (k : LaneSettings) : (n.withEntry e k).SaleLaw := by
  have hslot : (n.withEntry e k).card.slot = none := by
    rw [← slot_none_of_open ht hs]
    unfold Lane.withEntry
    split <;> rfl
  refine ⟨?_, ?_, ?_, ?_⟩
  · rw [Lane.withEntry_entries, List.length_append]
    exact hr
  · rw [Lane.withEntry_tenders]
    exact hn.tenders
  · rw [Lane.withEntry_entries]
    intro x hx
    obtain hx | hx := List.mem_append.mp hx
    · exact hn.priced x hx
    · exact List.mem_singleton.mp hx ▸ hp
  · rw [hslot]
    exact fun x hx => nomatch hx

/-- The WEIGHED entry of a capture is priced by its net (R33, R37). -/
theorem weighedEntry_priced (mode : LaneMode) (w : WeighRequest) (c : Capture) (hc : c.price = weighedPrice c.net w.price) :
    (weighedEntry mode w c).Priced := by
  unfold weighedEntry
  dsimp only
  split
  · exact hc
  · exact hc
  · split <;> exact hc

/-- A capture that is taken is priced, and finds the basket EMPTY or OPEN with room (R33 to R35). -/
theorem captureTests_taken {n : Lane} {c : Calib} {w : WeighRequest} {r : Reading} {g : Int} {k : CaptureTare} {p : Nat}
    (h : captureTests n c w r g = .taken k p) :
    p = weighedPrice k.net w.price ∧ n.entries.length < 64 ∧ n.basketState ≠ .tendering ∧ n.basketState ≠ .settled := by
  cases htare : captureTare c r g w.itemTare with
  | none =>
    simp only [captureTests, htare] at h
    split_ifs at h
  | some k' =>
    simp only [captureTests, htare] at h
    split_ifs at h with _ _ _ _ _ _ hopen
    cases h
    simp only [Bool.or_eq_true, Bool.and_eq_true, bne_iff_ne, decide_eq_true_eq, not_or, not_and, not_not, Nat.not_le] at hopen
    obtain ⟨hopen, hroom⟩ := hopen
    exact ⟨rfl, hroom, fun ht => by simp [ht] at hopen, fun hs => by simp [hs] at hopen⟩

theorem KeepsSales.platterReading (h : KeepsSales s t) {c : Calib} {r : Reading} {g : Int} :
    KeepsSales s (t.platterReading l c r g) := by
  have armed : KeepsSales s (if g ≤ ((5 * c.d1 : Nat) : Int) then t.modLane l fun n => { n with armed := true } else t) := by
    split
    · exact h.modLane (by rfl)
    · exact h
  unfold State.platterReading
  dsimp only
  generalize (if g ≤ ((5 * c.d1 : Nat) : Int) then t.modLane l fun n => { n with armed := true } else t) = u at armed
  split
  · exact armed
  · rename_i w _
    split
    · exact armed.noteFailure
    · exact armed.endWeigh
    · rename_i k p hk
      obtain ⟨rfl, hroom, ht, hs⟩ := captureTests_taken hk
      unfold State.takeCapture
      dsimp only
      rw [appendEntry_eq, lane_setLane_same, setLane_setLane]
      refine KeepsSales.offerLane (armed.lawful fun hn => ?_)
      exact Lane.SaleLaw.withEntry (n := { u.lane l with
        nextCapture := _, log := _, armed := false, weigh := none }) ⟨hn.entries, hn.tenders, hn.priced, hn.slot⟩ hroom
        (weighedEntry_priced _ w _ rfl) ht hs _


/-! ## The weighing channels (chapter 1) -/

include h

theorem KeepsSales.handReading {ch : Chan} {c : Calib} {r : Reading} {g : Int} : KeepsSales s (t.handReading l ch c r g) := by
  cases ch with
  | platter => exact h.platterReading
  | bag => exact h.bagReading

theorem KeepsSales.reportRunning {ch : Chan} : KeepsSales s (t.reportRunning l ch) := by
  unfold State.reportRunning
  split
  · exact h.modLane (by rfl)
  · exact h.bagRecovery

theorem KeepsSales.enterFault {c : Chan} {cause : FaultCause} {ret : Option ReturnState} :
    KeepsSales s (t.enterFault l c cause ret) := by
  unfold State.enterFault
  dsimp only
  split
  · exact h.modChan.raiseLane.bagLoss.displayCheck
  · exact h.modChan.raiseLane.displayCheck

theorem KeepsSales.evaluate {ch : Chan} {raw : Nat} : KeepsSales s (t.evaluate l ch raw) := by
  unfold State.evaluate
  dsimp only
  split
  · exact h.setChan
  · split
    · split
      · exact h.setChan.reportRunning.setChan.handReading.displayCheck
      · exact h.setChan
    · exact h.setChan.setChan.handReading.displayCheck
    · exact h.setChan
    · exact h.setChan

theorem KeepsSales.sensorReturn {ch : Chan} {raw : Nat} : KeepsSales s (t.sensorReturn l ch raw) := by
  unfold State.sensorReturn
  dsimp only
  split
  · exact h.setChan
  · exact h.setChan.evaluate.displayCheck
  · split
    · exact h.setChan.bagRecovery.evaluate.displayCheck
    · exact h.setChan.evaluate.displayCheck

theorem KeepsSales.sample {ch : Chan} {raw : Nat} : KeepsSales s (t.sample l ch raw) := by
  unfold State.sample
  dsimp only
  split
  · exact h.evaluate
  · exact h.evaluate
  · exact h.setChan
  · split
    · exact h.sensorReturn
    · exact h.setChan

theorem KeepsSales.silenceExpires {ch : Chan} : KeepsSales s (t.silenceExpires l ch) := by
  unfold State.silenceExpires
  dsimp only
  split
  · exact h
  · split
    · exact h.enterFault
    · exact h.enterFault
    · exact h
    · exact h

theorem KeepsSales.initialZeroExpires {ch : Chan} : KeepsSales s (t.initialZeroExpires l ch) := by
  unfold State.initialZeroExpires
  dsimp only
  split
  · exact h.enterFault
  · exact h

theorem KeepsSales.displayExpires {ch : Chan} : KeepsSales s (t.displayExpires l ch) := by
  unfold State.displayExpires
  split
  · exact h.modChan.displayCheck
  · exact h

theorem KeepsSales.takeCopy {ch : Chan} {c : Calib} : KeepsSales s (t.takeCopy l ch c) := by
  unfold State.takeCopy
  dsimp only
  split
  · exact h.setChan.displayCheck
  · exact h.setChan

theorem KeepsSales.calWriteCompletes : KeepsSales s t.calWriteCompletes := by
  unfold State.calWriteCompletes
  split
  · exact h
  · exact KeepsSales.takeCopy (h.part (by rfl))

theorem KeepsSales.startLane : KeepsSales s (t.startLane l) := by
  have start {u : State} (h : KeepsSales s u) (c : Chan) (copy : Option Calib) : KeepsSales s (u.startChannel l c copy) := by
    unfold State.startChannel
    split
    · exact h.modChan.displayCheck
    · exact h.enterFault
  unfold State.startLane
  split
  · exact start (start (h.modLane (by rfl)) .platter _) .bag _
  · exact h

/-! ## The payment link (R60, R61, R105, R110 to R115) -/

/-- A slot that changes only its phase or its flag stays the slot of the due. -/
theorem KeepsSales.setSlot {x y : Slot} (hx : (t.lane l).card.slot = some x) (hy : y.amount = x.amount) :
    KeepsSales s (t.setLane l ((t.lane l).setSlot (some y))) := by
  refine h.lawful fun hn => ⟨hn.entries, hn.tenders, hn.priced, fun z hz => ?_⟩
  obtain rfl : y = z := Option.some.inj hz
  rw [hy]
  exact hn.slot x hx

/-- A slot is freed. -/
theorem KeepsSales.freeSlot : KeepsSales s (t.setLane l ((t.lane l).setSlot none)) :=
  h.lawful fun hn => ⟨hn.entries, hn.tenders, hn.priced, fun _ hx => nomatch hx⟩

theorem KeepsSales.tryGrant : KeepsSales s t.tryGrant := by
  unfold State.tryGrant
  split
  · exact h
  · split
    · exact h
    · split
      · exact h
      · rename_i x hx
        exact KeepsSales.setSlot (h.part (by rfl)) (by exact hx) (by rfl)

theorem KeepsSales.offerResult {r : CardResult} : KeepsSales s (t.offerResult l r) := (h.modLane (by rfl)).offerLane

/-- A hand-off ends without a tender (R111 to R113). -/
theorem KeepsSales.handoffEnd {f : InFlight} {x : Slot} {o : HandoffOutcome} {rcv : Option Byte} {a : Option Approval} :
    KeepsSales s (t.handoffEnd f x o rcv a) :=
  KeepsSales.tryGrant (KeepsSales.offerResult (KeepsSales.part (h.freeSlot (l := f.lane)) (by rfl)))

/-- A hand-off ends with a tender of its own: the slot had room for it (R110). -/
theorem KeepsSales.handoffTendered {f : InFlight} {x y : Slot} {o : HandoffOutcome} {rcv : Option Byte} {a : Option Approval}
    {d : Tender} (hy : (t.lane f.lane).card.slot = some y) :
    KeepsSales s ((t.modLane f.lane fun n => { n with tenders := n.tenders ++ [d] }).handoffEnd f x o rcv a) := by
  have ended : KeepsSales s (t.setLane f.lane
      (Lane.setSlot { t.lane f.lane with tenders := (t.lane f.lane).tenders ++ [d] } none)) := by
    refine h.lawful fun hn => ⟨hn.entries, ?_, hn.priced, fun _ hx => nomatch hx⟩
    have hroom := (hn.slot y hy).1
    simp only [Lane.setSlot, List.length_append, List.length_singleton]
    omega
  unfold State.handoffEnd
  dsimp only
  simp only [modLane_eq, lane_setLane_same, setLane_setLane]
  exact KeepsSales.tryGrant (KeepsSales.offerResult (ended.part (by rfl)))

theorem KeepsSales.takeResult {r : ResultFrame} : KeepsSales s (t.takeResult r) := by
  have stray : KeepsSales s (t.stray r) := KeepsSales.raisePart (KeepsSales.part h.offerPart (by rfl))
  unfold State.takeResult
  split
  · exact stray
  · split
    · split
      · exact h
      · rename_i x hx
        unfold State.verdict
        dsimp only
        split
        · exact h.handoffTendered hx
        · exact h.handoffEnd
        · exact h.handoffEnd
        · exact h
        · exact h
    · exact stray

theorem KeepsSales.paymentArrive {f : Frame} : KeepsSales s (t.paymentArrive f) := by
  unfold State.paymentArrive
  split
  · exact h.part (by rfl)
  · exact h.takeResult

theorem KeepsSales.paymentBroken {cause : PaymentDiscard} : KeepsSales s (t.paymentBroken cause) := by
  cases cause with
  | gap => exact h.part (by rfl)
  | length => exact h.part (by rfl)
  | check => exact h.part (by rfl)
  | kind f => exact h.paymentArrive
  | payloadLength f => exact h.paymentArrive

theorem KeepsSales.responseExpires : KeepsSales s t.responseExpires := by
  unfold State.responseExpires
  split
  · exact h
  · split
    · exact h
    · split
      · exact h
      · dsimp only
        split
        · exact KeepsSales.handoffEnd (h.part (by rfl))
        · exact h.handoffEnd

theorem KeepsSales.paymentSent : KeepsSales s t.paymentSent := by
  unfold State.paymentSent
  split
  · exact h
  · dsimp only
    split
    · exact KeepsSales.tryGrant (h.part (by rfl))
    · exact h.part (by rfl)

/-! ## Cards (R94 to R102) -/

theorem KeepsSales.setCard {u : CardUnit} (hu : u.slot = (t.lane l).card.slot := by rfl) : KeepsSales s (t.setCard l u) :=
  h.modLane (sameSale_iff.mpr ⟨rfl, rfl, hu⟩)

theorem KeepsSales.reportSwipe {e : CardEvent} : KeepsSales s (t.reportSwipe l e) := (h.modLane (by rfl)).offerLane

omit h in
/-- A basket that is not SETTLED owes its due, or nothing (R51). -/
theorem due_pos {n : Lane} (hs : n.basketState ≠ .settled) (hz : n.due ≠ 0) : 0 < n.due := by
  by_contra hle
  cases ht : n.tenders with
  | nil =>
    have : n.due = n.total := by simp [Lane.due, Lane.tendered, ht]
    omega
  | cons d ds => exact hs (by simp [Lane.basketState, ht, not_lt.mp hle])

/-- An accepted payment swipe takes the slot for a due above 0, with room for its tender (R60, R98). -/
theorem KeepsSales.acceptSwipe {x : Slot} (hx : x.amount = (t.lane l).due.toNat) (hp : t.paymentTests l = none) :
    KeepsSales s (t.modLane l fun n => n.setSlot (some x)) := by
  unfold State.paymentTests at hp
  dsimp only at hp
  split_ifs at hp with _ _ _ hdue hroom
  obtain ⟨-, hsettled, hzero⟩ := by simpa only [not_or] using hdue
  have hpos := due_pos hsettled hzero
  refine h.lawful fun hn => ⟨hn.entries, hn.tenders, hn.priced, fun y hy => ?_⟩
  obtain rfl : x = y := Option.some.inj hy
  change (t.lane l).tenders.length ≤ 7 ∧ 1 ≤ x.amount ∧ (t.lane l).due = x.amount
  omega

theorem KeepsSales.paymentSwipe {w : Swipe} {r : CardRange} : KeepsSales s (t.paymentSwipe l w r) := by
  unfold State.paymentSwipe
  dsimp only
  split
  · exact h.reportSwipe
  · rename_i hp
    exact KeepsSales.tryGrant (KeepsSales.reportSwipe (h.acceptSwipe rfl hp))

theorem KeepsSales.checkDigitStep {w : Swipe} {r : CardRange} : KeepsSales s (t.checkDigitStep l w r) := by
  unfold State.checkDigitStep
  split
  · exact h.reportSwipe
  · unfold State.classRule
    split
    · exact h.reportSwipe
    · split
      · exact h.reportSwipe
      · exact h.paymentSwipe
    · split
      · exact h.reportSwipe
      · unfold State.staffSwipe
        dsimp only
        split
        · exact h.reportSwipe
        · exact KeepsSales.reportSwipe h.grantStaff
    · exact h.reportSwipe
    · exact h.reportSwipe

theorem KeepsSales.classify {w : Swipe} : KeepsSales s (t.classify l w) := by
  unfold State.classify
  split
  · exact h.reportSwipe
  · split
    · exact h.reportSwipe
    · split
      · rename_i x _ hx
        exact h.setSlot hx rfl
      all_goals exact h.checkDigitStep

theorem KeepsSales.judge {body : List (BitVec 4)} {lrc : BitVec 4} {bad : Bool} : KeepsSales s (t.judge l body lrc bad) := by
  unfold State.judge
  split
  · exact h.reportSwipe
  · split
    · exact h.reportSwipe
    · split
      · exact h.reportSwipe
      · exact h.classify

theorem KeepsSales.readerChar {v : BitVec 4} {p : Bool} : KeepsSales s (t.readerChar l v p) := by
  unfold State.readerChar
  dsimp only
  split
  · split
    · exact h.setCard
    · exact h
  · split
    · exact KeepsSales.reportSwipe h.setCard
    · split
      · exact KeepsSales.judge h.setCard
      · exact h.setCard

theorem KeepsSales.gapExpires : KeepsSales s (t.gapExpires l) := by
  unfold State.gapExpires
  dsimp only
  split
  · exact KeepsSales.reportSwipe h.setCard
  · exact h

end
end Sys2Proof.Machine
end

