-- ==== Sys2Proof/Proofs/BasketLaw.lean ====
section
/-! The laws of the baskets and of the two tables: what the requests of the host leave of them, every command, and the two
obligations (R44 to R49, R60, R61, R91, R92). -/

namespace Sys2Proof.Machine

/-! ## Baskets that requests change (R53, R56, R58, R62) -/

/-- A cleared basket is lawful. -/
theorem saleLaw_cleared {n : Lane} (he : n.entries = []) (ht : n.tenders = []) (hs : n.card.slot = none) : n.SaleLaw :=
  ⟨by simp [he], by simp [ht], by simp [he], by simp [hs]⟩

/-- A lawful SETTLED basket has no hand-off outstanding: its due is not above 0 (R51, R60). -/
theorem slot_none_of_settled {n : Lane} (hn : n.SaleLaw) (hs : n.basketState = .settled) : n.card.slot = none := by
  cases hx : n.card.slot with
  | none => rfl
  | some x =>
    obtain ⟨-, hpos, hdue⟩ := hn.slot x hx
    unfold Lane.basketState Lane.handoffOutstanding at hs
    split_ifs at hs with _ hle
    obtain ⟨-, hle⟩ := by simpa only [Bool.and_eq_true, decide_eq_true_eq] using hle
    omega

/-- An entry of a basket with no hand-off outstanding is voided (R57). -/
theorem Lane.SaleLaw.voided {n : Lane} (hn : n.SaleLaw) (hs : n.card.slot = none) (k : Nat) :
    Lane.SaleLaw { n with entries := n.entries.modify k fun e => { e with voided := true } } := by
  refine ⟨?_, hn.tenders, fun e he => ?_, fun x hx => ?_⟩
  · rw [List.length_modify]
    exact hn.entries
  · obtain ⟨j, hj⟩ := List.mem_iff_getElem?.mp he
    rw [List.getElem?_modify] at hj
    obtain ⟨e', he', rfl⟩ := Option.map_eq_some_iff.mp hj
    have hp := hn.priced e' (List.mem_of_getElem? he')
    split <;> exact hp
  · rw [hs] at hx
    exact nomatch hx

section
variable {s : State}

/-- A refused test of a request leaves the state. -/
theorem KeepsSales.tested {p : Prop} [Decidable p] {a b : Reply × State} (ha : a.2 = s) (hb : ¬ p → KeepsSales s b.2) :
    KeepsSales s (if p then a else b).2 := by
  split
  · exact ha ▸ .refl s
  · exact hb ‹_›

theorem toLane_keepsSales {addr : Byte} {g : LaneId → Reply × State} (h : ∀ l, KeepsSales s (g l).2) :
    KeepsSales s (toLane addr s g).2 := by
  obtain ⟨l, hl⟩ | hl := toLane_cases addr s g <;> rw [hl]
  · exact h l
  · exact .refl s

theorem withChannel_keepsSales {b : Byte} {g : Chan → Reply × State} (h : ∀ c, KeepsSales s (g c).2) :
    KeepsSales s (withChannel b s g).2 := by
  unfold withChannel
  split
  · exact .refl s
  · exact h _

/-! ## Requests to the basket -/

theorem takeItem_keepsSales (l : LaneId) (code : BitVec 48) (q : Byte) (price : BitVec 32) (skip : Byte) (s : State) :
    KeepsSales s (takeItem l code q price skip s).2 := by
  rw [takeItem_eq]
  dsimp only
  refine .tested rfl fun _ => .tested rfl fun _ => .tested rfl fun ht => .tested rfl fun hs =>
    .tested rfl fun hr => ?_
  iterate 6 refine .tested rfl fun _ => ?_
  have counted (e : Entry) (he : e.Priced) : KeepsSales s (itemCounted l e s).2 :=
    (KeepsSales.refl s).lawful fun hn => hn.withEntry (not_le.mp hr) he ht hs _
  split
  · split
    · exact (KeepsSales.refl s).setLane (by rfl)
    · exact counted _ rfl
  · exact counted _ rfl

theorem takeVoid_keepsSales (l : LaneId) (p : Byte) (s : State) : KeepsSales s (takeVoid l p s).2 := by
  unfold takeVoid
  dsimp only
  split
  · exact .refl s
  · exact .refl s
  · exact .refl s
  · rename_i hopen
    have hslot : (s.lane l).card.slot = none := slot_none_of_open (by simp [hopen]) (by simp [hopen])
    split
    · exact .refl s
    · refine .tested rfl fun _ => .tested rfl fun _ => .tested rfl fun _ => ?_
      have voided : KeepsSales s (s.modLane l fun n =>
          { n with entries := n.entries.modify (p.toNat - 1) fun e => { e with voided := true } }) :=
        (KeepsSales.refl s).lawful fun hn => hn.voided hslot _
      have marked (b : BagState) := voided.modLane (l := l) (g := fun n => n.setEntryBag p.toNat b)
        (by exact Lane.setEntryBag_sameSale _ p.toNat b)
      rw [accept_snd]
      split
      · split
        · exact (marked .waived).bagCancel
        · exact (marked .removing).setBag
        all_goals exact voided
      · exact voided

theorem takeTender_keepsSales (l : LaneId) (k : Byte) (m : BitVec 32) (s : State) : KeepsSales s (takeTender l k m s).2 := by
  unfold takeTender
  dsimp only
  split
  · exact .refl s
  · refine .tested rfl fun _ => .tested rfl fun _ => .tested rfl fun _ => .tested rfl fun hslot =>
      .tested rfl fun hroom => (KeepsSales.refl s).lawful fun hn => ⟨hn.entries, ?_, hn.priced, fun x hx => ?_⟩
    · simp only [Lane.addTender, List.length_append, List.length_singleton]
      omega
    · exact absurd (Option.isSome_of_mem hx) hslot

theorem basketClear_keepsSales (l : LaneId) (s : State) (h : (s.lane l).SaleLaw → (s.lane l).card.slot = none) :
    KeepsSales s (basketClear l s).2 :=
  KeepsSales.endWeigh ((KeepsSales.refl s).lawful (l := l) (n := (s.lane l).clearBasket) fun hn =>
    saleLaw_cleared rfl rfl (h hn))

theorem takeNewBasket_keepsSales (l : LaneId) (s : State) : KeepsSales s (takeNewBasket l s).2 := by
  rw [takeNewBasket_eq]
  refine .tested rfl fun hactive => ?_
  split
  · exact (KeepsSales.refl s).endWeigh
  · refine .tested rfl fun _ => basketClear_keepsSales l s fun hn => slot_none_of_settled hn ?_
    cases hb : (s.lane l).basketState <;> simp_all

theorem takeAbandonBasket_keepsSales (l : LaneId) (s : State) : KeepsSales s (takeAbandonBasket l s).2 := by
  rw [takeAbandonBasket_eq]
  iterate 4 refine .tested rfl fun _ => ?_
  exact .tested rfl fun hslot => basketClear_keepsSales l s fun _ => not_not.mp hslot

theorem takeCancelCard_keepsSales (l : LaneId) (s : State) : KeepsSales s (takeCancelCard l s).2 := by
  unfold takeCancelCard
  split
  · exact .refl s
  · rename_i x hx
    dsimp only
    split
    · exact KeepsSales.offerResult (KeepsSales.refl s).freeSlot
    · split
      · exact .refl s
      · exact KeepsSales.setSlot ((KeepsSales.refl s).part (by rfl)) (by exact hx) (by rfl)
    · exact .refl s

theorem takeLaneReset_keepsSales (l : LaneId) (s : State) : KeepsSales s (takeLaneReset l s).2 := by
  rw [takeLaneReset_eq]
  exact .tested rfl fun _ => KeepsSales.part
    ((KeepsSales.refl s).lawful (l := l) (n := (s.lane l).resetAll) fun _ => saleLaw_cleared rfl rfl rfl) (by rfl)

/-! ## Requests that leave the sale -/

theorem takeLaneMode_keepsSales (l : LaneId) (m : Byte) (s : State) : KeepsSales s (takeLaneMode l m s).2 := by
  unfold takeLaneMode
  split
  · exact .refl s
  · dsimp only
    rename_i m _
    split
    · exact .refl s
    · split
      · exact .refl s
      · exact KeepsSales.modLane (l := l) (g := fun n => { n.bagModeChange n.mode m with mode := m }) (.refl s)
          (by exact Lane.bagModeChange_sameSale (s.lane l) _ m)

theorem takeChannelStart_keepsSales (l : LaneId) (b : Byte) (s : State) : KeepsSales s (takeChannelStart l b s).2 := by
  have started (c : Chan) : KeepsSales s (takeChannelStart.started l s c).2 := (KeepsSales.refl s).modChan.displayCheck
  unfold takeChannelStart
  refine withChannel_keepsSales fun c => .tested rfl fun _ => ?_
  split
  · exact .refl s
  · exact .refl s
  · exact started c
  · split
    · exact started c
    · exact .refl s
    · split
      · exact started c
      · exact .refl s
    · exact .refl s

theorem takeChannelStop_keepsSales (l : LaneId) (b : Byte) (s : State) : KeepsSales s (takeChannelStop l b s).2 := by
  have h := KeepsSales.refl s
  unfold takeChannelStop
  refine withChannel_keepsSales fun c => .tested rfl fun _ => ?_
  split
  · exact h.setChan
  · dsimp only
    split
    · exact h.modChan.bagLoss.displayCheck
    · exact h.modChan.displayCheck

theorem takeZeroRequest_keepsSales (l : LaneId) (b : Byte) (s : State) : KeepsSales s (takeZeroRequest l b s).2 := by
  unfold takeZeroRequest
  refine withChannel_keepsSales fun c => ?_
  dsimp only
  split
  · exact .refl s
  · exact .refl s
  · exact .refl s
  · iterate 3 refine .tested rfl fun _ => ?_
    split
    · exact .tested rfl fun _ => .tested rfl fun _ => (KeepsSales.refl s).setChan
    · exact .refl s

theorem tareTaken_keepsSales (l : LaneId) (c : Chan) (v : Int) (k : TareKind) (s : State) :
    KeepsSales s (tareTaken l c v k s).2 :=
  KeepsSales.modChan (l := l) (c := c) (g := fun x => { x with tare := v, tareKind := k }) (.refl s)

theorem takeTareWeighed_keepsSales (l : LaneId) (b : Byte) (s : State) : KeepsSales s (takeTareWeighed l b s).2 := by
  unfold takeTareWeighed
  refine withChannel_keepsSales fun c => .tested rfl fun _ => ?_
  split
  · exact .refl s
  · exact .refl s
  · exact .refl s
  · refine .tested rfl fun _ => .tested rfl fun _ => ?_
    split
    · exact .tested rfl fun _ => .tested rfl fun _ => tareTaken_keepsSales l c _ _ s
    · exact .refl s

theorem takeTarePreset_keepsSales (l : LaneId) (b f : Byte) (v : BitVec 32) (s : State) :
    KeepsSales s (takeTarePreset l b f v s).2 := by
  unfold takeTarePreset
  refine withChannel_keepsSales fun c => .tested rfl fun _ => .tested rfl fun _ => ?_
  split
  · exact .refl s
  · exact .refl s
  · exact .refl s
  · split
    · exact .tested rfl fun _ => .tested rfl fun _ => tareTaken_keepsSales l c _ _ s
    · exact .refl s

theorem takeBagOverride_keepsSales (l : LaneId) (s : State) : KeepsSales s (takeBagOverride l s).2 := by
  unfold takeBagOverride
  exact .tested rfl fun _ => .tested rfl fun _ => .tested rfl fun _ => (KeepsSales.refl s).bagOverridden

theorem takeDrawerOpen_keepsSales (l : LaneId) (s : State) : KeepsSales s (takeDrawerOpen l s).2 := by
  unfold takeDrawerOpen
  dsimp only
  split
  case h_7 =>
    split
    · exact (KeepsSales.refl s).joinQueue
    · exact .refl s
  all_goals exact .refl s

theorem takePrint_keepsSales (l : LaneId) (job : Byte) (octets : List Byte) (s : State) :
    KeepsSales s (takePrintBegin l s).2 ∧ KeepsSales s (takePrintData l job octets s).2 ∧
    KeepsSales s (takePrintEnd l job s).2 ∧ KeepsSales s (takePrintCancel l job s).2 := by
  have h := KeepsSales.refl s
  refine ⟨?_, ?_, ?_, ?_⟩
  · unfold takePrintBegin
    exact .tested rfl fun _ => .tested rfl fun _ => h.setLane (by rfl)
  · unfold takePrintData
    dsimp only
    split
    · exact h
    · exact .tested rfl fun _ => KeepsSales.noteMissing (h.setLane (by exact scanOctets_sameSale (s.lane l) _ octets))
  · unfold takePrintEnd
    dsimp only
    split
    · exact h
    · exact (h.modLane (by rfl)).noteMissing.port
  · unfold takePrintCancel
    split
    · exact h
    · rename_i j _
      exact KeepsSales.port (KeepsSales.offerLane (h.modLane (by rw [Lane.cancelJob_eq]; exact rfl)))

theorem toRecord_keepsSales (addr : Byte) (set : BitVec 16) (g : Attention → BitVec 16 → Attention) (s : State) :
    KeepsSales s (toRecord addr set g s).2 := by
  unfold toRecord
  split
  · unfold partAttention
    split
    · exact (KeepsSales.refl s).part (by rfl)
    · exact .refl s
  · refine toLane_keepsSales fun l => ?_
    unfold laneAttention
    split
    · exact (KeepsSales.refl s).setAttention
    · exact .refl s

theorem takeCalWrite_keepsSales (a c : Byte) (r : RawCal) (tag : Byte) (s : State) :
    KeepsSales s (takeCalWrite a c r tag s).2 := by
  unfold takeCalWrite
  split
  · iterate 7 refine .tested rfl fun _ => ?_
    exact (KeepsSales.refl s).part (by rfl)
  all_goals exact .refl s

theorem takeCalRead_keepsSales (a c : Byte) (s : State) : KeepsSales s (takeCalRead a c s).2 := by
  unfold takeCalRead
  split <;> exact .refl s

theorem takeSettingsWrite_keepsSales (r : RawSettings) (s : State) : KeepsSales s (takeSettingsWrite r s).2 := by
  unfold takeSettingsWrite
  split
  · exact .refl s
  · dsimp only
    exact (KeepsSales.refl s).writeSettings

theorem takeSetDate_keepsSales (y m d : Byte) (s : State) : KeepsSales s (takeSetDate y m d s).2 := by
  unfold takeSetDate
  dsimp only
  split
  · exact (KeepsSales.refl s).part (by rfl)
  · exact .refl s

theorem takeGlyphPut_keepsSales (c : Byte) (p : List Byte) (s : State) : KeepsSales s (takeGlyphPut c p s).2 := by
  unfold takeGlyphPut
  split
  · exact (KeepsSales.refl s).part (by rfl)
  · exact .refl s

theorem takeGlyphClear_keepsSales (c : Byte) (s : State) : KeepsSales s (takeGlyphClear c s).2 := by
  unfold takeGlyphClear
  split
  · exact (KeepsSales.refl s).part (by rfl)
  · exact .refl s

/-- A request that loads, removes or clears records of the item table or the range table (R46, R47, R92, R93). -/
def loadsTable : Instr → Bool
  | .itemPut _ _ => true
  | .itemRemove _ _ => true
  | .itemClear _ => true
  | .binPut _ _ => true
  | .binRemove _ _ => true
  | .binClear _ => true
  | _ => false

/-- A request but those of the two tables keeps the sales and the tables. -/
theorem take_keepsSales (i : Instr) (s : State) (hi : loadsTable i = false) : KeepsSales s (take i s).2 := by
  have h := KeepsSales.refl s
  cases i with
  | item a _ c q p k => exact toLane_keepsSales fun l => takeItem_keepsSales l c q p k s
  | void a _ p => exact toLane_keepsSales fun l => takeVoid_keepsSales l p s
  | cancelWeigh a _ =>
    refine toLane_keepsSales fun l => ?_
    unfold takeCancelWeigh
    split
    · exact h.endWeigh
    · exact h
  | tender a _ k m => exact toLane_keepsSales fun l => takeTender_keepsSales l k m s
  | newBasket a _ => exact toLane_keepsSales fun l => takeNewBasket_keepsSales l s
  | abandonBasket a _ => exact toLane_keepsSales fun l => takeAbandonBasket_keepsSales l s
  | basketRead a _ p => exact toLane_keepsSales fun l => .tested rfl fun _ => h
  | laneMode a _ m => exact toLane_keepsSales fun l => takeLaneMode_keepsSales l m s
  | channelStart a _ c => exact toLane_keepsSales fun l => takeChannelStart_keepsSales l c s
  | channelStop a _ c => exact toLane_keepsSales fun l => takeChannelStop_keepsSales l c s
  | channelSetup a _ c f m =>
    exact toLane_keepsSales fun l => withChannel_keepsSales fun c => .tested rfl fun _ => h.setChan
  | zero a _ c => exact toLane_keepsSales fun l => takeZeroRequest_keepsSales l c s
  | tareWeighed a _ c _ => exact toLane_keepsSales fun l => takeTareWeighed_keepsSales l c s
  | tarePreset a _ c f v => exact toLane_keepsSales fun l => takeTarePreset_keepsSales l c f v s
  | clearTare a _ c =>
    exact toLane_keepsSales fun l => withChannel_keepsSales fun c => .tested rfl fun _ => h.modChan
  | bagOverride a _ => exact toLane_keepsSales fun l => takeBagOverride_keepsSales l s
  | cancelCard a _ => exact toLane_keepsSales fun l => takeCancelCard_keepsSales l s
  | drawerOpen a _ => exact toLane_keepsSales fun l => takeDrawerOpen_keepsSales l s
  | drawerClear a _ =>
    refine toLane_keepsSales fun l => ?_
    unfold takeDrawerClear
    split
    · exact h.setTill.offerDrawer
    · exact h
  | printBegin a _ => exact toLane_keepsSales fun l => (takePrint_keepsSales l 0 [] s).1
  | printData a _ j o => exact toLane_keepsSales fun l => (takePrint_keepsSales l j o s).2.1
  | printEnd a _ j => exact toLane_keepsSales fun l => (takePrint_keepsSales l j [] s).2.2.1
  | printCancel a _ j => exact toLane_keepsSales fun l => (takePrint_keepsSales l j [] s).2.2.2
  | laneStatus a _ n =>
    refine toLane_keepsSales fun l => ?_
    unfold takeLaneStatus
    split <;> exact h.part (by rfl)
  | laneReset a _ => exact toLane_keepsSales fun l => takeLaneReset_keepsSales l s
  | staffGrant a _ n => exact toLane_keepsSales fun l => .tested rfl fun _ => h.grantStaff
  | staffWithdraw a _ =>
    exact toLane_keepsSales fun l => h.modLane (l := l) (g := fun n => { n with authority := none }) (by rfl)
  | clearAttention a _ c => exact toRecord_keepsSales a c _ s
  | attentionMask a _ c => exact toRecord_keepsSales a c _ s
  | partStatus _ => exact h.part (by rfl)
  | settingsWrite _ r => exact takeSettingsWrite_keepsSales r s
  | setDate _ y m d => exact takeSetDate_keepsSales y m d s
  | restart _ => exact .tested rfl fun _ => h.part (by rfl)
  | itemGet _ c =>
    refine .tested rfl fun _ => ?_
    split <;> exact h
  | binRead _ n => exact .tested rfl fun _ => h
  | glyphPut _ c p => exact takeGlyphPut_keepsSales c p s
  | glyphClear _ c => exact takeGlyphClear_keepsSales c s
  | calWrite t a c r _ => exact takeCalWrite_keepsSales a c r t s
  | calRead _ a c => exact takeCalRead_keepsSales a c s
  | itemPut _ _ => exact nomatch hi
  | itemRemove _ _ => exact nomatch hi
  | itemClear _ => exact nomatch hi
  | binPut _ _ => exact nomatch hi
  | binRemove _ _ => exact nomatch hi
  | binClear _ => exact nomatch hi
  | _ => exact h

end

/-! ## Laws of the sales and the tables -/

/-- A law that every write keeps which keeps the sales and the tables, that the loads of the tables keep, and that every
start-up meets. -/
structure TradeLaw (P : State → Prop) : Prop where
  keeps : ∀ {s t}, KeepsSales s t → P s → P t
  loads : ∀ {i s}, loadsTable i = true → P s → P (take i s).2
  blank : ∀ (s : State) (cause : ResetCause) (check : SelfCheck), P (s.blank cause check)

section
variable {P : State → Prop} (hP : TradeLaw P) {s : State}
include hP

theorem TradeLaw.dispatch (h : P s) (f : Frame) : P (s.dispatch f) := by
  have reserved : P s.reserve := hP.keeps ((KeepsSales.refl s).part (by rfl)) h
  have replied : P (s.reserve.replyTo f).2 := by
    unfold State.replyTo
    split
    · exact reserved
    · rename_i i _
      cases hi : loadsTable i with
      | false => exact hP.keeps (take_keepsSales i _ hi) reserved
      | true => exact hP.loads hi reserved
  unfold State.dispatch settle
  split
  · exact hP.keeps ((KeepsSales.refl _).part (by rfl)) replied
  · exact replied

theorem TradeLaw.drain (n : Nat) (h : P s) : P (State.drain n s) := by
  induction n generalizing s with
  | zero => exact h
  | succ n ih =>
    unfold State.drain
    split
    · exact h
    · split
      · exact h
      · exact ih (hP.dispatch (hP.keeps ((KeepsSales.refl s).part (by rfl)) h) _)

theorem TradeLaw.arrive (h : P s) (f : Frame) : P (s.arrive f) := by
  unfold State.arrive
  dsimp only
  split
  · exact hP.keeps (KeepsSales.refl s).discardFrame h
  · split
    · exact hP.keeps (KeepsSales.raisePart ((KeepsSales.refl s).part (by rfl))) h
    · exact hP.drain _ (hP.keeps ((KeepsSales.refl s).part (by rfl)) h)

theorem TradeLaw.frameSent (h : P s) : P s.frameSent := by
  unfold State.frameSent
  split
  · exact h
  · split
    · exact hP.drain _ (hP.keeps ((KeepsSales.refl s).part (by rfl)) h)
    · exact h
    · exact hP.keeps ((KeepsSales.refl s).part (by rfl)) h

theorem TradeLaw.startUp (s : State) (cause : ResetCause) (check : SelfCheck) : P (s.startUp cause check) := by
  have supply {u v : State} (h : KeepsSales u v) : KeepsSales u v.compareSupply := by
    unfold State.compareSupply
    split
    · exact (h.part (by rfl)).raisePart
    · exact h
  refine hP.keeps ?_ (hP.blank s cause check)
  unfold State.startUp
  simp only [allLanes, List.foldl_cons, List.foldl_nil]
  exact supply (KeepsSales.refl _).enqueue.startLane.startLane.startLane.startLane

omit hP in
theorem onPart_keeps (h : P s) {g : State → State} (hg : P (g s)) : P (s.onPart g) := by
  unfold State.onPart
  split
  · exact hg
  · exact h

theorem TradeLaw.onLane (h : P s) {l : LaneId} {g : State → State} (hg : KeepsSales s (g s)) : P (s.onLane l g) := by
  unfold State.onLane
  split
  · exact hP.keeps hg h
  · exact h

theorem TradeLaw.request (h : P s) (i : Instr) : P (s.request i) := by
  unfold State.request
  split
  · exact h
  · exact onPart_keeps h (hP.arrive h _)

/-- Every command keeps the law. -/
theorem TradeLaw.exec {t : State} (i : Instr) (h : P s) (he : exec i s = .next t) : P t := by
  have next {u : State} (hu : Machine.exec i s = .next u) (hl : P u) : P t := by
    obtain rfl : u = t := Host.Outcome.next.inj (hu.symm.trans he)
    exact hl
  have k := KeepsSales.refl s
  have level (en : Bool) : P (s.withCalEn en) := hP.keeps (k.part (by rfl)) h
  cases i with
  | calWrite _ _ _ _ en => exact next rfl (hP.request (level en) _)
  | calWriteComplete => exact next rfl (onPart_keeps h (hP.keeps k.calWriteCompletes h))
  | goodFrame f en => exact next rfl (onPart_keeps (level en) (hP.arrive (level en) f))
  | frameError _ => exact next rfl (onPart_keeps h (hP.keeps k.discardFrame h))
  | upstreamFrameSent en => exact next rfl (onPart_keeps (level en) (hP.frameSent (level en)))
  | restartReset check =>
    refine next rfl ?_
    unfold State.restartReset
    split
    · exact hP.startUp s _ _
    · exact h
  | linkSilenceExpiry => exact next rfl (onPart_keeps h (hP.keeps k.linkExpires h))
  | powerOn inputs => exact next rfl (hP.startUp (s.readInputs inputs) _ _)
  | brownOut => exact next rfl (hP.keeps ((KeepsSales.refl _).part (by rfl)) (hP.blank s .brownOut s.selfCheck))
  | supplyLowSet => exact next rfl (hP.keeps k.supplyFalls h)
  | supplyLowClear => exact next rfl (hP.keeps k.supplyRises h)
  | sampleArrival l c raw => exact next rfl (hP.onLane h k.sample)
  | channelSilenceExpiry l c => exact next rfl (hP.onLane h k.silenceExpires)
  | initialZeroExpiry l c => exact next rfl (hP.onLane h k.initialZeroExpires)
  | displayTimerExpiry l c => exact next rfl (hP.onLane h k.displayExpires)
  | weighTimerExpiry l => exact next rfl (hP.onLane h k.weighExpires)
  | placementTimerExpiry l => exact next rfl (hP.onLane h k.placementExpires)
  | removalTimerExpiry l => exact next rfl (hP.onLane h k.removalExpires)
  | readerCharacter l v p => exact next rfl (hP.onLane h k.readerChar)
  | gapTimerExpiry l => exact next rfl (hP.onLane h k.gapExpires)
  | result a tag o m ap => exact next rfl (onPart_keeps h (hP.keeps k.paymentArrive h))
  | paymentFrameSent => exact next rfl (onPart_keeps h (hP.keeps k.paymentSent h))
  | responseTimerExpiry => exact next rfl (onPart_keeps h (hP.keeps k.responseExpires h))
  | drawerSensorLevel l high =>
    have pin : KeepsSales s (s.sensorPin l high) := k.setTill
    exact next rfl (hP.onLane (hP.keeps pin h) (KeepsSales.refl _).setTill)
  | debounceTimerExpiry l => exact next rfl (hP.onLane h k.debounceExpires)
  | pulseTimerExpiry l => exact next rfl (hP.onLane h k.pulseExpires)
  | checkTimerExpiry l => exact next rfl (hP.onLane h k.checkExpires)
  | leftOpenExpiry l => exact next rfl (hP.onLane h k.leftOpenExpires)
  | lineDone l _ => exact next rfl (hP.onLane h k.printerArrive)
  | lineFailed l _ => exact next rfl (hP.onLane h k.printerArrive)
  | printerStatus l _ => exact next rfl (hP.onLane h k.printerArrive)
  | printerSilenceExpiry l => exact next rfl (hP.onLane h k.printerSilent)
  | answerTimerExpiry l => exact next rfl (hP.onLane h k.answerExpires)
  | staffHoldExpiry l => exact next rfl (hP.onLane h k.staffExpires)
  | supplyAboveBrownOut inputs =>
    refine next rfl ?_
    unfold State.aboveBrownOut
    split
    · exact h
    · exact hP.startUp (s.readInputs inputs) _ _
  | paymentFrameDiscarded cause => exact next rfl (onPart_keeps h (hP.keeps k.paymentBroken h))
  | printerFrameDiscarded l cause => exact next rfl (hP.onLane h k.printerBroken)
  | _ => exact next rfl (hP.request h _)

/-- A step is a command on the rest of the queue, or none. -/
theorem TradeLaw.step {t : State} (h : P s) (hs : step s = .next t) : P t := by
  unfold Machine.step at hs
  split at hs
  · obtain rfl : s = t := Host.Outcome.next.inj hs
    exact h
  · rename_i c rest _
    exact TradeLaw.exec hP (s := { s with pending := rest }) c (hP.keeps ((KeepsSales.refl s).part (by rfl)) h) hs

end

/-! ## The law of the baskets -/

theorem loadAnswer_snd {α : Type} (x : Load α) (w : Nat) (s : State) : (loadAnswer x w s).2 = s := by
  unfold loadAnswer
  dsimp only
  split <;> rfl

/-- A load of a table leaves the lanes. -/
theorem loads_lanes {i : Instr} (hi : loadsTable i = true) (s : State) : (take i s).2.lanes = s.lanes := by
  cases i with
  | itemPut _ r =>
    change (takeItemPut r s).2.lanes = s.lanes
    unfold takeItemPut
    rw [loadAnswer_snd]
  | itemRemove _ c =>
    change (takeItemRemove c s).2.lanes = s.lanes
    unfold takeItemRemove
    dsimp only
    split_ifs <;> rfl
  | itemClear _ => rfl
  | binPut _ r =>
    change (takeBinPut r s).2.lanes = s.lanes
    unfold takeBinPut
    rw [loadAnswer_snd]
  | binRemove _ n =>
    change (takeBinRemove n s).2.lanes = s.lanes
    unfold takeBinRemove
    dsimp only
    split_ifs <;> rfl
  | binClear _ => rfl
  | _ => exact nomatch hi

theorem basketLaw_tradeLaw : TradeLaw BasketLaw where
  keeps h := h.basketLaw
  loads {i s} hi h := by
    rw [BasketLaw]
    unfold State.lane
    rw [loads_lanes hi]
    exact h
  blank s cause check := (basketLaw_iff _).mpr fun l => by
    have hl : (s.blank cause check).lane l = Lane.blank (s.lane l).till.rawHigh := Four.get_make _ l
    rw [hl]
    exact saleLaw_cleared rfl rfl rfl

/-- Settles O10: entries join priced and while no hand-off is outstanding, and a hand-off takes the slot for the due with
room for the tender that may end it. -/
theorem basketLawKept : Obligations.BasketLawKept :=
  fun _ _ h hs => basketLaw_tradeLaw.step h hs

end Sys2Proof.Machine
end

