-- ==== Sys2Proof/Proofs/TableLaw.lean ====
section
/-! The item table and the card range table: what one record inserted does to them, what a load of records does, and the law
of both tables (R44 to R47, R91 to R93). -/

namespace Sys2Proof.Machine

/-! ## An item inserted (R46) -/

theorem mem_putItem {r x : ItemRecord} {t : List ItemRecord} (h : x ∈ putItem r t) : x = r ∨ x ∈ t := by
  induction t with
  | nil => exact .inl (List.mem_singleton.mp h)
  | cons y t ih =>
    unfold putItem at h
    split_ifs at h
    · exact List.mem_cons.mp h
    · exact (List.mem_cons.mp h).imp_right (List.mem_cons_of_mem y)
    · obtain rfl | h := List.mem_cons.mp h
      · exact .inr List.mem_cons_self
      · exact (ih h).imp_right (List.mem_cons_of_mem y)

theorem putItem_pairwise {r : ItemRecord} {t : List ItemRecord} (h : t.Pairwise fun a b => a.code < b.code) :
    (putItem r t).Pairwise fun a b => a.code < b.code := by
  induction t with
  | nil => exact List.pairwise_singleton _ r
  | cons y t ih =>
    obtain ⟨hy, ht⟩ := List.pairwise_cons.mp h
    unfold putItem
    split_ifs with hlt heq
    · exact List.pairwise_cons.mpr ⟨List.forall_mem_cons.mpr ⟨hlt, fun b hb => hlt.trans (hy b hb)⟩, h⟩
    · exact List.pairwise_cons.mpr ⟨fun b hb => heq ▸ hy b hb, ht⟩
    · refine List.pairwise_cons.mpr ⟨fun b hb => ?_, ih ht⟩
      obtain rfl | hb := mem_putItem hb
      · omega
      · exact hy b hb

theorem length_putItem_le (r : ItemRecord) (t : List ItemRecord) : (putItem r t).length ≤ t.length + 1 := by
  induction t with
  | nil => exact Nat.le_refl 1
  | cons y t ih =>
    unfold putItem
    split_ifs
    · exact Nat.le_refl _
    · exact Nat.le_succ _
    · exact Nat.succ_le_succ ih

/-- A record whose code is held takes the place of the one that has it. -/
theorem length_putItem_of_held {r : ItemRecord} {t : List ItemRecord} (ht : t.Pairwise fun a b => a.code < b.code)
    (hr : ∃ x ∈ t, x.code = r.code) : (putItem r t).length = t.length := by
  induction t with
  | nil => exact absurd hr (by simp)
  | cons y t ih =>
    obtain ⟨hy, ht⟩ := List.pairwise_cons.mp ht
    obtain ⟨x, hx, hcode⟩ := hr
    unfold putItem
    split_ifs with hlt heq
    · obtain rfl | hx := List.mem_cons.mp hx
      · omega
      · have := hy x hx
        omega
    · rfl
    · obtain rfl | hx := List.mem_cons.mp hx
      · exact absurd hcode.symm heq
      · exact congrArg Nat.succ (ih ht ⟨x, hx, hcode⟩)

/-! ## A range inserted (R92) -/

/-- The range goes after the ranges of no higher low. -/
theorem putRange_eq (r : CardRange) (t : List CardRange) :
    putRange r t = (t.takeWhile fun y => decide (y.low ≤ r.low)) ++ r :: (t.dropWhile fun y => decide (y.low ≤ r.low)) := by
  induction t with
  | nil => rfl
  | cons y t ih =>
    unfold putRange
    split_ifs with hlt
    · have hle : ¬ y.low ≤ r.low := by omega
      simp [hle]
    · have hle : y.low ≤ r.low := by omega
      simp [hle, ih]

theorem mem_putRange {r x : CardRange} {t : List CardRange} : x ∈ putRange r t ↔ x = r ∨ x ∈ t := by
  rw [putRange_eq, List.mem_append, List.mem_cons, or_left_comm, ← List.mem_append, List.takeWhile_append_dropWhile]

theorem length_putRange (r : CardRange) (t : List CardRange) : (putRange r t).length = t.length + 1 := by
  rw [putRange_eq, List.length_append, List.length_cons, ← Nat.add_assoc, ← List.length_append,
    List.takeWhile_append_dropWhile]

theorem low_le_high_of_valid {r : CardRange} (h : r.valid = true) : r.low ≤ r.high := by
  simp only [CardRange.valid, Bool.and_eq_true, decide_eq_true_eq] at h
  exact h.1.1.1

theorem overlaps_iff (r x : CardRange) : r.overlaps x = true ↔ r.low ≤ x.high ∧ x.low ≤ r.high := by
  simp only [CardRange.overlaps, Bool.and_eq_true, decide_eq_true_eq]

/-- A valid range that overlaps none joins a table of valid ranges in order. -/
theorem putRange_pairwise {r : CardRange} {t : List CardRange} (h : t.Pairwise fun a b => a.high < b.low)
    (hv : ∀ x ∈ t, x.valid = true) (hr : r.valid = true) (hno : ∀ x ∈ t, r.overlaps x = false) :
    (putRange r t).Pairwise fun a b => a.high < b.low := by
  have apart : ∀ x ∈ t, x.low ≤ x.high ∧ (x.high < r.low ∨ r.high < x.low) := fun x hx => by
    refine ⟨low_le_high_of_valid (hv x hx), ?_⟩
    have := (overlaps_iff r x).not.mp (by simp [hno x hx])
    omega
  have hrl := low_le_high_of_valid hr
  induction t with
  | nil => exact List.pairwise_singleton _ r
  | cons y t ih =>
    obtain ⟨hy, ht⟩ := List.pairwise_cons.mp h
    obtain ⟨⟨hyl, hyr⟩, hta⟩ := List.forall_mem_cons.mp apart
    unfold putRange
    split_ifs with hlt
    · refine List.pairwise_cons.mpr ⟨List.forall_mem_cons.mpr ⟨by omega, fun b hb => ?_⟩, h⟩
      have := hy b hb
      have := hta b hb
      omega
    · have hvt := (List.forall_mem_cons.mp hv).2
      have hnot := (List.forall_mem_cons.mp hno).2
      refine List.pairwise_cons.mpr ⟨fun b hb => ?_, ih ht hvt hnot hta⟩
      obtain rfl | hb := mem_putRange.mp hb
      · omega
      · exact hy b hb

/-! ## Records a load accepts (R46, R92 step 1) -/

theorem valid_of_itemOf {raw : RawItem} {r : ItemRecord} (h : itemOf raw = some r) : r.valid = true := by
  unfold itemOf at h
  dsimp only at h
  split at h
  · split_ifs at h with hv
    obtain rfl := Option.some.inj h
    exact (Bool.and_eq_true _ _ ▸ hv).2
  · exact nomatch h

theorem valid_of_rangeOf {raw : RawRange} {r : CardRange} (h : rangeOf raw = some r) : r.valid = true := by
  unfold rangeOf at h
  dsimp only at h
  split at h
  · split_ifs at h with hv
    obtain rfl := Option.some.inj h
    exact hv
  · exact nomatch h

/-! ## The law of each table -/

/-- What the table law says of the item table (R44, R45). -/
structure ItemsLawful (t : List ItemRecord) : Prop where
  ordered : t.Pairwise fun a b => a.code < b.code
  room : t.length ≤ 4096
  valid : ∀ r ∈ t, r.valid = true

/-- What the table law says of the range table (R91). -/
structure RangesLawful (t : List CardRange) : Prop where
  ordered : t.Pairwise fun a b => a.high < b.low
  room : t.length ≤ 64
  valid : ∀ r ∈ t, r.valid = true

theorem tableLaw_iff (s : State) : TableLaw s ↔ ItemsLawful s.items ∧ RangesLawful s.ranges := by
  refine ⟨fun ⟨ho, hl, hv, ho', hl', hv'⟩ => ⟨⟨ho, hl, hv⟩, ⟨ho', hl', hv'⟩⟩, fun ⟨hi, hr⟩ => ?_⟩
  exact ⟨hi.ordered, hi.room, hi.valid, hr.ordered, hr.room, hr.valid⟩

theorem ItemsLawful.nil : ItemsLawful [] := ⟨.nil, Nat.zero_le _, by simp⟩

theorem RangesLawful.nil : RangesLawful [] := ⟨.nil, Nat.zero_le _, by simp⟩

theorem ItemsLawful.filter {t : List ItemRecord} (h : ItemsLawful t) (p : ItemRecord → Bool) : ItemsLawful (t.filter p) :=
  ⟨h.ordered.filter p, (List.length_filter_le p t).trans h.room, fun r hr => h.valid r (List.mem_of_mem_filter hr)⟩

theorem RangesLawful.filter {t : List CardRange} (h : RangesLawful t) (p : CardRange → Bool) : RangesLawful (t.filter p) :=
  ⟨h.ordered.filter p, (List.length_filter_le p t).trans h.room, fun r hr => h.valid r (List.mem_of_mem_filter hr)⟩

theorem ItemsLawful.applied {t u : List ItemRecord} {raw : RawItem} (h : ItemsLawful t) (hu : applyItem t raw = .ok u) :
    ItemsLawful u := by
  unfold applyItem at hu
  split at hu
  · exact nomatch hu
  · rename_i r hr
    have put (hlen : (putItem r t).length ≤ 4096) : ItemsLawful (putItem r t) :=
      ⟨putItem_pairwise h.ordered, hlen, fun x hx => (mem_putItem hx).elim (· ▸ valid_of_itemOf hr) (h.valid x)⟩
    split_ifs at hu with hheld hfull <;> obtain rfl := Except.ok.inj hu
    · obtain ⟨x, hx, hcode⟩ := List.any_eq_true.mp hheld
      exact put ((length_putItem_of_held h.ordered ⟨x, hx, beq_iff_eq.mp hcode⟩).trans_le h.room)
    · exact put ((length_putItem_le r t).trans (not_le.mp hfull))

theorem RangesLawful.applied {t u : List CardRange} {raw : RawRange} (h : RangesLawful t) (hu : applyRange t raw = .ok u) :
    RangesLawful u := by
  unfold applyRange at hu
  split at hu
  · exact nomatch hu
  · rename_i r hr
    have hv := valid_of_rangeOf hr
    split_ifs at hu with hover hfull
    obtain rfl := Except.ok.inj hu
    have hno : ∀ x ∈ t, r.overlaps x = false := by simpa using hover
    exact ⟨putRange_pairwise h.ordered h.valid hv hno, (length_putRange r t).trans_le (not_le.mp hfull),
      fun x hx => (mem_putRange.mp hx).elim (· ▸ hv) (h.valid x)⟩

/-- A law of a table that every applied record keeps is kept by a load. -/
theorem loadAll_keeps {α β : Type} {P : List α → Prop} {apply : List α → β → Except Code (List α)}
    (hP : ∀ {t u r}, P t → apply t r = .ok u → P u) (n : Nat) {t : List α} (h : P t) (rs : List β) :
    P (loadAll apply n t rs).table := by
  induction rs generalizing n t with
  | nil => exact h
  | cons r rs ih =>
    unfold loadAll
    split
    · exact ih (n + 1) (hP h ‹_›)
    · exact h

/-! ## The table law -/

/-- Every load, removal and clearing of records keeps the table law (R46, R47, R92, R93). -/
theorem loads_tableLaw {i : Instr} {s : State} (hi : loadsTable i = true) (h : TableLaw s) : TableLaw (take i s).2 := by
  obtain ⟨items, ranges⟩ := (tableLaw_iff s).mp h
  have write {t : State} (hi : ItemsLawful t.items) (hr : RangesLawful t.ranges) : TableLaw t :=
    (tableLaw_iff t).mpr ⟨hi, hr⟩
  cases i with
  | itemPut _ r =>
    change TableLaw (takeItemPut r s).2
    unfold takeItemPut
    rw [loadAnswer_snd]
    exact write (loadAll_keeps ItemsLawful.applied 0 items r) ranges
  | itemRemove _ c =>
    change TableLaw (takeItemRemove c s).2
    unfold takeItemRemove
    dsimp only
    split_ifs
    · exact h
    · exact h
    · exact write (items.filter _) ranges
  | itemClear _ => exact write .nil ranges
  | binPut _ r =>
    change TableLaw (takeBinPut r s).2
    unfold takeBinPut
    rw [loadAnswer_snd]
    exact write items (loadAll_keeps RangesLawful.applied 0 ranges r)
  | binRemove _ n =>
    change TableLaw (takeBinRemove n s).2
    unfold takeBinRemove
    dsimp only
    split_ifs
    · exact h
    · exact h
    · exact write items (ranges.filter _)
  | binClear _ => exact write items .nil
  | _ => exact nomatch hi

theorem tableLaw_tradeLaw : TradeLaw TableLaw where
  keeps h := h.tableLaw
  loads := loads_tableLaw
  blank _ _ _ := (tableLaw_iff _).mpr ⟨.nil, .nil⟩

/-- Settles O15: a record is applied only where it leaves the table in order and within its size, and nothing else writes
a table but removals and clearings. -/
theorem tableLawKept : Obligations.TableLawKept :=
  fun _ _ h hs => tableLaw_tradeLaw.step h hs

end Sys2Proof.Machine
end

