-- ==== Sys2Proof/Proofs/TableRequests.lean ====
section
/-! How a request command reaches the part (R169, R170), and ITEM_PUT, ITEM_REMOVE, ITEM_CLEAR, ITEM_GET, BIN_PUT and BIN_READ
there (R46 to R48, R92, R93): what each answers, and three obligations. -/

namespace Sys2Proof.Machine

/-! ## A part request is answered at once (R169, R170) -/

/-- The reply to a part request which the part's state does not bar (R170). -/
theorem replyTo_open (s : State) (f : Frame) (k : ReqKind) (i : Instr) (ha : f.addr = 15)
    (hs : s.selfCheck = .pass ∨ takenDegraded k = true) (hk : requestKind f.addr f.kind = some k)
    (hl : k.lengthOk f.payload.length = true) (hi : requestOf s.calEn k f = i) : s.replyTo f = take i s := by
  have haddr : s.addressed f.addr = true := by simp [State.addressed, ha, laneOf, partAddr]
  have hopen : (s.degraded && !takenDegraded k) = false := by
    obtain hs | hk := hs
    · simp [State.degraded, hs]
    · simp [hk]
  simp [State.replyTo, State.dispatchTests, haddr, hk, hl, hopen, hi]

/-- A part request command at a part that takes it: the owner's reply, settled. -/
theorem exec_part {s : State} {i : Instr} (k : ReqKind) (tag : Byte) (p : List Byte) {r : Reply × State}
    (h : s.Ready) (hs : s.selfCheck = .pass ∨ takenDegraded k = true) (hx : exec i s = .next (s.request i))
    (hi : encodeRequest i = some (requestFrame 15 k tag p)) (hf : k.fits true = true)
    (hl : k.lengthOk p.length = true) (hr : requestOf s.calEn k (requestFrame 15 k tag p) = i)
    (ht : take i s.taken = r) (hb : r.2.receiveBuffer = s.taken.receiveBuffer) :
    exec i s = .next (settle (requestFrame 15 k tag p) s.upstream.length r) := by
  subst ht
  have hempty : s.taken.receiveBuffer = [] := h.2.1
  have hreply := replyTo_open s.taken (requestFrame 15 k tag p) k i rfl hs (requestKind_part k hf) hl hr
  rw [hx]
  simp only [State.request, hi, onPart_running s _ h.1]
  rw [arrive_settles s _ i h (lengthOk_le hl) hreply (hb.trans hempty)]

/-! ## Fields and records are read back from their octets (R182, R193) -/

/-- A field behind the octets before it. -/
theorem fieldAt_append_of_le {p : List Byte} {i : Nat} (h : p.length ≤ i) (q : List Byte) (w : Nat) :
    fieldAt (p ++ q) i w = fieldAt q (i - p.length) w := by
  rw [fieldAt, fieldAt, List.drop_append, List.drop_eq_nil_of_le h, List.nil_append]

theorem fieldAt_cons (b : Byte) (q : List Byte) (i w : Nat) : fieldAt (b :: q) (i + 1) w = fieldAt q i w := rfl

/-- An octet behind the octets before it. -/
theorem octetAt_append_of_le {p : List Byte} {i : Nat} (h : p.length ≤ i) (q : List Byte) :
    octetAt (p ++ q) i = octetAt q (i - p.length) := by
  simp [octetAt, List.getElem?_append_right h]

theorem octetAt_cons (b : Byte) (q : List Byte) (i : Nat) : octetAt (b :: q) (i + 1) = octetAt q i := rfl

theorem octetAt_cons_zero (b : Byte) (q : List Byte) : octetAt (b :: q) 0 = b := rfl

/-- A bit field that stands first is read back. -/
theorem ofNat_fieldAt_be {n : Nat} (x : BitVec n) (w : Nat) (q : List Byte) (h : 2 ^ n ≤ 256 ^ w) :
    BitVec.ofNat n (fieldAt (be w x.toNat ++ q) 0 w) = x := by
  have hread := fieldAt_be [] q w x.toNat (x.isLt.trans_le h)
  rw [List.nil_append, List.length_nil] at hread
  rw [hread, BitVec.ofNat_toNat, BitVec.setWidth_eq]

theorem ofNat_fieldAt_be_last {n : Nat} (x : BitVec n) (w : Nat) (h : 2 ^ n ≤ 256 ^ w) :
    BitVec.ofNat n (fieldAt (be w x.toNat) 0 w) = x := by
  have hread := ofNat_fieldAt_be x w [] h
  rwa [List.append_nil] at hread

theorem rawItemAt_octets (r : RawItem) (q : List Byte) : rawItemAt (rawItemOctets r ++ q) = r := by
  simp [rawItemAt, rawItemOctets, fieldAt_append_of_le, octetAt_append_of_le, fieldAt_cons, octetAt_cons,
    octetAt_cons_zero, ofNat_fieldAt_be]

theorem rawRangeAt_octets (r : RawRange) (q : List Byte) : rawRangeAt (rawRangeOctets r ++ q) = r := by
  simp [rawRangeAt, rawRangeOctets, fieldAt_append_of_le, octetAt_append_of_le, octetAt_cons, octetAt_cons_zero,
    ofNat_fieldAt_be]

theorem rawItemOctets_length (r : RawItem) : (rawItemOctets r).length = 25 := by simp [rawItemOctets]

theorem rawRangeOctets_length (r : RawRange) : (rawRangeOctets r).length = 12 := by simp [rawRangeOctets]

section
variable {α : Type} {one : List Byte → α} {octets : α → List Byte} {w : Nat} (hw : ∀ r, (octets r).length = w)
include hw

theorem length_records (l : List α) : (l.map octets).flatten.length = l.length * w := by
  induction l with
  | nil => simp
  | cons r l ih => rw [List.map_cons, List.flatten_cons, List.length_append, hw, ih, List.length_cons, Nat.succ_mul,
      Nat.add_comm]

/-- Records are read back from the octets they were laid out in (R193). -/
theorem recordsAt_records (hone : ∀ r q, one (octets r ++ q) = r) (l : List α) :
    recordsAt one w l.length (l.map octets).flatten = l := by
  induction l with
  | nil => rfl
  | cons r l ih =>
    rw [List.map_cons, List.flatten_cons, List.length_cons, recordsAt, hone, ← hw r, List.drop_left, hw r, ih]

end

theorem requestOf_itemPut (en : Bool) (tag : Byte) (l : List RawItem) :
    requestOf en .itemPut (requestFrame 15 .itemPut tag (l.map rawItemOctets).flatten) = .itemPut tag l := by
  simp [requestOf, requestFrame, length_records rawItemOctets_length,
    recordsAt_records rawItemOctets_length rawItemAt_octets]

theorem requestOf_binPut (en : Bool) (tag : Byte) (l : List RawRange) :
    requestOf en .binPut (requestFrame 15 .binPut tag (l.map rawRangeOctets).flatten) = .binPut tag l := by
  simp [requestOf, requestFrame, length_records rawRangeOctets_length,
    recordsAt_records rawRangeOctets_length rawRangeAt_octets]

/-! ## Records applied in order (R46, R92) -/

/-- The table after records that are all applied. -/
abbrev putAll {α : Type} (put : α → List α → List α) (t : List α) (rs : List α) : List α :=
  rs.foldl (fun t r => put r t) t

/-- Records that are each applied in the table as it then stands, ahead of the rest of a load. -/
theorem loadAll_applied {α β : Type} {apply : List α → β → Except Code (List α)} {decode : β → Option α}
    {put : α → List α → List α} {fits : List α → α → Prop}
    (happly : ∀ {t raw r}, decode raw = some r → fits t r → apply t raw = .ok (put r t)) (rest : List β) (rs : List α) :
    ∀ (n : Nat) (t : List α) (raws : List β), raws.map decode = rs.map some →
      (∀ k, (hk : k < rs.length) → fits (putAll put t (rs.take k)) rs[k]) →
      loadAll apply n t (raws ++ rest) = loadAll apply (n + rs.length) (putAll put t rs) rest := by
  induction rs with
  | nil =>
    intro n t raws hraws _
    rw [List.map_eq_nil_iff.mp hraws]
    rfl
  | cons r rs ih =>
    intro n t raws hraws hfits
    obtain ⟨raw, raws, rfl, hraw, hraws⟩ := List.map_eq_cons_iff.mp hraws
    have hfirst : apply t raw = .ok (put r t) := happly hraw (hfits 0 (Nat.succ_pos _))
    have hnext := ih (n + 1) (put r t) raws hraws fun k hk => hfits (k + 1) (Nat.succ_lt_succ hk)
    rw [List.cons_append, loadAll, hfirst]
    dsimp only
    rw [hnext, List.length_cons, Nat.add_assoc, Nat.add_comm 1]
    rfl

/-- A load of records that are all applied. -/
theorem loadAll_all {α β : Type} {apply : List α → β → Except Code (List α)} {n m : Nat} {t u : List α} {raws : List β}
    (h : loadAll apply n t (raws ++ []) = loadAll apply m u []) : loadAll apply n t raws = ⟨m, u, none⟩ := by
  rwa [List.append_nil] at h

/-- A load stops at the first record that is refused. -/
theorem loadAll_refused {α β : Type} {apply : List α → β → Except Code (List α)} {t : List α} {raw : β} {c : Code}
    (h : apply t raw = .error c) (n : Nat) (rest : List β) : loadAll apply n t (raw :: rest) = ⟨n, t, some c⟩ := by
  rw [loadAll, h]

/-! ## One item, one range (R46, R92) -/

/-- There is room for the item, or its code is held. -/
def ItemFits (t : List ItemRecord) (r : ItemRecord) : Prop := t.length < 4096 ∨ ∃ x ∈ t, x.code = r.code

/-- There is room for the range, and it overlaps none. -/
def RangeFits (t : List CardRange) (r : CardRange) : Prop := t.length < 64 ∧ ∀ x ∈ t, x.high < r.low ∨ r.high < x.low

theorem held_iff (t : List ItemRecord) (c : Nat) : t.any (fun x => x.code == c) = true ↔ ∃ x ∈ t, x.code = c := by
  simp only [List.any_eq_true, beq_iff_eq]

theorem overlapped_iff (t : List CardRange) (r : CardRange) :
    t.any (fun x => r.overlaps x) = true ↔ ∃ x ∈ t, r.low ≤ x.high ∧ x.low ≤ r.high := by
  simp only [List.any_eq_true, overlaps_iff]

theorem applyItem_fits {t : List ItemRecord} {raw : RawItem} {r : ItemRecord} (hr : itemOf raw = some r) (h : ItemFits t r) :
    applyItem t raw = .ok (putItem r t) := by
  unfold applyItem
  rw [hr]
  dsimp only
  split_ifs with hheld hfull
  · rfl
  · obtain hroom | hheld' := h
    · exact absurd hroom (not_lt.mpr hfull)
    · exact absurd ((held_iff t r.code).mpr hheld') hheld
  · rfl

theorem applyItem_full {t : List ItemRecord} {raw : RawItem} {r : ItemRecord} (hr : itemOf raw = some r)
    (hfull : 4096 ≤ t.length) (hnew : ∀ x ∈ t, x.code ≠ r.code) : applyItem t raw = .error .tableFull := by
  have hheld : ¬ t.any (fun x => x.code == r.code) = true := by
    rw [held_iff]
    exact fun ⟨x, hx, hcode⟩ => hnew x hx hcode
  unfold applyItem
  rw [hr]
  dsimp only
  rw [if_neg hheld, if_pos (show maxItems ≤ t.length from hfull)]

theorem applyItem_invalid {t : List ItemRecord} {raw : RawItem} (hr : itemOf raw = none) :
    applyItem t raw = .error .badValue := by
  rw [applyItem, hr]

theorem not_overlapped {t : List CardRange} {r : CardRange} (h : ∀ x ∈ t, x.high < r.low ∨ r.high < x.low) :
    ¬ t.any (fun x => r.overlaps x) = true := by
  rw [overlapped_iff]
  rintro ⟨x, hx, hlo, hhi⟩
  have := h x hx
  omega

theorem applyRange_fits {t : List CardRange} {raw : RawRange} {r : CardRange} (hr : rangeOf raw = some r)
    (h : RangeFits t r) :
    applyRange t raw = .ok (putRange r t) := by
  unfold applyRange
  rw [hr]
  dsimp only
  rw [if_neg (not_overlapped h.2), if_neg (show ¬ maxRanges ≤ t.length from not_le.mpr h.1)]

theorem applyRange_full {t : List CardRange} {raw : RawRange} {r : CardRange} (hr : rangeOf raw = some r)
    (hfull : 64 ≤ t.length) (hno : ∀ x ∈ t, x.high < r.low ∨ r.high < x.low) : applyRange t raw = .error .tableFull := by
  unfold applyRange
  rw [hr]
  dsimp only
  rw [if_neg (not_overlapped hno), if_pos (show maxRanges ≤ t.length from hfull)]

theorem applyRange_overlaps {t : List CardRange} {raw : RawRange} {r : CardRange} (hr : rangeOf raw = some r)
    (hover : ∃ x ∈ t, r.low ≤ x.high ∧ x.low ≤ r.high) : applyRange t raw = .error .rangeOverlap := by
  unfold applyRange
  rw [hr]
  dsimp only
  rw [if_pos ((overlapped_iff t r).mpr hover)]

theorem applyRange_invalid {t : List CardRange} {raw : RawRange} (hr : rangeOf raw = none) :
    applyRange t raw = .error .badValue := by
  rw [applyRange, hr]

/-- The item just put is the one found under its code, and no other code finds another. -/
theorem find?_putItem (t : List ItemRecord) (r : ItemRecord) (code : Nat) :
    (putItem r t).find? (fun x => x.code == code) = if code = r.code then some r else t.find? (fun x => x.code == code) := by
  induction t with
  | nil =>
    by_cases hc : code = r.code
    · simp [putItem, hc]
    · simp [putItem, hc, Ne.symm hc]
  | cons y t ih =>
    unfold putItem
    by_cases hc : code = r.code
    · subst hc
      rw [if_pos rfl] at ih ⊢
      split_ifs with hlt heq
      · simp
      · simp
      · have hne : ¬ y.code = r.code := Ne.symm heq
        simp [hne, ih]
    · have hne : ¬ r.code = code := Ne.symm hc
      rw [if_neg hc] at ih ⊢
      split_ifs with hlt heq
      · simp [hne]
      · have hy : ¬ y.code = code := heq ▸ hne
        simp [hne, hy]
      · rw [List.find?_cons, List.find?_cons, ih]

/-! ## ITEM_PUT and BIN_PUT (R46, R92) -/

theorem exec_itemPut {s : State} (h : s.ServesPart) (tag : Byte) {raws : List RawItem}
    (hl : 1 ≤ raws.length ∧ raws.length ≤ 6) :
    exec (.itemPut tag raws) s =
      .next (settle (requestFrame 15 .itemPut tag (raws.map rawItemOctets).flatten) s.upstream.length
        (takeItemPut raws s.taken)) := by
  refine exec_part .itemPut tag _ h.1 (.inl h.2) rfl rfl rfl ?_ (requestOf_itemPut _ tag raws) rfl ?_
  · simp [ReqKind.lengthOk, length_records rawItemOctets_length, hl]
  · rw [takeItemPut, loadAnswer_snd]

theorem exec_binPut {s : State} (h : s.ServesPart) (tag : Byte) {raws : List RawRange}
    (hl : 1 ≤ raws.length ∧ raws.length ≤ 4) :
    exec (.binPut tag raws) s =
      .next (settle (requestFrame 15 .binPut tag (raws.map rawRangeOctets).flatten) s.upstream.length
        (takeBinPut raws s.taken)) := by
  refine exec_part .binPut tag _ h.1 (.inl h.2) rfl rfl rfl ?_ (requestOf_binPut _ tag raws) rfl ?_
  · simp [ReqKind.lengthOk, length_records rawRangeOctets_length, hl]
  · rw [takeBinPut, loadAnswer_snd]

section
variable {s : State} (h : s.ServesPart) (tag : Byte) {n : Nat} {c : Code}
include h

/-- A load of items with every record applied. -/
theorem exec_itemPut_applied {raws : List RawItem} {t : List ItemRecord} (hl : 1 ≤ raws.length ∧ raws.length ≤ 6)
    (hx : loadAll applyItem 0 s.items raws = ⟨n, t, none⟩) :
    exec (.itemPut tag raws) s =
      .next (s.accepts 15 0x68 tag ([octet n, 0] ++ be 2 t.length) fun x => { x with items := t }) := by
  have hload : loadAll applyItem 0 s.taken.items raws = ⟨n, t, none⟩ := hx
  rw [exec_itemPut h tag hl, takeItemPut, hload]
  rfl

/-- A load of items with a record refused. -/
theorem exec_itemPut_refused {raws : List RawItem} {t : List ItemRecord} (hl : 1 ≤ raws.length ∧ raws.length ≤ 6)
    (hx : loadAll applyItem 0 s.items raws = ⟨n, t, some c⟩) :
    exec (.itemPut tag raws) s =
      .next (s.answers 15 0x68 tag false c ([octet n, octet (n + 1)] ++ be 2 t.length) fun x => { x with items := t }) := by
  have hload : loadAll applyItem 0 s.taken.items raws = ⟨n, t, some c⟩ := hx
  rw [exec_itemPut h tag hl, takeItemPut, hload]
  rfl

/-- A load of ranges with every record applied. -/
theorem exec_binPut_applied {raws : List RawRange} {t : List CardRange} (hl : 1 ≤ raws.length ∧ raws.length ≤ 4)
    (hx : loadAll applyRange 0 s.ranges raws = ⟨n, t, none⟩) :
    exec (.binPut tag raws) s =
      .next (s.accepts 15 0x6C tag [octet n, 0, octet t.length] fun x => { x with ranges := t }) := by
  have hload : loadAll applyRange 0 s.taken.ranges raws = ⟨n, t, none⟩ := hx
  rw [exec_binPut h tag hl, takeBinPut, hload]
  rfl

/-- A load of ranges with a record refused. -/
theorem exec_binPut_refused {raws : List RawRange} {t : List CardRange} (hl : 1 ≤ raws.length ∧ raws.length ≤ 4)
    (hx : loadAll applyRange 0 s.ranges raws = ⟨n, t, some c⟩) :
    exec (.binPut tag raws) s =
      .next (s.answers 15 0x6C tag false c [octet n, octet (n + 1), octet t.length] fun x => { x with ranges := t }) := by
  have hload : loadAll applyRange 0 s.taken.ranges raws = ⟨n, t, some c⟩ := hx
  rw [exec_binPut h tag hl, takeBinPut, hload]
  rfl

end

/-- The length of a load with a record refused. -/
theorem load_length {β : Type} {raws rest : List β} {raw : β} {m : Nat} (h : raws.length + 1 + rest.length ≤ m) :
    1 ≤ (raws ++ raw :: rest).length ∧ (raws ++ raw :: rest).length ≤ m := by
  rw [List.length_append, List.length_cons]
  omega

/-- Items applied in order, the rest of the load behind them. -/
theorem loadAll_items {t : List ItemRecord} {raws : List RawItem} {rs : List ItemRecord} (rest : List RawItem)
    (hraws : raws.map itemOf = rs.map some)
    (hfits : ∀ k, (hk : k < rs.length) → ItemFits (putAll putItem t (rs.take k)) rs[k]) :
    loadAll applyItem 0 t (raws ++ rest) = loadAll applyItem rs.length (putAll putItem t rs) rest := by
  have hload := loadAll_applied (fits := ItemFits) applyItem_fits rest rs 0 t raws hraws hfits
  rwa [Nat.zero_add] at hload

/-- Ranges applied in order, the rest of the load behind them. -/
theorem loadAll_ranges {t : List CardRange} {raws : List RawRange} {rs : List CardRange} (rest : List RawRange)
    (hraws : raws.map rangeOf = rs.map some)
    (hfits : ∀ k, (hk : k < rs.length) → RangeFits (putAll putRange t (rs.take k)) rs[k]) :
    loadAll applyRange 0 t (raws ++ rest) = loadAll applyRange rs.length (putAll putRange t rs) rest := by
  have hload := loadAll_applied (fits := RangeFits) applyRange_fits rest rs 0 t raws hraws hfits
  rwa [Nat.zero_add] at hload

/-- Settles O31: a load applies its records in order up to the first that its table refuses. -/
theorem loadsApplyRecordsInOrder : Obligations.LoadsApplyRecordsInOrder := by
  unfold Obligations.LoadsApplyRecordsInOrder
  refine ⟨?_, ?_, ?_, find?_putItem, fun t r x => ⟨putRange_eq r t, mem_putRange⟩, ?_, ?_, ?_, ?_⟩
  · intro s tag raws rs h hl hraws hfits
    exact exec_itemPut_applied h tag hl (loadAll_all (loadAll_items [] hraws hfits))
  · intro s tag raws rest bad rs h hl hraws hbad hfits
    exact exec_itemPut_refused h tag (load_length hl)
      ((loadAll_items _ hraws hfits).trans (loadAll_refused (applyItem_invalid hbad) _ rest))
  · intro s tag raws rest raw rs r h hl hraws hr hfits hfull hnew
    exact exec_itemPut_refused h tag (load_length hl)
      ((loadAll_items _ hraws hfits).trans (loadAll_refused (applyItem_full hr hfull hnew) _ rest))
  · intro s tag raws rs h hl hraws hfits
    exact exec_binPut_applied h tag hl (loadAll_all (loadAll_ranges [] hraws hfits))
  · intro s tag raws rest bad rs h hl hraws hbad hfits
    exact exec_binPut_refused h tag (load_length hl)
      ((loadAll_ranges _ hraws hfits).trans (loadAll_refused (applyRange_invalid hbad) _ rest))
  · intro s tag raws rest raw rs r h hl hraws hr hfits hover
    exact exec_binPut_refused h tag (load_length hl)
      ((loadAll_ranges _ hraws hfits).trans (loadAll_refused (applyRange_overlaps hr hover) _ rest))
  · intro s tag raws rest raw rs r h hl hraws hr hfits hfull hno
    exact exec_binPut_refused h tag (load_length hl)
      ((loadAll_ranges _ hraws hfits).trans (loadAll_refused (applyRange_full hr hfull hno) _ rest))

/-! ## ITEM_REMOVE, ITEM_CLEAR, ITEM_GET and BIN_READ (R47, R48, R93) -/

theorem itemOf_isNone (s : State) (c : Nat) : (s.itemOf c).isNone = true ↔ ∀ r ∈ s.items, r.code ≠ c := by
  simp [State.itemOf, Option.isNone_iff_eq_none]

theorem exec_itemRemove {s : State} (h : s.ServesPart) (tag : Byte) (code : BitVec 48) :
    exec (.itemRemove tag code) s =
      .next (settle (requestFrame 15 .itemRemove tag (be 6 code.toNat)) s.upstream.length (takeItemRemove code s.taken)) := by
  refine exec_part .itemRemove tag _ h.1 (.inl h.2) rfl rfl rfl (by simp [ReqKind.lengthOk]) ?_ rfl ?_
  · simp [requestOf, requestFrame, ofNat_fieldAt_be_last]
  · exact receiveBuffer_ite rfl (receiveBuffer_ite rfl rfl)

theorem exec_itemClear {s : State} (h : s.ServesPart) (tag : Byte) :
    exec (.itemClear tag) s = .next (settle (requestFrame 15 .itemClear tag []) s.upstream.length (takeItemClear s.taken)) :=
  exec_part .itemClear tag _ h.1 (.inl h.2) rfl rfl rfl rfl rfl rfl rfl

/-- Settles O32. -/
theorem itemRemovalIsExact : Obligations.ItemRemovalIsExact := by
  refine ⟨fun s tag code h => ?_, fun s tag h => exec_itemClear h tag⟩
  dsimp only
  rw [exec_itemRemove h, takeItemRemove]
  dsimp only
  simp only [itemCodeOk_eq, Bool.not_not, decide_eq_true_eq]
  congr 1
  split_ifs with hcode hnone hnone' hnone'
  · rfl
  · rfl
  · exact absurd ((itemOf_isNone s _).mp hnone) hnone'
  · exact absurd ((itemOf_isNone s _).mpr hnone') hnone
  · rfl

theorem exec_itemGet {s : State} (h : s.ServesPart) (tag : Byte) (code : BitVec 48) :
    exec (.itemGet tag code) s =
      .next (settle (requestFrame 15 .itemGet tag (be 6 code.toNat)) s.upstream.length (takeItemGet code s.taken)) := by
  refine exec_part .itemGet tag _ h.1 (.inl h.2) rfl rfl rfl (by simp [ReqKind.lengthOk]) ?_ rfl ?_
  · simp [requestOf, requestFrame, ofNat_fieldAt_be_last]
  · refine receiveBuffer_ite rfl ?_
    split <;> rfl

theorem exec_binRead {s : State} (h : s.ServesPart) (tag : Byte) (start : BitVec 32) :
    exec (.binRead tag start) s =
      .next (settle (requestFrame 15 .binRead tag (be 4 start.toNat)) s.upstream.length (takeBinRead start s.taken)) := by
  refine exec_part .binRead tag _ h.1 (.inl h.2) rfl rfl rfl (by simp [ReqKind.lengthOk]) ?_ rfl (receiveBuffer_ite rfl rfl)
  simp [requestOf, requestFrame, ofNat_fieldAt_be_last]

/-- The item a code finds in a lawful table is the one record that has the code (R44, R48). -/
theorem itemOf_of_mem {s : State} (h : TableLaw s) {r : ItemRecord} (hr : r ∈ s.items) : s.itemOf r.code = some r := by
  have items := ((tableLaw_iff s).mp h).1
  have inj : ∀ x ∈ s.items, x.code = r.code → x = r := fun x hx hcode => by
    by_contra hne
    obtain hlt | hlt := List.Pairwise.forall_of_forall_of_flip (R := fun a b => a ≠ b → a.code < b.code ∨ b.code < a.code)
      (fun y _ hy => absurd rfl hy) (items.ordered.imp fun hlt _ => .inl hlt) (items.ordered.imp fun hlt _ => .inr hlt)
      hx hr hne
    · omega
    · omega
  cases hf : s.itemOf r.code with
  | none => exact absurd rfl ((itemOf_isNone s r.code).mp (by rw [hf]; rfl) r hr)
  | some x => rw [inj x (List.mem_of_find?_eq_some hf) (by simpa using List.find?_some hf)]

/-- Settles O28: a held code is in range and finds its one record. -/
theorem tableReadsFindTheRecord : Obligations.TableReadsFindTheRecord := by
  refine ⟨?_, ?_, ?_⟩
  · intro s code tag r h hlaw hr hcode
    have hok : itemCodeOk code.toNat = true := by
      have hv := ((tableLaw_iff s).mp hlaw).1.valid r hr
      simp only [ItemRecord.valid, Bool.and_eq_true] at hv
      exact hcode ▸ hv.1.1.1.1.1
    have hfound : s.taken.itemOf code.toNat = some r := hcode ▸ itemOf_of_mem hlaw hr
    rw [exec_itemGet h, takeItemGet, hok, hfound]
    rfl
  · intro s code tag h hnone
    have hmissing : s.taken.itemOf code.toNat = none := Option.isNone_iff_eq_none.mp ((itemOf_isNone s _).mpr hnone)
    rw [exec_itemGet h, takeItemGet, hmissing]
    simp only [itemCodeOk_eq, Bool.not_not, decide_eq_true_eq]
    congr 1
    split_ifs with hout hin hin
    · omega
    · rfl
    · rfl
    · omega
  · intro s start tag h
    rw [exec_binRead h, takeBinRead]
    congr 1
    split_ifs with hout hin hin
    · exact absurd hin (not_le.mpr hout)
    · rfl
    · rfl
    · exact absurd (not_lt.mp hout) hin

end Sys2Proof.Machine
end

