-- ==== Sys2Proof/Proofs/StatusReads.lean ====
section
/-! HELLO, PART_STATUS, SETTINGS_READ, CAL_READ, LANE_STATUS and BASKET_READ (R64, R83, R117, R133, R155, R166, R173, R174,
R177): what each answers, and the obligation. -/

namespace Sys2Proof.Machine

/-! ## The part's status requests -/

theorem exec_hello {s : State} (h : s.Ready) (tag : Byte) :
    exec (.hello tag) s = .next (settle (requestFrame 15 .hello tag []) s.upstream.length (takeHello s.taken)) :=
  exec_part .hello tag _ h (.inr rfl) rfl rfl rfl rfl rfl rfl rfl

theorem exec_partStatus {s : State} (h : s.Ready) (tag : Byte) :
    exec (.partStatus tag) s =
      .next (settle (requestFrame 15 .partStatus tag []) s.upstream.length (takePartStatus s.taken)) :=
  exec_part .partStatus tag _ h (.inr rfl) rfl rfl rfl rfl rfl rfl rfl

theorem exec_settingsRead {s : State} (h : s.ServesPart) (tag : Byte) :
    exec (.settingsRead tag) s =
      .next (settle (requestFrame 15 .settingsRead tag []) s.upstream.length (takeSettingsRead s.taken)) :=
  exec_part .settingsRead tag _ h.1 (.inl h.2) rfl rfl rfl rfl rfl rfl rfl

theorem takeCalRead_snd (lane channel : Byte) (s : State) : (takeCalRead lane channel s).2 = s := by
  unfold takeCalRead
  split <;> rfl

theorem exec_calRead {s : State} (h : s.Ready) (tag lane channel : Byte) :
    exec (.calRead tag lane channel) s =
      .next (settle (requestFrame 15 .calRead tag [lane, channel]) s.upstream.length (takeCalRead lane channel s.taken)) :=
  exec_part .calRead tag _ h (.inr rfl) rfl rfl rfl rfl rfl rfl (by rw [takeCalRead_snd])

/-- The HELLO of a part whose self check is `check` says whether it is DEGRADED (R173, R174). -/
theorem takeHello_eq (s : State) :
    takeHello s = accept ([0x0C, 0x04, 0x01, octet s.lanesEnabled, octet s.rateStrap.toNat, s.resetCause.value,
      selfCheckValue s.selfCheck] ++ counted (s.hello.audits.map (be 2)) ++ [if s.selfCheck = .pass then 0 else 1]) s := by
  have hdegraded : flagOctet s.degraded = if s.selfCheck = .pass then 0 else 1 := by
    unfold State.degraded
    cases s.selfCheck <;> rfl
  rw [takeHello, hdegraded]
  rfl

/-- The average of a channel's filter stands in a CAL_READ while it has readings (R177). -/
theorem filterAverage_eq (s : State) (l : LaneId) (c : Chan) :
    (if s.enabled l then (s.chan l c).filterAverage else none).map (be 4) =
      if s.enabled l = true ∧ (s.chan l c).filter ≠ [] then some (be 4 (average (s.chan l c).filter)) else none := by
  unfold Channel.filterAverage
  cases hf : (s.chan l c).filter <;> cases he : s.enabled l <;> simp

theorem takeCalRead_eq (s : State) (l : LaneId) (c : Chan) :
    takeCalRead (laneAddr l) (chanValue c) s =
      accept (optional 22 ((s.stored l c).record.map calibOctets) ++ be 2 (s.stored l c).audit ++
        optional 4 (if s.enabled l = true ∧ (s.chan l c).filter ≠ [] then some (be 4 (average (s.chan l c).filter))
          else none)) s := by
  rw [takeCalRead, laneOf_laneAddr, chanOf_chanValue]
  dsimp only
  rw [filterAverage_eq]

theorem takeCalRead_foreign {lane channel : Byte} (h : 3 < lane.toNat ∨ 1 < channel.toNat) (s : State) :
    takeCalRead lane channel s = refuse .badValue s := by
  unfold takeCalRead
  split
  · rename_i l c hl hc
    obtain h | h := h
    · exact nomatch (laneOf_foreign h).symm.trans hl
    · exact nomatch (chanOf_foreign h).symm.trans hc
  all_goals rfl

/-! ## LANE_STATUS and BASKET_READ -/

/-- Octets of one value are one octet. -/
theorem byte_eq {b c : Byte} {n : Nat} (hb : b.toNat = n) (hc : c.toNat = n) : b = c :=
  BitVec.eq_of_toNat_eq (hb.trans hc.symm)

/-- LANE_STATUS by its section (R166). -/
theorem takeLaneStatus_eq (l : LaneId) (part : Byte) (s : State) :
    takeLaneStatus l part s =
      if part = 0 then accept (laneSection s l) s.counted
      else if part = 1 then accept (weighingSection s l) s.counted
      else if part = 2 then accept (cardSection s l) s.counted
      else if part = 3 then accept (printSection s l) s
      else refuse .badValue s := by
  unfold takeLaneStatus
  split
  · rw [byte_eq (b := part) ‹_› (c := 0) rfl]
    rfl
  · rw [byte_eq (b := part) ‹_› (c := 1) rfl]
    rfl
  · rw [byte_eq (b := part) ‹_› (c := 2) rfl]
    rfl
  · rw [byte_eq (b := part) ‹_› (c := 3) rfl]
    rfl
  · rename_i h0 h1 h2 h3
    rw [if_neg fun h => h0 (congrArg BitVec.toNat h), if_neg fun h => h1 (congrArg BitVec.toNat h),
      if_neg fun h => h2 (congrArg BitVec.toNat h), if_neg fun h => h3 (congrArg BitVec.toNat h)]

theorem exec_laneStatus {s : State} {l : LaneId} (h : s.Serves l) (tag part : Byte) :
    exec (.laneStatus (laneAddr l) tag part) s =
      .next (settle (requestFrame (laneAddr l) .laneStatus tag [part]) s.upstream.length (takeLaneStatus l part s.taken)) := by
  refine exec_lane .laneStatus tag _ h rfl rfl rfl rfl rfl (toLane_laneAddr l _ _) ?_
  rw [takeLaneStatus_eq]
  exact receiveBuffer_ite rfl (receiveBuffer_ite rfl (receiveBuffer_ite rfl (receiveBuffer_ite rfl rfl)))

theorem exec_basketRead {s : State} {l : LaneId} (h : s.Serves l) (tag start : Byte) :
    exec (.basketRead (laneAddr l) tag start) s =
      .next (settle (requestFrame (laneAddr l) .basketRead tag [start]) s.upstream.length (takeBasketRead l start s.taken)) :=
  exec_lane .basketRead tag _ h rfl rfl rfl rfl rfl (toLane_laneAddr l _ _) (receiveBuffer_ite rfl rfl)

/-- Settles O27: each request reads the state that dispatch leaves it. -/
theorem statusReadsChangeNothing : Obligations.StatusReadsChangeNothing := by
  refine ⟨?_, fun s tag h => exec_partStatus h tag, fun s tag h => exec_settingsRead h tag, ?_, ?_, ?_, ?_⟩
  · intro s tag h
    rw [exec_hello h, takeHello_eq]
    rfl
  · intro s l c tag h
    rw [exec_calRead h, takeCalRead_eq]
    rfl
  · intro s lane channel tag h hforeign
    rw [exec_calRead h, takeCalRead_foreign hforeign]
    rfl
  · intro s l tag part h
    rw [exec_laneStatus h, takeLaneStatus_eq]
    congr 1
    split_ifs <;> rfl
  · intro s l tag start h
    rw [exec_basketRead h, takeBasketRead]
    simp only [Bool.or_eq_true, decide_eq_true_eq]
    congr 1
    split_ifs with hout hin hin
    · omega
    · rfl
    · rfl
    · omega

end Sys2Proof.Machine
end

