-- ==== Sys2Proof/Proofs/BasketRequests.lean ====
section
/-! VOID and TENDER at their lane (R51, R56 to R59, R73, R77): what each answers, and the two obligations. -/

namespace Sys2Proof.Machine

/-- A test of a request, at dispatch. -/
theorem settle_ite {p : Prop} [Decidable p] (f : Frame) (place : Nat) (a b : Reply × State) :
    settle f place (if p then a else b) = if p then settle f place a else settle f place b :=
  apply_ite (settle f place) p a b

/-! ## A voided entry leaves the total (R51, R57) -/

/-- The total without an entry that is not voided. -/
theorem total_set_voided {n : Lane} {k : Nat} {e e' : Entry} (he : n.entries[k]? = some e) (hv : e.voided = false)
    (hv' : e'.voided = true) (b : BagCheck) :
    Lane.total { n with entries := n.entries.set k e', bagCheck := b } + e.linePrice = n.total := by
  obtain ⟨hlt, rfl⟩ := List.getElem?_eq_some_iff.mp he
  obtain ⟨before, behind, hsplit, -, hset⟩ := List.exists_of_set (a' := e') hlt
  generalize n.entries[k] = e at hsplit hv ⊢
  rw [Lane.total, Lane.total]
  dsimp only
  rw [hset, hsplit]
  simp [List.filter_append, hv, hv']
  omega

theorem due_set_voided {n : Lane} {k : Nat} {e e' : Entry} (he : n.entries[k]? = some e) (hv : e.voided = false)
    (hv' : e'.voided = true) (b : BagCheck) :
    Lane.due { n with entries := n.entries.set k e', bagCheck := b } = n.due - e.linePrice := by
  have htotal := total_set_voided he hv hv' b
  have htendered : Lane.tendered { n with entries := n.entries.set k e', bagCheck := b } = n.tendered := rfl
  rw [Lane.due, Lane.due, htendered]
  omega

/-! ## VOID (R56, R57) -/

/-- The state a VOID that passes its tests leaves (R57, R77). -/
def State.voided (s : State) (l : LaneId) (k : Nat) (e : Entry) : State :=
  let marked (b : BagState) : State :=
    s.setLane l { s.lane l with entries := (s.lane l).entries.set k { e with voided := true, bag := b } }
  if (s.lane l).mode = .self then
    match e.bag with
    | .awaiting => (marked .waived).bagCancel l (k + 1)
    | .placed => (marked .removing).expectRemoval l (k + 1) e
    | _ => marked e.bag
  else marked e.bag

/-- The answer of a VOID that passes its tests (R57). -/
def voidAnswer (l : LaneId) (k : Nat) (s : State) : Reply × State :=
  accept ([octet (k + 1), (((s.lane l).entryAt (k + 1)).map fun e => e.bag.value).getD 0] ++ be 4 (s.lane l).total ++
    beInt 4 (s.lane l).due) s

theorem modify_of_getElem? {α : Type} {t : List α} {k : Nat} {a : α} (h : t[k]? = some a) (f : α → α) :
    t.modify k f = t.set k (f a) := by
  rw [List.modify_eq_set_getElem?, h]
  rfl

/-- VOID of an entry, its last tests in order (R56). -/
theorem takeVoid_entry {s : State} {l : LaneId} {position : Byte} {k : Nat} {e : Entry}
    (hopen : (s.lane l).basketState = .opened) (hpos : position.toNat = k + 1) (he : (s.lane l).entries[k]? = some e) :
    takeVoid l position s =
      if e.voided = true then refuse .alreadyVoid s
      else if (s.lane l).mode = .self ∧ (s.lane l).authority = none then refuse .authorityNeeded s
      else if (s.lane l).mode = .self ∧ (s.lane l).bagCheck.state ≠ .settled ∧ e.bag ≠ .awaiting then refuseBagBusy l s
      else voidAnswer l k (s.voided l k e) := by
  have hentry : (s.lane l).entryAt (k + 1) = some e := he
  have voided : (s.modLane l fun n =>
      { n with entries := n.entries.modify (k + 1 - 1) fun e => { e with voided := true } }) =
      s.setLane l { s.lane l with entries := (s.lane l).entries.set k { e with voided := true } } := by
    rw [modLane_eq, Nat.add_sub_cancel, modify_of_getElem? he]
  have marked (b : BagState) :
      (s.setLane l { s.lane l with entries := (s.lane l).entries.set k { e with voided := true } }).modLane l
          (fun n => n.setEntryBag (k + 1) b) =
        s.setLane l { s.lane l with entries := (s.lane l).entries.set k { e with voided := true, bag := b } } := by
    have hset : ((s.lane l).entries.set k { e with voided := true })[k]? = some { e with voided := true } :=
      List.getElem?_set_self (List.getElem?_eq_some_iff.mp he).1
    rw [modLane_eq, lane_setLane_same, setLane_setLane, Lane.setEntryBag, Nat.add_sub_cancel, modify_of_getElem? hset,
      List.set_set]
  unfold takeVoid
  dsimp only
  rw [hopen, hpos, hentry]
  dsimp only
  rw [voided]
  simp only [marked, Lane.staffed, beq_iff_eq, bne_iff_ne, Bool.and_eq_true, Bool.not_eq_true', Option.isSome_eq_false_iff,
    Option.isNone_iff_eq_none, and_assoc]
  congr 3
  change voidAnswer l k _ = voidAnswer l k _
  congr 1
  unfold State.voided
  dsimp only
  split
  · cases e.bag <;> rfl
  · rfl

/-- The first test of VOID that refuses with a code alone (R56). -/
def Lane.voidRefusal (n : Lane) (position : Nat) : Option Code :=
  if n.basketState = .empty then some .noEntry
  else if n.basketState = .tendering then some .tenderStarted
  else if n.basketState = .settled then some .basketSettled
  else if position = 0 then some .noEntry
  else match n.entries[position - 1]? with
    | none => some .noEntry
    | some e =>
      if e.voided then some .alreadyVoid
      else if n.mode = .self ∧ n.authority = none then some .authorityNeeded
      else none

theorem takeVoid_refused {s : State} {l : LaneId} {position : Byte} {code : Code}
    (h : (s.lane l).voidRefusal position.toNat = some code) : takeVoid l position s = refuse code s := by
  unfold Lane.voidRefusal at h
  cases hb : (s.lane l).basketState with
  | empty | tendering | settled =>
    rw [hb] at h
    obtain rfl := Option.some.inj h
    rw [takeVoid, hb]
  | opened =>
    rw [hb, if_neg (by decide), if_neg (by decide), if_neg (by decide)] at h
    by_cases hpos : position.toNat = 0
    · rw [if_pos hpos] at h
      obtain rfl := Option.some.inj h
      rw [takeVoid, hb, hpos]
      rfl
    · rw [if_neg hpos] at h
      split at h
      · rename_i hnone
        obtain rfl := Option.some.inj h
        have hentry : (s.lane l).entryAt position.toNat = none := (if_neg hpos).trans hnone
        rw [takeVoid, hb, hentry]
      · rename_i e he
        rw [takeVoid_entry hb (Nat.succ_pred hpos).symm he]
        split_ifs at h with hv ha
        · obtain rfl := Option.some.inj h
          rw [if_pos hv]
        · obtain rfl := Option.some.inj h
          rw [if_neg hv, if_pos ha]

theorem entry_of_voidRefusal {n : Lane} {position : Nat} (h : n.voidRefusal position = none) :
    n.basketState = .opened ∧ ∃ k e, position = k + 1 ∧ n.entries[k]? = some e := by
  unfold Lane.voidRefusal at h
  cases hb : n.basketState with
  | empty | tendering | settled =>
    rw [hb] at h
    exact nomatch h
  | opened =>
    rw [hb, if_neg (by decide), if_neg (by decide), if_neg (by decide)] at h
    split at h
    · exact nomatch h
    · rename_i hpos
      split at h
      · exact nomatch h
      · rename_i e he
        exact ⟨rfl, position - 1, e, (Nat.succ_pred hpos).symm, he⟩

/-- The expectation ends with its entry waived, and the bag check settles (R77). -/
theorem bagCancel_settles {t : State} {l : LaneId} {b : BagCheck} {pos : Nat} (ht : (t.lane l).bagCheck = b)
    (ha : b.awaiting = some pos) (hs : b.state = .awaitingPlace ∨ b.state = .held) :
    t.bagCancel l pos = t.setBag l (b.drop.enter .settled) := by
  obtain hs | hs := hs <;> simp [State.bagCancel, ht, ha, hs]

/-- The expectation ends with its entry waived, in a state that is kept (R77). -/
theorem bagCancel_drops {t : State} {l : LaneId} {b : BagCheck} {pos : Nat} (ht : (t.lane l).bagCheck = b)
    (ha : b.awaiting = some pos) (hs : b.state = .faulted ∨ b.state = .arming) :
    t.bagCancel l pos = t.setBag l b.drop := by
  obtain hs | hs := hs <;> simp [State.bagCancel, ht, ha, hs]

theorem voided_receiveBuffer (s : State) (l : LaneId) (k : Nat) (e : Entry) :
    (s.voided l k e).receiveBuffer = s.receiveBuffer := by
  unfold State.voided
  dsimp only
  split
  · split
    · unfold State.bagCancel
      dsimp only
      split
      · split <;> rfl
      · rfl
    · rfl
    · rfl
  · rfl

theorem takeVoid_receiveBuffer (l : LaneId) (position : Byte) (s : State) :
    (takeVoid l position s).2.receiveBuffer = s.receiveBuffer := by
  cases hr : (s.lane l).voidRefusal position.toNat with
  | some code => rw [takeVoid_refused hr, refuse_snd]
  | none =>
    obtain ⟨hb, k, e, hpos, he⟩ := entry_of_voidRefusal hr
    rw [takeVoid_entry hb hpos he]
    exact receiveBuffer_ite rfl (receiveBuffer_ite rfl (receiveBuffer_ite rfl (voided_receiveBuffer ..)))

theorem exec_void {s : State} {l : LaneId} (h : s.Serves l) (tag position : Byte) :
    exec (.void (laneAddr l) tag position) s =
      .next (settle (requestFrame (laneAddr l) .void tag [position]) s.upstream.length (takeVoid l position s.taken)) :=
  exec_lane .void tag _ h rfl rfl rfl rfl rfl (toLane_laneAddr l _ _) (takeVoid_receiveBuffer l position s.taken)

/-- The answer of a VOID, by what it leaves of the entry and the bag check. -/
theorem voidAnswer_eq {s : State} {l : LaneId} {position : Byte} {k : Nat} {e e' : Entry} (b : BagCheck)
    (hpos : position.toNat = k + 1) (he : (s.lane l).entries[k]? = some e) (hv : e.voided = false) (hv' : e'.voided = true) :
    voidAnswer l k (s.setLane l { s.lane l with entries := (s.lane l).entries.set k e', bagCheck := b }) =
      accept ([position, e'.bag.value] ++ be 4 ((s.lane l).total - e.linePrice) ++ beInt 4 ((s.lane l).due - e.linePrice))
        (s.setLane l { s.lane l with entries := (s.lane l).entries.set k e', bagCheck := b }) := by
  have htotal : Lane.total { s.lane l with entries := (s.lane l).entries.set k e', bagCheck := b } =
      (s.lane l).total - e.linePrice := Nat.eq_sub_of_add_eq (total_set_voided he hv hv' b)
  have hentry : Lane.entryAt { s.lane l with entries := (s.lane l).entries.set k e', bagCheck := b } (k + 1) = some e' :=
    List.getElem?_set_self (List.getElem?_eq_some_iff.mp he).1
  have hoctet : octet (k + 1) = position := by rw [← hpos, octet, BitVec.ofNat_toNat, BitVec.setWidth_eq]
  rw [voidAnswer, lane_setLane_same, htotal, due_set_voided he hv hv' b, hentry, hoctet]
  rfl

/-- A VOID that passes its tests, by what it leaves of the entry and the bag check. -/
theorem exec_void_accepted {s : State} {l : LaneId} (tag : Byte) {position : Byte} {k : Nat} {e e' : Entry} {b : BagCheck}
    (h : s.Serves l) (hopen : (s.lane l).basketState = .opened) (hpos : position.toNat = k + 1)
    (he : (s.lane l).entries[k]? = some e) (hv : e.voided = false) (hv' : e'.voided = true)
    (hself : (s.lane l).mode = .self →
      (s.lane l).authority ≠ none ∧ ((s.lane l).bagCheck.state = .settled ∨ e.bag = .awaiting))
    (ht : s.taken.voided l k e =
      s.taken.setLane l { s.lane l with entries := (s.lane l).entries.set k e', bagCheck := b }) :
    exec (.void (laneAddr l) tag position) s =
      .next (s.accepts (laneAddr l) 0x11 tag ([position, e'.bag.value] ++ be 4 ((s.lane l).total - e.linePrice) ++
        beInt 4 ((s.lane l).due - e.linePrice))
        fun x => x.setLane l { s.lane l with entries := (s.lane l).entries.set k e', bagCheck := b }) := by
  have hauth : ¬ ((s.taken.lane l).mode = .self ∧ (s.taken.lane l).authority = none) := fun ⟨hm, ha⟩ => (hself hm).1 ha
  have hbusy : ¬ ((s.taken.lane l).mode = .self ∧ (s.taken.lane l).bagCheck.state ≠ .settled ∧ e.bag ≠ .awaiting) :=
    fun ⟨hm, hs, hb⟩ => (hself hm).2.elim hs hb
  have hanswer := voidAnswer_eq (s := s.taken) (l := l) b hpos he hv hv'
  rw [exec_void h, takeVoid_entry (s := s.taken) hopen hpos he, if_neg (by rw [hv]; decide), if_neg hauth, if_neg hbusy, ht]
  exact congrArg (fun r => Host.Outcome.next (settle _ s.upstream.length r)) hanswer

/-- Settles O46. -/
theorem voidCancelsAnEntryInPlace : Obligations.VoidCancelsAnEntryInPlace := by
  refine ⟨?_, ?_, ?_, ?_, ?_⟩
  · intro s l tag position code h hcode
    have hrefused : (s.taken.lane l).voidRefusal position.toNat = some code := hcode
    rw [exec_void h, takeVoid_refused hrefused]
    rfl
  · intro s l tag position k e h hopen hpos he hv hmode hauth hstate hbag
    rw [exec_void h, takeVoid_entry (s := s.taken) hopen hpos he, if_neg (by rw [hv]; decide), if_neg fun ha => hauth ha.2,
      if_pos ⟨hmode, hstate, hbag⟩]
    rfl
  · intro s l tag position k e h hopen hpos he hv hcase
    refine exec_void_accepted tag (e' := { e with voided := true }) (b := (s.lane l).bagCheck) h hopen hpos he hv rfl
      (fun hm => ?_) ?_
    · obtain hm' | ⟨ha, hs, -⟩ := hcase
      · exact absurd hm hm'
      · exact ⟨ha, .inl hs⟩
    · unfold State.voided
      dsimp only
      split
      · rename_i hm
        obtain hm' | ⟨-, -, hb⟩ := hcase
        · exact absurd hm hm'
        · obtain hb | hb | hb := hb <;> rw [hb] <;> rfl
      · rfl
  · intro s l tag position k e h hopen hpos he hv hmode hauth hstate hbag
    refine exec_void_accepted tag (e' := { e with voided := true, bag := .removing }) h hopen hpos he hv rfl
      (fun _ => ⟨hauth, .inl hstate⟩) ?_
    have hm : (s.taken.lane l).mode = .self := hmode
    unfold State.voided
    dsimp only
    rw [if_pos hm, hbag]
    dsimp only
    rw [State.expectRemoval, setBag_eq, lane_setLane_same, setLane_setLane]
    rfl
  · intro s l tag position k e h hopen hpos he hv hmode hauth hbag hawait n b settled
    have hm : (s.taken.lane l).mode = .self := hmode
    have cancelled (b' : BagCheck) (hb' : ∀ t : State, (t.lane l).bagCheck = b → t.bagCancel l (k + 1) = t.setBag l b') :
        exec (.void (laneAddr l) tag position) s =
          .next (s.accepts (laneAddr l) 0x11 tag ([position, 4] ++ be 4 (n.total - e.linePrice) ++
            beInt 4 (n.due - e.linePrice))
            fun x => x.setLane l { n with
              entries := n.entries.set k { e with voided := true, bag := .waived }, bagCheck := b' }) := by
      refine exec_void_accepted tag (e' := { e with voided := true, bag := .waived }) h hopen hpos he hv rfl
        (fun _ => ⟨hauth, .inr hbag⟩) ?_
      unfold State.voided
      dsimp only
      rw [if_pos hm, hbag]
      dsimp only
      rw [hb' _ (by rw [lane_setLane_same]; rfl), setBag_eq, lane_setLane_same, setLane_setLane]
      rfl
    exact ⟨fun hstate => cancelled settled fun t ht => bagCancel_settles ht hawait hstate,
      fun hstate => cancelled _ fun t ht => bagCancel_drops ht hawait hstate⟩

/-! ## TENDER (R58, R59) -/

theorem tenderKindOf_eq (kind : Byte) :
    tenderKindOf kind = if 1 < kind.toNat then none else some (if kind = 0 then .cash else .voucher) := by
  unfold tenderKindOf
  split
  · rw [byte_eq (b := kind) ‹_› (c := 0) rfl]
    rfl
  · rw [byte_eq (b := kind) ‹_› (c := 1) rfl]
    rfl
  · rename_i h0 h1
    have hne : kind.toNat ≠ 0 ∧ kind.toNat ≠ 1 := ⟨h0, h1⟩
    exact (if_pos (by omega)).symm

/-- The due after a tender (R51, R58). -/
theorem due_addTender (n : Lane) (t : Tender) : (n.addTender t).due = n.due - t.amount := by
  have htotal : (n.addTender t).total = n.total := rfl
  have htendered : (n.addTender t).tendered = n.tendered + t.amount := by simp [Lane.tendered, Lane.addTender]
  rw [Lane.due, Lane.due, htotal, htendered]
  omega

/-- A basket with a tender is SETTLED when nothing is due and TENDERING otherwise (R51). -/
theorem basketState_addTender (n : Lane) (t : Tender) :
    (n.addTender t).basketState = if n.due ≤ t.amount then .settled else .tendering := by
  have hsome : (n.addTender t).tenders.isEmpty = false := by simp [Lane.addTender]
  have hdue : (n.addTender t).due ≤ 0 ↔ n.due ≤ t.amount := by
    rw [due_addTender]
    omega
  simp [Lane.basketState, hsome, hdue]

/-- A CASH tender sets the drawer token (R59). -/
theorem addTender_plainTender (n : Lane) (kind : Byte) (a : Nat) :
    n.addTender (plainTender (if kind = 0 then .cash else .voucher) a) =
      { n with
        tenders := n.tenders ++ [⟨if kind = 0 then .cash else .voucher, a, none, none, false, false⟩]
        token := if kind = 0 then true else n.token } := by
  by_cases hkind : kind = 0
  · simp [Lane.addTender, plainTender, hkind]
  · have hvoucher : (TenderKind.voucher == TenderKind.cash) = false := rfl
    simp only [Lane.addTender, plainTender, if_neg hkind, hvoucher, Bool.or_false]

/-- The answer of a TENDER that passes its tests (R58). -/
theorem tenderDetail_eq (n : Lane) (k : TenderKind) (a : Nat) :
    be 4 (n.addTender (plainTender k a)).tendered ++ beInt 4 (n.addTender (plainTender k a)).due ++
        [(n.addTender (plainTender k a)).basketState.value] =
      be 4 (n.tendered + a) ++ beInt 4 (n.due - a) ++ [if n.due ≤ a then 3 else 2] := by
  have htendered : (n.addTender (plainTender k a)).tendered = n.tendered + a := by
    simp [Lane.tendered, Lane.addTender, plainTender]
  have hvalue (p : Prop) [Decidable p] : (if p then BasketState.settled else .tendering).value = if p then 3 else 2 := by
    split <;> rfl
  rw [htendered, due_addTender, basketState_addTender, hvalue]
  rfl

/-- TENDER, its tests in order (R58). -/
theorem takeTender_eq (l : LaneId) (kind : Byte) (amount : BitVec 32) (s : State) :
    takeTender l kind amount s =
      let n := s.lane l
      let a := amount.toNat
      if 1 < kind.toNat ∨ a < 1 ∨ 9999999 < a then refuse .badValue s
      else if n.basketState = .empty then refuse .badValue s
      else if n.basketState = .settled then refuse .basketSettled s
      else if n.card.slot ≠ none then refuse .handoffPending s
      else if 8 ≤ n.tenders.length then refuse .tenderFull s
      else
        let n1 := n.addTender (plainTender (if kind = 0 then .cash else .voucher) a)
        accept (be 4 n1.tendered ++ beInt 4 n1.due ++ [n1.basketState.value]) (s.setLane l n1) := by
  unfold takeTender
  dsimp only
  rw [tenderKindOf_eq]
  by_cases hkind : 1 < kind.toNat
  · simp [hkind]
  · simp [hkind, Lane.handoffOutstanding, Option.isSome_iff_ne_none]

theorem exec_tender {s : State} {l : LaneId} (h : s.Serves l) (tag kind : Byte) (amount : BitVec 32) :
    exec (.tender (laneAddr l) tag kind amount) s =
      .next (settle (requestFrame (laneAddr l) .tender tag (kind :: be 4 amount.toNat)) s.upstream.length
        (takeTender l kind amount s.taken)) := by
  refine exec_lane .tender tag _ h rfl rfl rfl (by simp [ReqKind.lengthOk]) ?_ (toLane_laneAddr l _ _) ?_
  · simp [requestOf, requestFrame, octetAt_cons_zero, fieldAt_cons, ofNat_fieldAt_be_last]
  · rw [takeTender_eq]
    iterate 5 refine receiveBuffer_ite rfl ?_
    rfl

/-- Settles O48. -/
theorem tenderMovesTheDue : Obligations.TenderMovesTheDue := by
  intro s l tag kind amount h n a
  rw [exec_tender h, takeTender_eq]
  dsimp only
  rw [tenderDetail_eq, addTender_plainTender]
  simp only [settle_ite]
  rfl

end Sys2Proof.Machine
end

