-- ==== Sys2Proof/Proofs/PaymentVerdicts.lean ====
section
/-! RESULT, RESPONSE_TIMER_EXPIRY and CANCEL_CARD (R60, R61, R104, R108 to R117): how a hand-off ends, what a RESULT that
matches nothing leaves, what CANCEL_CARD answers, and the obligation. -/

namespace Sys2Proof.Machine

/-! ## The end of a hand-off (R112, R117) -/

/-- The state a hand-off leaves that ended at a lane: the lane with its result, the link's block, the CARD_RESULT and the
grant test (R112). -/
def State.ended (s : State) (l : LaneId) (m : Lane) (p : PayLink) (r : CardResult) : State :=
  (({ s.setLane l { m with lastResult := some r } with pay := p } : State).offerLane l 0x86 (cardResultPayload r)).tryGrant

/-- The payment link after a hand-off (R112). -/
def PayLink.freed (p : PayLink) (transmit : List Frame) : PayLink :=
  { p with inFlight := none, response := none, transmit := transmit }

theorem handoffEnd_eq (s : State) (f : InFlight) (x : Slot) (o : HandoffOutcome) (rcv : Option Byte) (a : Option Approval) :
    s.handoffEnd f x o rcv a =
      s.ended f.lane ((s.lane f.lane).setSlot none)
        (s.pay.freed (if rcv.isSome then withdrawAbort (abortFrame f.lane f.number) s.pay.transmit else s.pay.transmit))
        (cardResultOf ((s.lane f.lane).setSlot none) x f.number o rcv a) := by
  generalize hm : (s.lane f.lane).setSlot none = m
  generalize hp : s.pay.freed (if rcv.isSome then withdrawAbort (abortFrame f.lane f.number) s.pay.transmit
    else s.pay.transmit) = p
  have hfreed : s.handoffEnd f x o rcv a =
      ((({ s with pay := p } : State).setLane f.lane m).offerResult f.lane
        (cardResultOf ((({ s with pay := p } : State).setLane f.lane m).lane f.lane) x f.number o rcv a)).tryGrant := by
    rw [← hp, ← hm]
    rfl
  rw [hfreed, lane_setLane_same, State.offerResult, modLane_eq, lane_setLane_same, setLane_setLane]
  rfl

theorem ended_setLane (s : State) (l : LaneId) (k m : Lane) (p : PayLink) (r : CardResult) :
    (s.setLane l k).ended l m p r = s.ended l m p r := by
  have hlane (n : Lane) : ({ (s.setLane l k).setLane l n with pay := p } : State) = { s.setLane l n with pay := p } := by
    rw [setLane_setLane]
  rw [State.ended, hlane]
  rfl

/-! ## A RESULT (R108 to R111) -/

theorem min_eq_ite (a b : Nat) : min a b = if b < a then b else a := by
  split <;> omega

theorem used_eq (addr tag outcome : Byte) (amount : BitVec 32) (approval : BitVec 48) :
    (resultFrame addr tag outcome amount approval).used =
      if outcome = 1 ∧ min amount.toNat approvedLimit ≠ 0 then .approved
      else if outcome = 2 then .declined else .failed := by
  unfold ResultFrame.used resultFrame
  dsimp only
  split
  · rw [byte_eq (b := outcome) ‹_› (c := 1) rfl]
    by_cases hzero : min amount.toNat approvedLimit = 0 <;> simp [hzero]
  · rw [byte_eq (b := outcome) ‹_› (c := 2) rfl]
    rfl
  · rename_i h1 h2
    rw [if_neg fun h => h1 (congrArg BitVec.toNat h.1), if_neg fun h => h2 (congrArg BitVec.toNat h)]

/-- A RESULT that does not approve is a refusal (R109, R195). -/
theorem used_refused {r : ResultFrame} {outcome : Byte} (h : r.used = if outcome = 2 then .declined else .failed) :
    r.used = .declined ∨ r.used = .failed := by
  rw [h]
  split
  · exact .inl rfl
  · exact .inr rfl

/-- The verdict of an approval: the hand-off ends with its CARD tender (R110, R116). -/
theorem verdict_approved {s : State} {f : InFlight} {x : Slot} {r : ResultFrame} (h : r.used = .approved) {tender : Tender}
    (ht : cardTender f r (x.phase == .aborting) = tender) :
    s.verdict f x r =
      let n := s.lane f.lane
      let m := Lane.setSlot { n with tenders := n.tenders ++ [tender] } none
      s.ended f.lane m (s.pay.freed (withdrawAbort (abortFrame f.lane f.number) s.pay.transmit))
        (cardResultOf m x f.number .approved (some r.received) (some (approvalOf f r (x.phase == .aborting)))) := by
  rw [State.verdict, h]
  dsimp only
  rw [handoffEnd_eq, modLane_eq, lane_setLane_same, ht, ended_setLane]
  rfl

/-- The verdict of a refusal: the hand-off ends without a tender (R111, R116). -/
theorem verdict_refused {s : State} {f : InFlight} {x : Slot} {r : ResultFrame}
    (h : r.used = .declined ∨ r.used = .failed) :
    s.verdict f x r =
      let m := (s.lane f.lane).setSlot none
      s.ended f.lane m (s.pay.freed (withdrawAbort (abortFrame f.lane f.number) s.pay.transmit))
        (cardResultOf m x f.number (if x.phase == .aborting then .cancelled else r.used) (some r.received) none) := by
  obtain h | h := h <;> rw [State.verdict, h] <;> exact handoffEnd_eq ..

theorem exec_result {s : State} (h : s.power = .running) (addr tag outcome : Byte) (amount : BitVec 32)
    (approval : BitVec 48) :
    exec (.result addr tag outcome amount approval) s =
      .next (s.takeResult (resultFrame addr tag outcome amount approval)) := by
  have hx : exec (.result addr tag outcome amount approval) s =
      .next (s.onPart fun x => x.paymentArrive (resultOnLine addr tag outcome amount approval)) := rfl
  rw [hx, onPart_running s _ h, paymentArrive_result]

theorem takeResult_matched {s : State} {f : InFlight} {x : Slot} {r : ResultFrame} (hf : s.pay.inFlight = some f)
    (hx : (s.lane f.lane).card.slot = some x) (haddr : r.addr = laneAddr f.lane) (htag : r.tag.toNat = f.number) :
    s.takeResult r = s.verdict f x r := by
  have hmatch : f.matches r = true := by simp [InFlight.matches, haddr, htag]
  rw [State.takeResult, hf]
  dsimp only
  rw [if_pos hmatch, hx]

/-! ## A stray RESULT (R114) -/

/-- The state with the payment link's block replaced. -/
def State.withPay (s : State) (p : PayLink) : State := { s with pay := p }

theorem raisePart_withPay (s : State) (c : PartCond) (p : PayLink) :
    (s.withPay p).raisePart c = (s.raisePart c).withPay p := by
  unfold State.raisePart
  simp only [apply_ite (State.withPay · p)]
  rfl

/-- A notice about the part does not touch the payment link. -/
theorem offerPart_withPay (s : State) (k : Byte) (octets : List Byte) (p : PayLink) :
    (s.withPay p).offerPart k octets = (s.offerPart k octets).withPay p := by
  unfold State.offerPart
  rw [apply_ite (State.withPay · p), ← raisePart_withPay]
  rfl

theorem pay_offerPart (s : State) (k : Byte) (octets : List Byte) : (s.offerPart k octets).pay = s.pay := by
  change ((s.withPay s.pay).offerPart k octets).pay = s.pay
  rw [offerPart_withPay]
  rfl

theorem takeResult_stray {s : State} {r : ResultFrame}
    (h : ∀ f ∈ s.pay.inFlight, ¬ (r.addr = laneAddr f.lane ∧ r.tag.toNat = f.number)) : s.takeResult r = s.stray r := by
  unfold State.takeResult
  split
  · rfl
  · rename_i f hf
    have hmatch : ¬ f.matches r = true := by
      simp only [InFlight.matches, Bool.and_eq_true, beq_iff_eq]
      exact fun ⟨htag, haddr⟩ => h f hf ⟨haddr, htag⟩
    rw [if_neg hmatch]

theorem stray_eq (s : State) {r : ResultFrame} {x : Stray}
    (hx : (⟨r.addr, r.tag, r.received, r.used, r.amount, r.approval⟩ : Stray) = x) :
    s.stray r =
      ((s.withPay { s.pay with lastStray := some x }).offerPart 0x87 (strayPayload x)).raisePart .strayResult := by
  subst hx
  rw [offerPart_withPay, State.withPay, State.stray, pay_offerPart]
  rfl

/-! ## The response timer (R113) -/

theorem exec_responseExpires {s : State} {f : InFlight} {x : Slot} (h : s.power = .running) (hf : s.pay.inFlight = some f)
    (hx : (s.lane f.lane).card.slot = some x) (ht : s.pay.response.isSome = true) :
    exec .responseTimerExpiry s =
      .next ((if x.phase = .inFlight then s.transmit (abortFrame f.lane f.number) else s).handoffEnd f x .timedOut
        none none) := by
  have hexec : exec .responseTimerExpiry s = .next (s.onPart State.responseExpires) := rfl
  have hruns : ¬ s.pay.response.isNone = true := by
    rw [Option.isNone_iff_eq_none, ← ne_eq, ← Option.isSome_iff_ne_none]
    exact ht
  rw [hexec, onPart_running s _ h, State.responseExpires, if_neg hruns, hf]
  dsimp only
  rw [hx]

/-! ## CANCEL_CARD (R115) -/

theorem takeCancelCard_receiveBuffer (l : LaneId) (s : State) : (takeCancelCard l s).2.receiveBuffer = s.receiveBuffer := by
  unfold takeCancelCard
  split
  · rfl
  · dsimp only
    split
    · exact offerLane_receiveBuffer ..
    · split <;> rfl
    · rfl

theorem exec_cancelCard {s : State} {l : LaneId} (h : s.Serves l) (tag : Byte) :
    exec (.cancelCard (laneAddr l) tag) s =
      .next (settle (requestFrame (laneAddr l) .cancelCard tag []) s.upstream.length (takeCancelCard l s.taken)) :=
  exec_lane .cancelCard tag _ h rfl rfl rfl rfl rfl (toLane_laneAddr l _ _) (takeCancelCard_receiveBuffer l s.taken)

/-- CANCEL_CARD of a WAITING slot (R115). -/
theorem takeCancelCard_waiting {s : State} {l : LaneId} {x : Slot} (hx : (s.lane l).card.slot = some x)
    (hp : x.phase = .waiting) :
    takeCancelCard l s =
      let m := (s.lane l).setSlot none
      let r := cardResultOf m x 0 .cancelled none none
      accept [0] ((s.setLane l { m with lastResult := some r }).offerLane l 0x86 (cardResultPayload r)) := by
  dsimp only
  generalize hm : (s.lane l).setSlot none = m
  generalize hr : cardResultOf m x 0 .cancelled none none = r
  have hoffered : (s.modLane l fun n => n.setSlot none).offerResult l
      (cardResultOf ((s.modLane l fun n => n.setSlot none).lane l) x 0 .cancelled none none) =
      (s.setLane l { m with lastResult := some r }).offerLane l 0x86 (cardResultPayload r) := by
    rw [modLane_eq, hm, lane_setLane_same, hr, State.offerResult, modLane_eq, lane_setLane_same, setLane_setLane]
    rfl
  have hempty : m.card.slot = none := by rw [← hm]; rfl
  obtain ⟨a, ha⟩ := offerLane_lane (s.setLane l { m with lastResult := some r }) l 0x86 (cardResultPayload r)
  rw [takeCancelCard, hx]
  dsimp only
  rw [hp]
  dsimp only
  rw [hoffered, slotAnswer, ha, lane_setLane_same, hempty, slotStateValue]

/-- CANCEL_CARD of a slot IN_FLIGHT (R115). -/
theorem takeCancelCard_inFlight {s : State} {l : LaneId} {x : Slot} {f : InFlight} (hx : (s.lane l).card.slot = some x)
    (hp : x.phase = .inFlight) (hf : s.pay.inFlight = some f) (hl : f.lane = l) :
    takeCancelCard l s =
      accept [3] ((s.transmit (abortFrame l f.number)).setLane l ((s.lane l).setSlot (some { x with phase := .aborting }))) := by
  subst hl
  rw [takeCancelCard, hx]
  dsimp only
  rw [hp, hf]
  dsimp only
  rw [slotAnswer, modLane_eq, lane_setLane_same]
  rfl

/-- CANCEL_CARD of a slot ABORTING (R115). -/
theorem takeCancelCard_aborting {s : State} {l : LaneId} {x : Slot} (hx : (s.lane l).card.slot = some x)
    (hp : x.phase = .aborting) : takeCancelCard l s = accept [3] s := by
  rw [takeCancelCard, hx]
  dsimp only
  rw [hp]
  dsimp only
  rw [slotAnswer, hx, slotStateValue, hp]

/-- Settles O55. -/
theorem paymentVerdictsEndTheHandOff : Obligations.PaymentVerdictsEndTheHandOff := by
  refine ⟨?_, ?_, ?_, ?_⟩
  · intro s f x addr tag outcome amount approval h hf hx haddr htag n a late tender approved o m r
    have hamount : min amount.toNat approvedLimit = a := min_eq_ite _ _
    have hgoal : s.ended f.lane m (s.pay.freed (withdrawAbort (abortFrame f.lane f.number) s.pay.transmit)) r = _ := rfl
    rw [exec_result h, takeResult_matched hf hx haddr htag]
    refine congrArg Host.Outcome.next (Eq.trans ?_ hgoal)
    by_cases hap : approved
    · have hused : (resultFrame addr tag outcome amount approval).used = .approved := by
        rw [used_eq, hamount]
        exact if_pos hap
      have htender : cardTender f (resultFrame addr tag outcome amount approval) (x.phase == .aborting) = tender := by
        simp only [cardTender, resultFrame, hamount, min_eq_ite a]
        rfl
      have happroval : approvalOf f (resultFrame addr tag outcome amount approval) (x.phase == .aborting) =
          ⟨a, tender.amount, approval, decide (f.amount < a), decide late⟩ := by
        simp only [approvalOf, resultFrame, hamount, min_eq_ite a]
        rfl
      have hm : Lane.setSlot { n with tenders := n.tenders ++ [tender] } none = m := by
        simp only [m, if_pos hap]
        rfl
      have hr : cardResultOf m x f.number .approved (some outcome)
          (some ⟨a, tender.amount, approval, decide (f.amount < a), decide late⟩) = r := by
        simp only [r, o, hap, true_and, if_true]
        rfl
      rw [verdict_approved hused htender, happroval]
      dsimp only
      rw [hm]
      exact congrArg (s.ended f.lane m _) hr
    · have hused : (resultFrame addr tag outcome amount approval).used = if outcome = 2 then .declined else .failed := by
        rw [used_eq, hamount]
        exact if_neg hap
      have ho : (if x.phase == .aborting then .cancelled else (resultFrame addr tag outcome amount approval).used) = o := by
        simp only [o, if_neg hap, hused, late, beq_iff_eq]
      have hm : n.setSlot none = m := by
        simp only [m, if_neg hap, List.append_nil]
        rfl
      have hr : cardResultOf m x f.number o (some outcome) none = r := by
        simp only [r, hap, false_and, if_false]
        rfl
      rw [verdict_refused (used_refused hused), ho]
      dsimp only
      rw [hm]
      exact congrArg (s.ended f.lane m _) hr
  · intro s f x h hf hx ht n m r
    rw [exec_responseExpires h hf hx ht, handoffEnd_eq]
    by_cases hp : x.phase = .inFlight
    · rw [if_pos hp, if_pos hp]
      rfl
    · rw [if_neg hp, if_neg hp, List.append_nil]
      rfl
  · intro s addr tag outcome amount approval h hstray a used stray
    have hamount : min amount.toNat approvedLimit = a := min_eq_ite _ _
    have hkept : Stray.mk addr tag outcome (resultFrame addr tag outcome amount approval).used
        (min amount.toNat approvedLimit) approval = stray := by rw [used_eq, hamount]
    rw [exec_result h, takeResult_stray hstray, stray_eq s hkept]
    rfl
  · intro s l tag h n m
    refine ⟨fun hnone => ?_, fun x hx => ⟨fun hp => ?_, fun f hf hp hl => ?_, fun hp => ?_⟩⟩
    · have hslot : (s.taken.lane l).card.slot = none := hnone
      rw [exec_cancelCard h, takeCancelCard, hslot]
      rfl
    · rw [exec_cancelCard h, takeCancelCard_waiting (s := s.taken) hx hp]
      rfl
    · rw [exec_cancelCard h, takeCancelCard_inFlight (s := s.taken) hx hp hf hl]
      rfl
    · rw [exec_cancelCard h, takeCancelCard_aborting (s := s.taken) hx hp]
      rfl

end Sys2Proof.Machine
end

