-- ==== Sys2Proof/Proofs/DrawerRequests.lean ====
section
/-! DRAWER_OPEN and DRAWER_CLEAR at their lane (R59, R122, R123, R129): the admission test for a lane at the tail of the
power queue, what each request answers, and the obligation. -/

namespace Sys2Proof.Machine

/-! ## The admission test (R123, R124) -/

theorem admissible_head {s : State} {l : LaneId} (h : s.admissible = some l) : ∃ q, s.powerQueue = l :: q := by
  unfold State.admissible at h
  split at h
  · exact nomatch h
  · rename_i m q hq
    split_ifs at h
    obtain rfl := Option.some.inj h
    exact ⟨q, hq⟩

theorem admissible_nil {s : State} (h : s.powerQueue = []) : s.admissible = none := by rw [State.admissible, h]

/-- With no lane in the queue, none is admitted. -/
theorem admitHeads_nil (k : Nat) {s : State} (h : s.powerQueue = []) : State.admitHeads k s = s := by
  cases k with
  | zero => rfl
  | succ k => rw [State.admitHeads, admissible_nil h]

theorem till_setTill_same (s : State) (l : LaneId) (t : Till) : (s.setTill l t).till l = t :=
  congrArg Lane.till (lane_setLane_same s l _)

theorem till_setTill_ne (s : State) {l m : LaneId} (t : Till) (h : l ≠ m) : (s.setTill m t).till l = s.till l :=
  congrArg Lane.till (lane_setLane_ne s m l _ h)

/-- A lane at the tail of the queue, once, is admitted or still waits there. -/
theorem admitHeads_tail {l : LaneId} (k : Nat) : ∀ {s : State} (q : List LaneId), s.powerQueue = q ++ [l] → l ∉ q →
    (s.till l).state = .waitingPower →
    ((State.admitHeads k s).till l).state = .releasing ∨
      ((State.admitHeads k s).till l).state = .waitingPower ∧
        ∃ q', (State.admitHeads k s).powerQueue = q' ++ [l] ∧ l ∉ q' := by
  induction k with
  | zero => exact fun q hq hl hs => .inr ⟨hs, q, hq, hl⟩
  | succ k ih =>
    intro s q hq hl hs
    unfold State.admitHeads
    split
    · exact .inr ⟨hs, q, hq, hl⟩
    · rename_i m hm
      obtain ⟨rest, hrest⟩ := admissible_head hm
      cases q with
      | nil =>
        obtain ⟨rfl, rfl⟩ := List.cons.inj (hq.symm.trans hrest)
        have hempty : (s.admitOne l).powerQueue = [] := congrArg List.tail hrest
        rw [admitHeads_nil k hempty]
        exact .inl (congrArg Till.state (till_setTill_same _ l _))
      | cons x q =>
        obtain ⟨rfl, rfl⟩ := List.cons.inj (hq.symm.trans hrest)
        obtain ⟨hne, hlq⟩ := not_or.mp (List.mem_cons.not.mp hl)
        have htail : (s.admitOne x).powerQueue = q ++ [l] := congrArg List.tail hrest
        have htill : (s.admitOne x).till l = s.till l := till_setTill_ne _ _ hne
        exact ih q htail hlq (htill ▸ hs)

/-- The admission test does not read what dispatch leaves (R123, R169, R170). -/
theorem admitHeads_taken (k : Nat) (s : State) : State.admitHeads k s.taken = (State.admitHeads k s).taken := by
  induction k generalizing s with
  | zero => rfl
  | succ k ih =>
    have hhead : s.taken.admissible = s.admissible := rfl
    unfold State.admitHeads
    rw [hhead]
    split
    · rfl
    · exact ih (s.admitOne _)

theorem setTill_token (s : State) (l m : LaneId) (t : Till) : ((s.setTill m t).lane l).token = (s.lane l).token := by
  by_cases hl : l = m
  · subst hl
    rw [setTill_eq, lane_setLane_same]
  · exact congrArg Lane.token (lane_setLane_ne s m l _ hl)

theorem admitHeads_token (k : Nat) (s : State) (l : LaneId) : ((State.admitHeads k s).lane l).token = (s.lane l).token := by
  induction k generalizing s with
  | zero => rfl
  | succ k ih =>
    unfold State.admitHeads
    split
    · rfl
    · exact (ih _).trans (setTill_token _ l _ _)

theorem admitHeads_receiveBuffer (k : Nat) (s : State) : (State.admitHeads k s).receiveBuffer = s.receiveBuffer := by
  induction k generalizing s with
  | zero => rfl
  | succ k ih =>
    unfold State.admitHeads
    split
    · rfl
    · exact ih _

/-! ## DRAWER_OPEN (R59, R122) -/

theorem joinQueue_receiveBuffer (s : State) (l : LaneId) (token : Bool) :
    (s.joinQueue l token).receiveBuffer = s.receiveBuffer :=
  admitHeads_receiveBuffer 4 _

theorem joinQueue_taken (s : State) (l : LaneId) (token : Bool) : s.taken.joinQueue l token = (s.joinQueue l token).taken :=
  admitHeads_taken 4 { s.modLane l fun n => { n with
    token := if token then false else n.token, till := { n.till with state := .waitingPower, retry := false } } with
    powerQueue := s.powerQueue ++ [l] }

/-- The token is consumed when it is the authority (R59). -/
theorem joinQueue_token (s : State) (l : LaneId) (token : Bool) :
    ((s.joinQueue l token).lane l).token = if token then false else (s.lane l).token :=
  (admitHeads_token 4 _ l).trans (congrArg Lane.token (lane_setLane_same s l _))

/-- A closed drawer that joins the queue is RELEASING, or WAITING_POWER at the tail. -/
theorem joinQueue_till {s : State} {l : LaneId} (h : SolenoidLaw s) (hs : (s.till l).state = .closed) (token : Bool) :
    ((s.joinQueue l token).till l).state = .releasing ∨
      ((s.joinQueue l token).till l).state = .waitingPower ∧
        ∃ q, (s.joinQueue l token).powerQueue = q ++ [l] ∧ l ∉ q := by
  obtain ⟨-, -, -, -, -, hqueue, -⟩ := h
  have hl : l ∉ s.powerQueue := fun hl => nomatch hs.symm.trans ((hqueue l).mp hl)
  refine admitHeads_tail 4 s.powerQueue rfl hl ?_
  exact congrArg (fun n : Lane => n.till.state) (lane_setLane_same s l _)

theorem queuePlace_tail {s : State} {l : LaneId} {q : List LaneId} (h : s.powerQueue = q ++ [l]) (hl : l ∉ q) :
    s.queuePlace l = some s.powerQueue.length := by
  have hmem : s.powerQueue.contains l = true := by simp [h]
  have hplace : s.powerQueue.idxOf l + 1 = s.powerQueue.length := by simp [h, List.idxOf_append_of_notMem hl]
  rw [State.queuePlace, if_pos hmem, hplace]

/-- The state and the place of an accepted DRAWER_OPEN (R122). -/
theorem drawerOpened_joinQueue {s : State} {l : LaneId} (h : SolenoidLaw s) (hs : (s.till l).state = .closed)
    (token : Bool) :
    let t := s.joinQueue l token
    drawerOpened l token t.taken =
      accept ([if token then 0 else 1, flagOctet (if token then false else (s.lane l).token), (t.till l).state.value] ++
        if (t.till l).state = .waitingPower then [1, octet t.powerQueue.length] else [0, 0]) t.taken := by
  intro t
  have hplace : optional 1 ((if (t.till l).state = .waitingPower then t.queuePlace l else none).map (be 1)) =
      if (t.till l).state = .waitingPower then [1, octet t.powerQueue.length] else [0, 0] := by
    obtain hr | ⟨hw, q, hq, hl⟩ := joinQueue_till h hs token
    · have hne : ¬ (t.till l).state = .waitingPower := fun hw => nomatch hr.symm.trans hw
      rw [if_neg hne, if_neg hne]
      rfl
    · rw [if_pos hw, if_pos hw, queuePlace_tail hq hl]
      rfl
  rw [← hplace, ← joinQueue_token s l token]
  rfl

theorem takeDrawerOpen_closed {s : State} {l : LaneId} (h : (s.till l).state = .closed) :
    takeDrawerOpen l s =
      let token := (s.lane l).mode == .attended && (s.lane l).token
      if token || (s.lane l).staffed then drawerOpened l token (s.joinQueue l token) else refuse .authorityNeeded s := by
  have ht : (s.lane l).till.state = .closed := h
  rw [takeDrawerOpen, ht]

theorem takeDrawerOpen_busy {s : State} {l : LaneId} (h : (s.till l).state = .waitingPower ∨ (s.till l).state = .releasing ∨
    (s.till l).state = .checking ∨ (s.till l).state = .fault) : takeDrawerOpen l s = refuse .drawerBusy s := by
  unfold State.till at h
  obtain h | h | h | h := h <;> rw [takeDrawerOpen, h]

theorem takeDrawerOpen_open {s : State} {l : LaneId} (h : (s.till l).state = .opened ∨ (s.till l).state = .leftOpen) :
    takeDrawerOpen l s = refuse .drawerOpen s := by
  unfold State.till at h
  obtain h | h := h <;> rw [takeDrawerOpen, h]

theorem takeDrawerOpen_receiveBuffer (l : LaneId) (s : State) : (takeDrawerOpen l s).2.receiveBuffer = s.receiveBuffer := by
  unfold takeDrawerOpen
  dsimp only
  split
  case h_7 => exact receiveBuffer_ite (joinQueue_receiveBuffer ..) rfl
  all_goals rfl

theorem exec_drawerOpen {s : State} {l : LaneId} (h : s.Serves l) (tag : Byte) :
    exec (.drawerOpen (laneAddr l) tag) s =
      .next (settle (requestFrame (laneAddr l) .drawerOpen tag []) s.upstream.length (takeDrawerOpen l s.taken)) :=
  exec_lane .drawerOpen tag _ h rfl rfl rfl rfl rfl (toLane_laneAddr l _ _) (takeDrawerOpen_receiveBuffer l s.taken)

/-! ## DRAWER_CLEAR (R129) -/

theorem exec_drawerClear {s : State} {l : LaneId} (h : s.Serves l) (tag : Byte) :
    exec (.drawerClear (laneAddr l) tag) s =
      .next (settle (requestFrame (laneAddr l) .drawerClear tag []) s.upstream.length (takeDrawerClear l s.taken)) :=
  exec_lane .drawerClear tag _ h rfl rfl rfl rfl rfl (toLane_laneAddr l _ _)
    (receiveBuffer_ite (offerLane_receiveBuffer ..) rfl)

theorem takeDrawerClear_eq (l : LaneId) (s : State) :
    takeDrawerClear l s =
      let n := s.lane l
      if n.till.state = .fault then
        accept [] ((s.setLane l { n with till := { n.till with state := .closed } }).offerLane l 0x88
          ([laneAddr l, 4, 0] ++ be 2 n.till.openCount ++ [flagOctet n.token, flagOctet n.till.forced] ++ [0, 0]))
      else refuse .noFault s := by
  unfold takeDrawerClear State.offerDrawer
  rw [setTill_eq, lane_setLane_same]
  rfl

/-- Settles O56. -/
theorem drawerRequestsAreAuthorised : Obligations.DrawerRequestsAreAuthorised := by
  refine ⟨?_, ?_, ?_⟩
  · intro s l tag h n st
    refine ⟨fun hst => ?_, fun hst => ?_, fun hst hauth htoken => ?_⟩
    · rw [exec_drawerOpen h, takeDrawerOpen_busy (s := s.taken) hst]
      rfl
    · rw [exec_drawerOpen h, takeDrawerOpen_open (s := s.taken) hst]
      rfl
    · have hneither :
          ¬ (((s.taken.lane l).mode == .attended && (s.taken.lane l).token) || (s.taken.lane l).staffed) = true := by
        simp only [Lane.staffed, Bool.or_eq_true, Bool.and_eq_true, beq_iff_eq, not_or, not_and, Bool.not_eq_true]
        refine ⟨fun hm => htoken.resolve_left fun hne => hne hm, ?_⟩
        exact Option.isSome_eq_false_iff.mpr (Option.isNone_iff_eq_none.mpr hauth)
      rw [exec_drawerOpen h, takeDrawerOpen_closed (s := s.taken) hst]
      dsimp only
      rw [if_neg hneither]
      rfl
  · intro s l tag h hlaw hclosed hallowed n byToken action t
    generalize htoken : (n.mode == .attended && n.token) = token
    have hby : token = true ↔ byToken := by simp [← htoken, byToken]
    have hauthority : (token || n.staffed) = true := by
      rw [Bool.or_eq_true, hby, Lane.staffed, Option.isSome_iff_ne_none]
      exact hallowed
    have hif {α : Type} (a b : α) : (if byToken then a else b) = if token then a else b := if_congr hby.symm rfl rfl
    have haction (u : State) (hu : u.lane l = n) : action u = u.joinQueue l token := by
      change State.admission _ = State.admission _
      rw [hif, ← hu]
      rfl
    have ht : t = s.joinQueue l token := haction s rfl
    have hreply : takeDrawerOpen l s.taken = drawerOpened l token (s.joinQueue l token).taken := by
      rw [takeDrawerOpen_closed (s := s.taken) hclosed, ← joinQueue_taken, ← htoken]
      exact if_pos (htoken ▸ hauthority)
    rw [exec_drawerOpen h, hreply, drawerOpened_joinQueue hlaw hclosed, hif, hif, ht, ← joinQueue_taken,
      ← haction s.taken rfl]
    rfl
  · intro s l tag h n
    rw [exec_drawerClear h, takeDrawerClear_eq]
    simp only [settle_ite]
    rfl

end Sys2Proof.Machine
end

