-- ==== Sys2Proof/Proofs/Expectations.lean ====
section
/-! SUPPORT. What the law of the awaiting entry reads of the lanes (R65, R66, R71), and the operations of the other blocks that
leave it alone. -/

namespace Sys2Proof.Machine

/-! ## What the law reads of a lane -/

/-- What the law of the awaiting entry reads of a lane: the entries' bag states, the bag check's state, awaiting entry and
timers, and the lane mode. -/
structure Expectation where
  bags : List BagState
  state : BagCheckState
  awaiting : Option Nat
  placement : Timer
  removal : Timer
  mode : LaneMode

/-- A lane as the law of the awaiting entry sees it. -/
def Lane.expectation (n : Lane) : Expectation :=
  { bags := n.entries.map Entry.bag, state := n.bagCheck.state, awaiting := n.bagCheck.awaiting,
    placement := n.bagCheck.placement, removal := n.bagCheck.removal, mode := n.mode }

/-- The expectation of every lane. -/
def expectations (f : Four Lane) (l : LaneId) : Expectation := (f.get l).expectation

/-! ## Writes of a lane -/

theorem setLane_expectations (s : State) (l : LaneId) (n : Lane) (h : n.expectation = (s.lane l).expectation) :
    expectations (s.setLane l n).lanes = expectations s.lanes := by
  funext m
  by_cases hm : m = l
  · subst hm
    exact (congrArg Lane.expectation (lane_setLane_same s m n)).trans h
  · exact congrArg Lane.expectation (lane_setLane_ne s l m n hm)

theorem modLane_expectations (s : State) (l : LaneId) (g : Lane → Lane)
    (h : (g (s.lane l)).expectation = (s.lane l).expectation) :
    expectations (s.modLane l g).lanes = expectations s.lanes := setLane_expectations s l _ h

@[simp] theorem setTill_expectations (s : State) (l : LaneId) (x : Till) :
    expectations (s.setTill l x).lanes = expectations s.lanes := modLane_expectations s l _ rfl

@[simp] theorem setPort_expectations (s : State) (l : LaneId) (x : Port) :
    expectations (s.setPort l x).lanes = expectations s.lanes := modLane_expectations s l _ rfl

@[simp] theorem setCard_expectations (s : State) (l : LaneId) (x : CardUnit) :
    expectations (s.setCard l x).lanes = expectations s.lanes := modLane_expectations s l _ rfl

@[simp] theorem setAttention_expectations (s : State) (l : LaneId) (x : Attention) :
    expectations (s.setAttention l x).lanes = expectations s.lanes := modLane_expectations s l _ rfl

@[simp] theorem setChan_expectations (s : State) (l : LaneId) (c : Chan) (x : Channel) :
    expectations (s.setChan l c x).lanes = expectations s.lanes := modLane_expectations s l _ (by cases c <;> rfl)

@[simp] theorem modChan_expectations (s : State) (l : LaneId) (c : Chan) (g : Channel → Channel) :
    expectations (s.modChan l c g).lanes = expectations s.lanes := setChan_expectations s l c _

/-! ## Conditions and notices -/

@[simp] theorem raiseLane_expectations (s : State) (l : LaneId) (c : LaneCond) :
    expectations (s.raiseLane l c).lanes = expectations s.lanes := by
  obtain h | ⟨a, h | ⟨f, -, h⟩⟩ := raiseLane_cases s l c <;> simp [h]

@[simp] theorem raisePart_lanes (s : State) (c : PartCond) : (s.raisePart c).lanes = s.lanes := by
  obtain h | ⟨a, h | ⟨f, -, h⟩⟩ := raisePart_cases s c <;> simp [h]

@[simp] theorem offerLane_expectations (s : State) (l : LaneId) (k : Byte) (p : List Byte) :
    expectations (s.offerLane l k p).lanes = expectations s.lanes := by
  unfold State.offerLane
  split <;> simp

@[simp] theorem offerPart_lanes (s : State) (k : Byte) (p : List Byte) : (s.offerPart k p).lanes = s.lanes := by
  unfold State.offerPart
  split <;> simp

@[simp] theorem displayCheck_expectations (s : State) (l : LaneId) (c : Chan) :
    expectations (s.displayCheck l c).lanes = expectations s.lanes := by
  obtain ⟨q, hq, -⟩ := offerDisplay_cases s l c (s.chan l c).shown
  unfold State.displayCheck
  dsimp only
  split
  · rfl
  · simp [hq]

@[simp] theorem offerDrawer_expectations (s : State) (l : LaneId) (e : DrawerEvent) (k : Option Nat) :
    expectations (s.offerDrawer l e k).lanes = expectations s.lanes := by simp [State.offerDrawer]

@[simp] theorem offerPrint_expectations (s : State) (l : LaneId) (j : Job) (e : PrintEvent) :
    expectations (s.offerPrint l j e).lanes = expectations s.lanes := by simp [State.offerPrint]

@[simp] theorem offerBag_expectations (s : State) (l : LaneId) (e : BagEvent) (d : Option Int) (k : Nat) :
    expectations (s.offerBag l e d k).lanes = expectations s.lanes := by simp [State.offerBag]

/-! ## The drawers -/

@[simp] theorem admission_expectations (s : State) : expectations s.admission.lanes = expectations s.lanes := by
  have heads (k : Nat) (s : State) : expectations (State.admitHeads k s).lanes = expectations s.lanes := by
    induction k generalizing s with
    | zero => rfl
    | succ k ih =>
      unfold State.admitHeads
      split
      · rfl
      · simp [ih, State.admitOne]
  exact heads 4 s

@[simp] theorem confirmRelease_expectations (s : State) (l : LaneId) :
    expectations (s.confirmRelease l).lanes = expectations s.lanes := by simp [State.confirmRelease]

@[simp] theorem toChecking_expectations (s : State) (l : LaneId) (cut : Bool) :
    expectations (s.toChecking l cut).lanes = expectations s.lanes := by
  unfold State.toChecking
  dsimp only
  split <;> simp

@[simp] theorem cutDrawers_expectations (ls : List LaneId) (s : State) :
    expectations (ls.foldl State.cutDrawer s).lanes = expectations s.lanes := by
  induction ls generalizing s with
  | nil => rfl
  | cons l ls ih => exact (ih _).trans (toChecking_expectations s l true)

@[simp] theorem pulseExpires_expectations (s : State) (l : LaneId) :
    expectations (s.pulseExpires l).lanes = expectations s.lanes := by
  unfold State.pulseExpires
  split <;> simp

@[simp] theorem checkExpires_expectations (s : State) (l : LaneId) :
    expectations (s.checkExpires l).lanes = expectations s.lanes := by
  unfold State.checkExpires
  dsimp only
  split_ifs <;> simp

@[simp] theorem sensorChange_expectations (s : State) (l : LaneId) :
    expectations (s.sensorChange l).lanes = expectations s.lanes := by
  unfold State.sensorChange
  dsimp only
  split <;> simp [State.forcedOpening, State.foundOpen, State.drawerCloses]

@[simp] theorem debounceExpires_expectations (s : State) (l : LaneId) :
    expectations (s.debounceExpires l).lanes = expectations s.lanes := by
  unfold State.debounceExpires
  dsimp only
  split <;> simp

@[simp] theorem leftOpenExpires_expectations (s : State) (l : LaneId) :
    expectations (s.leftOpenExpires l).lanes = expectations s.lanes := by
  unfold State.leftOpenExpires
  dsimp only
  split <;> simp

@[simp] theorem joinQueue_expectations (s : State) (l : LaneId) (token : Bool) :
    expectations (s.joinQueue l token).lanes = expectations s.lanes := by
  rw [State.joinQueue, admission_expectations]
  exact modLane_expectations s l (fun n =>
    { n with token := if token then false else n.token, till := { n.till with state := .waitingPower, retry := false } }) rfl

/-! ## Print jobs and the printer port -/

theorem Lane.resolve_expectation (n : Lane) (num : Nat) : (n.resolve num).1.expectation = n.expectation := by
  rw [resolve_eq]
  dsimp only
  split <;> rfl

theorem scanOctets_expectation (n : Lane) (x : ScanState) (o : List Byte) :
    (scanOctets n x o).1.expectation = n.expectation := by
  induction o generalizing n x with
  | nil => rfl
  | cons b o ih =>
    unfold scanOctets
    split
    · exact ih n _
    · exact (ih _ _).trans (n.resolve_expectation _)

theorem Lane.frameDone_expectation (n : Lane) (num : Nat) : (n.frameDone num).expectation = n.expectation := by
  have block (m : Lane) (idx : Nat) : (Lane.frameDone.blockDone m num idx).expectation = m.expectation := by
    unfold Lane.frameDone.blockDone
    split
    · rfl
    · split
      · rfl
      · rw [Lane.releaseHolds_eq]
        rfl
  unfold Lane.frameDone
  split
  · rfl
  · split
    · rfl
    · rfl
    · dsimp only
      split
      · split
        · rfl
        · exact block (n.modJob num _) _
      · rfl

@[simp] theorem suspend_expectations (s : State) (l : LaneId) (j : Job) (why : SuspendReason) :
    expectations (s.suspend l j why).lanes = expectations s.lanes := by
  simp only [State.suspend, raiseLane_expectations, offerPrint_expectations]
  exact modLane_expectations s l _ rfl

@[simp] theorem selectJob_expectations (s : State) (l : LaneId) :
    expectations (s.selectJob l).lanes = expectations s.lanes := by
  have entered (j : Job) : expectations (s.modLane l fun n => n.modJob j.number Job.enter).lanes = expectations s.lanes :=
    modLane_expectations s l _ rfl
  unfold State.selectJob
  dsimp only
  split
  · rfl
  · split
    · rfl
    · split <;> simp [entered]

@[simp] theorem sendJobFrame_expectations (s : State) (l : LaneId) (j : Job) (f : JobFrame) :
    expectations (s.sendJobFrame l j f).lanes = expectations s.lanes := modLane_expectations s l _ rfl

@[simp] theorem completeJob_expectations (s : State) (l : LaneId) (j : Job) :
    expectations (s.completeJob l j).lanes = expectations s.lanes := by
  rw [State.completeJob, offerPrint_expectations]
  exact modLane_expectations s l _ rfl

@[simp] theorem port_expectations (s : State) (l : LaneId) : expectations (s.port l).lanes = expectations s.lanes := by
  have pump (k : Nat) (s : State) : expectations (State.pump l k s).lanes = expectations s.lanes := by
    induction k generalizing s with
    | zero => rfl
    | succ k ih =>
      unfold State.pump
      dsimp only
      split
      · simp
      · split
        · simp
        · split
          · simp
          · split
            · simp
            · split
              · split <;> simp
              · simp [ih]
  exact pump _ s

@[simp] theorem exchangeDone_expectations (s : State) (l : LaneId) (o : ExchangeOwner) :
    expectations (s.exchangeDone l o).lanes = expectations s.lanes := by
  cases o with
  | owedCut => exact modLane_expectations s l _ rfl
  | nobody => exact modLane_expectations s l _ rfl
  | job num => exact modLane_expectations s l _ ((s.lane l).frameDone_expectation num)

@[simp] theorem exchangeFailed_expectations (s : State) (l : LaneId) (o : ExchangeOwner) (why : SuspendReason) :
    expectations (s.exchangeFailed l o why).lanes = expectations s.lanes := by
  have freed : expectations (s.modLane l fun n => { n with port := n.port.free }).lanes = expectations s.lanes :=
    modLane_expectations s l _ rfl
  cases o with
  | owedCut => exact modLane_expectations s l _ rfl
  | nobody => exact freed
  | job num =>
    unfold State.exchangeFailed
    dsimp only
    split <;> simp [freed]

@[simp] theorem printerArrive_expectations (s : State) (l : LaneId) (f : Frame) :
    expectations (s.printerArrive l f).lanes = expectations s.lanes := by
  have stops (st : PrinterState) (why : SuspendReason) :
      expectations (s.statusStops l st why).lanes = expectations s.lanes := by
    unfold State.statusStops
    dsimp only
    split <;> simp
  have runs (st : PrinterState) : expectations (s.statusRuns l st).lanes = expectations s.lanes := by
    unfold State.statusRuns
    dsimp only
    rw [port_expectations]
    split
    · simp
    · rw [offerPrint_expectations, modLane_expectations _ l _ rfl, setPort_expectations]
  unfold State.printerArrive
  split
  · exact setPort_expectations s l _
  · unfold State.lineDone
    dsimp only
    split <;> simp
  · unfold State.lineFailed
    dsimp only
    split <;> simp
  · rename_i report _
    cases report with
    | ready => exact runs .ready
    | paperLow => exact (raiseLane_expectations _ l _).trans (runs .paperLow)
    | paperOut => exact stops .paperOut .paperOut
    | coverOpen => exact stops .coverOpen .coverOpen

@[simp] theorem printerBroken_expectations (s : State) (l : LaneId) (cause : PrinterDiscard) :
    expectations (s.printerBroken l cause).lanes = expectations s.lanes := by
  cases cause <;> simp [State.printerBroken, State.printerDiscarded]

@[simp] theorem answerExpires_expectations (s : State) (l : LaneId) :
    expectations (s.answerExpires l).lanes = expectations s.lanes := by
  unfold State.answerExpires
  dsimp only
  split
  · rfl
  · split <;> simp

@[simp] theorem printerSilent_expectations (s : State) (l : LaneId) :
    expectations (s.printerSilent l).lanes = expectations s.lanes := by
  unfold State.printerSilent
  dsimp only
  split
  · rfl
  · split <;> simp

@[simp] theorem noteMissing_expectations (s : State) (l : LaneId) (refs : List Reference) :
    expectations (s.noteMissing l refs).lanes = expectations s.lanes := by
  unfold State.noteMissing
  split <;> simp

/-! ## Settings, supply, the trunk link's own -/

@[simp] theorem writeSettings_expectations (s : State) (r : Settings) :
    expectations (s.writeSettings r).lanes = expectations s.lanes := by
  have link (t : State) (old : Settings) : (t.linkSetting old).lanes = t.lanes := by
    unfold State.linkSetting
    split <;> rfl
  have polarity (old : Settings) (t : State) (l : LaneId) :
      expectations (State.polaritySetting old t l).lanes = expectations t.lanes := by
    unfold State.polaritySetting
    split <;> simp
  have budget (t : State) (old : Settings) : expectations (t.budgetSetting old).lanes = expectations t.lanes := by
    unfold State.budgetSetting
    split
    · simp
    · split
      · exact cutDrawers_expectations _ t
      · rfl
  simp [State.writeSettings, allLanes, budget, polarity, link]

@[simp] theorem supplyFalls_expectations (s : State) : expectations s.supplyFalls.lanes = expectations s.lanes := by
  unfold State.supplyFalls State.cutAll
  dsimp only
  split <;> simp

@[simp] theorem supplyRises_expectations (s : State) : expectations s.supplyRises.lanes = expectations s.lanes := by
  unfold State.supplyRises
  dsimp only
  split <;> simp

@[simp] theorem discardFrame_lanes (s : State) : s.discardFrame.lanes = s.lanes := by simp [State.discardFrame]

@[simp] theorem linkExpires_lanes (s : State) : s.linkExpires.lanes = s.lanes := by
  unfold State.linkExpires
  split <;> simp

@[simp] theorem compareSupply_lanes (s : State) : s.compareSupply.lanes = s.lanes := by
  unfold State.compareSupply
  split <;> simp

/-! ## The payment link -/

@[simp] theorem setSlot_expectations (s : State) (l : LaneId) (x : Option Slot) :
    expectations (s.modLane l fun n => n.setSlot x).lanes = expectations s.lanes := modLane_expectations s l _ rfl

@[simp] theorem tryGrant_expectations (s : State) : expectations s.tryGrant.lanes = expectations s.lanes := by
  unfold State.tryGrant
  split
  · rfl
  · split
    · rfl
    · split <;> simp [State.grant]

@[simp] theorem offerResult_expectations (s : State) (l : LaneId) (r : CardResult) :
    expectations (s.offerResult l r).lanes = expectations s.lanes :=
  (offerLane_expectations _ l _ _).trans (modLane_expectations s l _ rfl)

@[simp] theorem handoffEnd_expectations (s : State) (f : InFlight) (x : Slot) (o : HandoffOutcome) (rcv : Option Byte)
    (a : Option Approval) : expectations (s.handoffEnd f x o rcv a).lanes = expectations s.lanes := by
  simp [State.handoffEnd]

@[simp] theorem paymentArrive_expectations (s : State) (f : Frame) :
    expectations (s.paymentArrive f).lanes = expectations s.lanes := by
  have stray (r : ResultFrame) : (s.stray r).lanes = s.lanes := by simp [State.stray]
  have tendered (l : LaneId) (d : Tender) :
      expectations (s.modLane l fun n => { n with tenders := n.tenders ++ [d] }).lanes = expectations s.lanes :=
    modLane_expectations s l _ rfl
  have verdict (f : InFlight) (x : Slot) (r : ResultFrame) :
      expectations (s.verdict f x r).lanes = expectations s.lanes := by
    unfold State.verdict
    dsimp only
    split <;> simp [tendered]
  unfold State.paymentArrive
  split
  · rfl
  · unfold State.takeResult
    split
    · rw [stray]
    · split
      · split <;> simp [verdict]
      · rw [stray]

@[simp] theorem paymentBroken_expectations (s : State) (cause : PaymentDiscard) :
    expectations (s.paymentBroken cause).lanes = expectations s.lanes := by
  cases cause <;> simp [State.paymentBroken, State.paymentDiscarded]

@[simp] theorem responseExpires_expectations (s : State) : expectations s.responseExpires.lanes = expectations s.lanes := by
  unfold State.responseExpires
  split
  · rfl
  · split
    · rfl
    · split
      · rfl
      · dsimp only
        split <;> simp [State.transmit]

@[simp] theorem paymentSent_expectations (s : State) : expectations s.paymentSent.lanes = expectations s.lanes := by
  unfold State.paymentSent
  split
  · rfl
  · dsimp only
    split <;> simp

/-! ## Cards and staff authority -/

@[simp] theorem grantStaff_expectations (s : State) (l : LaneId) (src : AuthoritySource) (number : Nat) :
    expectations (s.grantStaff l src number).lanes = expectations s.lanes := modLane_expectations s l _ rfl

@[simp] theorem dropStaff_expectations (s : State) (l : LaneId) :
    expectations (s.dropStaff l).lanes = expectations s.lanes := modLane_expectations s l _ rfl

@[simp] theorem staffExpires_expectations (s : State) (l : LaneId) :
    expectations (s.staffExpires l).lanes = expectations s.lanes := by
  unfold State.staffExpires
  split
  · rfl
  · split <;> simp

@[simp] theorem reportSwipe_expectations (s : State) (l : LaneId) (e : CardEvent) :
    expectations (s.reportSwipe l e).lanes = expectations s.lanes :=
  (offerLane_expectations _ l _ _).trans (modLane_expectations s l _ rfl)

@[simp] theorem classRule_expectations (s : State) (l : LaneId) (w : Swipe) (r : CardRange) :
    expectations (s.classRule l w r).lanes = expectations s.lanes := by
  have payment : expectations (s.paymentSwipe l w r).lanes = expectations s.lanes := by
    unfold State.paymentSwipe
    dsimp only
    split <;> simp
  have staff : expectations (s.staffSwipe l w r).lanes = expectations s.lanes := by
    unfold State.staffSwipe
    dsimp only
    split <;> simp
  unfold State.classRule
  split
  · simp [State.loyaltySwipe]
  · split <;> simp [payment]
  · split <;> simp [staff]
  · simp
  · simp

@[simp] theorem classify_expectations (s : State) (l : LaneId) (w : Swipe) :
    expectations (s.classify l w).lanes = expectations s.lanes := by
  have digits (r : CardRange) : expectations (s.checkDigitStep l w r).lanes = expectations s.lanes := by
    unfold State.checkDigitStep
    split <;> simp
  unfold State.classify
  split
  · simp
  · split
    · simp
    · split <;> simp [digits, State.secondSwipe]

@[simp] theorem judge_expectations (s : State) (l : LaneId) (body : List (BitVec 4)) (lrc : BitVec 4) (bad : Bool) :
    expectations (s.judge l body lrc bad).lanes = expectations s.lanes := by
  unfold State.judge State.refuseSwipe
  split_ifs
  · simp
  · simp
  · split <;> simp

@[simp] theorem readerChar_expectations (s : State) (l : LaneId) (v : BitVec 4) (p : Bool) :
    expectations (s.readerChar l v p).lanes = expectations s.lanes := by
  unfold State.readerChar State.refuseSwipe
  dsimp only
  split_ifs <;> simp

@[simp] theorem gapExpires_expectations (s : State) (l : LaneId) :
    expectations (s.gapExpires l).lanes = expectations s.lanes := by
  unfold State.gapExpires State.refuseSwipe
  dsimp only
  split <;> simp

/-! ## The weigh request (R26, R34, R42) -/

@[simp] theorem endWeigh_expectations (s : State) (l : LaneId) (o : WeighOutcome) :
    expectations (s.endWeigh l o).lanes = expectations s.lanes := by
  unfold State.endWeigh
  split
  · rfl
  · rw [offerLane_expectations]
    exact modLane_expectations s l _ rfl

@[simp] theorem weighExpires_expectations (s : State) (l : LaneId) :
    expectations (s.weighExpires l).lanes = expectations s.lanes := by
  unfold State.weighExpires
  split
  · rfl
  · split <;> simp

@[simp] theorem noteFailure_expectations (s : State) (l : LaneId) (w : WeighRequest) (f : FailedTest) :
    expectations (s.noteFailure l w f).lanes = expectations s.lanes := by
  have noted (w : WeighRequest) : expectations (s.modLane l fun n => { n with weigh := some w }).lanes = expectations s.lanes :=
    modLane_expectations s l _ rfl
  unfold State.noteFailure
  dsimp only
  split <;> simp [noted]

end Sys2Proof.Machine
end

