-- ==== Sys2Proof/Proofs/ExpectationLaw.lean ====
section
/-! The law of the awaiting entry (R65, R66, R71): on the expectation of one lane, and what the bag check does to it (R67 to
R82). -/

namespace Sys2Proof.Machine

/-! ## The law on one expectation -/

/-- A bag state says that its entry is expected to arrive or to leave (R65). -/
def BagState.expecting (b : BagState) : Bool := b == .awaiting || b == .removing

/-- No entry is expected to arrive or to leave. -/
def Quiet (bags : List BagState) : Prop := ∀ b ∈ bags, b.expecting = false

/-- What BagLaw says of one lane. -/
structure Expectation.Law (x : Expectation) : Prop where
  expected : ∀ k, ∀ b ∈ x.bags[k]?, b.expecting = true → x.awaiting = some (k + 1)
  placing : x.state = .awaitingPlace → ∃ k, x.awaiting = some (k + 1) ∧ x.bags[k]? = some .awaiting
  removing : x.state = .awaitingRemoval → ∃ k, x.awaiting = some (k + 1) ∧ x.bags[k]? = some .removing
  free : x.state = .suspended ∨ x.state = .settled ∨ x.state = .unexpected → x.awaiting = none
  placement : x.placement.isSome = true ↔ x.state = .awaitingPlace
  removal : x.removal.isSome = true ↔ x.state = .awaitingRemoval
  mode : x.state = .suspended ↔ x.mode ≠ .self

/-- The awaiting entry has a bag state, in the words of BagLaw and by its place in the list. -/
theorem awaits_iff (n : Lane) (b : BagState) :
    (∃ pos ∈ n.bagCheck.awaiting, ∃ e ∈ n.entryAt pos, e.bag = b) ↔
      ∃ k, n.bagCheck.awaiting = some (k + 1) ∧ (n.entries.map Entry.bag)[k]? = some b := by
  simp only [List.getElem?_map, Option.map_eq_some_iff]
  constructor
  · rintro ⟨pos, hpos, e, he, hb⟩
    cases pos with
    | zero => exact nomatch he
    | succ k => exact ⟨k, hpos, e, he, hb⟩
  · rintro ⟨k, hk, e, he, hb⟩
    exact ⟨k + 1, hk, e, he, hb⟩

theorem bagLaw_iff (s : State) : BagLaw s ↔ ∀ l, (s.lane l).expectation.Law := by
  refine forall_congr' fun l => ?_
  have expected : (∀ k, ∀ e ∈ (s.lane l).entries[k]?, e.expecting = true → (s.lane l).bagCheck.awaiting = some (k + 1)) ↔
      ∀ k, ∀ b ∈ ((s.lane l).entries.map Entry.bag)[k]?, b.expecting = true →
        (s.lane l).bagCheck.awaiting = some (k + 1) := by
    simp only [List.getElem?_map, Option.mem_def, Option.map_eq_some_iff]
    exact ⟨fun h k b ⟨e, he, hb⟩ hx => h k e he (by rw [← hb] at hx; exact hx), fun h k e he => h k e.bag ⟨e, he, rfl⟩⟩
  dsimp only
  rw [expected, awaits_iff, awaits_iff]
  exact ⟨fun ⟨h1, h2, h3, h4, h5, h6, h7⟩ => ⟨h1, h2, h3, h4, h5, h6, h7⟩,
    fun ⟨h1, h2, h3, h4, h5, h6, h7⟩ => ⟨h1, h2, h3, h4, h5, h6, h7⟩⟩

/-! ## Changes of one expectation -/

namespace Expectation

section
variable {x : Expectation} (h : x.Law)
include h

theorem Law.self (hs : x.state ≠ .suspended) : x.mode = .self := not_not.mp fun hm => hs (h.mode.mpr hm)

/-- With no awaiting entry, no entry is expected. -/
theorem Law.quiet (ha : x.awaiting = none) : Quiet x.bags := by
  intro b hb
  obtain ⟨k, hk⟩ := List.mem_iff_getElem?.mp hb
  by_contra hx
  exact nomatch ha.symm.trans (h.expected k b hk (Bool.not_eq_false _ ▸ hx))

/-- Once the awaiting entry has another bag state, no entry is expected. -/
theorem Law.quiet_set {pos : Nat} (ha : x.awaiting = some pos) {b : BagState} (hb : b.expecting = false) :
    Quiet (x.bags.set (pos - 1) b) := by
  intro c hc
  obtain ⟨k, hk⟩ := List.mem_iff_getElem?.mp hc
  rw [List.getElem?_set] at hk
  by_contra hx
  split_ifs at hk with hpos
  · exact hx (Option.some.inj hk ▸ hb)
  · have hexpected := Option.some.inj (ha.symm.trans (h.expected k c hk (Bool.not_eq_false _ ▸ hx)))
    omega

omit h

/-- An expectation with no entry expected, no awaiting entry and no timer. -/
theorem Law.of_quiet (hq : Quiet x.bags) (ha : x.awaiting = none) (hp : x.placement = none) (hr : x.removal = none)
    (hstate : x.state ≠ .awaitingPlace ∧ x.state ≠ .awaitingRemoval) (hm : x.state = .suspended ↔ x.mode ≠ .self) : x.Law where
  expected k b hb hx := absurd hx (by rw [hq b (List.mem_of_getElem? hb)]; decide)
  placing hs := absurd hs hstate.1
  removing hs := absurd hs hstate.2
  free _ := ha
  placement := by simp [hp, hstate.1]
  removal := by simp [hr, hstate.2]
  mode := hm

include h

/-- The bag check of a lane in self mode ends its expectation, or has none. -/
theorem Law.ended (hs : x.state ≠ .suspended) {bags : List BagState} (hq : Quiet bags) {st : BagCheckState}
    (hstate : st ≠ .awaitingPlace ∧ st ≠ .awaitingRemoval ∧ st ≠ .suspended) :
    Law ⟨bags, st, none, none, none, x.mode⟩ := by
  obtain ⟨hp, hr, hn⟩ := hstate
  exact .of_quiet hq rfl rfl rfl ⟨hp, hr⟩ (iff_of_false hn (not_not.mpr (h.self hs)))

/-- The bag check of a lane in self mode enters HELD, FAULTED or ARMING, its awaiting entry kept (R68, R75, R80, R81). -/
theorem Law.kept (hs : x.state ≠ .suspended) {st : BagCheckState} (hstate : st = .held ∨ st = .faulted ∨ st = .arming) :
    Law ⟨x.bags, st, x.awaiting, none, none, x.mode⟩ where
  expected := h.expected
  placing := by rintro rfl; simp at hstate
  removing := by rintro rfl; simp at hstate
  free := by rintro (rfl | rfl | rfl) <;> simp at hstate
  placement := by obtain rfl | rfl | rfl := hstate <;> simp
  removal := by obtain rfl | rfl | rfl := hstate <;> simp
  mode := iff_of_false (by obtain rfl | rfl | rfl := hstate <;> simp) (not_not.mpr (h.self hs))

theorem Law.noTimer (hs : x.state ≠ .awaitingPlace ∧ x.state ≠ .awaitingRemoval) :
    x.placement = none ∧ x.removal = none := by
  obtain ⟨hp, hr⟩ := hs
  exact ⟨Option.not_isSome_iff_eq_none.mp fun ht => hp (h.placement.mp ht),
    Option.not_isSome_iff_eq_none.mp fun ht => hr (h.removal.mp ht)⟩

/-- The awaiting entry ends in FAULTED or ARMING, which is kept (R77). -/
theorem Law.dropped (hs : x.state = .faulted ∨ x.state = .arming) {bags : List BagState} (hq : Quiet bags) :
    Law { x with bags := bags, awaiting := none } := by
  have hwait : x.state ≠ .awaitingPlace ∧ x.state ≠ .awaitingRemoval := by obtain hs | hs := hs <;> simp [hs]
  obtain ⟨hp, hr⟩ := h.noTimer hwait
  exact .of_quiet hq rfl hp hr hwait h.mode

/-- An entry that is not expected is appended. -/
theorem Law.appended {b : BagState} (hb : b.expecting = false) : Law { x with bags := x.bags ++ [b] } where
  expected k c hc hx := by
    have hlt : k < x.bags.length := by
      by_contra hge
      rw [Option.mem_def, List.getElem?_append_right (not_lt.mp hge)] at hc
      have hcb := List.mem_singleton.mp (List.mem_of_getElem? hc)
      rw [hcb, hb] at hx
      exact nomatch hx
    exact h.expected k c (by rwa [Option.mem_def, List.getElem?_append_left hlt] at hc) hx
  placing hs := by
    obtain ⟨k, ha, hk⟩ := h.placing hs
    exact ⟨k, ha, by rw [List.getElem?_append_left (List.getElem?_eq_some_iff.mp hk).1, hk]⟩
  removing hs := by
    obtain ⟨k, ha, hk⟩ := h.removing hs
    exact ⟨k, ha, by rw [List.getElem?_append_left (List.getElem?_eq_some_iff.mp hk).1, hk]⟩
  free := h.free
  placement := h.placement
  removal := h.removal
  mode := h.mode

omit h

/-- The entry at a place is the only one that is expected. -/
def Only (bags : List BagState) (k : Nat) : Prop := ∀ j, ∀ b ∈ bags[j]?, b.expecting = true → j = k

theorem only_set {bags : List BagState} (hq : Quiet bags) (k : Nat) (b : BagState) : Only (bags.set k b) k := by
  intro j c hc hx
  rw [Option.mem_def, List.getElem?_set] at hc
  split_ifs at hc with hj
  · exact hj.symm
  · rw [hq c (List.mem_of_getElem? hc)] at hx
    exact nomatch hx

theorem only_append {bags : List BagState} (hq : Quiet bags) (b : BagState) : Only (bags ++ [b]) bags.length := by
  intro j c hc hx
  by_contra hj
  rw [Option.mem_def] at hc
  obtain hlt | hgt := Nat.lt_or_gt_of_ne hj
  · rw [List.getElem?_append_left hlt] at hc
    rw [hq c (List.mem_of_getElem? hc)] at hx
    exact nomatch hx
  · rw [List.getElem?_eq_none (by simp; omega)] at hc
    exact nomatch hc

/-- The bag check of a lane in self mode awaits the placement of one entry (R71). -/
theorem Law.placed {bags : List BagState} {k t : Nat} (ho : Only bags k) (hk : bags[k]? = some .awaiting) :
    Law ⟨bags, .awaitingPlace, some (k + 1), some t, none, .self⟩ where
  expected j b hb hx := by rw [ho j b hb hx]
  placing _ := ⟨k, rfl, hk⟩
  removing hs := nomatch hs
  free hs := by simp at hs
  placement := by simp
  removal := by simp
  mode := by simp

/-- The bag check of a lane in self mode awaits the removal of one entry (R73). -/
theorem Law.removed {bags : List BagState} {k t : Nat} (ho : Only bags k) (hk : bags[k]? = some .removing) :
    Law ⟨bags, .awaitingRemoval, some (k + 1), none, some t, .self⟩ where
  expected j b hb hx := by rw [ho j b hb hx]
  placing hs := nomatch hs
  removing _ := ⟨k, rfl, hk⟩
  free hs := by simp at hs
  placement := by simp
  removal := by simp
  mode := by simp

end
end Expectation

/-! ## The bag state of one entry -/

theorem setEntryBag_bags (n : Lane) (pos : Nat) (b : BagState) :
    (n.setEntryBag pos b).expectation.bags = n.expectation.bags.set (pos - 1) b := by
  refine List.ext_getElem? fun k => ?_
  simp only [Lane.expectation, Lane.setEntryBag, List.getElem?_map, List.getElem?_modify, List.getElem?_set, List.length_map]
  by_cases hk : pos - 1 = k
  · subst hk
    by_cases hlt : pos - 1 < n.entries.length <;> simp [hlt]
  · simp [hk]

/-- The lane whose awaited entry is given another bag state (R78, R79). -/
def Lane.awaitedAs (n : Lane) (f : BagState → BagState) : Lane :=
  match n.bagCheck.awaiting with
  | none => n
  | some pos =>
    match n.entryAt pos with
    | none => n
    | some e => n.setEntryBag pos (f e.bag)

theorem endAwaited_eq (n : Lane) : n.endAwaited = n.awaitedAs overridden := rfl

theorem overridden_quiet (b : BagState) : (overridden b).expecting = false := by cases b <;> rfl

theorem waivedBy_quiet (b : BagState) : (waivedBy b).expecting = false := by cases b <;> rfl

/-- An override or the end of self mode leaves no entry expected (R78, R79). -/
theorem awaitedAs_quiet {n : Lane} (h : n.expectation.Law) {f : BagState → BagState} (hf : ∀ b, (f b).expecting = false) :
    Quiet (n.awaitedAs f).expectation.bags := by
  unfold Lane.awaitedAs
  split
  · rename_i ha
    exact h.quiet ha
  · rename_i pos ha
    split
    · rename_i hnone
      intro b hb
      obtain ⟨k, hk⟩ := List.mem_iff_getElem?.mp hb
      by_contra hx
      have hpos : pos = k + 1 :=
        Option.some.inj (ha.symm.trans (h.expected k b hk (Bool.not_eq_false _ ▸ hx)))
      have hentry : n.entries[k]? = none := by rw [hpos] at hnone; exact hnone
      simp [Lane.expectation, hentry] at hk
    · rw [setEntryBag_bags]
      exact h.quiet_set ha (hf _)

@[simp] theorem awaitedAs_mode (n : Lane) (f : BagState → BagState) : (n.awaitedAs f).mode = n.mode := by
  unfold Lane.awaitedAs
  split
  · rfl
  · split <;> rfl

/-- The lane after an override, or out of self mode: no entry awaited (R78, R79). -/
theorem awaitedAs_law {n : Lane} (h : n.expectation.Law) {f : BagState → BagState} (hf : ∀ b, (f b).expecting = false)
    {x : BagCheck} (hx : x.awaiting = none ∧ x.placement = none ∧ x.removal = none) {m : LaneMode}
    (hstate : x.state ≠ .awaitingPlace ∧ x.state ≠ .awaitingRemoval) (hm : x.state = .suspended ↔ m ≠ .self) :
    (Lane.expectation { n.awaitedAs f with bagCheck := x, mode := m }).Law := by
  obtain ⟨ha, hp, hr⟩ := hx
  exact .of_quiet (awaitedAs_quiet h hf) ha hp hr hstate hm

/-! ## The law of the part -/

section
variable {s t : State} {l : LaneId}

/-- A state with the same expectations. -/
theorem BagLaw.frame (h : BagLaw s) (ht : expectations t.lanes = expectations s.lanes) : BagLaw t :=
  (bagLaw_iff t).mpr fun l => by
    have hl : (t.lane l).expectation = (s.lane l).expectation := congrFun ht l
    rw [hl]
    exact (bagLaw_iff s).mp h l

theorem BagLaw.lane (h : BagLaw s) (l : LaneId) : (s.lane l).expectation.Law := (bagLaw_iff s).mp h l

theorem BagLaw.setLane (h : BagLaw s) {n : Lane} (hn : n.expectation.Law) : BagLaw (s.setLane l n) :=
  (bagLaw_iff _).mpr fun m => by
    by_cases hm : m = l
    · subst hm
      rwa [lane_setLane_same]
    · rw [lane_setLane_ne s l m n hm]
      exact h.lane m

section
variable (h : BagLaw s)
include h

theorem BagLaw.setBag (x : BagCheck) (hn : (Lane.expectation { s.lane l with bagCheck := x }).Law) :
    BagLaw (s.setBag l x) := h.setLane hn

/-- A bag check that is none of SUSPENDED keeps its awaiting entry on its way into HELD, FAULTED or ARMING. -/
theorem BagLaw.enter (hs : (s.lane l).bagCheck.state ≠ .suspended) (st : BagCheckState)
    (hst : st = .held ∨ st = .faulted ∨ st = .arming) (b : Option Int) :
    BagLaw (s.setBag l { (s.lane l).bagCheck.enter st with b := b }) :=
  h.setBag _ ((h.lane l).kept hs hst)

/-! ## The bag check's own steps (R67 to R82) -/

theorem BagLaw.bagHold (hs : (s.lane l).bagCheck.state ≠ .suspended) (b d : Option Int) : BagLaw (s.bagHold l b d) :=
  (h.enter hs .held (.inl rfl) b).frame (by simp [State.bagHold])

theorem BagLaw.bagLoss : BagLaw (s.bagLoss l) := by
  unfold State.bagLoss
  dsimp only
  split
  · exact h
  · rename_i hs
    rw [beq_iff_eq] at hs
    exact (h.enter hs .faulted (.inr (.inl rfl)) _).frame (offerBag_expectations ..)

theorem BagLaw.bagRecovery : BagLaw (s.bagRecovery l) := by
  unfold State.bagRecovery
  dsimp only
  split
  · rename_i hs
    rw [beq_iff_eq] at hs
    exact h.enter (by simp [hs]) .arming (.inr (.inr rfl)) _
  · exact h

theorem BagLaw.placementExpires : BagLaw (s.placementExpires l) := by
  unfold State.placementExpires
  split
  · rename_i hp
    have hs : (s.lane l).bagCheck.state = .awaitingPlace := (h.lane l).placement.mp hp
    exact h.bagHold (by simp [hs]) _ _
  · exact h

theorem BagLaw.removalExpires : BagLaw (s.removalExpires l) := by
  unfold State.removalExpires
  split
  · rename_i hr
    have hs : (s.lane l).bagCheck.state = .awaitingRemoval := (h.lane l).removal.mp hr
    exact h.bagHold (by simp [hs]) _ _
  · exact h

/-- A bag check that is not SUSPENDED and has no awaiting entry enters SETTLED or UNEXPECTED (R68 to R70). -/
theorem BagLaw.settled (ha : (s.lane l).bagCheck.awaiting = none) (hs : (s.lane l).bagCheck.state ≠ .suspended)
    (st : BagCheckState) (hst : st = .settled ∨ st = .unexpected) (b : Option Int) :
    BagLaw (s.setBag l { (s.lane l).bagCheck.enter st with b := b }) := by
  refine h.setBag _ (.of_quiet ((h.lane l).quiet ha) ha rfl rfl ?_ (iff_of_false ?_ (not_not.mpr ((h.lane l).self hs))))
  · obtain rfl | rfl := hst <;> exact ⟨nofun, nofun⟩
  · obtain rfl | rfl := hst <;> exact nofun

theorem BagLaw.bagExpecting (hs : (s.lane l).bagCheck.state = .awaitingPlace ∨ (s.lane l).bagCheck.state = .awaitingRemoval)
    (g m : Int) {after : BagState} (hafter : after.expecting = false) (ev : BagEvent) :
    BagLaw (s.bagExpecting l g m after ev) := by
  have hself : (s.lane l).bagCheck.state ≠ .suspended := by obtain hs | hs := hs <;> simp [hs]
  obtain ⟨k, ha⟩ : ∃ k, (s.lane l).bagCheck.awaiting = some (k + 1) := by
    obtain hs | hs := hs
    · obtain ⟨k, ha, -⟩ := (h.lane l).placing hs
      exact ⟨k, ha⟩
    · obtain ⟨k, ha, -⟩ := (h.lane l).removing hs
      exact ⟨k, ha⟩
  have excursion (b : Bool) : BagLaw (s.setBag l { (s.lane l).bagCheck with excursion := b }) := h.setBag _ (h.lane l)
  unfold State.bagExpecting
  dsimp only
  split
  · rw [ha, Option.getD_some]
    refine BagLaw.frame (h.setLane (l := l) ?_) (offerBag_expectations _ l _ _ _)
    refine (h.lane l).ended hself (st := .settled) ?_ (by simp)
    have hq := (h.lane l).quiet_set ha hafter
    rwa [← setEntryBag_bags] at hq
  · split
    · exact excursion false
    · split
      · exact h
      · exact (excursion true).frame (by simp)

theorem BagLaw.bagStable (g : Int) : BagLaw (s.bagStable l g) := by
  unfold State.bagStable
  dsimp only
  split
  · rename_i hs
    unfold State.bagArmed
    dsimp only
    split
    · rename_i ha
      exact (h.settled ha (by simp [hs]) .settled (.inl rfl) _).frame (offerBag_expectations ..)
    · exact h.bagHold (by simp [hs]) _ _
  · rename_i hs
    have ha := (h.lane l).free (.inr (.inl hs))
    have accepted : BagLaw (s.setBag l { (s.lane l).bagCheck with b := some g }) := h.setBag _ (h.lane l)
    unfold State.bagSettled
    dsimp only
    split
    · exact accepted
    · split
      · exact accepted.frame (by simp)
      · exact (h.settled ha (by simp [hs]) .unexpected (.inr rfl) _).frame
          ((raiseLane_expectations ..).trans (offerBag_expectations ..))
  · rename_i hs
    have ha := (h.lane l).free (.inr (.inr hs))
    unfold State.bagUnexpected
    dsimp only
    split
    · exact (h.settled ha (by simp [hs]) .settled (.inl rfl) _).frame (offerBag_expectations ..)
    · exact h
  · rename_i hs
    exact h.bagExpecting (.inl hs) g _ rfl _
  · rename_i hs
    exact h.bagExpecting (.inr hs) g _ rfl _
  all_goals exact h

/-- A reading recorded leaves the expectation (R67). -/
theorem BagLaw.record (g : Int) (stable : Bool) : BagLaw (s.setBag l ((s.lane l).bagCheck.record g stable)) := by
  unfold BagCheck.record
  split <;> exact h.setBag _ (h.lane l)

theorem BagLaw.bagReading (g : Int) (stable : Bool) : BagLaw (s.bagReading l g stable) := by
  unfold State.bagReading
  dsimp only
  split
  · exact (h.record g stable).bagStable g
  · exact h.record g stable

theorem BagLaw.bagOverridden (hs : (s.lane l).bagCheck.state ≠ .suspended) : BagLaw (s.bagOverridden l) := by
  have ended (x : BagCheck) (hx : x.awaiting = none ∧ x.placement = none ∧ x.removal = none)
      (hstate : x.state = .settled ∨ x.state = .faulted ∨ x.state = .arming) :
      BagLaw (s.setLane l { (s.lane l).endAwaited with bagCheck := x }) := by
    have hlaw := awaitedAs_law (h.lane l) overridden_quiet hx (m := (s.lane l).mode)
      (by obtain hx | hx | hx := hstate <;> simp [hx])
      (iff_of_false (by obtain hx | hx | hx := hstate <;> simp [hx]) (not_not.mpr ((h.lane l).self hs)))
    refine h.setLane ?_
    unfold Lane.expectation at hlaw ⊢
    rwa [show (s.lane l).endAwaited.mode = (s.lane l).mode from awaitedAs_mode _ _]
  unfold State.bagOverridden
  dsimp only
  split
  · rename_i hf
    rw [Bool.or_eq_true, beq_iff_eq, beq_iff_eq] at hf
    exact ended _ ⟨rfl, rfl, rfl⟩ (.inr hf)
  · exact (ended _ ⟨rfl, rfl, rfl⟩ (.inl rfl)).frame (offerBag_expectations ..)

end
end
end Sys2Proof.Machine
end

