-- ==== Sys2Proof/Proofs/AwaitingEvents.lean ====
section
/-! The law of the awaiting entry, kept by every command (R65, R66, R71, R73, R79), and the obligation. -/

namespace Sys2Proof.Machine

/-! ## Entries (R53, R54, R71) -/

theorem countedEntry_expecting {mode : LaneMode} {item : Option ItemRecord} {code q price : Nat} {skip : Bool}
    (h : (countedEntry mode item code q price skip).bag.expecting = true) :
    (countedEntry mode item code q price skip).bag = .awaiting ∧ mode = .self := by
  unfold countedEntry countedBag at *
  dsimp only at *
  split at h
  · split at h
    · exact nomatch h
    · rename_i hexempt
      exact ⟨by rw [if_neg hexempt], rfl⟩
  all_goals exact nomatch h

theorem weighedEntry_expecting {mode : LaneMode} {w : WeighRequest} {c : Capture}
    (h : (weighedEntry mode w c).bag.expecting = true) : (weighedEntry mode w c).bag = .awaiting ∧ mode = .self := by
  unfold weighedEntry at *
  dsimp only at *
  split at h
  · exact nomatch h
  · exact nomatch h
  · split at h
    · exact nomatch h
    · rename_i hexempt
      exact ⟨by rw [if_neg hexempt], rfl⟩

/-- An entry is appended, an AWAITING one in self mode while the bag check is SETTLED (R52, R54, R71). -/
theorem withEntry_law {n : Lane} (h : n.expectation.Law) {e : Entry} (k : LaneSettings)
    (he : e.bag.expecting = true → e.bag = .awaiting ∧ n.mode = .self) (hs : n.mode = .self → n.bagCheck.state = .settled) :
    (n.withEntry e k).expectation.Law := by
  have happ : (n.entries ++ [e]).map Entry.bag = n.expectation.bags ++ [e.bag] := by simp [Lane.expectation]
  unfold Lane.withEntry
  split
  · rename_i ha
    obtain ⟨-, hm⟩ := he (by rw [ha]; rfl)
    have hq := h.quiet (h.free (.inr (.inl (hs hm))))
    have hlaw := Expectation.Law.placed (t := k.placementTime * 1000) (Expectation.only_append hq .awaiting) (by simp)
    simpa [Lane.expectation, hm, ha] using hlaw
  · rename_i ha
    have hlaw := h.appended (b := e.bag) (by rw [← Bool.not_eq_true]; exact fun hx => ha (he hx).1)
    rw [← happ] at hlaw
    exact hlaw

section
variable {s t : State} {l : LaneId} (h : BagLaw s)
include h

/-! ## Platter readings (R30 to R37) -/

omit h in
/-- A capture in self mode finds the bag check SETTLED (R34). -/
theorem captureTests_settled {n : Lane} {c : Calib} {w : WeighRequest} {r : Reading} {g : Int} {k : CaptureTare} {p : Nat}
    (h : captureTests n c w r g = .taken k p) (hm : n.mode = .self) : n.bagCheck.state = .settled := by
  cases htare : captureTare c r g w.itemTare with
  | none =>
    simp only [captureTests, htare] at h
    split_ifs at h
  | some k' =>
    simp only [captureTests, htare] at h
    split_ifs at h with _ _ _ _ _ hbag
    simpa [hm] using hbag

theorem BagLaw.platterReading (c : Calib) (r : Reading) (g : Int) : BagLaw (s.platterReading l c r g) := by
  unfold State.platterReading
  rw [armingTest_eq]
  dsimp only
  have armed : BagLaw (s.setLane l ((s.lane l).armedAt c g)) := h.setLane (h.lane l)
  generalize s.setLane l ((s.lane l).armedAt c g) = u at armed
  split
  · exact armed
  · rename_i w _
    split
    · exact armed.frame (by simp)
    · exact armed.frame (by simp)
    · rename_i k p hk
      have hsettled := captureTests_settled hk
      unfold State.takeCapture
      dsimp only
      rw [appendEntry_eq, lane_setLane_same, setLane_setLane]
      refine BagLaw.frame (armed.setLane (l := l) ?_) (offerLane_expectations ..)
      exact withEntry_law (n := { u.lane l with nextCapture := _, log := _, armed := false, weigh := none }) (armed.lane l) _
        weighedEntry_expecting hsettled

/-! ## The weighing channels (chapter 1) -/

theorem BagLaw.handReading (ch : Chan) (c : Calib) (r : Reading) (g : Int) : BagLaw (s.handReading l ch c r g) := by
  cases ch with
  | platter => exact h.platterReading c r g
  | bag => exact h.bagReading g _

theorem BagLaw.reportRunning (ch : Chan) : BagLaw (s.reportRunning l ch) := by
  cases ch with
  | platter => exact h.frame (modLane_expectations s l (fun n => { n with armed := true }) rfl)
  | bag => exact h.bagRecovery

theorem BagLaw.enterFault (c : Chan) (cause : FaultCause) (ret : Option ReturnState) : BagLaw (s.enterFault l c cause ret) := by
  have fault : BagLaw ((s.modChan l c fun x => x.toFault cause ret).raiseLane l (faultCond c)) := h.frame (by simp)
  unfold State.enterFault
  dsimp only
  split
  · exact fault.bagLoss.frame (displayCheck_expectations ..)
  · exact fault.frame (displayCheck_expectations ..)

theorem BagLaw.evaluate (ch : Chan) (raw : Nat) : BagLaw (s.evaluate l ch raw) := by
  have chan {u : State} (hu : BagLaw u) (x : Channel) : BagLaw (u.setChan l ch x) := hu.frame (by simp)
  have finish {u : State} (hu : BagLaw u) (c : Calib) (w : Int) (stable : Bool) :
      BagLaw ((u.finishEvaluation l ch c raw w stable).displayCheck l ch) :=
    (BagLaw.handReading (chan hu _) ch c _ _).frame (displayCheck_expectations ..)
  unfold State.evaluate
  dsimp only
  split
  · exact chan h _
  · split
    · split
      · exact finish ((chan h _).reportRunning ch) _ _ _
      · exact chan h _
    · exact finish (chan h _) _ _ _
    · exact chan h _
    · exact chan h _

theorem BagLaw.sample (ch : Chan) (raw : Nat) : BagLaw (s.sample l ch raw) := by
  have chan {u : State} (hu : BagLaw u) (x : Channel) : BagLaw (u.setChan l ch x) := hu.frame (by simp)
  have returned : BagLaw (s.sensorReturn l ch raw) := by
    unfold State.sensorReturn
    dsimp only
    split
    · exact chan h _
    · exact ((chan h _).evaluate ch raw).frame (displayCheck_expectations ..)
    · split
      · exact ((chan h _).bagRecovery.evaluate ch raw).frame (displayCheck_expectations ..)
      · exact ((chan h _).evaluate ch raw).frame (displayCheck_expectations ..)
  unfold State.sample
  dsimp only
  split
  · exact h.evaluate ch raw
  · exact h.evaluate ch raw
  · exact chan h _
  · split
    · exact returned
    · exact chan h _

theorem BagLaw.silenceExpires (ch : Chan) : BagLaw (s.silenceExpires l ch) := by
  unfold State.silenceExpires
  dsimp only
  split
  · exact h
  · split
    · exact h.enterFault _ _ _
    · exact h.enterFault _ _ _
    · exact h
    · exact h

theorem BagLaw.initialZeroExpires (ch : Chan) : BagLaw (s.initialZeroExpires l ch) := by
  unfold State.initialZeroExpires
  dsimp only
  split
  · exact h.enterFault _ _ _
  · exact h

theorem BagLaw.displayExpires (ch : Chan) : BagLaw (s.displayExpires l ch) := by
  unfold State.displayExpires
  split
  · exact h.frame (by simp)
  · exact h

theorem BagLaw.calWriteCompletes : BagLaw s.calWriteCompletes := by
  unfold State.calWriteCompletes
  split
  · exact h
  · refine h.frame ?_
    unfold State.takeCopy
    dsimp only
    split <;> simp [State.setStored]

theorem BagLaw.startLane : BagLaw (s.startLane l) := by
  have start {u : State} (hu : BagLaw u) (c : Chan) (copy : Option Calib) : BagLaw (u.startChannel l c copy) := by
    unfold State.startChannel
    split
    · exact hu.frame (by simp)
    · exact hu.enterFault _ _ _
  unfold State.startLane
  split
  · exact start (start (h.frame (modLane_expectations s l _ rfl)) .platter _) .bag _
  · exact h

end
end Sys2Proof.Machine
end

