-- ==== Sys2Proof/Proofs/AwaitingLaw.lean ====
section
/-! The requests of the host keep the law of the awaiting entry (R54, R57, R62, R78, R79). -/

namespace Sys2Proof.Machine

section
variable {s t : State} {l : LaneId} (h : BagLaw s)
include h

/-! ## A request's tests and its address -/

/-- A write of the part's own blocks. -/
theorem BagLaw.lanes (ht : t.lanes = s.lanes) : BagLaw t := h.frame (congrArg expectations ht)

/-- A refused test of a request leaves the state. -/
theorem BagLaw.tested {p : Prop} [Decidable p] {a b : Reply × State} (ha : a.2 = s) (hb : ¬ p → BagLaw b.2) :
    BagLaw (if p then a else b).2 := by
  split
  · exact ha ▸ h
  · exact hb ‹_›

theorem BagLaw.toLane {addr : Byte} {g : LaneId → Reply × State} (hg : ∀ l, BagLaw (g l).2) :
    BagLaw (toLane addr s g).2 := by
  obtain ⟨l, hl⟩ | hl := toLane_cases addr s g <;> rw [hl]
  · exact hg l
  · exact h

theorem BagLaw.withChannel {b : Byte} {g : Chan → Reply × State} (hg : ∀ c, BagLaw (g c).2) :
    BagLaw (withChannel b s g).2 := by
  unfold Machine.withChannel
  split
  · exact h
  · exact hg _

/-! ## Requests to the basket -/

theorem BagLaw.takeItem (code : BitVec 48) (q : Byte) (price : BitVec 32) (skip : Byte) :
    BagLaw (takeItem l code q price skip s).2 := by
  rw [takeItem_eq]
  dsimp only
  iterate 6 refine h.tested rfl fun _ => ?_
  refine h.tested rfl fun hbusy => ?_
  iterate 4 refine h.tested rfl fun _ => ?_
  have hsettled (hm : (s.lane l).mode = .self) : (s.lane l).bagCheck.state = .settled := not_not.mp fun hs => hbusy ⟨hm, hs⟩
  have counted (item : Option ItemRecord) (q price : Nat) (skip : Bool) :
      BagLaw (itemCounted l (countedEntry (s.lane l).mode item code.toNat q price skip) s).2 :=
    h.setLane (withEntry_law (h.lane l) _ countedEntry_expecting hsettled)
  split
  · split
    · exact h.setLane (h.lane l)
    · exact counted _ _ _ _
  · exact counted _ _ _ _

/-- The waived entry of a VOID was the awaiting entry, and the bag check ends its expectation (R57, R77). -/
theorem BagLaw.waived {k : Nat} {e : Entry} (he : (s.lane l).entries[k]? = some e) (hb : e.bag = .awaiting) (e' : Entry)
    (hw : e'.bag = .waived) :
    BagLaw ((s.setLane l { s.lane l with entries := (s.lane l).entries.set k e' }).bagCancel l (k + 1)) := by
  have hbag : (s.lane l).expectation.bags[k]? = some .awaiting := by simp [Lane.expectation, he, hb]
  have ha : (s.lane l).bagCheck.awaiting = some (k + 1) := (h.lane l).expected k _ hbag rfl
  have hq : Quiet (((s.lane l).entries.set k e').map Entry.bag) := by
    rw [List.map_set, hw]
    exact (h.lane l).quiet_set ha (b := .waived) rfl
  have hlane := lane_setLane_same s l { s.lane l with entries := (s.lane l).entries.set k e' }
  have hcheck := congrArg Lane.bagCheck hlane
  have hoccupied (hs : (s.lane l).bagCheck.state = .suspended ∨ (s.lane l).bagCheck.state = .settled ∨
      (s.lane l).bagCheck.state = .unexpected) : False := nomatch ha.symm.trans ((h.lane l).free hs)
  have hself : (s.lane l).bagCheck.state ≠ .suspended := fun hs => hoccupied (.inl hs)
  have settles (hs : (s.lane l).bagCheck.state = .awaitingPlace ∨ (s.lane l).bagCheck.state = .held) :
      BagLaw ((s.setLane l { s.lane l with entries := (s.lane l).entries.set k e' }).bagCancel l (k + 1)) := by
    rw [bagCancel_settles hcheck ha hs, setBag_eq, setLane_setLane, hlane]
    exact h.setLane ((h.lane l).ended hself hq (st := .settled) (by simp))
  have drops (hs : (s.lane l).bagCheck.state = .faulted ∨ (s.lane l).bagCheck.state = .arming) :
      BagLaw ((s.setLane l { s.lane l with entries := (s.lane l).entries.set k e' }).bagCancel l (k + 1)) := by
    rw [bagCancel_drops hcheck ha hs, setBag_eq, setLane_setLane, hlane]
    exact h.setLane ((h.lane l).dropped hs hq)
  cases hs : (s.lane l).bagCheck.state with
  | suspended => exact (hoccupied (.inl hs)).elim
  | settled => exact (hoccupied (.inr (.inl hs))).elim
  | unexpected => exact (hoccupied (.inr (.inr hs))).elim
  | awaitingRemoval =>
    obtain ⟨j, hj, hr⟩ := (h.lane l).removing hs
    obtain rfl : k = j := Nat.succ.inj (Option.some.inj (ha.symm.trans hj))
    exact nomatch hbag.symm.trans hr
  | awaitingPlace => exact settles (.inl hs)
  | held => exact settles (.inr hs)
  | faulted => exact drops (.inl hs)
  | arming => exact drops (.inr hs)

/-- The REMOVING entry of a VOID becomes the awaiting entry of a SETTLED bag check (R57, R73). -/
theorem BagLaw.removing {k : Nat} {e : Entry} (he : (s.lane l).entries[k]? = some e) (hm : (s.lane l).mode = .self)
    (hs : (s.lane l).bagCheck.state = .settled) (e' : Entry) (hr : e'.bag = .removing) :
    BagLaw ((s.setLane l { s.lane l with entries := (s.lane l).entries.set k e' }).expectRemoval l (k + 1) e) := by
  have hlt : k < (s.lane l).expectation.bags.length := by
    rw [Lane.expectation, List.length_map]
    exact (List.getElem?_eq_some_iff.mp he).1
  have hq := (h.lane l).quiet ((h.lane l).free (.inr (.inl hs)))
  have hlaw := Expectation.Law.removed (t := (s.laneSettings l).removalTime * 1000) (Expectation.only_set hq k .removing)
    (List.getElem?_set_self hlt)
  unfold State.expectRemoval
  rw [setBag_eq, lane_setLane_same, setLane_setLane]
  refine h.setLane ?_
  unfold Lane.expectation at hlaw ⊢
  dsimp only at hlaw ⊢
  rw [List.map_set, hr, hm]
  exact hlaw

theorem BagLaw.takeVoid (p : Byte) : BagLaw (takeVoid l p s).2 := by
  cases hr : (s.lane l).voidRefusal p.toNat with
  | some code =>
    rw [takeVoid_refused hr]
    exact h
  | none =>
    obtain ⟨hopen, k, e, hp, he⟩ := entry_of_voidRefusal hr
    rw [takeVoid_entry hopen hp he]
    refine h.tested rfl fun _ => h.tested rfl fun _ => h.tested rfl fun hbusy => ?_
    have kept (e' : Entry) (hb : e'.bag = e.bag) :
        BagLaw (s.setLane l { s.lane l with entries := (s.lane l).entries.set k e' }) := by
      refine h.frame (setLane_expectations s l _ ?_)
      have hset : ((s.lane l).entries.set k e').map Entry.bag = (s.lane l).entries.map Entry.bag := by
        obtain ⟨hlt, rfl⟩ := List.getElem?_eq_some_iff.mp he
        rw [List.map_set, hb, ← List.getElem_map Entry.bag (h := by rwa [List.length_map]), List.set_getElem_self]
      simp only [Lane.expectation, hset]
    change BagLaw (s.voided l k e)
    unfold State.voided
    dsimp only
    split
    · rename_i hm
      split
      · rename_i hb
        exact h.waived he hb _ rfl
      · rename_i hb
        have hs : (s.lane l).bagCheck.state = .settled := not_not.mp fun hs => hbusy ⟨hm, hs, by simp [hb]⟩
        exact h.removing he hm hs _ rfl
      · exact kept _ rfl
    · exact kept _ rfl

theorem BagLaw.takeTender (k : Byte) (m : BitVec 32) : BagLaw (takeTender l k m s).2 := by
  unfold Machine.takeTender
  dsimp only
  split
  · exact h
  · iterate 5 refine h.tested rfl fun _ => ?_
    exact h.setLane (h.lane l)

omit h in
theorem afterClear_state (st : BagCheckState) :
    st.afterClear ≠ .awaitingPlace ∧ st.afterClear ≠ .awaitingRemoval ∧ (st.afterClear = .suspended ↔ st = .suspended) := by
  cases st <;> decide

/-- A cleared basket has no entry, and the bag check no expectation (R62, R82). -/
theorem BagLaw.basketClear : BagLaw (basketClear l s).2 := by
  refine BagLaw.frame (h.setLane (l := l) (n := (s.lane l).clearBasket) ?_) (endWeigh_expectations ..)
  have hclear : (s.lane l).clearBasket.expectation =
      ⟨[], (s.lane l).bagCheck.state.afterClear, none, none, none, (s.lane l).mode⟩ := by
    rw [Lane.clearBasket, basketCleared_eq]
    rfl
  rw [hclear]
  obtain ⟨hp, hr, hs⟩ := afterClear_state (s.lane l).bagCheck.state
  exact .of_quiet nofun rfl rfl rfl ⟨hp, hr⟩ (hs.trans (h.lane l).mode)

theorem BagLaw.takeNewBasket : BagLaw (takeNewBasket l s).2 := by
  rw [takeNewBasket_eq]
  refine h.tested rfl fun _ => ?_
  split
  · exact h.frame (endWeigh_expectations ..)
  · exact h.tested rfl fun _ => h.basketClear

theorem BagLaw.takeAbandonBasket : BagLaw (takeAbandonBasket l s).2 := by
  rw [takeAbandonBasket_eq]
  iterate 5 refine h.tested rfl fun _ => ?_
  exact h.basketClear

/-! ## LANE_MODE, LANE_RESET and BAG_OVERRIDE (R66, R78, R79) -/

omit h in
/-- A change of mode between closed and attended leaves the bag check SUSPENDED. -/
theorem law_suspended {n : Lane} (h : n.expectation.Law) (hn : n.mode ≠ .self) {m : LaneMode} (hm : m ≠ .self) :
    (Lane.expectation { n with mode := m }).Law :=
  { h with mode := iff_of_true (h.mode.mpr hn) hm }

omit h in
/-- The bag check enters ARMING or FAULTED with the lane's entry into self mode (R79). -/
theorem law_enterSelf {n : Lane} (h : n.expectation.Law) (hn : n.mode ≠ .self) :
    (Lane.expectation { Lane.bagModeChange.enterSelf n with mode := .self }).Law := by
  have ha := h.free (.inl (h.mode.mpr hn))
  unfold Lane.bagModeChange.enterSelf
  split
  · exact .of_quiet (h.quiet ha) ha rfl rfl ⟨nofun, nofun⟩ (iff_of_false nofun (not_not.mpr rfl))
  · exact .of_quiet (h.quiet ha) ha rfl rfl ⟨nofun, nofun⟩ (iff_of_false nofun (not_not.mpr rfl))

omit h in
/-- The bag check enters SUSPENDED with the lane's way out of self mode, its awaiting entry ended (R79). -/
theorem law_leaveSelf {n : Lane} (h : n.expectation.Law) {m : LaneMode} (hm : m ≠ .self) :
    (Lane.expectation { Lane.bagModeChange.leaveSelf n with mode := m }).Law :=
  awaitedAs_law h waivedBy_quiet (x := n.bagCheck.drop.enter .suspended) ⟨rfl, rfl, rfl⟩ ⟨nofun, nofun⟩ (iff_of_true rfl hm)

omit h in
theorem law_modeChange {n : Lane} (h : n.expectation.Law) {m : LaneMode} (hne : n.mode ≠ m) :
    (Lane.expectation { n.bagModeChange n.mode m with mode := m }).Law := by
  unfold Lane.bagModeChange
  cases hn : n.mode <;> cases m
  case self.attended => exact law_leaveSelf h nofun
  case self.closed => exact law_leaveSelf h nofun
  case attended.self => exact law_enterSelf h (by simp [hn])
  case closed.self => exact law_enterSelf h (by simp [hn])
  case attended.closed => exact law_suspended h (by simp [hn]) nofun
  case closed.attended => exact law_suspended h (by simp [hn]) nofun
  all_goals exact absurd hn hne

theorem BagLaw.takeLaneMode (m : Byte) : BagLaw (takeLaneMode l m s).2 := by
  unfold Machine.takeLaneMode
  split
  · exact h
  · dsimp only
    split
    · exact h
    · rename_i hne
      split
      · exact h
      · exact h.setLane (law_modeChange (h.lane l) hne)

theorem BagLaw.takeBagOverride : BagLaw (takeBagOverride l s).2 := by
  unfold Machine.takeBagOverride
  refine h.tested rfl fun _ => h.tested rfl fun hs => h.tested rfl fun _ => h.bagOverridden fun hsuspended => hs ?_
  simp [hsuspended]

omit h in
theorem bagStart_state (n : Lane) :
    n.bagStart ≠ .awaitingPlace ∧ n.bagStart ≠ .awaitingRemoval ∧ (n.bagStart = .suspended ↔ n.mode ≠ .self) := by
  unfold Lane.bagStart
  split
  · rename_i hm
    split <;> exact ⟨nofun, nofun, iff_of_false nofun (not_not.mpr hm)⟩
  · rename_i hm
    exact ⟨nofun, nofun, iff_of_true rfl hm⟩

theorem BagLaw.takeLaneReset : BagLaw (takeLaneReset l s).2 := by
  rw [takeLaneReset_eq]
  obtain ⟨hp, hr, hs⟩ := bagStart_state (s.lane l)
  refine h.tested rfl fun _ => BagLaw.frame (h.setLane (l := l) (n := (s.lane l).resetAll) ?_) rfl
  exact .of_quiet nofun rfl rfl rfl ⟨hp, hr⟩ hs

/-! ## Requests to the weighing channels -/

theorem BagLaw.takeChannelStart (b : Byte) : BagLaw (takeChannelStart l b s).2 := by
  have started (c : Chan) : BagLaw (takeChannelStart.started l s c).2 :=
    h.frame ((displayCheck_expectations ..).trans (modChan_expectations ..))
  unfold Machine.takeChannelStart
  refine h.withChannel fun c => h.tested rfl fun _ => ?_
  split
  · exact h
  · exact h
  · exact started c
  · split
    · exact started c
    · exact h
    · split
      · exact started c
      · exact h
    · exact h

theorem BagLaw.takeChannelStop (b : Byte) : BagLaw (takeChannelStop l b s).2 := by
  unfold Machine.takeChannelStop
  refine h.withChannel fun c => h.tested rfl fun _ => ?_
  have stopped : BagLaw (s.modChan l c Channel.toStopped) := h.frame (modChan_expectations ..)
  split
  · exact h.frame (setChan_expectations ..)
  · dsimp only
    split
    · exact stopped.bagLoss.frame (displayCheck_expectations ..)
    · exact stopped.frame (displayCheck_expectations ..)

theorem BagLaw.takeZeroRequest (b : Byte) : BagLaw (takeZeroRequest l b s).2 := by
  unfold Machine.takeZeroRequest
  refine h.withChannel fun c => ?_
  dsimp only
  split
  · exact h
  · exact h
  · exact h
  · iterate 3 refine h.tested rfl fun _ => ?_
    split
    · exact h.tested rfl fun _ => h.tested rfl fun _ => h.frame (setChan_expectations ..)
    · exact h

theorem BagLaw.takeTareWeighed (b : Byte) : BagLaw (takeTareWeighed l b s).2 := by
  unfold Machine.takeTareWeighed
  refine h.withChannel fun c => h.tested rfl fun _ => ?_
  split
  · exact h
  · exact h
  · exact h
  · refine h.tested rfl fun _ => h.tested rfl fun _ => ?_
    split
    · exact h.tested rfl fun _ => h.tested rfl fun _ => h.frame (modChan_expectations ..)
    · exact h

theorem BagLaw.takeTarePreset (b f : Byte) (v : BitVec 32) : BagLaw (takeTarePreset l b f v s).2 := by
  unfold Machine.takeTarePreset
  refine h.withChannel fun c => h.tested rfl fun _ => h.tested rfl fun _ => ?_
  split
  · exact h
  · exact h
  · exact h
  · split
    · exact h.tested rfl fun _ => h.tested rfl fun _ => h.frame (modChan_expectations ..)
    · exact h

/-! ## Requests to the other blocks of a lane -/

theorem BagLaw.takeCancelCard : BagLaw (takeCancelCard l s).2 := by
  unfold Machine.takeCancelCard
  split
  · exact h
  · dsimp only
    split
    · exact h.frame ((offerResult_expectations ..).trans (setSlot_expectations ..))
    · split
      · exact h
      · exact h.frame (setSlot_expectations ..)
    · exact h

theorem BagLaw.takeDrawerOpen : BagLaw (takeDrawerOpen l s).2 := by
  unfold Machine.takeDrawerOpen
  dsimp only
  split
  case h_7 =>
    split
    · exact h.frame (joinQueue_expectations ..)
    · exact h
  all_goals exact h

theorem BagLaw.takePrintBegin : BagLaw (takePrintBegin l s).2 := by
  unfold Machine.takePrintBegin
  exact h.tested rfl fun _ => h.tested rfl fun _ => h.setLane (h.lane l)

theorem BagLaw.takePrintData (job : Byte) (octets : List Byte) : BagLaw (takePrintData l job octets s).2 := by
  unfold Machine.takePrintData
  dsimp only
  split
  · exact h
  · exact h.tested rfl fun _ => h.frame
      ((noteMissing_expectations ..).trans (setLane_expectations s l _ (scanOctets_expectation (s.lane l) _ octets)))

theorem BagLaw.takePrintEnd (job : Byte) : BagLaw (takePrintEnd l job s).2 := by
  unfold Machine.takePrintEnd
  dsimp only
  split
  · exact h
  · exact h.frame ((port_expectations ..).trans
      ((noteMissing_expectations ..).trans (modLane_expectations s l (fun n => n.modJob _ _) rfl)))

theorem BagLaw.takePrintCancel (job : Byte) : BagLaw (takePrintCancel l job s).2 := by
  unfold Machine.takePrintCancel
  split
  · exact h
  · rename_i j _
    refine h.frame ((port_expectations ..).trans ((offerPrint_expectations ..).trans (modLane_expectations s l
      (fun n => n.cancelJob j) ?_)))
    rw [Lane.cancelJob_eq]
    rfl

theorem BagLaw.toRecord (addr : Byte) (set : BitVec 16) (g : Attention → BitVec 16 → Attention) :
    BagLaw (toRecord addr set g s).2 := by
  unfold Machine.toRecord
  split
  · unfold partAttention
    split
    · exact h.frame rfl
    · exact h
  · refine h.toLane fun l => ?_
    unfold laneAttention
    split
    · exact h.frame (setAttention_expectations ..)
    · exact h

/-! ## Requests to the part -/

theorem BagLaw.takeSettingsWrite (r : RawSettings) : BagLaw (takeSettingsWrite r s).2 := by
  unfold Machine.takeSettingsWrite
  split
  · exact h
  · dsimp only
    exact h.frame (writeSettings_expectations ..)

theorem BagLaw.takeCalWrite (a c : Byte) (r : RawCal) (tag : Byte) : BagLaw (takeCalWrite a c r tag s).2 := by
  unfold Machine.takeCalWrite
  split
  · iterate 7 refine h.tested rfl fun _ => ?_
    exact h.lanes rfl
  all_goals exact h

theorem BagLaw.takeCalRead (a c : Byte) : BagLaw (takeCalRead a c s).2 := by
  unfold Machine.takeCalRead
  split <;> exact h

theorem BagLaw.takeSetDate (y m d : Byte) : BagLaw (takeSetDate y m d s).2 := by
  unfold Machine.takeSetDate
  dsimp only
  split
  · exact h.lanes rfl
  · exact h

theorem BagLaw.takeGlyphPut (c : Byte) (p : List Byte) : BagLaw (takeGlyphPut c p s).2 := by
  unfold Machine.takeGlyphPut
  split
  · exact h.lanes rfl
  · exact h

theorem BagLaw.takeGlyphClear (c : Byte) : BagLaw (takeGlyphClear c s).2 := by
  unfold Machine.takeGlyphClear
  split
  · exact h.lanes rfl
  · exact h

/-- Every request keeps the law. -/
theorem BagLaw.take (i : Instr) : BagLaw (take i s).2 := by
  cases hi : loadsTable i with
  | true => exact h.lanes (loads_lanes hi s)
  | false =>
  cases i with
  | item a _ c q p k => exact h.toLane fun l => h.takeItem c q p k
  | void a _ p => exact h.toLane fun l => h.takeVoid p
  | cancelWeigh a _ =>
    refine h.toLane fun l => ?_
    unfold takeCancelWeigh
    split
    · exact h.frame (endWeigh_expectations ..)
    · exact h
  | tender a _ k m => exact h.toLane fun l => h.takeTender k m
  | newBasket a _ => exact h.toLane fun l => h.takeNewBasket
  | abandonBasket a _ => exact h.toLane fun l => h.takeAbandonBasket
  | basketRead a _ p => exact h.toLane fun l => h.tested rfl fun _ => h
  | laneMode a _ m => exact h.toLane fun l => h.takeLaneMode m
  | channelStart a _ c => exact h.toLane fun l => h.takeChannelStart c
  | channelStop a _ c => exact h.toLane fun l => h.takeChannelStop c
  | channelSetup a _ c f m =>
    exact h.toLane fun l => h.withChannel fun c => h.tested rfl fun _ => h.frame (setChan_expectations ..)
  | zero a _ c => exact h.toLane fun l => h.takeZeroRequest c
  | tareWeighed a _ c _ => exact h.toLane fun l => h.takeTareWeighed c
  | tarePreset a _ c f v => exact h.toLane fun l => h.takeTarePreset c f v
  | clearTare a _ c =>
    exact h.toLane fun l => h.withChannel fun c => h.tested rfl fun _ => h.frame (modChan_expectations ..)
  | bagOverride a _ => exact h.toLane fun l => h.takeBagOverride
  | cancelCard a _ => exact h.toLane fun l => h.takeCancelCard
  | drawerOpen a _ => exact h.toLane fun l => h.takeDrawerOpen
  | drawerClear a _ =>
    refine h.toLane fun l => ?_
    unfold takeDrawerClear
    split
    · exact h.frame ((offerDrawer_expectations ..).trans (setTill_expectations ..))
    · exact h
  | printBegin a _ => exact h.toLane fun l => h.takePrintBegin
  | printData a _ j o => exact h.toLane fun l => h.takePrintData j o
  | printEnd a _ j => exact h.toLane fun l => h.takePrintEnd j
  | printCancel a _ j => exact h.toLane fun l => h.takePrintCancel j
  | laneStatus a _ n =>
    refine h.toLane fun l => ?_
    unfold takeLaneStatus
    split <;> exact h.lanes rfl
  | laneReset a _ => exact h.toLane fun l => h.takeLaneReset
  | staffGrant a _ n => exact h.toLane fun l => h.tested rfl fun _ => h.frame (grantStaff_expectations ..)
  | staffWithdraw a _ => exact h.toLane fun l => h.frame (dropStaff_expectations ..)
  | clearAttention a _ c => exact h.toRecord a c _
  | attentionMask a _ c => exact h.toRecord a c _
  | partStatus _ => exact h.lanes rfl
  | settingsWrite _ r => exact h.takeSettingsWrite r
  | setDate _ y m d => exact h.takeSetDate y m d
  | restart _ => exact h.tested rfl fun _ => h.lanes rfl
  | itemGet _ c =>
    refine h.tested rfl fun _ => ?_
    split <;> exact h
  | binRead _ n => exact h.tested rfl fun _ => h
  | glyphPut _ c p => exact h.takeGlyphPut c p
  | glyphClear _ c => exact h.takeGlyphClear c
  | calWrite t a c r _ => exact h.takeCalWrite a c r t
  | calRead _ a c => exact h.takeCalRead a c
  | itemPut _ _ => exact nomatch hi
  | itemRemove _ _ => exact nomatch hi
  | itemClear _ => exact nomatch hi
  | binPut _ _ => exact nomatch hi
  | binRemove _ _ => exact nomatch hi
  | binClear _ => exact nomatch hi
  | _ => exact h

/-! ## The trunk link (R169, R170) -/

theorem BagLaw.dispatch (f : Frame) : BagLaw (s.dispatch f) := by
  have reserved : BagLaw s.reserve := h.lanes rfl
  have replied : BagLaw (s.reserve.replyTo f).2 := by
    unfold State.replyTo
    split
    · exact reserved
    · exact reserved.take _
  unfold State.dispatch settle
  split
  · exact replied.lanes rfl
  · exact replied

omit h in
theorem BagLaw.drain (n : Nat) (h : BagLaw s) : BagLaw (State.drain n s) := by
  induction n generalizing s with
  | zero => exact h
  | succ n ih =>
    unfold State.drain
    split
    · exact h
    · rename_i f rest _
      split
      · exact h
      · exact ih (BagLaw.dispatch (s := s.setBuffer rest) (h.lanes rfl) f)

theorem BagLaw.arrive (f : Frame) : BagLaw (s.arrive f) := by
  unfold State.arrive
  dsimp only
  split
  · exact h.lanes (discardFrame_lanes s)
  · split
    · exact h.lanes (raisePart_lanes ..)
    · exact BagLaw.drain _ (h.lanes rfl)

theorem BagLaw.frameSent : BagLaw s.frameSent := by
  unfold State.frameSent
  split
  · exact h
  · split
    · exact BagLaw.drain _ (h.lanes rfl)
    · exact h
    · exact h.lanes rfl

theorem BagLaw.onPart {g : State → State} (hg : BagLaw (g s)) : BagLaw (s.onPart g) := by
  unfold State.onPart
  split
  · exact hg
  · exact h

theorem BagLaw.onLane {g : State → State} (hg : BagLaw (g s)) : BagLaw (s.onLane l g) := by
  unfold State.onLane
  split
  · exact hg
  · exact h

theorem BagLaw.request (i : Instr) : BagLaw (s.request i) := by
  unfold State.request
  split
  · exact h
  · exact h.onPart (h.arrive _)

omit h

/-! ## Start-up (R180) -/

theorem bagLaw_blank (s : State) (cause : ResetCause) (check : SelfCheck) : BagLaw (s.blank cause check) :=
  (bagLaw_iff _).mpr fun l => by
    have hl : (s.blank cause check).lane l = Lane.blank (s.lane l).till.rawHigh := Four.get_make _ l
    rw [hl]
    exact .of_quiet nofun rfl rfl rfl ⟨nofun, nofun⟩ (iff_of_true rfl nofun)

theorem bagLaw_startUp (s : State) (cause : ResetCause) (check : SelfCheck) : BagLaw (s.startUp cause check) := by
  have blank : BagLaw ((s.blank cause check).enqueue (s.blank cause check).helloNotice) :=
    (bagLaw_blank s cause check).lanes rfl
  unfold State.startUp
  simp only [allLanes, List.foldl_cons, List.foldl_nil]
  exact blank.startLane.startLane.startLane.startLane.lanes (compareSupply_lanes _)

/-! ## Every command -/

theorem BagLaw.exec (h : BagLaw s) (i : Instr) (he : exec i s = .next t) : BagLaw t := by
  have next {u : State} (hu : Machine.exec i s = .next u) (hl : BagLaw u) : BagLaw t := by
    obtain rfl : u = t := Host.Outcome.next.inj (hu.symm.trans he)
    exact hl
  have level (en : Bool) : BagLaw (s.withCalEn en) := h.lanes rfl
  cases i with
  | calWrite _ _ _ _ en => exact next rfl ((level en).request _)
  | calWriteComplete => exact next rfl (h.onPart h.calWriteCompletes)
  | goodFrame f en => exact next rfl ((level en).onPart ((level en).arrive f))
  | frameError _ => exact next rfl (h.onPart (h.lanes (discardFrame_lanes s)))
  | upstreamFrameSent en => exact next rfl ((level en).onPart (level en).frameSent)
  | restartReset check =>
    refine next rfl ?_
    unfold State.restartReset
    split
    · exact bagLaw_startUp s _ _
    · exact h
  | linkSilenceExpiry => exact next rfl (h.onPart (h.lanes (linkExpires_lanes s)))
  | powerOn inputs => exact next rfl (bagLaw_startUp (s.readInputs inputs) _ _)
  | brownOut => exact next rfl ((bagLaw_blank s .brownOut s.selfCheck).lanes rfl)
  | supplyLowSet => exact next rfl (h.frame (supplyFalls_expectations s))
  | supplyLowClear => exact next rfl (h.frame (supplyRises_expectations s))
  | sampleArrival l c raw => exact next rfl (h.onLane (h.sample c raw.toNat))
  | channelSilenceExpiry l c => exact next rfl (h.onLane (h.silenceExpires c))
  | initialZeroExpiry l c => exact next rfl (h.onLane (h.initialZeroExpires c))
  | displayTimerExpiry l c => exact next rfl (h.onLane (h.displayExpires c))
  | weighTimerExpiry l => exact next rfl (h.onLane (h.frame (weighExpires_expectations s l)))
  | placementTimerExpiry l => exact next rfl (h.onLane h.placementExpires)
  | removalTimerExpiry l => exact next rfl (h.onLane h.removalExpires)
  | readerCharacter l v p => exact next rfl (h.onLane (h.frame (readerChar_expectations s l v p)))
  | gapTimerExpiry l => exact next rfl (h.onLane (h.frame (gapExpires_expectations s l)))
  | result a tag o m ap => exact next rfl (h.onPart (h.frame (paymentArrive_expectations s _)))
  | paymentFrameSent => exact next rfl (h.onPart (h.frame (paymentSent_expectations s)))
  | responseTimerExpiry => exact next rfl (h.onPart (h.frame (responseExpires_expectations s)))
  | drawerSensorLevel l high =>
    have pin : BagLaw (s.sensorPin l high) := h.frame (setTill_expectations ..)
    exact next rfl (pin.onLane (pin.frame (setTill_expectations ..)))
  | debounceTimerExpiry l => exact next rfl (h.onLane (h.frame (debounceExpires_expectations s l)))
  | pulseTimerExpiry l => exact next rfl (h.onLane (h.frame (pulseExpires_expectations s l)))
  | checkTimerExpiry l => exact next rfl (h.onLane (h.frame (checkExpires_expectations s l)))
  | leftOpenExpiry l => exact next rfl (h.onLane (h.frame (leftOpenExpires_expectations s l)))
  | lineDone l _ => exact next rfl (h.onLane (h.frame (printerArrive_expectations s l _)))
  | lineFailed l _ => exact next rfl (h.onLane (h.frame (printerArrive_expectations s l _)))
  | printerStatus l _ => exact next rfl (h.onLane (h.frame (printerArrive_expectations s l _)))
  | printerSilenceExpiry l => exact next rfl (h.onLane (h.frame (printerSilent_expectations s l)))
  | answerTimerExpiry l => exact next rfl (h.onLane (h.frame (answerExpires_expectations s l)))
  | staffHoldExpiry l => exact next rfl (h.onLane (h.frame (staffExpires_expectations s l)))
  | supplyAboveBrownOut inputs =>
    refine next rfl ?_
    unfold State.aboveBrownOut
    split
    · exact h
    · exact bagLaw_startUp (s.readInputs inputs) _ _
  | paymentFrameDiscarded cause => exact next rfl (h.onPart (h.frame (paymentBroken_expectations s cause)))
  | printerFrameDiscarded l cause => exact next rfl (h.onLane (h.frame (printerBroken_expectations s l cause)))
  | _ => exact next rfl (h.request _)

end

/-- Settles O12: an entry is expected only from a SETTLED bag check in self mode, and each way out of an expectation gives its
entry a bag state that is not expected. -/
theorem awaitingLawKept : Obligations.AwaitingLawKept := by
  intro s t h hs
  unfold step at hs
  split at hs
  · obtain rfl : s = t := Host.Outcome.next.inj hs
    exact h
  · rename_i c rest _
    exact BagLaw.exec (s := { s with pending := rest }) (h.lanes rfl) c hs

end Sys2Proof.Machine
end

