-- ==== Sys2Proof/Proofs/BagRequests.lean ====
section
/-! LANE_MODE, BAG_OVERRIDE and the expiries of the bag timers (R66, R75, R78, R79, R158), and the two obligations. -/

namespace Sys2Proof.Machine

/-! ## The awaited entry (R50, R65) -/

/-- The bag state of the awaited entry is replaced in place. -/
theorem awaitedAs_some {n : Lane} {k : Nat} {e : Entry} (ha : n.bagCheck.awaiting = some (k + 1))
    (he : n.entries[k]? = some e) (f : BagState → BagState) :
    n.awaitedAs f = { n with entries := n.entries.set k { e with bag := f e.bag } } := by
  have hentry : n.entryAt (k + 1) = some e := he
  simp only [Lane.awaitedAs, ha, hentry, Lane.setEntryBag, Nat.add_sub_cancel, modify_of_getElem? he]

theorem awaitedAs_none {n : Lane} (ha : n.bagCheck.awaiting = none) (f : BagState → BagState) : n.awaitedAs f = n := by
  simp only [Lane.awaitedAs, ha]

/-- An entry replaced is found at its position. -/
theorem entryAt_set {n m : Lane} {k : Nat} {e e' : Entry} (he : n.entries[k]? = some e) (hm : m.entries = n.entries.set k e') :
    m.entryAt (k + 1) = some e' := by
  change m.entries[k]? = some e'
  rw [hm, List.getElem?_set_self (List.getElem?_eq_some_iff.mp he).1]

/-! ## LANE_MODE (R79, R158) -/

theorem exec_laneMode {s : State} {l : LaneId} (h : s.Serves l) (tag target : Byte) :
    exec (.laneMode (laneAddr l) tag target) s =
      .next (settle (requestFrame (laneAddr l) .laneMode tag [target]) s.upstream.length (takeLaneMode l target s.taken)) := by
  refine exec_lane .laneMode tag _ h rfl rfl rfl rfl rfl (toLane_laneAddr l _ _) ?_
  unfold takeLaneMode
  split
  · rfl
  · dsimp only
    split
    · rfl
    · split <;> rfl

theorem laneModeOf_foreign {b : Byte} (h : 2 < b.toNat) : laneModeOf b = none := by
  unfold laneModeOf
  split
  · omega
  · omega
  · omega
  · rfl

@[simp] theorem laneModeOf_value (m : LaneMode) : laneModeOf m.value = some m := by cases m <;> rfl

theorem exists_mode_value {b : Byte} (h : ¬ 2 < b.toNat) : ∃ m : LaneMode, b = m.value := by
  have hb : b.toNat = 0 ∨ b.toNat = 1 ∨ b.toNat = 2 := by omega
  obtain hb | hb | hb := hb
  · exact ⟨.attended, BitVec.eq_of_toNat_eq hb⟩
  · exact ⟨.self, BitVec.eq_of_toNat_eq hb⟩
  · exact ⟨.closed, BitVec.eq_of_toNat_eq hb⟩

/-- The first test of LANE_MODE that refuses (R158). -/
def Lane.modeTests (n : Lane) (target : Byte) : Option Code :=
  if 2 < target.toNat then some .badValue
  else if n.mode.value = target then none
  else if target = 2 then
    (if ¬ n.basketState = .empty then some .basketActive else if n.till.state ≠ .closed then some .drawerOpen else none)
  else if target = 1 then (if ¬ n.basketState = .empty then some .basketActive else none)
  else if n.mode = .self ∧ ¬ n.basketState = .empty ∧ n.authority = none then some .basketActive
  else none

/-- The tests of LANE_MODE by the mode it names. -/
theorem modeTests_value (n : Lane) (m : LaneMode) :
    n.modeTests m.value = if n.mode = m then none else n.modeRefusal m := by
  have hstaff : n.staffed = true ↔ ¬ n.authority = none := by rw [Lane.staffed, Option.isSome_iff_ne_none]
  by_cases hempty : n.basketState = .empty
  · cases hn : n.mode <;> cases m <;>
      simp [Lane.modeTests, Lane.modeRefusal, Lane.modeRefusal.toClosed, LaneMode.value, hn, hempty]
  · cases hn : n.mode <;> cases m <;>
      simp [Lane.modeTests, Lane.modeRefusal, Lane.modeRefusal.toClosed, LaneMode.value, hn, hempty, hstaff]

theorem takeLaneMode_refused {s : State} {l : LaneId} {target : Byte} {code : Code}
    (h : (s.lane l).modeTests target = some code) : takeLaneMode l target s = refuse code s := by
  by_cases ht : 2 < target.toNat
  · obtain rfl : Code.badValue = code := by simpa [Lane.modeTests, ht] using h
    rw [takeLaneMode, laneModeOf_foreign ht]
  · obtain ⟨m, rfl⟩ := exists_mode_value ht
    rw [modeTests_value] at h
    split_ifs at h with hm
    simp only [takeLaneMode, laneModeOf_value, hm, h, if_false]

theorem takeLaneMode_same {s : State} {l : LaneId} {m : LaneMode} (h : (s.lane l).mode = m) :
    takeLaneMode l m.value s = modeAnswer l s := by
  simp only [takeLaneMode, laneModeOf_value, h, if_true]

/-- An accepted change of the lane mode, by the lane it leaves (R79, R158). -/
theorem exec_laneMode_changes {s : State} {l : LaneId} (h : s.Serves l) (tag : Byte) {m : LaneMode} {n' : Lane}
    (hne : (s.lane l).mode ≠ m) (hr : (s.lane l).modeRefusal m = none)
    (hn : { (s.lane l).bagModeChange (s.lane l).mode m with mode := m } = n') :
    exec (.laneMode (laneAddr l) tag m.value) s =
      .next (s.accepts (laneAddr l) 0x17 tag [m.value, n'.bagCheck.state.value] fun x => x.setLane l n') := by
  subst hn
  have ht : takeLaneMode l m.value s.taken =
      modeAnswer l (s.taken.setLane l { (s.lane l).bagModeChange (s.lane l).mode m with mode := m }) := by
    have hne' : ¬ (s.taken.lane l).mode = m := hne
    have hr' : (s.taken.lane l).modeRefusal m = none := hr
    simp only [takeLaneMode, laneModeOf_value, hne', hr', if_false]
    rfl
  rw [exec_laneMode h, ht, modeAnswer, lane_setLane_same]
  rfl

/-- The way out of self mode, with its entry ended (R79). -/
theorem bagModeChange_leaves {n : Lane} (hn : n.mode = .self) {m : LaneMode} (hm : m ≠ .self) :
    n.bagModeChange n.mode m =
      { n.awaitedAs waivedBy with
        bagCheck := { BagCheck.blank with b := n.bagCheck.b, previousGross := n.bagCheck.previousGross } } := by
  rw [hn]
  cases m with
  | self => exact absurd rfl hm
  | attended => rfl
  | closed => rfl

/-- The way into self mode (R79). -/
theorem bagModeChange_enters {n : Lane} (hn : n.mode ≠ .self) :
    n.bagModeChange n.mode .self =
      { n with bagCheck := n.bagCheck.enter (if n.bag.state = .running then .arming else .faulted) } := by
  have henter : Lane.bagModeChange.enterSelf n =
      { n with bagCheck := n.bagCheck.enter (if n.bag.state = .running then .arming else .faulted) } := by
    unfold Lane.bagModeChange.enterSelf
    by_cases hr : n.bag.state = .running <;> simp [hr]
  rw [← henter]
  cases hm : n.mode with
  | self => exact absurd hm hn
  | attended => rfl
  | closed => rfl

/-- Settles O36: the tests come in the order of R158, and each accepted change is the change of the bag check of R79. -/
theorem laneModeAndTheBagCheck : Obligations.LaneModeAndTheBagCheck := by
  unfold Obligations.LaneModeAndTheBagCheck
  refine ⟨?_, ?_, ?_, ?_, ?_, ?_, ?_⟩
  · intro s l tag target code h hcode
    rw [exec_laneMode h, takeLaneMode_refused (s := s.taken) hcode]
    rfl
  · rintro s l tag target h rfl
    rw [exec_laneMode h, takeLaneMode_same (s := s.taken) (m := (s.lane l).mode) rfl]
    rfl
  · intro s l tag h hm hempty n st
    have hr : (s.lane l).modeRefusal .self = none := by
      cases hn : (s.lane l).mode <;> simp [Lane.modeRefusal, hn, hempty]
    exact exec_laneMode_changes h tag hm hr (by rw [bagModeChange_enters hm]; rfl)
  · intro s l tag h hm hempty ha n
    have hr : (s.lane l).modeRefusal .attended = none := by simp [Lane.modeRefusal, Lane.staffed, hm, hempty]
    exact exec_laneMode_changes h tag (by simp [hm]) hr (by rw [bagModeChange_leaves hm (m := .attended) nofun, awaitedAs_none ha])
  · intro s l tag k e h hm hauth ha he hbag n
    have hr : (s.lane l).modeRefusal .attended = none := by simp [Lane.modeRefusal, Lane.staffed, hm, hauth]
    have hwaived : waivedBy e.bag = .waived := by obtain hb | hb := hbag <;> rw [hb] <;> rfl
    exact exec_laneMode_changes h tag (by simp [hm]) hr
      (by rw [bagModeChange_leaves hm (m := .attended) nofun, awaitedAs_some ha he, hwaived])
  · intro s l tag h hm hempty hclosed ha n
    have hr : (s.lane l).modeRefusal .closed = none := by
      simp [Lane.modeRefusal, Lane.modeRefusal.toClosed, hm, hempty, hclosed]
    exact exec_laneMode_changes h tag (by simp [hm]) hr (by rw [bagModeChange_leaves hm (m := .closed) nofun, awaitedAs_none ha])
  · intro s l tag h n
    refine ⟨fun hm => ?_, fun hm hempty hclosed => ?_⟩
    · have hm : (s.lane l).mode = .closed := hm
      exact exec_laneMode_changes h tag (m := .attended) (by simp [hm]) (by simp [Lane.modeRefusal, hm]) (by rw [hm]; rfl)
    · have hm : (s.lane l).mode = .attended := hm
      have hr : (s.lane l).modeRefusal .closed = none := by
        simp [Lane.modeRefusal, Lane.modeRefusal.toClosed, hm, show (s.lane l).basketState = .empty from hempty,
          show (s.lane l).till.state = .closed from hclosed]
      exact exec_laneMode_changes h tag (by simp [hm]) hr (by rw [hm]; rfl)

/-! ## Notices and holds of the bag check (R75, R83) -/

theorem offerBag_setLane (s : State) (l : LaneId) (n : Lane) (ev : BagEvent) (d : Option Int) (pos : Nat) :
    (s.setLane l n).offerBag l ev d pos = (s.setLane l n).offerLane l 0x84 (bagEventPayload l ev n d pos) := by
  rw [State.offerBag, lane_setLane_same]
  rfl

/-- A BAG_EVENT about an entry carries its position and its bag state (R83). -/
theorem bagEventPayload_entry (l : LaneId) (ev : BagEvent) {n : Lane} (d : Option Int) {k : Nat} {e : Entry}
    (he : n.entries[k]? = some e) :
    bagEventPayload l ev n d (k + 1) =
      [laneAddr l, ev.value, n.bagCheck.state.value] ++ optional 4 (n.bagCheck.b.map (beInt 4)) ++
        optional 4 (d.map (beInt 4)) ++ [octet (k + 1), e.bag.value] := by
  have hentry : n.entryAt (k + 1) = some e := he
  rw [bagEventPayload, hentry]
  rfl

/-- The bag check enters HELD: one write of the lane, the notice, the condition (R68, R75, R161). -/
theorem bagHold_eq (s : State) (l : LaneId) (b d : Option Int) :
    s.bagHold l b d =
      let n := { s.lane l with bagCheck := { (s.lane l).bagCheck.enter .held with b := b } }
      ((s.setLane l n).offerLane l 0x84 (bagEventPayload l .held n d ((s.lane l).bagCheck.awaiting.getD 0))).raiseLane l
        .bagHeld := by
  rw [State.bagHold, setBag_eq, offerBag_setLane]

/-! ## BAG_OVERRIDE (R78) -/

/-- The weight an override accepts, as the statements write it (R78 step 2). -/
theorem accepted_eq (b : BagCheck) :
    b.accepted = if b.latestStable ≠ none then b.latestStable else if b.latestGross ≠ none then b.latestGross
      else b.previousGross := by
  unfold BagCheck.accepted
  cases b.latestStable with
  | some w => rfl
  | none => cases b.latestGross <;> rfl

theorem overridden_awaited {b : BagState} (h : b = .awaiting ∨ b = .removing) :
    overridden b = if b = .awaiting then .waived else .removed := by
  obtain rfl | rfl := h <;> rfl

/-- The detail of an accepted override, by the lane it leaves (R78; log 12, log 16). -/
def overrideDetail (n : Lane) (pos : Nat) : List Byte :=
  [octet pos, ((n.entryAt pos).map fun e => e.bag.value).getD 0] ++ optional 4 (n.bagCheck.b.map (beInt 4)) ++
    [n.bagCheck.state.value]

/-- An override in FAULTED or ARMING ends the entry and keeps B and the state (R78). -/
theorem bagOverridden_kept {s : State} {l : LaneId}
    (h : (s.lane l).bagCheck.state = .faulted ∨ (s.lane l).bagCheck.state = .arming) :
    s.bagOverridden l = s.setLane l { (s.lane l).awaitedAs overridden with
      bagCheck := { (s.lane l).bagCheck.drop with placement := none, removal := none } } := by
  obtain h | h := h <;> simp only [State.bagOverridden, h] <;> rfl

/-- An override in any other state settles at the weight last seen, with its notice (R78). -/
theorem bagOverridden_settled {s : State} {l : LaneId}
    (h : (s.lane l).bagCheck.state ≠ .faulted ∧ (s.lane l).bagCheck.state ≠ .arming) :
    s.bagOverridden l =
      let n := { (s.lane l).awaitedAs overridden with
        bagCheck := { (s.lane l).bagCheck.drop.enter .settled with b := (s.lane l).bagCheck.accepted } }
      (s.setLane l n).offerLane l 0x84 (bagEventPayload l .overridden n none ((s.lane l).bagCheck.awaiting.getD 0)) := by
  obtain ⟨hf, ha⟩ := h
  simp only [State.bagOverridden, beq_iff_eq, Bool.or_eq_true, hf, ha, or_self, if_false, offerBag_setLane]
  rfl

theorem bagOverridden_receiveBuffer (s : State) (l : LaneId) : (s.bagOverridden l).receiveBuffer = s.receiveBuffer := by
  unfold State.bagOverridden
  dsimp only
  split
  · rfl
  · exact offerLane_receiveBuffer ..

/-- The tests of BAG_OVERRIDE in order (R78). -/
theorem takeBagOverride_eq (l : LaneId) (s : State) :
    takeBagOverride l s =
      let n := s.lane l
      let b := n.bagCheck
      let t := s.bagOverridden l
      if n.authority = none then refuse .authorityNeeded s
      else if b.state = .suspended ∨ b.state = .settled ∨ ((b.state = .faulted ∨ b.state = .arming) ∧ b.awaiting = none) then
        refuse .nothingHeld s
      else accept (overrideDetail (t.lane l) (b.awaiting.getD 0)) t := by
  unfold takeBagOverride
  simp only [Lane.staffed, Bool.not_eq_true', Option.isSome_eq_false_iff, Option.isNone_iff_eq_none, Bool.or_eq_true,
    Bool.and_eq_true, beq_iff_eq, ite_or]
  rfl

theorem exec_bagOverride {s : State} {l : LaneId} (h : s.Serves l) (tag : Byte) :
    exec (.bagOverride (laneAddr l) tag) s =
      .next (settle (requestFrame (laneAddr l) .bagOverride tag []) s.upstream.length (takeBagOverride l s.taken)) := by
  refine exec_lane .bagOverride tag _ h rfl rfl rfl rfl rfl (toLane_laneAddr l _ _) ?_
  rw [takeBagOverride_eq]
  exact receiveBuffer_ite rfl (receiveBuffer_ite rfl (bagOverridden_receiveBuffer ..))

/-- An accepted override: the detail reads the lane it leaves, whose notice touches only its attention record. -/
theorem exec_bagOverride_accepted {s : State} {l : LaneId} (h : s.Serves l) (tag : Byte) {action : State → State} {n : Lane}
    (hauth : (s.lane l).authority ≠ none)
    (hheld : ¬ ((s.lane l).bagCheck.state = .suspended ∨ (s.lane l).bagCheck.state = .settled ∨
      (((s.lane l).bagCheck.state = .faulted ∨ (s.lane l).bagCheck.state = .arming) ∧
        (s.lane l).bagCheck.awaiting = none)))
    (ht : s.taken.bagOverridden l = action s.taken) (hn : ∃ a, (action s.taken).lane l = { n with attention := a }) :
    exec (.bagOverride (laneAddr l) tag) s =
      .next (s.accepts (laneAddr l) 0x28 tag (overrideDetail n ((s.lane l).bagCheck.awaiting.getD 0)) action) := by
  obtain ⟨a, hn⟩ := hn
  have hauth' : ¬ (s.taken.lane l).authority = none := hauth
  rw [exec_bagOverride h, takeBagOverride_eq]
  dsimp only
  rw [if_neg hauth', if_neg (by exact hheld), ht, hn]
  rfl

/-- An override that settles, by the lane it leaves. -/
theorem exec_bagOverride_settles {s : State} {l : LaneId} (h : s.Serves l) (tag : Byte) {n : Lane}
    (hauth : (s.lane l).authority ≠ none)
    (hstate : (s.lane l).bagCheck.state = .awaitingPlace ∨ (s.lane l).bagCheck.state = .awaitingRemoval ∨
      (s.lane l).bagCheck.state = .held ∨ (s.lane l).bagCheck.state = .unexpected)
    (hn : { (s.lane l).awaitedAs overridden with
      bagCheck := { (s.lane l).bagCheck.drop.enter .settled with b := (s.lane l).bagCheck.accepted } } = n) :
    exec (.bagOverride (laneAddr l) tag) s =
      .next (s.accepts (laneAddr l) 0x28 tag (overrideDetail n ((s.lane l).bagCheck.awaiting.getD 0)) fun x =>
        (x.setLane l n).offerLane l 0x84 (bagEventPayload l .overridden n none ((s.lane l).bagCheck.awaiting.getD 0))) := by
  subst hn
  refine exec_bagOverride_accepted h tag hauth ?_ (bagOverridden_settled (s := s.taken) ?_) ?_
  · obtain hs | hs | hs | hs := hstate <;> simp [hs]
  · change (s.lane l).bagCheck.state ≠ .faulted ∧ (s.lane l).bagCheck.state ≠ .arming
    obtain hs | hs | hs | hs := hstate <;> simp [hs]
  · obtain ⟨a, ha⟩ := offerLane_lane (s.taken.setLane l _) l 0x84 _
    exact ⟨a, ha.trans (by rw [lane_setLane_same])⟩

/-- Settles O50. -/
theorem bagOverrideAndHeldExpectations : Obligations.BagOverrideAndHeldExpectations := by
  unfold Obligations.BagOverrideAndHeldExpectations
  refine ⟨?_, ?_, ?_, ?_, ?_⟩
  · intro s l tag h n b
    refine ⟨fun hauth => ?_, fun hauth hnone => ?_⟩
    · have hauth' : (s.taken.lane l).authority = none := hauth
      rw [exec_bagOverride h, takeBagOverride_eq]
      dsimp only
      rw [if_pos hauth']
      rfl
    · have hauth' : ¬ (s.taken.lane l).authority = none := hauth
      rw [exec_bagOverride h, takeBagOverride_eq]
      dsimp only
      rw [if_neg hauth', if_pos (by exact hnone)]
      rfl
  · intro s l tag k e h hauth hstate ha he hbag n b w after
    obtain ⟨m, hm⟩ : ∃ m : Lane, m = { n with
        entries := n.entries.set k { e with bag := after }
        bagCheck := { b with
          state := .settled, b := w, awaiting := none, e := none, a := 0, placement := none, removal := none
          excursion := false, latestGross := none, latestStable := none } } := ⟨_, rfl⟩
    have hn : { (s.lane l).awaitedAs overridden with
        bagCheck := { (s.lane l).bagCheck.drop.enter .settled with b := (s.lane l).bagCheck.accepted } } = m := by
      rw [hm, awaitedAs_some ha he, overridden_awaited hbag, accepted_eq]
      rfl
    have hentry := entryAt_set he (congrArg Lane.entries hm)
    have hstate' : (s.lane l).bagCheck.state = .awaitingPlace ∨ (s.lane l).bagCheck.state = .awaitingRemoval ∨
        (s.lane l).bagCheck.state = .held ∨ (s.lane l).bagCheck.state = .unexpected :=
      hstate.imp_right (Or.imp_right Or.inl)
    rw [exec_bagOverride_settles h tag hauth hstate' hn, ha]
    simp only [overrideDetail, bagEventPayload, Option.getD_some, hentry]
    subst hm
    rfl
  · intro s l tag h hauth hstate ha n b w
    have hn : { (s.lane l).awaitedAs overridden with
        bagCheck := { (s.lane l).bagCheck.drop.enter .settled with b := (s.lane l).bagCheck.accepted } } =
        { n with bagCheck := { b.drop.enter .settled with b := w } } := by
      rw [awaitedAs_none ha, accepted_eq]
    rw [exec_bagOverride_settles h tag hauth (.inr (.inr (.inr hstate))) hn, ha]
    rfl
  · intro s l tag k e h hauth hstate ha he hbag n b after
    obtain ⟨m, hm⟩ : ∃ m : Lane, m = { n with
        entries := n.entries.set k { e with bag := after }
        bagCheck := { b with awaiting := none, e := none, a := 0, placement := none, removal := none } } := ⟨_, rfl⟩
    have hn : s.taken.bagOverridden l = s.taken.setLane l m := by
      have haw : (s.taken.lane l).awaitedAs overridden = _ := awaitedAs_some (n := s.lane l) ha he overridden
      rw [bagOverridden_kept (s := s.taken) hstate, haw, overridden_awaited hbag, hm]
      rfl
    have hentry := entryAt_set he (congrArg Lane.entries hm)
    have hheld : ¬ ((s.lane l).bagCheck.state = .suspended ∨ (s.lane l).bagCheck.state = .settled ∨
        (((s.lane l).bagCheck.state = .faulted ∨ (s.lane l).bagCheck.state = .arming) ∧
          (s.lane l).bagCheck.awaiting = none)) := by obtain hs | hs := hstate <;> simp [hs, ha]
    rw [exec_bagOverride_accepted h tag (action := fun x => x.setLane l m) (n := m) hauth hheld hn
      ⟨m.attention, lane_setLane_same ..⟩, ha]
    simp only [overrideDetail, Option.getD_some, hentry]
    subst hm
    rfl
  · intro s l k e h ha he n b held
    have hheld : s.bagHold l (s.lane l).bagCheck.b none = held := by
      rw [bagHold_eq, ha]
      dsimp only [Option.getD_some]
      rw [bagEventPayload_entry l _ _ (by exact he)]
      rfl
    refine ⟨fun hp => ?_, fun hr => ?_⟩
    · change Host.Outcome.next (s.onLane l fun x => x.placementExpires l) = _
      rw [onLane_runs h, State.placementExpires, if_pos (by exact hp), hheld]
    · change Host.Outcome.next (s.onLane l fun x => x.removalExpires l) = _
      rw [onLane_runs h, State.removalExpires, if_pos (by exact hr), hheld]

end Sys2Proof.Machine
end

