-- ==== Sys2Proof/Proofs/BagReadings.lean ====
section
/-! Bag readings (R67 to R76): what each state of the bag check makes of a reading, and the obligation. -/

namespace Sys2Proof.Machine

/-! ## A reading is recorded (R67) -/

/-- The bag check with a stable gross recorded (R67). -/
abbrev BagCheck.seen (b : BagCheck) (g : Int) : BagCheck :=
  { b with latestGross := some g, latestStable := some g, previousGross := some g }

/-- The lane with a stable gross recorded (R67). -/
abbrev Lane.seen (n : Lane) (g : Int) : Lane := { n with bagCheck := n.bagCheck.seen g }

/-- What recording writes: the previous gross always, the latest ones unless the bag check is blind (R67). -/
theorem BagCheck.record_eq (x : BagCheck) (g : Int) (stable : Bool) :
    let blind := x.state = .suspended ∨ x.state = .faulted
    x.record g stable = { x with
      previousGross := some g
      latestGross := if blind then x.latestGross else some g
      latestStable := if blind ∨ stable = false then x.latestStable else some g } := by
  intro blind
  unfold BagCheck.record
  simp only [Bool.or_eq_true, beq_iff_eq]
  by_cases hblind : x.state = .suspended ∨ x.state = .faulted
  · simp only [blind, hblind, true_or, if_true]
  · cases stable <;> simp [blind, hblind]

/-- A stable reading that the bag check sees is recorded, then judged by the state (R67). -/
theorem bagReading_seen {s : State} {l : LaneId}
    (h : (s.lane l).bagCheck.state ≠ .suspended ∧ (s.lane l).bagCheck.state ≠ .faulted) (g : Int) :
    s.bagReading l g true = (s.setLane l ((s.lane l).seen g)).bagStable l g := by
  obtain ⟨hs, hf⟩ := h
  simp only [State.bagReading, BagCheck.record, beq_iff_eq, Bool.or_eq_true, hs, hf, or_self, if_false, if_true]
  rfl

/-- A reading that moves nothing is recorded (R67). -/
theorem bagReading_recorded (s : State) (l : LaneId) (g : Int) (stable : Bool)
    (h : stable = false ∨ (s.lane l).bagCheck.state = .suspended ∨ (s.lane l).bagCheck.state = .held ∨
      (s.lane l).bagCheck.state = .faulted) :
    s.bagReading l g stable = s.setBag l ((s.lane l).bagCheck.record g stable) := by
  have hstate : ((s.lane l).bagCheck.record g stable).state = (s.lane l).bagCheck.state := by
    unfold BagCheck.record
    split <;> rfl
  unfold State.bagReading
  dsimp only
  split
  · rename_i hstable
    have hmoves := h.resolve_left (by simp [hstable])
    unfold State.bagStable
    rw [setBag_eq, lane_setLane_same]
    dsimp only
    rw [hstate]
    obtain hs | hs | hs := hmoves <;> rw [hs]
  · rfl

/-- A BAG_EVENT that concerns no entry ends in two zero octets (R83, log 16). -/
theorem bagEventPayload_no_entry (l : LaneId) (ev : BagEvent) (d : Option Int) {n : Lane} {c : BagCheckState} {w : Int}
    (hc : n.bagCheck.state = c) (hw : n.bagCheck.b = some w) :
    bagEventPayload l ev n d 0 =
      [laneAddr l, ev.value, c.value] ++ optional 4 (some (beInt 4 w)) ++ optional 4 (d.map (beInt 4)) ++ [0, 0] := by
  unfold bagEventPayload
  rw [hc, hw]
  rfl

/-! ## Stable readings by the state (R68 to R76) -/

section
variable {s : State} {l : LaneId} {g : Int}

/-- The first stable reading in ARMING (R68). -/
theorem bagReading_arming (hs : (s.lane l).bagCheck.state = .arming) :
    let n := s.lane l
    let b := n.bagCheck
    let d := b.b.map (g - ·)
    s.bagReading l g true =
      match b.awaiting with
      | none =>
        let m := { n with bagCheck := { (b.seen g).enter .settled with b := some g } }
        (s.setLane l m).offerLane l 0x84 (bagEventPayload l .armed m d 0)
      | some pos =>
        let m := { n with bagCheck := { (b.seen g).enter .held with b := some g } }
        ((s.setLane l m).offerLane l 0x84 (bagEventPayload l .held m d pos)).raiseLane l .bagHeld := by
  intro n b d
  have stable : (s.setLane l (n.seen g)).bagStable l g = (s.setLane l (n.seen g)).bagArmed l g := by
    simp only [State.bagStable, lane_setLane_same, Lane.seen, hs, n]
  rw [bagReading_seen (by simp [hs]), stable]
  unfold State.bagArmed
  simp only [lane_setLane_same]
  cases ha : (s.lane l).bagCheck.awaiting with
  | none =>
    simp only [setBag_eq, lane_setLane_same, setLane_setLane, offerBag_setLane]
    rfl
  | some pos =>
    simp only [bagHold_eq, lane_setLane_same, setLane_setLane]
    simp only [b, n, ha]
    rfl

/-- A stable reading in SETTLED (R69). -/
theorem bagReading_settled {w : Int} (hs : (s.lane l).bagCheck.state = .settled) (hw : (s.lane l).bagCheck.b = some w) :
    let n := s.lane l
    let b := n.bagCheck
    let d := g - w
    let base : Int := (s.laneSettings l).baseTolerance
    let absorbed := { n with bagCheck := { b.seen g with b := some g } }
    let found := { n with bagCheck := (b.seen g).enter .unexpected }
    s.bagReading l g true =
      if |d| ≤ base then s.setLane l absorbed
      else if d < -base ∧ n.basketState = .empty then
        (s.setLane l absorbed).offerLane l 0x84 (bagEventPayload l .takenAway absorbed (some d) 0)
      else ((s.setLane l found).offerLane l 0x84 (bagEventPayload l .unexpected found (some d) 0)).raiseLane l
        .unexpectedWeight := by
  intro n b d base absorbed found
  have stable : (s.setLane l (n.seen g)).bagStable l g = (s.setLane l (n.seen g)).bagSettled l g := by
    simp only [State.bagStable, lane_setLane_same, Lane.seen, hs, n]
  rw [bagReading_seen (by simp [hs]), stable]
  have hd : (s.lane l).bagCheck.b.getD 0 = w := by rw [hw, Option.getD_some]
  unfold State.bagSettled
  simp only [lane_setLane_same, setBag_eq, setLane_setLane, offerBag_setLane, Lane.seen, hd, n]
  rfl

/-- A stable reading in UNEXPECTED (R70). -/
theorem bagReading_unexpected {w : Int} (hs : (s.lane l).bagCheck.state = .unexpected) (hw : (s.lane l).bagCheck.b = some w) :
    let n := s.lane l
    let b := n.bagCheck
    let d := g - w
    let restored := { n with bagCheck := (b.seen g).enter .settled }
    s.bagReading l g true =
      if |d| ≤ ((s.laneSettings l).baseTolerance : Int) then
        (s.setLane l restored).offerLane l 0x84 (bagEventPayload l .restored restored (some d) 0)
      else s.setLane l { n with bagCheck := b.seen g } := by
  intro n b d restored
  have stable : (s.setLane l (n.seen g)).bagStable l g = (s.setLane l (n.seen g)).bagUnexpected l g := by
    simp only [State.bagStable, lane_setLane_same, Lane.seen, hs, n]
  rw [bagReading_seen (by simp [hs]), stable]
  have hd : (s.lane l).bagCheck.b.getD 0 = w := by rw [hw, Option.getD_some]
  unfold State.bagUnexpected
  simp only [lane_setLane_same, setBag_eq, setLane_setLane, offerBag_setLane, Lane.seen, hd, n]
  rfl

/-- A match of the expected weight, as the statements write it (R72, R74). -/
abbrev Lane.matches (n : Lane) (m : Int) : Bool :=
  match n.bagCheck.e with
  | some x => decide (|m - x| ≤ n.bagCheck.a)
  | none => (n.bag.calib.map fun c => decide (((5 * c.d1 : Nat) : Int) ≤ m)).getD false

theorem bagMatches_eq (n : Lane) (m : Int) : bagMatches n.bagCheck n.bag m = n.matches m := by
  unfold bagMatches Lane.matches
  cases n.bagCheck.e with
  | some x => rfl
  | none => cases n.bag.calib <;> rfl

/-- A stable reading judged by an expectation whose awaiting entry is known (R72, R74). -/
theorem bagExpecting_eq {k : Nat} {e : Entry} (ha : (s.lane l).bagCheck.awaiting = some (k + 1))
    (he : (s.lane l).entries[k]? = some e) (m : Int) (after : BagState) (ev : BagEvent) :
    let n := s.lane l
    let b := n.bagCheck
    let d := g - b.b.getD 0
    let matched := { n with
      entries := n.entries.set k { e with bag := after }
      bagCheck := { b.drop.enter .settled with b := some g } }
    let wrong := { n with bagCheck := { b with excursion := true } }
    s.bagExpecting l g m after ev =
      if n.matches m then
        (s.setLane l matched).offerLane l 0x84 (bagEventPayload l ev matched (some d) (k + 1))
      else if |d| ≤ ((s.laneSettings l).baseTolerance : Int) then
        s.setLane l { n with bagCheck := { b with excursion := false } }
      else if b.excursion then s
      else ((s.setLane l wrong).offerLane l 0x84 (bagEventPayload l .wrongWeight wrong (some d) (k + 1))).raiseLane l
        .wrongWeight := by
  intro n b d matched wrong
  have hpos : (s.lane l).bagCheck.awaiting.getD 0 = k + 1 := by rw [ha, Option.getD_some]
  unfold State.bagExpecting
  simp only [bagMatches_eq, hpos, modLane_eq, setBag_eq, offerBag_setLane, Lane.setEntryBag, Nat.add_sub_cancel,
    modify_of_getElem? he]
  rfl

/-- A stable reading in AWAITING_PLACE or AWAITING_REMOVAL, recorded and judged (R67, R72, R74). -/
theorem bagReading_expecting {k : Nat} {e : Entry} {w : Int} (ha : (s.lane l).bagCheck.awaiting = some (k + 1))
    (he : (s.lane l).entries[k]? = some e) (hw : (s.lane l).bagCheck.b = some w) (m : Int) (after : BagState)
    (ev : BagEvent)
    (hs : (s.lane l).bagCheck.state ≠ .suspended ∧ (s.lane l).bagCheck.state ≠ .faulted)
    (hx : (s.setLane l ((s.lane l).seen g)).bagStable l g = (s.setLane l ((s.lane l).seen g)).bagExpecting l g m after ev) :
    let n := s.lane l
    let b := n.bagCheck
    let d := g - w
    s.bagReading l g true =
      if n.matches m then
        (s.setLane l { n with
          entries := n.entries.set k { e with bag := after }
          bagCheck := { (b.seen g).drop.enter .settled with b := some g } }).offerLane l 0x84
          ([laneAddr l, ev.value, 2] ++ optional 4 (some (beInt 4 g)) ++ optional 4 (some (beInt 4 d)) ++
            [octet (k + 1), after.value])
      else if |d| ≤ ((s.laneSettings l).baseTolerance : Int) then
        s.setLane l { n with bagCheck := { b.seen g with excursion := false } }
      else if b.excursion then s.setLane l (n.seen g)
      else ((s.setLane l { n with bagCheck := { b.seen g with excursion := true } }).offerLane l 0x84
        ([laneAddr l, 3, b.state.value] ++ optional 4 (some (beInt 4 w)) ++ optional 4 (some (beInt 4 d)) ++
          [octet (k + 1), e.bag.value])).raiseLane l .wrongWeight := by
  intro n b d
  rw [bagReading_seen hs, hx, bagExpecting_eq (s := s.setLane l ((s.lane l).seen g)) (by rw [lane_setLane_same]; exact ha)
    (by rw [lane_setLane_same]; exact he)]
  have hset : ((s.lane l).entries.set k { e with bag := after })[k]? = some { e with bag := after } :=
    List.getElem?_set_self (List.getElem?_eq_some_iff.mp he).1
  simp only [lane_setLane_same, setLane_setLane]
  rw [bagEventPayload_entry l ev _ (by exact hset), bagEventPayload_entry l .wrongWeight _ (by exact he)]
  have hd : (s.lane l).bagCheck.b.getD 0 = w := by rw [hw, Option.getD_some]
  have hb : (s.lane l).bagCheck.b.map (beInt 4) = some (beInt 4 w) := by rw [hw, Option.map_some]
  simp only [Lane.seen, hd, hb]
  rfl

end

/-- Settles O51: a reading is recorded first, and a stable one is judged by the state it finds. -/
theorem bagReadingsMoveTheBagCheck : Obligations.BagReadingsMoveTheBagCheck := by
  unfold Obligations.BagReadingsMoveTheBagCheck
  refine ⟨?_, ?_, ?_, ?_, ?_, ?_, ?_⟩
  · intro s l raw k h hr hcr hk hl
    obtain ⟨hcause, hret⟩ := hcr
    have hs : s.sample l .bag raw.toNat = s.evaluate l .bag raw.toNat := by simp only [State.sample, hr]
    rw [exec_sampleArrival h, hs, evaluate_running s l .bag k _ hr hk,
      ← Channel.evaluated_silence _ k _ hr hcause hret, Channel.evaluated_eq _ k raw hl]
    rfl
  · intro s l g stable hstill n b blind
    rw [bagReading_recorded s l g stable hstill, setBag_eq, BagCheck.record_eq]
  · intro s l g hs n b
    have hd : (b.b.map (g - ·)).map (beInt 4) = b.b.map fun w => beInt 4 (g - w) := Option.map_map ..
    rw [bagReading_arming hs]
    simp only [bagEventPayload, ← hd]
    rfl
  · intro s l g w hs hw n b d base
    rw [bagReading_settled hs hw]
    dsimp only
    rw [bagEventPayload_no_entry l .takenAway _ (by exact hs) (w := g) rfl,
      bagEventPayload_no_entry l .unexpected _ rfl (by exact hw)]
    rfl
  · intro s l g w hs hw n b d base
    rw [bagReading_unexpected hs hw]
    rw [bagEventPayload_no_entry l .restored _ rfl (by exact hw)]
    rfl
  · intro s l g w k e hs hw ha he n b d base m isMatch
    have moved : (s.setLane l ((s.lane l).seen g)).bagStable l g =
        (s.setLane l ((s.lane l).seen g)).bagExpecting l g d .placed .placed := by
      simp only [State.bagStable, lane_setLane_same, Lane.seen, hs, hw]
      rfl
    rw [bagReading_expecting ha he hw d .placed .placed (by simp [hs]) moved]
    rfl
  · intro s l g w k e hs hw ha he n b d base m isMatch
    have moved : (s.setLane l ((s.lane l).seen g)).bagStable l g =
        (s.setLane l ((s.lane l).seen g)).bagExpecting l g (-d) .removed .removed := by
      simp only [State.bagStable, lane_setLane_same, Lane.seen, hs, hw]
      rfl
    rw [bagReading_expecting ha he hw (-d) .removed .removed (by simp [hs]) moved]
    rfl

end Sys2Proof.Machine
end

