-- ==== Sys2Proof/Proofs/RangeRequests.lean ====
section
/-! BIN_REMOVE and BIN_CLEAR (R91, R93), and the obligation. -/

namespace Sys2Proof.Machine

theorem exec_binRemove {s : State} (h : s.ServesPart) (tag : Byte) (low : BitVec 32) :
    exec (.binRemove tag low) s =
      .next (settle (requestFrame 15 .binRemove tag (be 4 low.toNat)) s.upstream.length (takeBinRemove low s.taken)) := by
  refine exec_part .binRemove tag _ h.1 (.inl h.2) rfl rfl rfl (by simp [ReqKind.lengthOk]) ?_ rfl ?_
  · simp [requestOf, requestFrame, ofNat_fieldAt_be_last]
  · exact receiveBuffer_ite rfl (receiveBuffer_ite rfl rfl)

theorem exec_binClear {s : State} (h : s.ServesPart) (tag : Byte) :
    exec (.binClear tag) s = .next (settle (requestFrame 15 .binClear tag []) s.upstream.length (takeBinClear s.taken)) :=
  exec_part .binClear tag _ h.1 (.inl h.2) rfl rfl rfl rfl rfl rfl rfl

/-- No held range starts at a value (R93). -/
theorem not_any_low (ranges : List CardRange) (p : Nat) :
    (!ranges.any fun r => r.low == p) = true ↔ ∀ r ∈ ranges, r.low ≠ p := by
  simp

/-- Settles O33. -/
theorem rangeRemovalIsExact : Obligations.RangeRemovalIsExact := by
  refine ⟨fun s tag low h => ?_, fun s tag h => exec_binClear h tag⟩
  dsimp only
  rw [exec_binRemove h, takeBinRemove]
  dsimp only
  congr 1
  simp only [maxPrefix, not_any_low]
  split_ifs with hlow hnone hnone' hnone'
  · rfl
  · rfl
  · exact absurd hnone hnone'
  · exact absurd hnone' hnone
  · rfl

end Sys2Proof.Machine
end

