-- ==== Sys2Proof/Proofs/SwipeAssembly.lean ====
section
/-! READER_CHARACTER and GAP_TIMER_EXPIRY (R84 to R90, R102): how a swipe is assembled and judged, its grammar, and the
obligation. -/

namespace Sys2Proof.Machine

/-! ## The grammar (R90) -/

/-- A swipe stands between the sentinels (R90). -/
theorem parseSwipe_iff (l : List (BitVec 4)) (w : Swipe) :
    parseSwipe l = some w ↔ ∃ mid, l = 11 :: mid ++ [15] ∧ parseBody mid = some w := by
  constructor
  · intro h
    unfold parseSwipe at h
    split at h
    · rename_i hends
      simp only [Bool.and_eq_true, beq_iff_eq] at hends
      obtain ⟨hhead, hlast⟩ := hends
      obtain ⟨rest, rfl⟩ := List.head?_eq_some_iff.mp hhead
      cases rest using List.reverseRecOn with
      | nil => exact absurd hlast (by decide)
      | append_singleton mid c =>
        rw [← List.cons_append, List.getLast?_concat, Option.some.injEq] at hlast
        refine ⟨mid, by rw [hlast]; rfl, ?_⟩
        simpa using h
    · cases h
  · rintro ⟨mid, rfl, h⟩
    simpa [parseSwipe, List.getLast?_cons] using h

/-- The grammar of what stands between the sentinels, at its separator (R90). -/
theorem parseBody_separated {a tail : List (BitVec 4)} (ha : ∀ x ∈ a, isDigit x = true) :
    parseBody (a ++ 13 :: tail) =
      if tail.all isDigit && decide (12 ≤ a.length) && decide (a.length ≤ 19) && decide (7 ≤ tail.length) &&
          decide (1 ≤ digitsValue (((tail.map (·.toNat)).drop 2).take 2)) &&
          decide (digitsValue (((tail.map (·.toNat)).drop 2).take 2) ≤ 12) then
        some { account := a.map (·.toNat), year := digitsValue ((tail.map (·.toNat)).take 2),
               month := digitsValue (((tail.map (·.toNat)).drop 2).take 2),
               service := ((tail.map (·.toNat)).drop 4).take 3, discretionary := (tail.map (·.toNat)).drop 7 }
      else none := by
  have hsep : ¬ isDigit 13 = true := by decide
  have htake : (a ++ 13 :: tail).takeWhile isDigit = a := by
    rw [List.takeWhile_append_of_pos ha, List.takeWhile_cons_of_neg hsep, List.append_nil]
  have hdrop : (a ++ 13 :: tail).dropWhile isDigit = 13 :: tail := by
    rw [List.dropWhile_append_of_pos ha, List.dropWhile_cons_of_neg hsep]
  simp only [parseBody, htake, hdrop, beq_self_eq_true, Bool.true_and]

/-- A body that the grammar takes has a separator behind its digits (R90). -/
theorem parseBody_separator {mid : List (BitVec 4)} {w : Swipe} (h : parseBody mid = some w) :
    ∃ a tail, mid = a ++ 13 :: tail ∧ ∀ x ∈ a, isDigit x = true := by
  unfold parseBody at h
  dsimp only at h
  split at h
  · cases h
  · rename_i sep tail hdrop
    split at h
    · rename_i htests
      simp only [Bool.and_eq_true, beq_iff_eq] at htests
      obtain ⟨⟨⟨⟨⟨⟨rfl, -⟩, -⟩, -⟩, -⟩, -⟩, -⟩ := htests
      exact ⟨mid.takeWhile isDigit, tail, by rw [← hdrop, List.takeWhile_append_dropWhile],
        fun x hx => List.mem_takeWhile_imp hx⟩
    · cases h

theorem isDigit_iff (v : BitVec 4) : isDigit v = true ↔ v.toNat ≤ 9 := by simp [isDigit]

/-- What stands behind the separator: a date, a service code, discretionary data (R90). -/
theorem exists_fields {tail : List (BitVec 4)} (h : 7 ≤ tail.length) :
    ∃ y₁ y₂ m₁ m₂ s₁ s₂ s₃ disc, tail = [y₁, y₂, m₁, m₂] ++ [s₁, s₂, s₃] ++ disc := by
  match tail, h with
  | y₁ :: y₂ :: m₁ :: m₂ :: s₁ :: s₂ :: s₃ :: disc, _ => exact ⟨y₁, y₂, m₁, m₂, s₁, s₂, s₃, disc, rfl⟩

/-- Two digits spell a number, and are its quotient and its rest by ten. -/
theorem digitsValue_pair {a b n : Nat} (hb : b ≤ 9) : digitsValue [a, b] = n ↔ a = n / 10 ∧ b = n % 10 := by
  simp only [digitsValue, List.foldl_cons, List.foldl_nil]
  omega

/-- The grammar of R90, on what stands between the sentinels. -/
theorem parseBody_iff (mid : List (BitVec 4)) (w : Swipe) :
    parseBody mid = some w ↔ ∃ a date service disc : List (BitVec 4), mid = a ++ 13 :: (date ++ service ++ disc) ∧
      (∀ x ∈ a ++ date ++ service ++ disc, x.toNat ≤ 9) ∧ 12 ≤ a.length ∧ a.length ≤ 19 ∧ date.length = 4 ∧
        service.length = 3 ∧
      1 ≤ w.month ∧ w.month ≤ 12 ∧ w.account = a.map (·.toNat) ∧ w.service = service.map (·.toNat) ∧
        w.discretionary = disc.map (·.toNat) ∧
      date.map (·.toNat) = [w.year / 10, w.year % 10, w.month / 10, w.month % 10] := by
  constructor
  · intro h
    obtain ⟨a, tail, rfl, ha⟩ := parseBody_separator h
    rw [parseBody_separated ha] at h
    split at h
    · rename_i htests
      obtain rfl := Option.some.inj h
      simp only [Bool.and_eq_true, decide_eq_true_eq, List.all_eq_true] at htests
      obtain ⟨⟨⟨⟨⟨hdigits, hmin⟩, hmax⟩, hlen⟩, hmonth⟩, hmonth'⟩ := htests
      obtain ⟨y₁, y₂, m₁, m₂, s₁, s₂, s₃, disc, rfl⟩ := exists_fields hlen
      have hy : y₂.toNat ≤ 9 := (isDigit_iff _).mp (hdigits y₂ (by simp))
      have hm : m₂.toNat ≤ 9 := (isDigit_iff _).mp (hdigits m₂ (by simp))
      obtain ⟨hy₁, hy₂⟩ := (digitsValue_pair (a := y₁.toNat) hy).mp rfl
      obtain ⟨hm₁, hm₂⟩ := (digitsValue_pair (a := m₁.toNat) hm).mp rfl
      refine ⟨a, [y₁, y₂, m₁, m₂], [s₁, s₂, s₃], disc, rfl, fun x hx => (isDigit_iff x).mp ?_, hmin, hmax, rfl, rfl, hmonth,
        hmonth', rfl, rfl, rfl, ?_⟩
      · rw [List.append_assoc, List.append_assoc, ← List.append_assoc [y₁, y₂, m₁, m₂], List.mem_append] at hx
        exact hx.elim (ha x) (hdigits x)
      · exact List.cons_eq_cons.mpr ⟨hy₁, List.cons_eq_cons.mpr ⟨hy₂, List.cons_eq_cons.mpr ⟨hm₁,
          List.cons_eq_cons.mpr ⟨hm₂, rfl⟩⟩⟩⟩
    · cases h
  · rintro ⟨a, date, service, disc, rfl, hdigits, hmin, hmax, hdate, hservice, hmonth, hmonth', hacc, hserv, hdisc, hd⟩
    match date, hdate with
    | [y₁, y₂, m₁, m₂], _ =>
    match service, hservice with
    | [s₁, s₂, s₃], _ =>
    simp only [List.map_cons, List.map_nil, List.cons.injEq, and_true] at hd
    obtain ⟨hy₁, hy₂, hm₁, hm₂⟩ := hd
    have hyear : digitsValue [y₁.toNat, y₂.toNat] = w.year :=
      (digitsValue_pair (hdigits y₂ (by simp))).mpr ⟨hy₁, hy₂⟩
    have hmon : digitsValue [m₁.toNat, m₂.toNat] = w.month :=
      (digitsValue_pair (hdigits m₂ (by simp))).mpr ⟨hm₁, hm₂⟩
    have ha : ∀ x ∈ a, isDigit x = true := fun x hx => (isDigit_iff x).mpr (hdigits x (by simp [hx]))
    have htail : ([y₁, y₂, m₁, m₂] ++ [s₁, s₂, s₃] ++ disc).all isDigit = true :=
      List.all_eq_true.mpr fun x hx => (isDigit_iff x).mpr (hdigits x (by
        rw [List.append_assoc, List.append_assoc, ← List.append_assoc [y₁, y₂, m₁, m₂]]
        exact List.mem_append_right a hx))
    rw [parseBody_separated ha, if_pos]
    · obtain ⟨account, year, month, serv, discretionary⟩ := w
      dsimp only at hacc hserv hdisc hyear hmon
      subst hacc hserv hdisc hyear hmon
      rfl
    · simp only [Bool.and_eq_true, decide_eq_true_eq]
      refine ⟨⟨⟨⟨⟨htail, hmin⟩, hmax⟩, by simp⟩, ?_⟩, ?_⟩
      · exact hmonth.trans_eq hmon.symm
      · exact hmon.trans_le hmonth'

/-! ## Assembly (R85 to R89) -/

/-- The parity test counts the one-bits of the value and the parity bit (R85). -/
theorem oddParity_eq_bodd (v : BitVec 4) (p : Bool) :
    Nat.bodd ((if v.getLsbD 0 then 1 else 0) + (if v.getLsbD 1 then 1 else 0) + (if v.getLsbD 2 then 1 else 0) +
      (if v.getLsbD 3 then 1 else 0) + (if p then 1 else 0)) = oddParity v p := by
  have bit (b : Bool) : Nat.bodd (if b then 1 else 0) = b := by cases b <;> rfl
  simp only [Nat.bodd_add, bit, oddParity, Bool.xor_assoc]

theorem exec_readerCharacter {s : State} {l : LaneId} (h : s.Runs l) (v : BitVec 4) (p : Bool) :
    exec (.readerCharacter l v p) s = .next (s.readerChar l v p) :=
  congrArg _ (onLane_runs h _)

theorem exec_gapTimerExpiry {s : State} {l : LaneId} (h : s.Runs l) : exec (.gapTimerExpiry l) s = .next (s.gapExpires l) :=
  congrArg _ (onLane_runs h _)

/-- The state after a swipe that ends before its classification, as the statements write it (R86, R102). -/
def State.refusedBefore (s : State) (l : LaneId) (why : CardReason) : State :=
  (s.setLane l { s.lane l with card := { (s.lane l).card.hunt with
    lastSwipe := some ⟨.refused, why, .noClass, none, 0, 0, .hiddenAll⟩ } }).offerLane l 0x85
    ([3, why.value, 0, 0] ++ List.replicate 8 0 ++ accountBlock .hiddenAll)

/-- The CARD_EVENT of a swipe that ends before its classification (R102, R192; log 12). -/
theorem cardEventPayload_refusedBefore (why : CardReason) :
    cardEventPayload (refusedSwipe why .noClass .hiddenAll) =
      [3, why.value, 0, 0] ++ List.replicate 8 0 ++ accountBlock .hiddenAll := by
  have hzero : be 4 0 = List.replicate 4 0 := by decide
  rw [cardEventPayload, List.append_assoc _ (be 4 _)]
  simp only [refusedSwipe, hzero]
  rfl

/-- A swipe that ends before its classification empties the buffer, and shows nothing of the account (R86, R102). -/
theorem refuseSwipe_hunt (s : State) (l : LaneId) (why : CardReason) :
    (s.setCard l (s.lane l).card.hunt).refuseSwipe l why = s.refusedBefore l why := by
  simp only [State.refuseSwipe, State.reportSwipe, setCard_eq, modLane_eq, lane_setLane_same, setLane_setLane]
  rw [cardEventPayload_refusedBefore]
  rfl

/-- A completed swipe is judged by parity, longitudinal check and grammar, in that order (R89, R90). -/
theorem judge_hunt (s : State) (l : LaneId) (body : List (BitVec 4)) (v : BitVec 4) (bad : Bool) :
    (s.setCard l (s.lane l).card.hunt).judge l body v bad =
      if bad = true then s.refusedBefore l .badParity
      else if longitudinal body ≠ v then s.refusedBefore l .badLrc
      else match parseSwipe body with
        | none => s.refusedBefore l .badFormat
        | some w => (s.setCard l (s.lane l).card.hunt).classify l w := by
  simp only [State.judge, refuseSwipe_hunt, bne_iff_ne] <;> rfl

/-- Settles O53: each character by the state of the assembly, each end by its refusal, and the grammar by its parts. -/
theorem swipesAreAssembledAndJudged : Obligations.SwipesAreAssembledAndJudged := by
  have wrong (v : BitVec 4) (p : Bool) : decide (oddParity v p = false) = !oddParity v p := by cases oddParity v p <;> rfl
  unfold Obligations.SwipesAreAssembledAndJudged
  simp only [oddParity_eq_bodd, wrong]
  refine ⟨?_, ?_, ?_, ?_, ?_, ?_⟩
  · intro s l v p h hidle
    rw [exec_readerCharacter h, State.readerChar]
    simp only [hidle]
    rfl
  · intro s l v p h hon hfull
    rw [exec_readerCharacter h, State.readerChar]
    simp only [hon, swipeLimit, hfull, refuseSwipe_hunt]
    rfl
  · intro s l v p h hon hroom hlast
    rw [exec_readerCharacter h, State.readerChar]
    have hlast' : ((s.lane l).card.buffer.getLast? == some 15) = false := by simpa using hlast
    simp only [hon, swipeLimit, Nat.not_le.mpr hroom, hlast']
    rfl
  · intro s l v p h hon hroom hlast
    rw [exec_readerCharacter h, State.readerChar]
    simp only [hon, swipeLimit, Nat.not_le.mpr hroom, hlast, beq_self_eq_true, judge_hunt, Bool.or_eq_true,
      Bool.not_eq_true']
    rfl
  · intro s l h hgap
    rw [exec_gapTimerExpiry h, State.gapExpires]
    simp only [hgap, refuseSwipe_hunt]
    rfl
  · intro b w
    rw [parseSwipe_iff]
    constructor
    · rintro ⟨mid, rfl, hbody⟩
      obtain ⟨a, date, service, disc, rfl, hfields⟩ := (parseBody_iff mid w).mp hbody
      exact ⟨a, date, service, disc, rfl, hfields⟩
    · rintro ⟨a, date, service, disc, rfl, hfields⟩
      exact ⟨_, rfl, (parseBody_iff _ w).mpr ⟨a, date, service, disc, rfl, hfields⟩⟩

end Sys2Proof.Machine
end

