-- ==== Sys2Proof/Proofs/SwipeClasses.lean ====
section
/-! The classification of a swipe (R91, R94 to R102): its tests in their order, the class rules, the check digit, the masked
form, and the obligation. -/

namespace Sys2Proof.Machine

/-! ## The check digit and the masked form (R96, R99) -/

/-- What a digit adds to the check sum when it is doubled (R96). -/
abbrev doubledDigit (d : Nat) : Nat := if 9 < 2 * d then 2 * d - 9 else 2 * d

/-- The check sum doubles every second digit; `k` counts the digits already passed (R96). -/
theorem checkSum_eq (k : Nat) (l : List Nat) :
    checkSum (decide (k % 2 = 1)) l = (l.mapIdx fun i d => if (i + k) % 2 = 0 then d else doubledDigit d).sum := by
  induction l generalizing k with
  | nil => cases decide (k % 2 = 1) <;> rfl
  | cons d l ih =>
    have hnext := ih (k + 1)
    have shift : (fun i d => if (i + 1 + k) % 2 = 0 then d else doubledDigit d) =
        fun i d => if (i + (k + 1)) % 2 = 0 then d else doubledDigit d := by
      funext i d
      rw [Nat.add_assoc, Nat.add_comm 1 k]
    rw [List.mapIdx_cons, List.sum_cons, shift, ← hnext, Nat.zero_add]
    obtain hk | hk := Nat.mod_two_eq_zero_or_one k
    · have hk' : (k + 1) % 2 = 1 := by omega
      simp [hk, hk', checkSum]
    · have hk' : (k + 1) % 2 = 0 := by omega
      simp [hk, hk', checkSum]

theorem maskAccount_lead_length (account : List Nat) (r : CardRange) :
    (maskAccount account r).lead.length = min (min r.keepFirst (account.length - r.keepLast - 3)) account.length :=
  List.length_take

/-- The lead is the first digits of the account (R99). -/
theorem maskAccount_lead (account : List Nat) (r : CardRange) :
    (maskAccount account r).lead = account.take (maskAccount account r).lead.length := by
  rw [maskAccount_lead_length, ← List.take_eq_take_min]
  rfl

/-- A range covers the prefixes from its low to its high (R91). -/
theorem covers_eq (r : CardRange) (p : Nat) : r.covers p = decide (r.low ≤ p ∧ p ≤ r.high) := (Bool.decide_and _ _).symm

/-! ## The classification (R94) -/

section
variable {s : State} {w : Swipe} {r : CardRange}

/-- No range covers the account (R94 step 1). -/
theorem classify_uncovered (l : LaneId) (h : s.rangeFor (prefixOf w.account) = none) :
    s.classify l w = s.reportSwipe l (refusedSwipe .noRange .noClass (.lengthOnly w.account.length)) := by
  rw [State.classify, h]

/-- A BLOCKED range (R94 step 2). -/
theorem classify_blocked (l : LaneId) (h : s.rangeFor (prefixOf w.account) = some r) (hc : r.cardClass = .blocked) :
    s.classify l w = s.reportSwipe l (refusedSwipe .blocked .blocked (.masked (maskAccount w.account r))) := by
  rw [State.classify, h]
  simp only [hc, if_true, accountView]

/-- A payment swipe while the slot is occupied (R95). -/
theorem classify_second {l : LaneId} {x : Slot} (h : s.rangeFor (prefixOf w.account) = some r) (hc : r.cardClass = .payment)
    (hx : (s.lane l).card.slot = some x) : s.classify l w = s.secondSwipe l x := by
  rw [State.classify, h]
  simp only [hc, hx, reduceCtorEq, if_false]

/-- Any other swipe goes on to the check digit (R94 step 3). -/
theorem classify_checked {l : LaneId} (h : s.rangeFor (prefixOf w.account) = some r) (hb : r.cardClass ≠ .blocked)
    (hp : r.cardClass = .payment → (s.lane l).card.slot = none) : s.classify l w = s.checkDigitStep l w r := by
  rw [State.classify, h]
  dsimp only
  rw [if_neg hb]
  cases hc : r.cardClass with
  | payment => simp only [hp hc]
  | loyalty => rfl
  | staff => rfl
  | blocked => rfl
  | noClass => rfl

/-- A LOYALTY swipe from the check digit on (R94, R100). -/
theorem checkDigitStep_loyalty (l : LaneId) (hc : r.cardClass = .loyalty) :
    s.checkDigitStep l w r =
      if r.checkDigit = true ∧ checkDigitOk w.account = false then
        s.reportSwipe l (refusedSwipe .checkDigit .loyalty (.full w.account))
      else s.loyaltySwipe l w := by
  simp only [State.checkDigitStep, State.classRule, accountView, hc, Bool.and_eq_true, Bool.not_eq_true']

/-- A PAYMENT swipe from the check digit on (R94, R97). -/
theorem checkDigitStep_payment (l : LaneId) (hc : r.cardClass = .payment) :
    s.checkDigitStep l w r =
      if r.checkDigit = true ∧ checkDigitOk w.account = false then
        s.reportSwipe l (refusedSwipe .checkDigit .payment (.masked (maskAccount w.account r)))
      else match s.expiryTest w with
        | some why => s.reportSwipe l (refusedSwipe why .payment (.masked (maskAccount w.account r)))
        | none => s.paymentSwipe l w r := by
  simp only [State.checkDigitStep, State.classRule, accountView, hc, Bool.and_eq_true, Bool.not_eq_true'] <;>
    rfl

/-- A STAFF swipe from the check digit on (R94, R97). -/
theorem checkDigitStep_staff (l : LaneId) (hc : r.cardClass = .staff) :
    s.checkDigitStep l w r =
      if r.checkDigit = true ∧ checkDigitOk w.account = false then
        s.reportSwipe l (refusedSwipe .checkDigit .staff (.masked (maskAccount w.account r)))
      else match s.expiryTest w with
        | some why => s.reportSwipe l (refusedSwipe why .staff (.masked (maskAccount w.account r)))
        | none => s.staffSwipe l w r := by
  simp only [State.checkDigitStep, State.classRule, accountView, hc, Bool.and_eq_true, Bool.not_eq_true'] <;>
    rfl

end

/-- Settles O54: the range found decides the class, and each class has its tests in their order. -/
theorem swipesAreClassifiedByTheRangeTable : Obligations.SwipesAreClassifiedByTheRangeTable := by
  unfold Obligations.SwipesAreClassifiedByTheRangeTable
  refine ⟨?_, ?_, ?_, ?_⟩
  · intro s l w h
    have hnone : s.rangeFor (prefixOf w.account) = none := by
      simpa [State.rangeFor, prefixOf, covers_eq] using h
    exact classify_uncovered l hnone
  · intro s l w r h hclass
    have hr : s.rangeFor (prefixOf w.account) = some r := by
      simp only [State.rangeFor, covers_eq]
      exact h
    intro n report masked date payment staff
    cases hc : r.cardClass with
    | noClass => exact absurd hc hclass
    | blocked => exact classify_blocked l hr hc
    | loyalty =>
      rw [classify_checked hr (by simp [hc]) (by simp [hc]), checkDigitStep_loyalty l hc]
      rfl
    | staff =>
      rw [classify_checked hr (by simp [hc]) (by simp [hc]), checkDigitStep_staff l hc]
      rfl
    | payment =>
      cases hx : (s.lane l).card.slot with
      | some x =>
        rw [classify_second hr hc hx]
        rfl
      | none =>
        rw [classify_checked hr (by simp [hc]) fun _ => hx, checkDigitStep_payment l hc]
        rfl
  · intro account
    rw [checkDigitOk, beq_iff_eq]
    exact iff_of_eq (congrArg (· % 10 = 0) (checkSum_eq 0 account.reverse))
  · exact fun account r => ⟨maskAccount_lead_length account r, maskAccount_lead account r⟩

end Sys2Proof.Machine
end

