-- ==== Sys2Proof/Proofs/Redaction.lean ====
section
/-! SUPPORT. A state without the digits of its cards (R98, R99, R106): what it holds, and the shared operations on it. Each
operation that neither reads nor writes the digits gives the same on it, the digits erased before or after. -/

namespace Sys2Proof.Machine

/-! ## A lane without the digits -/

@[simp] theorem Lane.redact_platter (n : Lane) : n.redact.platter = n.platter := rfl
@[simp] theorem Lane.redact_bag (n : Lane) : n.redact.bag = n.bag := rfl
@[simp] theorem Lane.redact_weigh (n : Lane) : n.redact.weigh = n.weigh := rfl
@[simp] theorem Lane.redact_armed (n : Lane) : n.redact.armed = n.armed := rfl
@[simp] theorem Lane.redact_nextCapture (n : Lane) : n.redact.nextCapture = n.nextCapture := rfl
@[simp] theorem Lane.redact_log (n : Lane) : n.redact.log = n.log := rfl
@[simp] theorem Lane.redact_entries (n : Lane) : n.redact.entries = n.entries := rfl
@[simp] theorem Lane.redact_tenders (n : Lane) : n.redact.tenders = n.tenders := rfl
@[simp] theorem Lane.redact_token (n : Lane) : n.redact.token = n.token := rfl
@[simp] theorem Lane.redact_bagCheck (n : Lane) : n.redact.bagCheck = n.bagCheck := rfl
@[simp] theorem Lane.redact_lastResult (n : Lane) : n.redact.lastResult = n.lastResult := rfl
@[simp] theorem Lane.redact_till (n : Lane) : n.redact.till = n.till := rfl
@[simp] theorem Lane.redact_jobs (n : Lane) : n.redact.jobs = n.jobs := rfl
@[simp] theorem Lane.redact_jobCounter (n : Lane) : n.redact.jobCounter = n.jobCounter := rfl
@[simp] theorem Lane.redact_port (n : Lane) : n.redact.port = n.port := rfl
@[simp] theorem Lane.redact_mode (n : Lane) : n.redact.mode = n.mode := rfl
@[simp] theorem Lane.redact_authority (n : Lane) : n.redact.authority = n.authority := rfl
@[simp] theorem Lane.redact_attention (n : Lane) : n.redact.attention = n.attention := rfl
@[simp] theorem Lane.redact_slot (n : Lane) : n.redact.card.slot = n.card.slot.map Slot.redact := rfl
@[simp] theorem Lane.redact_lastSwipe (n : Lane) : n.redact.card.lastSwipe = n.card.lastSwipe := rfl

@[simp] theorem Lane.redact_chan (n : Lane) (c : Chan) : n.redact.chan c = n.chan c := by cases c <;> rfl

theorem Lane.setChan_redact (n : Lane) (c : Chan) (x : Channel) : n.redact.setChan c x = (n.setChan c x).redact := by
  cases c <;> rfl

@[simp] theorem Lane.redact_handoffOutstanding (n : Lane) : n.redact.handoffOutstanding = n.handoffOutstanding :=
  Option.isSome_map

@[simp] theorem Lane.redact_total (n : Lane) : n.redact.total = n.total := rfl
@[simp] theorem Lane.redact_tendered (n : Lane) : n.redact.tendered = n.tendered := rfl
@[simp] theorem Lane.redact_due (n : Lane) : n.redact.due = n.due := rfl
@[simp] theorem Lane.redact_staffed (n : Lane) : n.redact.staffed = n.staffed := rfl
@[simp] theorem Lane.redact_entryAt (n : Lane) (pos : Nat) : n.redact.entryAt pos = n.entryAt pos := rfl
@[simp] theorem Lane.redact_job (n : Lane) (num : Nat) : n.redact.job num = n.job num := rfl
@[simp] theorem Lane.redact_fillingJob (n : Lane) : n.redact.fillingJob = n.fillingJob := rfl
@[simp] theorem Lane.redact_fillingOf (n : Lane) (job : Byte) : n.redact.fillingOf job = n.fillingOf job := rfl
@[simp] theorem Lane.redact_printingJob (n : Lane) : n.redact.printingJob = n.printingJob := rfl
@[simp] theorem Lane.redact_suspendedJob (n : Lane) : n.redact.suspendedJob = n.suspendedJob := rfl
@[simp] theorem Lane.redact_jobsAhead (n : Lane) (num : Nat) : n.redact.jobsAhead num = n.jobsAhead num := rfl

@[simp] theorem Lane.redact_basketState (n : Lane) : n.redact.basketState = n.basketState := by
  unfold Lane.basketState
  rw [redact_handoffOutstanding]
  rfl

/-! ## The state without the digits -/

@[simp] theorem State.redact_pending (s : State) : s.redact.pending = s.pending := rfl
@[simp] theorem State.redact_power (s : State) : s.redact.power = s.power := rfl
@[simp] theorem State.redact_freeCount (s : State) : s.redact.freeCount = s.freeCount := rfl
@[simp] theorem State.redact_calEn (s : State) : s.redact.calEn = s.calEn := rfl
@[simp] theorem State.redact_supplyBelow (s : State) : s.redact.supplyBelow = s.supplyBelow := rfl
@[simp] theorem State.redact_rateStrap (s : State) : s.redact.rateStrap = s.rateStrap := rfl
@[simp] theorem State.redact_lanesStrap (s : State) : s.redact.lanesStrap = s.lanesStrap := rfl
@[simp] theorem State.redact_resetCause (s : State) : s.redact.resetCause = s.resetCause := rfl
@[simp] theorem State.redact_selfCheck (s : State) : s.redact.selfCheck = s.selfCheck := rfl
@[simp] theorem State.redact_hello (s : State) : s.redact.hello = s.hello := rfl
@[simp] theorem State.redact_items (s : State) : s.redact.items = s.items := rfl
@[simp] theorem State.redact_ranges (s : State) : s.redact.ranges = s.ranges := rfl
@[simp] theorem State.redact_glyphs (s : State) : s.redact.glyphs = s.glyphs := rfl
@[simp] theorem State.redact_settings (s : State) : s.redact.settings = s.settings := rfl
@[simp] theorem State.redact_date (s : State) : s.redact.date = s.date := rfl
@[simp] theorem State.redact_store (s : State) : s.redact.store = s.store := rfl
@[simp] theorem State.redact_calWrite (s : State) : s.redact.calWrite = s.calWrite := rfl
@[simp] theorem State.redact_receiver (s : State) : s.redact.receiver = s.receiver := rfl
@[simp] theorem State.redact_receiveBuffer (s : State) : s.redact.receiveBuffer = s.receiveBuffer := rfl
@[simp] theorem State.redact_upstream (s : State) : s.redact.upstream = s.upstream := rfl
@[simp] theorem State.redact_reserved (s : State) : s.redact.reserved = s.reserved := rfl
@[simp] theorem State.redact_restart (s : State) : s.redact.restart = s.restart := rfl
@[simp] theorem State.redact_linkTimer (s : State) : s.redact.linkTimer = s.linkTimer := rfl
@[simp] theorem State.redact_silent (s : State) : s.redact.silent = s.silent := rfl
@[simp] theorem State.redact_attention (s : State) : s.redact.attention = s.attention := rfl
@[simp] theorem State.redact_supplyLow (s : State) : s.redact.supplyLow = s.supplyLow := rfl
@[simp] theorem State.redact_powerQueue (s : State) : s.redact.powerQueue = s.powerQueue := rfl
@[simp] theorem State.redact_releasing (s : State) : s.redact.releasing = s.releasing := rfl
@[simp] theorem State.redact_inFlight (s : State) : s.redact.pay.inFlight = s.pay.inFlight := rfl
@[simp] theorem State.redact_response (s : State) : s.redact.pay.response = s.pay.response := rfl
@[simp] theorem State.redact_pointer (s : State) : s.redact.pay.pointer = s.pay.pointer := rfl
@[simp] theorem State.redact_counter (s : State) : s.redact.pay.counter = s.pay.counter := rfl
@[simp] theorem State.redact_lastStray (s : State) : s.redact.pay.lastStray = s.pay.lastStray := rfl
@[simp] theorem State.redact_transmit (s : State) : s.redact.pay.transmit = s.pay.transmit.map redactFrame := rfl

@[simp] theorem lane_redact (s : State) (l : LaneId) : s.redact.lane l = (s.lane l).redact := Four.get_make _ l

@[simp] theorem chan_redact (s : State) (l : LaneId) (c : Chan) : s.redact.chan l c = s.chan l c := by
  simp only [State.chan, lane_redact, Lane.redact_chan]

@[simp] theorem till_redact (s : State) (l : LaneId) : s.redact.till l = s.till l := by
  simp only [State.till, lane_redact, Lane.redact_till]

@[simp] theorem enabled_redact (s : State) (l : LaneId) : s.redact.enabled l = s.enabled l := rfl
@[simp] theorem lanesEnabled_redact (s : State) : s.redact.lanesEnabled = s.lanesEnabled := rfl
@[simp] theorem degraded_redact (s : State) : s.redact.degraded = s.degraded := rfl
@[simp] theorem live_redact (s : State) (l : LaneId) : s.redact.live l = s.live l := rfl
@[simp] theorem laneSettings_redact (s : State) (l : LaneId) : s.redact.laneSettings l = s.laneSettings l := rfl
@[simp] theorem polarity_redact (s : State) (l : LaneId) : s.redact.polarity l = s.polarity l := rfl
@[simp] theorem baseTolerance_redact (s : State) (l : LaneId) : s.redact.baseTolerance l = s.baseTolerance l := rfl
@[simp] theorem freeRecords_redact (s : State) : s.redact.freeRecords = s.freeRecords := rfl
@[simp] theorem stored_redact (s : State) (l : LaneId) (c : Chan) : s.redact.stored l c = s.stored l c := rfl
@[simp] theorem calWriting_redact (s : State) (l : LaneId) (c : Chan) : s.redact.calWriting l c = s.calWriting l c := rfl
@[simp] theorem timeField_redact (s : State) (t : Timer) (k : Nat) : s.redact.timeField t k = s.timeField t k := rfl

@[simp] theorem freeOctets_redact (s : State) (l : LaneId) : s.redact.freeOctets l = s.freeOctets l := by
  have jobs : (s.redact.lanes.get l).jobs = (s.lanes.get l).jobs := by
    rw [← State.lane, lane_redact, Lane.redact_jobs, State.lane]
  rw [State.freeOctets, State.freeOctets, jobs]
  rfl

@[simp] theorem renderInputs_redact (s : State) (l : LaneId) : s.redact.renderInputs l = s.renderInputs l := by
  simp only [State.renderInputs, lane_redact, Lane.redact_log, State.redact_glyphs, State.redact_settings]

/-- The part's own fields replaced, the lanes and the payment link kept. -/
@[simp] theorem mk_redact (s : State) (pending : List Instr) (power : Power) (freeCount : Nat) (calEn supplyBelow : Bool)
    (rateStrap lanesStrap : BitVec 2) (resetCause : ResetCause) (selfCheck : SelfCheck) (hello : Hello)
    (items : List ItemRecord) (ranges : List CardRange) (glyphs : List Glyph) (settings : Settings) (date : Option Date)
    (store : Four StoreLane) (calWrite : Option CalWrite) (receiver : Receiver) (receiveBuffer upstream : List Frame)
    (reserved : Nat) (restart : Option Nat) (linkTimer : Timer) (silent : Bool) (attention : Attention) (supplyLow : Bool)
    (powerQueue releasing : List LaneId) :
    (⟨pending, power, freeCount, calEn, supplyBelow, rateStrap, lanesStrap, resetCause, selfCheck, hello, s.redact.lanes,
      items, ranges, glyphs, settings, date, store, calWrite, receiver, receiveBuffer, upstream, reserved, restart,
      linkTimer, silent, attention, supplyLow, powerQueue, releasing, s.redact.pay⟩ : State) =
    State.redact ⟨pending, power, freeCount, calEn, supplyBelow, rateStrap, lanesStrap, resetCause, selfCheck, hello,
      s.lanes, items, ranges, glyphs, settings, date, store, calWrite, receiver, receiveBuffer, upstream, reserved,
      restart, linkTimer, silent, attention, supplyLow, powerQueue, releasing, s.pay⟩ := rfl

/-! ## A lane replaced -/

/-- The digits of a lane replaced are those of the new lane. -/
@[simp] theorem setLane_redact (s : State) (l : LaneId) (n : Lane) : s.redact.setLane l n.redact = (s.setLane l n).redact := by
  match l with
  | 0 => rfl
  | 1 => rfl
  | 2 => rfl
  | 3 => rfl

/-- A lane replaced, its card unit kept. -/
@[simp] theorem setLane_card_redact (s : State) (l : LaneId) (n : Lane) (platter bag : Channel) (weigh : Option WeighRequest)
    (armed : Bool) (nextCapture : Nat) (log : List Capture) (entries : List Entry) (tenders : List Tender) (token : Bool)
    (bagCheck : BagCheck) (lastResult : Option CardResult) (till : Till) (jobs : List Job) (jobCounter : Nat) (port : Port)
    (mode : LaneMode) (authority : Option Authority) (attention : Attention) :
    s.redact.setLane l ⟨platter, bag, weigh, armed, nextCapture, log, entries, tenders, token, bagCheck, n.redact.card,
      lastResult, till, jobs, jobCounter, port, mode, authority, attention⟩ =
    (s.setLane l ⟨platter, bag, weigh, armed, nextCapture, log, entries, tenders, token, bagCheck, n.card,
      lastResult, till, jobs, jobCounter, port, mode, authority, attention⟩).redact :=
  setLane_redact s l ⟨platter, bag, weigh, armed, nextCapture, log, entries, tenders, token, bagCheck, n.card,
    lastResult, till, jobs, jobCounter, port, mode, authority, attention⟩

/-- A change of a lane that keeps its slot as it is. -/
theorem modLane_redact (s : State) (l : LaneId) {g : Lane → Lane} (hg : ∀ n, g n.redact = (g n).redact) :
    s.redact.modLane l g = (s.modLane l g).redact := by
  rw [modLane_eq, lane_redact, hg, setLane_redact, modLane_eq]

@[simp] theorem setTill_redact (s : State) (l : LaneId) (t : Till) : s.redact.setTill l t = (s.setTill l t).redact :=
  modLane_redact s l fun _ => rfl

@[simp] theorem setBag_redact (s : State) (l : LaneId) (x : BagCheck) : s.redact.setBag l x = (s.setBag l x).redact :=
  modLane_redact s l fun _ => rfl

@[simp] theorem setPort_redact (s : State) (l : LaneId) (p : Port) : s.redact.setPort l p = (s.setPort l p).redact :=
  modLane_redact s l fun _ => rfl

@[simp] theorem setAttention_redact (s : State) (l : LaneId) (a : Attention) :
    s.redact.setAttention l a = (s.setAttention l a).redact :=
  modLane_redact s l fun _ => rfl

@[simp] theorem setChan_redact (s : State) (l : LaneId) (c : Chan) (x : Channel) :
    s.redact.setChan l c x = (s.setChan l c x).redact :=
  modLane_redact s l fun n => n.setChan_redact c x

@[simp] theorem modChan_redact (s : State) (l : LaneId) (c : Chan) (g : Channel → Channel) :
    s.redact.modChan l c g = (s.modChan l c g).redact := by
  simp only [State.modChan, chan_redact, setChan_redact]

/-! ## Conditions and notices (R161, R171) -/

@[simp] theorem enqueue_redact (s : State) (f : Frame) : s.redact.enqueue f = (s.enqueue f).redact := rfl

/-- A choice between two states, the digits erased. -/
theorem ite_redact (c : Prop) [Decidable c] (s t : State) :
    (if c then s.redact else t.redact) = (if c then s else t).redact := (apply_ite State.redact c s t).symm

@[simp] theorem raiseLane_redact (s : State) (l : LaneId) (c : LaneCond) :
    s.redact.raiseLane l c = (s.raiseLane l c).redact := by
  simp only [State.raiseLane, lane_redact, Lane.redact_attention, freeRecords_redact, setAttention_redact, enqueue_redact,
    ite_redact]

-- From here on `simp -implicitDefEqProofs` where a choice stands over `{ s with … }`: a field lemma used as a definitional
-- unfolding would change the condition of the choice and leave its decision, and `ite_redact` would not fit.
@[simp] theorem raisePart_redact (s : State) (c : PartCond) : s.redact.raisePart c = (s.raisePart c).redact := by
  simp -implicitDefEqProofs [State.raisePart, ite_redact]

@[simp] theorem offerLane_redact (s : State) (l : LaneId) (k : Byte) (p : List Byte) :
    s.redact.offerLane l k p = (s.offerLane l k p).redact := by
  simp only [State.offerLane, freeRecords_redact, enqueue_redact, raiseLane_redact, ite_redact]

@[simp] theorem offerPart_redact (s : State) (k : Byte) (p : List Byte) :
    s.redact.offerPart k p = (s.offerPart k p).redact := by
  simp only [State.offerPart, freeRecords_redact, enqueue_redact, raisePart_redact, ite_redact]

@[simp] theorem offerDisplay_redact (s : State) (l : LaneId) (c : Chan) (d : Display) :
    s.redact.offerDisplay l c d = ((s.offerDisplay l c d).1, (s.offerDisplay l c d).2.redact) := by
  unfold State.offerDisplay
  dsimp only [State.redact_upstream]
  cases s.upstream with
  | nil => by_cases h : 16 ≤ s.freeRecords <;> simp only [freeRecords_redact, h, if_true, if_false, enqueue_redact]
  | cons x t =>
    dsimp only
    cases replaceDisplay l c ⟨laneAddr l, kindDisplay, 0, displayPayload c d⟩ t with
    | some q => rfl
    | none => by_cases h : 16 ≤ s.freeRecords <;> simp only [freeRecords_redact, h, if_true, if_false, enqueue_redact]

@[simp] theorem displayCheck_redact (s : State) (l : LaneId) (c : Chan) :
    s.redact.displayCheck l c = (s.displayCheck l c).redact := by
  simp only [State.displayCheck, chan_redact, offerDisplay_redact, modChan_redact, laneSettings_redact, ite_redact]

end Sys2Proof.Machine
end

