-- ==== Sys2Proof/Proofs/RedactedLanes.lean ====
section
/-! SUPPORT. The bag check, the weigh request, captures and the weighing channels of a state without the digits of its
cards (R98, R99). -/

namespace Sys2Proof.Machine

/-! ## The bag check (chapter 4) -/

@[simp] theorem Lane.setEntryBag_redact (n : Lane) (pos : Nat) (b : BagState) :
    n.redact.setEntryBag pos b = (n.setEntryBag pos b).redact := rfl

@[simp] theorem Lane.endAwaited_redact (n : Lane) : n.redact.endAwaited = n.endAwaited.redact := by
  unfold Lane.endAwaited
  dsimp only [redact_bagCheck, redact_entryAt]
  cases n.bagCheck.awaiting with
  | none => rfl
  | some pos =>
    dsimp only
    cases n.entryAt pos <;> rfl

theorem Lane.leaveSelf_redact (n : Lane) :
    Lane.bagModeChange.leaveSelf n.redact = (Lane.bagModeChange.leaveSelf n).redact := by
  unfold Lane.bagModeChange.leaveSelf
  dsimp only [redact_bagCheck, redact_entryAt]
  cases n.bagCheck.awaiting with
  | none => rfl
  | some pos =>
    dsimp only
    cases n.entryAt pos <;> rfl

theorem Lane.enterSelf_redact (n : Lane) :
    Lane.bagModeChange.enterSelf n.redact = (Lane.bagModeChange.enterSelf n).redact := by
  unfold Lane.bagModeChange.enterSelf
  by_cases h : n.bag.state == .running <;> simp only [redact_bag, h, if_true] <;> rfl

theorem Lane.bagModeChange_redact (n : Lane) (before after : LaneMode) :
    n.redact.bagModeChange before after = (n.bagModeChange before after).redact := by
  unfold Lane.bagModeChange
  split
  · exact n.leaveSelf_redact
  · exact n.leaveSelf_redact
  · exact n.enterSelf_redact
  · exact n.enterSelf_redact
  all_goals rfl

theorem Lane.bagReset_redact (n : Lane) : n.redact.bagReset = n.bagReset.redact := by
  unfold Lane.bagReset
  dsimp only [redact_mode, redact_bag]
  cases n.mode with
  | self => by_cases h : n.bag.state == .running <;> simp only [h, if_true] <;> rfl
  | attended => rfl
  | closed => rfl

@[simp] theorem bagEventPayload_redact (l : LaneId) (ev : BagEvent) (n : Lane) (d : Option Int) (pos : Nat) :
    bagEventPayload l ev n.redact d pos = bagEventPayload l ev n d pos := rfl

@[simp] theorem offerBag_redact (s : State) (l : LaneId) (ev : BagEvent) (d : Option Int) (pos : Nat) :
    s.redact.offerBag l ev d pos = (s.offerBag l ev d pos).redact := by
  simp [State.offerBag]

@[simp] theorem expectPlacement_redact (s : State) (l : LaneId) (pos : Nat) (e : Entry) :
    s.redact.expectPlacement l pos e = (s.expectPlacement l pos e).redact := by
  simp [State.expectPlacement]

@[simp] theorem expectRemoval_redact (s : State) (l : LaneId) (pos : Nat) (e : Entry) :
    s.redact.expectRemoval l pos e = (s.expectRemoval l pos e).redact := by
  simp [State.expectRemoval]

@[simp] theorem bagHold_redact (s : State) (l : LaneId) (b d : Option Int) :
    s.redact.bagHold l b d = (s.bagHold l b d).redact := by
  simp [State.bagHold]

@[simp] theorem bagArmed_redact (s : State) (l : LaneId) (g : Int) : s.redact.bagArmed l g = (s.bagArmed l g).redact := by
  cases h : (s.lane l).bagCheck.awaiting <;> simp [State.bagArmed, h]

@[simp] theorem bagSettled_redact (s : State) (l : LaneId) (g : Int) :
    s.redact.bagSettled l g = (s.bagSettled l g).redact := by
  simp [State.bagSettled, ite_redact]

@[simp] theorem bagUnexpected_redact (s : State) (l : LaneId) (g : Int) :
    s.redact.bagUnexpected l g = (s.bagUnexpected l g).redact := by
  simp [State.bagUnexpected, ite_redact]

@[simp] theorem bagExpecting_redact (s : State) (l : LaneId) (g m : Int) (after : BagState) (ev : BagEvent) :
    s.redact.bagExpecting l g m after ev = (s.bagExpecting l g m after ev).redact := by
  simp [State.bagExpecting, ite_redact, modLane_eq]

@[simp] theorem bagStable_redact (s : State) (l : LaneId) (g : Int) :
    s.redact.bagStable l g = (s.bagStable l g).redact := by
  cases h : (s.lane l).bagCheck.state <;> simp [State.bagStable, h]

@[simp] theorem bagReading_redact (s : State) (l : LaneId) (g : Int) (stable : Bool) :
    s.redact.bagReading l g stable = (s.bagReading l g stable).redact := by
  simp [State.bagReading, ite_redact]

@[simp] theorem placementExpires_redact (s : State) (l : LaneId) :
    s.redact.placementExpires l = (s.placementExpires l).redact := by
  simp [State.placementExpires, ite_redact]

@[simp] theorem removalExpires_redact (s : State) (l : LaneId) :
    s.redact.removalExpires l = (s.removalExpires l).redact := by
  simp [State.removalExpires, ite_redact]

@[simp] theorem bagCancel_redact (s : State) (l : LaneId) (pos : Nat) :
    s.redact.bagCancel l pos = (s.bagCancel l pos).redact := by
  cases h : (s.lane l).bagCheck.state <;> simp [State.bagCancel, h, ite_redact]

@[simp] theorem bagOverridden_redact (s : State) (l : LaneId) :
    s.redact.bagOverridden l = (s.bagOverridden l).redact := by
  simp [State.bagOverridden, ite_redact]

@[simp] theorem bagLoss_redact (s : State) (l : LaneId) : s.redact.bagLoss l = (s.bagLoss l).redact := by
  simp [State.bagLoss, ite_redact]

@[simp] theorem bagRecovery_redact (s : State) (l : LaneId) : s.redact.bagRecovery l = (s.bagRecovery l).redact := by
  simp [State.bagRecovery, ite_redact]

/-! ## Weigh request, entries, captures (chapters 2 and 3) -/

@[simp] theorem endWeigh_redact (s : State) (l : LaneId) (o : WeighOutcome) :
    s.redact.endWeigh l o = (s.endWeigh l o).redact := by
  cases h : (s.lane l).weigh <;> simp [State.endWeigh, h, modLane_eq]

@[simp] theorem weighExpires_redact (s : State) (l : LaneId) : s.redact.weighExpires l = (s.weighExpires l).redact := by
  cases h : (s.lane l).weigh <;> simp [State.weighExpires, h, ite_redact]

@[simp] theorem appendEntry_redact (s : State) (l : LaneId) (e : Entry) :
    s.redact.appendEntry l e = (s.appendEntry l e).redact := by
  simp [State.appendEntry, ite_redact, modLane_eq]

@[simp] theorem takeCapture_redact (s : State) (l : LaneId) (w : WeighRequest) (t : CaptureTare) (price : Nat) :
    s.redact.takeCapture l w t price = (s.takeCapture l w t price).redact := by
  simp [State.takeCapture]

@[simp] theorem noteFailure_redact (s : State) (l : LaneId) (w : WeighRequest) (f : FailedTest) :
    s.redact.noteFailure l w f = (s.noteFailure l w f).redact := by
  simp [State.noteFailure, ite_redact, modLane_eq]

@[simp] theorem captureTests_redact (n : Lane) (c : Calib) (w : WeighRequest) (r : Reading) (g : Int) :
    captureTests n.redact c w r g = captureTests n c w r g := by
  unfold captureTests
  rw [Lane.redact_basketState]
  rfl

@[simp] theorem platterReading_redact (s : State) (l : LaneId) (c : Calib) (r : Reading) (g : Int) :
    s.redact.platterReading l c r g = (s.platterReading l c r g).redact := by
  have armed : (if g ≤ ((5 * c.d1 : Nat) : Int) then s.redact.modLane l fun n => { n with armed := true } else s.redact) =
      (if g ≤ ((5 * c.d1 : Nat) : Int) then s.modLane l fun n => { n with armed := true } else s).redact := by
    simp [modLane_eq, ite_redact]
  unfold State.platterReading
  simp only [armed, lane_redact, Lane.redact_weigh, captureTests_redact]
  generalize (if g ≤ ((5 * c.d1 : Nat) : Int) then s.modLane l fun n => { n with armed := true } else s) = u
  cases (u.lane l).weigh with
  | none => rfl
  | some w =>
    cases h : captureTests (u.lane l) c w r g with
    | fails f => simp [h]
    | refused o => simp [h]
    | taken t p => simp [h]

@[simp] theorem handReading_redact (s : State) (l : LaneId) (ch : Chan) (c : Calib) (r : Reading) (g : Int) :
    s.redact.handReading l ch c r g = (s.handReading l ch c r g).redact := by
  cases ch <;> simp [State.handReading]

/-! ## The weighing channels (chapter 1) -/

@[simp] theorem enterFault_redact (s : State) (l : LaneId) (c : Chan) (cause : FaultCause) (ret : Option ReturnState) :
    s.redact.enterFault l c cause ret = (s.enterFault l c cause ret).redact := by
  simp [State.enterFault, ite_redact]

@[simp] theorem reportRunning_redact (s : State) (l : LaneId) (ch : Chan) :
    s.redact.reportRunning l ch = (s.reportRunning l ch).redact := by
  cases ch <;> simp [State.reportRunning, modLane_eq]

@[simp] theorem finishEvaluation_redact (s : State) (l : LaneId) (ch : Chan) (c : Calib) (raw : Nat) (w : Int) (stable : Bool) :
    s.redact.finishEvaluation l ch c raw w stable = (s.finishEvaluation l ch c raw w stable).redact := by
  simp [State.finishEvaluation]

@[simp] theorem evaluate_redact (s : State) (l : LaneId) (ch : Chan) (raw : Nat) :
    s.redact.evaluate l ch raw = (s.evaluate l ch raw).redact := by
  cases hc : (s.chan l ch).calib with
  | none => simp [State.evaluate, hc]
  | some c => cases h : (s.chan l ch).state <;> simp [State.evaluate, hc, h, ite_redact]

@[simp] theorem sensorReturn_redact (s : State) (l : LaneId) (ch : Chan) (raw : Nat) :
    s.redact.sensorReturn l ch raw = (s.sensorReturn l ch raw).redact := by
  cases h : (s.chan l ch).ret with
  | none => simp [State.sensorReturn, h]
  | some ret => cases ret <;> simp [State.sensorReturn, h, ite_redact]

@[simp] theorem sample_redact (s : State) (l : LaneId) (ch : Chan) (raw : Nat) :
    s.redact.sample l ch raw = (s.sample l ch raw).redact := by
  cases h : (s.chan l ch).state <;> simp [State.sample, h, ite_redact]

@[simp] theorem silenceExpires_redact (s : State) (l : LaneId) (ch : Chan) :
    s.redact.silenceExpires l ch = (s.silenceExpires l ch).redact := by
  cases h : (s.chan l ch).state <;> simp [State.silenceExpires, h, ite_redact]

@[simp] theorem initialZeroExpires_redact (s : State) (l : LaneId) (ch : Chan) :
    s.redact.initialZeroExpires l ch = (s.initialZeroExpires l ch).redact := by
  simp [State.initialZeroExpires, ite_redact]

@[simp] theorem displayExpires_redact (s : State) (l : LaneId) (ch : Chan) :
    s.redact.displayExpires l ch = (s.displayExpires l ch).redact := by
  simp [State.displayExpires, ite_redact]

@[simp] theorem takeCopy_redact (s : State) (l : LaneId) (ch : Chan) (c : Calib) :
    s.redact.takeCopy l ch c = (s.takeCopy l ch c).redact := by
  simp [State.takeCopy, ite_redact]

@[simp] theorem startChannel_redact (s : State) (l : LaneId) (ch : Chan) (copy : Option Calib) :
    s.redact.startChannel l ch copy = (s.startChannel l ch copy).redact := by
  cases copy <;> simp [State.startChannel]

end Sys2Proof.Machine
end

