-- ==== Sys2Proof/Proofs/RedactedPrinting.lean ====
section
/-! SUPPORT. Print jobs and the printer port of a state without the digits of its cards (R98, R99). -/

namespace Sys2Proof.Machine

/-! ## Jobs and references (R134 to R141) -/

@[simp] theorem Lane.modHolds_redact (n : Lane) (num : Nat) (g : Nat → Nat) :
    n.redact.modHolds num g = (n.modHolds num g).redact := rfl

@[simp] theorem Lane.modJob_redact (n : Lane) (num : Nat) (g : Job → Job) :
    n.redact.modJob num g = (n.modJob num g).redact := rfl

@[simp] theorem Lane.dropJob_redact (n : Lane) (num : Nat) : n.redact.dropJob num = (n.dropJob num).redact := rfl

theorem Lane.resolve_redact (n : Lane) (num : Nat) :
    n.redact.resolve num = ((n.resolve num).1.redact, (n.resolve num).2) := by
  have held : n.redact.captureOf num = n.captureOf num := rfl
  unfold Lane.resolve
  rw [held]
  cases n.captureOf num with
  | none => rfl
  | some c =>
    dsimp only
    split_ifs <;> rfl

theorem scanOctets_redact (n : Lane) (x : ScanState) (octets : List Byte) :
    scanOctets n.redact x octets = ((scanOctets n x octets).1.redact, (scanOctets n x octets).2) := by
  induction octets generalizing n x with
  | nil => rfl
  | cons b octets ih =>
    unfold scanOctets
    obtain ⟨y, num⟩ := scanOctet x b
    cases num with
    | none => exact ih n y
    | some num => simp only [Lane.resolve_redact, ih]

theorem Lane.releaseHolds_redact (n : Lane) (refs : List Reference) :
    n.redact.releaseHolds refs = (n.releaseHolds refs).redact := by
  unfold Lane.releaseHolds
  induction refs generalizing n with
  | nil => rfl
  | cons r refs ih =>
    obtain ⟨capture, resolved, hold⟩ := r
    simp only [List.foldl_cons]
    cases hold with
    | false => exact ih n
    | true =>
      cases capture with
      | none => exact ih n
      | some num => exact ih (n.modHolds num (· - 1))

theorem Lane.frameDone_redact (n : Lane) (num : Nat) : n.redact.frameDone num = (n.frameDone num).redact := by
  have block (m : Lane) (idx : Nat) :
      Lane.frameDone.blockDone m.redact num idx = (Lane.frameDone.blockDone m num idx).redact := by
    unfold Lane.frameDone.blockDone
    rw [Lane.redact_job]
    cases m.job num with
    | none => rfl
    | some j =>
      dsimp only
      cases j.refs[idx]? with
      | none => rfl
      | some r => simp only [Lane.releaseHolds_redact, Lane.modJob_redact]
  unfold Lane.frameDone
  rw [Lane.redact_job]
  cases n.job num with
  | none => rfl
  | some j =>
    dsimp only
    cases j.current with
    | none => rfl
    | some f =>
      cases f with
      | cut => rfl
      | line cells column block2 done =>
        dsimp only
        split
        · cases block2 with
          | none => rfl
          | some idx =>
            dsimp only
            rw [Lane.modJob_redact, block]
        · rfl

theorem Lane.cancelJob_redact (n : Lane) (j : Job) : n.redact.cancelJob j = (n.cancelJob j).redact := by
  unfold Lane.cancelJob
  simp only [Lane.releaseHolds_redact, Lane.dropJob_redact]
  cases j.state <;> rfl

theorem Lane.cancelJobs_redact (n : Lane) (jobs : List Job) :
    jobs.foldl Lane.cancelJob n.redact = (jobs.foldl Lane.cancelJob n).redact := by
  induction jobs generalizing n with
  | nil => rfl
  | cons j jobs ih => rw [List.foldl_cons, Lane.cancelJob_redact, ih, List.foldl_cons]

/-! ## The printer port (R148 to R156) -/

@[simp] theorem offerPrint_redact (s : State) (l : LaneId) (j : Job) (e : PrintEvent) :
    s.redact.offerPrint l j e = (s.offerPrint l j e).redact := by
  simp [State.offerPrint]

@[simp] theorem suspend_redact (s : State) (l : LaneId) (j : Job) (why : SuspendReason) :
    s.redact.suspend l j why = (s.suspend l j why).redact := by
  simp [State.suspend, modLane_eq]

@[simp] theorem selectJob_redact (s : State) (l : LaneId) : s.redact.selectJob l = (s.selectJob l).redact := by
  cases hj : (s.lane l).jobs.find? fun j => j.state == .ready with
  | none => simp [State.selectJob, hj]
  | some j => cases h : stopReason (s.lane l).port.state <;> simp [State.selectJob, hj, h, ite_redact, modLane_eq]

@[simp] theorem sendJobFrame_redact (s : State) (l : LaneId) (j : Job) (f : JobFrame) :
    s.redact.sendJobFrame l j f = (s.sendJobFrame l j f).redact := by
  simp [State.sendJobFrame, modLane_eq]

@[simp] theorem completeJob_redact (s : State) (l : LaneId) (j : Job) :
    s.redact.completeJob l j = (s.completeJob l j).redact := by
  simp [State.completeJob, modLane_eq]

@[simp] theorem endFlags_redact (s : State) (j : Job) : State.pump.endFlags s.redact j = State.pump.endFlags s j := rfl

@[simp] theorem pump_redact (l : LaneId) (k : Nat) (s : State) : State.pump l k s.redact = (State.pump l k s).redact := by
  induction k generalizing s with
  | zero => rfl
  | succ k ih =>
    unfold State.pump
    simp only [selectJob_redact, lane_redact, Lane.redact_port, Lane.redact_printingJob, setPort_redact, renderInputs_redact]
    generalize s.selectJob l = u
    cases (u.lane l).printingJob with
    | none => simp [ite_redact]
    | some j =>
      dsimp only
      cases j.current with
      | some f => simp [ite_redact]
      | none =>
        dsimp only
        cases renderNext (u.renderInputs l) j with
        | none => simp [ite_redact, ih]
        | some k =>
          dsimp only
          cases k.current <;> simp [ite_redact]

@[simp] theorem port_redact (s : State) (l : LaneId) : s.redact.port l = (s.port l).redact := pump_redact l _ s

@[simp] theorem exchangeDone_redact (s : State) (l : LaneId) (o : ExchangeOwner) :
    s.redact.exchangeDone l o = (s.exchangeDone l o).redact := by
  cases o <;> simp [State.exchangeDone, modLane_eq, Lane.frameDone_redact]

@[simp] theorem exchangeFailed_redact (s : State) (l : LaneId) (o : ExchangeOwner) (why : SuspendReason) :
    s.redact.exchangeFailed l o why = (s.exchangeFailed l o why).redact := by
  have freed (u : State) : u.modLane l (fun n => { n with port := n.port.free }) = u.setPort l (u.lane l).port.free := rfl
  cases o with
  | owedCut => simp [State.exchangeFailed, modLane_eq]
  | nobody => simp [State.exchangeFailed, modLane_eq]
  | job num =>
    simp only [State.exchangeFailed, freed, lane_redact, Lane.redact_port, setPort_redact, Lane.redact_job]
    split <;> simp [*]

@[simp] theorem lineDone_redact (s : State) (l : LaneId) (tag : Byte) :
    s.redact.lineDone l tag = (s.lineDone l tag).redact := by
  simp only [State.lineDone, setPort_redact, lane_redact, Lane.redact_port]
  cases ((s.setPort l (s.lane l).port.heard).lane l).port.answered tag <;> simp

@[simp] theorem lineFailed_redact (s : State) (l : LaneId) (tag : Byte) :
    s.redact.lineFailed l tag = (s.lineFailed l tag).redact := by
  simp only [State.lineFailed, setPort_redact, lane_redact, Lane.redact_port]
  cases ((s.setPort l (s.lane l).port.heard).lane l).port.answered tag <;> simp

@[simp] theorem answerExpires_redact (s : State) (l : LaneId) : s.redact.answerExpires l = (s.answerExpires l).redact := by
  cases h : (s.lane l).port.exchange <;> simp [State.answerExpires, h, ite_redact]

@[simp] theorem statusStops_redact (s : State) (l : LaneId) (st : PrinterState) (why : SuspendReason) :
    s.redact.statusStops l st why = (s.statusStops l st why).redact := by
  simp only [State.statusStops, lane_redact, Lane.redact_port, setPort_redact, Lane.redact_printingJob]
  split <;> simp [*]

@[simp] theorem statusRuns_redact (s : State) (l : LaneId) (st : PrinterState) :
    s.redact.statusRuns l st = (s.statusRuns l st).redact := by
  simp only [State.statusRuns, lane_redact, Lane.redact_port, setPort_redact, Lane.redact_suspendedJob]
  split <;> simp [*, modLane_eq]

@[simp] theorem printerStatus_redact (s : State) (l : LaneId) (r : PrinterReport) :
    s.redact.printerStatus l r = (s.printerStatus l r).redact := by
  cases r <;> simp [State.printerStatus]

@[simp] theorem printerSilent_redact (s : State) (l : LaneId) : s.redact.printerSilent l = (s.printerSilent l).redact := by
  simp only [State.printerSilent, lane_redact, Lane.redact_port, setPort_redact, Lane.redact_printingJob]
  split
  · rfl
  · split <;> simp [*]

@[simp] theorem noteMissing_redact (s : State) (l : LaneId) (refs : List Reference) :
    s.redact.noteMissing l refs = (s.noteMissing l refs).redact := by
  simp [State.noteMissing, ite_redact]

@[simp] theorem printReset_redact (s : State) (l : LaneId) : s.redact.printReset l = (s.printReset l).redact := by
  simp [State.printReset, modLane_eq, Lane.cancelJobs_redact]

@[simp] theorem printerDiscarded_redact (s : State) (l : LaneId) :
    s.redact.printerDiscarded l = (s.printerDiscarded l).redact := by
  simp [State.printerDiscarded]

@[simp] theorem printerArrive_redact (s : State) (l : LaneId) (f : Frame) :
    s.redact.printerArrive l f = (s.printerArrive l f).redact := by
  unfold State.printerArrive
  split <;> simp

@[simp] theorem printerBroken_redact (s : State) (l : LaneId) (cause : PrinterDiscard) :
    s.redact.printerBroken l cause = (s.printerBroken l cause).redact := by
  cases cause <;> simp [State.printerBroken]

end Sys2Proof.Machine
end

