-- ==== Sys2Proof/Proofs/RedactedPart.lean ====
section
/-! SUPPORT. Drawers, staff authority, settings, the calibration store, the supply and start-up of a state without the digits
of its cards (R98, R99). -/

namespace Sys2Proof.Machine

/-! ## The drawers (chapter 7) -/

@[simp] theorem drawerEventPayload_redact (l : LaneId) (n : Lane) (e : DrawerEvent) (attempt : Option Nat) :
    drawerEventPayload l n.redact e attempt = drawerEventPayload l n e attempt := rfl

@[simp] theorem sensorPin_redact (s : State) (l : LaneId) (high : Bool) :
    s.redact.sensorPin l high = (s.sensorPin l high).redact := by
  simp -implicitDefEqProofs [State.sensorPin]

@[simp] theorem debounceUpdate_redact (s : State) (l : LaneId) :
    s.redact.debounceUpdate l = (s.debounceUpdate l).redact := by
  simp -implicitDefEqProofs [State.debounceUpdate]

@[simp] theorem offerDrawer_redact (s : State) (l : LaneId) (e : DrawerEvent) (attempt : Option Nat) :
    s.redact.offerDrawer l e attempt = (s.offerDrawer l e attempt).redact := by
  simp -implicitDefEqProofs [State.offerDrawer]

@[simp] theorem admissible_redact (s : State) : s.redact.admissible = s.admissible := rfl

@[simp] theorem admitOne_redact (s : State) (l : LaneId) : s.redact.admitOne l = (s.admitOne l).redact := by
  simp -implicitDefEqProofs [State.admitOne]

@[simp] theorem admitHeads_redact (n : Nat) (s : State) : State.admitHeads n s.redact = (State.admitHeads n s).redact := by
  induction n generalizing s with
  | zero => rfl
  | succ n ih => cases h : s.admissible <;> simp -implicitDefEqProofs [State.admitHeads, h, ih]

@[simp] theorem admission_redact (s : State) : s.redact.admission = s.admission.redact := admitHeads_redact 4 s

@[simp] theorem confirmRelease_redact (s : State) (l : LaneId) :
    s.redact.confirmRelease l = (s.confirmRelease l).redact := by
  simp -implicitDefEqProofs [State.confirmRelease]

@[simp] theorem toChecking_redact (s : State) (l : LaneId) (cut : Bool) :
    s.redact.toChecking l cut = (s.toChecking l cut).redact := by
  simp -implicitDefEqProofs [State.toChecking, ite_redact]

@[simp] theorem pulseExpires_redact (s : State) (l : LaneId) : s.redact.pulseExpires l = (s.pulseExpires l).redact := by
  simp -implicitDefEqProofs [State.pulseExpires, ite_redact]

theorem cutDrawers_redact (ls : List LaneId) (s : State) :
    ls.foldl State.cutDrawer s.redact = (ls.foldl State.cutDrawer s).redact := by
  induction ls generalizing s with
  | nil => rfl
  | cons l ls ih => rw [List.foldl_cons, State.cutDrawer, toChecking_redact, ih, List.foldl_cons, State.cutDrawer]

@[simp] theorem cutAll_redact (s : State) : s.redact.cutAll = s.cutAll.redact := cutDrawers_redact _ s

@[simp] theorem cutToBudget_redact (s : State) : s.redact.cutToBudget = s.cutToBudget.redact := cutDrawers_redact _ s

@[simp] theorem checkExpires_redact (s : State) (l : LaneId) : s.redact.checkExpires l = (s.checkExpires l).redact := by
  simp -implicitDefEqProofs [State.checkExpires, ite_redact]

@[simp] theorem forcedOpening_redact (s : State) (l : LaneId) : s.redact.forcedOpening l = (s.forcedOpening l).redact := by
  simp -implicitDefEqProofs [State.forcedOpening]

@[simp] theorem foundOpen_redact (s : State) (l : LaneId) : s.redact.foundOpen l = (s.foundOpen l).redact := by
  simp -implicitDefEqProofs [State.foundOpen]

@[simp] theorem drawerCloses_redact (s : State) (l : LaneId) : s.redact.drawerCloses l = (s.drawerCloses l).redact := by
  simp -implicitDefEqProofs [State.drawerCloses]

@[simp] theorem sensorChange_redact (s : State) (l : LaneId) : s.redact.sensorChange l = (s.sensorChange l).redact := by
  simp only [State.sensorChange, till_redact]
  split <;> simp

@[simp] theorem debounceExpires_redact (s : State) (l : LaneId) :
    s.redact.debounceExpires l = (s.debounceExpires l).redact := by
  simp -implicitDefEqProofs [State.debounceExpires, ite_redact]

@[simp] theorem leftOpenExpires_redact (s : State) (l : LaneId) :
    s.redact.leftOpenExpires l = (s.leftOpenExpires l).redact := by
  simp -implicitDefEqProofs [State.leftOpenExpires, ite_redact]

@[simp] theorem queuePlace_redact (s : State) (l : LaneId) : s.redact.queuePlace l = s.queuePlace l := rfl

@[simp] theorem joinQueue_redact (s : State) (l : LaneId) (token : Bool) :
    s.redact.joinQueue l token = (s.joinQueue l token).redact := by
  simp -implicitDefEqProofs [State.joinQueue, modLane_eq]

@[simp] theorem drawerReset_redact (s : State) (l : LaneId) : s.redact.drawerReset l = (s.drawerReset l).redact := by
  simp -implicitDefEqProofs [State.drawerReset, ite_redact]

/-! ## Staff authority (section 9.2) -/

@[simp] theorem grantStaff_redact (s : State) (l : LaneId) (src : AuthoritySource) (number : Nat) :
    s.redact.grantStaff l src number = (s.grantStaff l src number).redact := by
  simp -implicitDefEqProofs [State.grantStaff, modLane_eq]

@[simp] theorem dropStaff_redact (s : State) (l : LaneId) : s.redact.dropStaff l = (s.dropStaff l).redact := by
  simp -implicitDefEqProofs [State.dropStaff, modLane_eq]

@[simp] theorem staffExpires_redact (s : State) (l : LaneId) : s.redact.staffExpires l = (s.staffExpires l).redact := by
  cases h : (s.lane l).authority <;> simp -implicitDefEqProofs [State.staffExpires, h, ite_redact]

/-! ## Settings and the calibration store (sections 10.4 and 10.5) -/

@[simp] theorem linkSetting_redact (s : State) (old : Settings) : s.redact.linkSetting old = (s.linkSetting old).redact := by
  simp -implicitDefEqProofs [State.linkSetting, ite_redact]

@[simp] theorem polaritySetting_redact (old : Settings) (s : State) (l : LaneId) :
    State.polaritySetting old s.redact l = (State.polaritySetting old s l).redact := by
  simp -implicitDefEqProofs [State.polaritySetting, ite_redact]

@[simp] theorem budgetSetting_redact (s : State) (old : Settings) :
    s.redact.budgetSetting old = (s.budgetSetting old).redact := by
  simp -implicitDefEqProofs [State.budgetSetting, ite_redact]

@[simp] theorem writeSettings_redact (s : State) (t : Settings) : s.redact.writeSettings t = (s.writeSettings t).redact := by
  simp -implicitDefEqProofs [State.writeSettings, allLanes]

@[simp] theorem setStored_redact (s : State) (l : LaneId) (c : Chan) (e : StoreEntry) :
    s.redact.setStored l c e = (s.setStored l c e).redact := rfl

@[simp] theorem calWriteCompletes_redact (s : State) : s.redact.calWriteCompletes = s.calWriteCompletes.redact := by
  cases h : s.calWrite <;> simp -implicitDefEqProofs [State.calWriteCompletes, h]

/-! ## Start-up and the supply (section 10.6) -/

theorem audits_redact (s : State) : s.redact.audits = s.audits := rfl

theorem storeAfterLoss_redact (s : State) : s.redact.storeAfterLoss = s.storeAfterLoss.redact := by
  cases h : s.calWrite <;> simp -implicitDefEqProofs [State.storeAfterLoss, h]

/-- A reset keeps nothing of a card: it blanks the card units and the payment link. -/
theorem blank_redact (s : State) (cause : ResetCause) (check : SelfCheck) :
    s.redact.blank cause check = (s.blank cause check).redact := by
  unfold State.blank
  simp only [storeAfterLoss_redact, audits_redact, lane_redact, Lane.redact_till]
  rfl

@[simp] theorem startLane_redact (s : State) (l : LaneId) : s.redact.startLane l = (s.startLane l).redact := by
  simp -implicitDefEqProofs [State.startLane, ite_redact, modLane_eq]

@[simp] theorem compareSupply_redact (s : State) : s.redact.compareSupply = s.compareSupply.redact := by
  simp -implicitDefEqProofs [State.compareSupply, ite_redact]

@[simp] theorem startUp_redact (s : State) (cause : ResetCause) (check : SelfCheck) :
    s.redact.startUp cause check = (s.startUp cause check).redact := by
  have notice (u : State) : u.redact.helloNotice = u.helloNotice := rfl
  simp -implicitDefEqProofs [State.startUp, blank_redact, notice, allLanes]

@[simp] theorem readInputs_redact (s : State) (i : StartInputs) : s.redact.readInputs i = (s.readInputs i).redact := rfl

@[simp] theorem powerOn_redact (s : State) (i : StartInputs) : s.redact.powerOn i = (s.powerOn i).redact := by
  simp -implicitDefEqProofs [State.powerOn]

@[simp] theorem brownOut_redact (s : State) : s.redact.brownOut = s.brownOut.redact := by
  simp -implicitDefEqProofs [State.brownOut, blank_redact]

@[simp] theorem aboveBrownOut_redact (s : State) (i : StartInputs) :
    s.redact.aboveBrownOut i = (s.aboveBrownOut i).redact := by
  cases h : s.power <;> simp -implicitDefEqProofs [State.aboveBrownOut, h]

@[simp] theorem restartReset_redact (s : State) (check : SelfCheck) :
    s.redact.restartReset check = (s.restartReset check).redact := by
  simp -implicitDefEqProofs [State.restartReset, ite_redact]

@[simp] theorem supplyFalls_redact (s : State) : s.redact.supplyFalls = s.supplyFalls.redact := by
  simp -implicitDefEqProofs [State.supplyFalls, ite_redact]

@[simp] theorem supplyRises_redact (s : State) : s.redact.supplyRises = s.supplyRises.redact := by
  simp -implicitDefEqProofs [State.supplyRises, ite_redact]

end Sys2Proof.Machine
end

