-- ==== Sys2Proof/Proofs/RedactedLaneRequests.lean ====
section
/-! SUPPORT. The requests to a lane at a state without the digits of its cards (R98, R99, R106): the answer is the same, and
the state left is the same without the digits. -/

namespace Sys2Proof.Machine

/-! ## Answers -/

/-- A reply, and the state left without the digits of its cards. -/
def redactReply (r : Reply × State) : Reply × State := (r.1, r.2.redact)

@[simp] theorem reply_redact (r : Reply) (s : State) : (r, s.redact) = redactReply (r, s) := rfl

@[simp] theorem refuse_redact (c : Code) (s : State) : refuse c s.redact = redactReply (refuse c s) := rfl

@[simp] theorem accept_redact (d : List Byte) (s : State) : accept d s.redact = redactReply (accept d s) := rfl

/-- A choice between two replies. -/
theorem ite_redactReply (c : Prop) [Decidable c] (x y : Reply × State) :
    (if c then redactReply x else redactReply y) = redactReply (if c then x else y) := (apply_ite redactReply c x y).symm

@[simp] theorem refuseBagBusy_redact (l : LaneId) (s : State) : refuseBagBusy l s.redact = redactReply (refuseBagBusy l s) := by
  simp [refuseBagBusy]

/-! ## The basket and the bag check (chapters 3 and 4) -/

@[simp] theorem itemOf_redact (s : State) (code : Nat) : s.redact.itemOf code = s.itemOf code := rfl

@[simp] theorem takeItem_redact (l : LaneId) (code : BitVec 48) (quantity : Byte) (price : BitVec 32) (skip : Byte)
    (s : State) : takeItem l code quantity price skip s.redact = redactReply (takeItem l code quantity price skip s) := by
  cases h : s.itemOf code.toNat with
  | none => simp -implicitDefEqProofs [takeItem, h, ite_redactReply]
  | some r => cases k : r.kind <;> simp -implicitDefEqProofs [takeItem, h, k, ite_redactReply, modLane_eq]

@[simp] theorem takeVoid_redact (l : LaneId) (position : Byte) (s : State) :
    takeVoid l position s.redact = redactReply (takeVoid l position s) := by
  cases hb : (s.lane l).basketState with
  | empty => simp [takeVoid, hb]
  | tendering => simp [takeVoid, hb]
  | settled => simp [takeVoid, hb]
  | opened =>
    cases he : (s.lane l).entryAt position.toNat with
    | none => simp [takeVoid, hb, he]
    | some e =>
      cases k : e.bag <;>
        simp -implicitDefEqProofs [takeVoid, hb, he, k, ite_redactReply, ite_redact, modLane_eq]

@[simp] theorem takeCancelWeigh_redact (l : LaneId) (s : State) :
    takeCancelWeigh l s.redact = redactReply (takeCancelWeigh l s) := by
  simp -implicitDefEqProofs [takeCancelWeigh, ite_redactReply]

@[simp] theorem Lane.addTender_redact (n : Lane) (x : Tender) : n.redact.addTender x = (n.addTender x).redact := rfl

@[simp] theorem takeTender_redact (l : LaneId) (kind : Byte) (amount : BitVec 32) (s : State) :
    takeTender l kind amount s.redact = redactReply (takeTender l kind amount s) := by
  cases h : tenderKindOf kind <;> simp -implicitDefEqProofs [takeTender, h, ite_redactReply]

@[simp] theorem Lane.clearBasket_redact (n : Lane) : n.redact.clearBasket = n.clearBasket.redact := rfl

@[simp] theorem takeNewBasket_redact (l : LaneId) (s : State) :
    takeNewBasket l s.redact = redactReply (takeNewBasket l s) := by
  cases hb : (s.lane l).basketState with
  | settled =>
    cases k : (s.lane l).till.state <;> simp [takeNewBasket, takeNewBasket.cleared, hb, k, modLane_eq]
  | _ => simp [takeNewBasket, hb]

@[simp] theorem takeAbandonBasket_redact (l : LaneId) (s : State) :
    takeAbandonBasket l s.redact = redactReply (takeAbandonBasket l s) := by
  simp -implicitDefEqProofs [takeAbandonBasket, modLane_eq, ite_redactReply]

@[simp] theorem takeBasketRead_redact (l : LaneId) (start : Byte) (s : State) :
    takeBasketRead l start s.redact = redactReply (takeBasketRead l start s) := by
  simp -implicitDefEqProofs [takeBasketRead, basketDetail, ite_redactReply]

@[simp] theorem takeBagOverride_redact (l : LaneId) (s : State) :
    takeBagOverride l s.redact = redactReply (takeBagOverride l s) := by
  simp -implicitDefEqProofs [takeBagOverride, ite_redactReply]

/-! ## The weighing channels (chapter 1) -/

/-- A request with a channel field, when what it does with a channel gives the same reply. -/
theorem withChannel_redact (channel : Byte) (s : State) {f g : Chan → Reply × State}
    (h : ∀ c, f c = redactReply (g c)) : withChannel channel s.redact f = redactReply (withChannel channel s g) := by
  unfold withChannel
  cases chanOf channel with
  | none => rfl
  | some c => exact h c

@[simp] theorem takeChannelStart_redact (l : LaneId) (channel : Byte) (s : State) :
    takeChannelStart l channel s.redact = redactReply (takeChannelStart l channel s) := by
  refine withChannel_redact channel s fun c => ?_
  have started : takeChannelStart.started l s.redact c = redactReply (takeChannelStart.started l s c) := by
    simp [takeChannelStart.started]
  cases hs : (s.chan l c).state with
  | fault => cases hc : (s.chan l c).cause <;> simp -implicitDefEqProofs [hs, hc, started, ite_redactReply]
  | _ => simp -implicitDefEqProofs [hs, started, ite_redactReply]

@[simp] theorem takeChannelStop_redact (l : LaneId) (channel : Byte) (s : State) :
    takeChannelStop l channel s.redact = redactReply (takeChannelStop l channel s) :=
  withChannel_redact channel s fun c => by simp -implicitDefEqProofs [ite_redactReply, ite_redact]

@[simp] theorem takeChannelSetup_redact (l : LaneId) (channel filterLength stabilityLength : Byte) (s : State) :
    takeChannelSetup l channel filterLength stabilityLength s.redact =
      redactReply (takeChannelSetup l channel filterLength stabilityLength s) :=
  withChannel_redact channel s fun c => by simp -implicitDefEqProofs [ite_redactReply]

@[simp] theorem takeZeroRequest_redact (l : LaneId) (channel : Byte) (s : State) :
    takeZeroRequest l channel s.redact = redactReply (takeZeroRequest l channel s) := by
  refine withChannel_redact channel s fun c => ?_
  cases hs : (s.chan l c).state with
  | running =>
    cases he : (s.chan l c).latest <;> cases hk : (s.chan l c).calib <;>
      simp -implicitDefEqProofs [hs, he, hk, ite_redactReply]
  | _ => simp [hs]

@[simp] theorem tareTaken_redact (l : LaneId) (c : Chan) (x : Int) (k : TareKind) (s : State) :
    tareTaken l c x k s.redact = redactReply (tareTaken l c x k s) := by
  simp [tareTaken]

@[simp] theorem takeTareWeighed_redact (l : LaneId) (channel : Byte) (s : State) :
    takeTareWeighed l channel s.redact = redactReply (takeTareWeighed l channel s) := by
  refine withChannel_redact channel s fun c => ?_
  cases hs : (s.chan l c).state with
  | running =>
    cases hg : (s.chan l c).latest.bind (·.g) <;> cases hk : (s.chan l c).calib <;>
      simp -implicitDefEqProofs [hs, hg, hk, ite_redactReply]
  | _ => simp -implicitDefEqProofs [hs, ite_redactReply]

@[simp] theorem takeTarePreset_redact (l : LaneId) (channel form : Byte) (value : BitVec 32) (s : State) :
    takeTarePreset l channel form value s.redact = redactReply (takeTarePreset l channel form value s) := by
  refine withChannel_redact channel s fun c => ?_
  cases hs : (s.chan l c).state with
  | running => cases hk : (s.chan l c).calib <;> simp -implicitDefEqProofs [hs, hk, ite_redactReply]
  | _ => simp -implicitDefEqProofs [hs, ite_redactReply]

@[simp] theorem takeClearTare_redact (l : LaneId) (channel : Byte) (s : State) :
    takeClearTare l channel s.redact = redactReply (takeClearTare l channel s) :=
  withChannel_redact channel s fun c => by simp -implicitDefEqProofs [ite_redactReply]

/-! ## The card slot and the drawer (chapters 6 and 7) -/

theorem Lane.setSlot_redact (n : Lane) (o : Option Slot) :
    n.redact.setSlot (o.map Slot.redact) = (n.setSlot o).redact := rfl

theorem modSlot_redact (s : State) (l : LaneId) (o : Option Slot) :
    s.redact.modLane l (fun n => n.setSlot (o.map Slot.redact)) = (s.modLane l fun n => n.setSlot o).redact := by
  rw [modLane_eq, lane_redact, Lane.setSlot_redact, setLane_redact, modLane_eq]

@[simp] theorem modSlot_none_redact (s : State) (l : LaneId) :
    s.redact.modLane l (fun n => n.setSlot none) = (s.modLane l fun n => n.setSlot none).redact :=
  modSlot_redact s l none

@[simp] theorem slotStateValue_redact (o : Option Slot) : slotStateValue (o.map Slot.redact) = slotStateValue o := by
  cases o <;> rfl

@[simp] theorem slotAnswer_redact (l : LaneId) (s : State) : slotAnswer l s.redact = redactReply (slotAnswer l s) := by
  simp [slotAnswer]

theorem cardResultOf_redact (n : Lane) (x : Slot) (num : Nat) (o : HandoffOutcome) (rcv : Option Byte) (a : Option Approval) :
    cardResultOf n.redact x.redact num o rcv a = cardResultOf n x num o rcv a := by
  unfold cardResultOf
  simp only [Lane.redact_basketState]
  rfl

@[simp] theorem offerResult_redact (s : State) (l : LaneId) (r : CardResult) :
    s.redact.offerResult l r = (s.offerResult l r).redact := by
  simp [State.offerResult, modLane_eq]

@[simp] theorem transmit_abort_redact (s : State) (l : LaneId) (num : Nat) :
    s.redact.transmit (abortFrame l num) = (s.transmit (abortFrame l num)).redact := by
  have same : redactFrame (abortFrame l num) = abortFrame l num := rfl
  have joined : s.pay.transmit.map redactFrame ++ [abortFrame l num] =
      (s.pay.transmit ++ [abortFrame l num]).map redactFrame := by
    rw [List.map_append, List.map_singleton, same]
  unfold State.transmit
  rw [State.redact_transmit, joined]
  rfl

@[simp] theorem takeCancelCard_redact (l : LaneId) (s : State) :
    takeCancelCard l s.redact = redactReply (takeCancelCard l s) := by
  cases hx : (s.lane l).card.slot with
  | none => simp [takeCancelCard, hx]
  | some x =>
    have phase : x.redact.phase = x.phase := rfl
    cases hp : x.phase with
    | waiting => simp [takeCancelCard, hx, phase, hp, cardResultOf_redact]
    | aborting => simp [takeCancelCard, hx, phase, hp]
    | inFlight =>
      cases hf : s.pay.inFlight with
      | none => simp [takeCancelCard, hx, phase, hp, hf]
      | some f =>
        have aborted (u : State) :
            (u.redact.modLane l fun n => n.setSlot (some { x.redact with phase := .aborting })) =
              (u.modLane l fun n => n.setSlot (some { x with phase := .aborting })).redact :=
          modSlot_redact u l (some { x with phase := .aborting })
        simp [takeCancelCard, hx, phase, hp, hf, aborted]

@[simp] theorem drawerOpened_redact (l : LaneId) (token : Bool) (s : State) :
    drawerOpened l token s.redact = redactReply (drawerOpened l token s) := by
  simp [drawerOpened]

@[simp] theorem takeDrawerOpen_redact (l : LaneId) (s : State) :
    takeDrawerOpen l s.redact = redactReply (takeDrawerOpen l s) := by
  cases h : (s.lane l).till.state <;> simp -implicitDefEqProofs [takeDrawerOpen, h, ite_redactReply]

@[simp] theorem takeDrawerClear_redact (l : LaneId) (s : State) :
    takeDrawerClear l s.redact = redactReply (takeDrawerClear l s) := by
  simp -implicitDefEqProofs [takeDrawerClear, ite_redactReply]

/-! ## Printing (chapter 8) -/

@[simp] theorem takePrintBegin_redact (l : LaneId) (s : State) :
    takePrintBegin l s.redact = redactReply (takePrintBegin l s) := by
  simp -implicitDefEqProofs [takePrintBegin, ite_redactReply]

@[simp] theorem takePrintData_redact (l : LaneId) (job : Byte) (octets : List Byte) (s : State) :
    takePrintData l job octets s.redact = redactReply (takePrintData l job octets s) := by
  cases h : (s.lane l).fillingOf job <;>
    simp -implicitDefEqProofs [takePrintData, h, scanOctets_redact, ite_redactReply]

@[simp] theorem takePrintEnd_redact (l : LaneId) (job : Byte) (s : State) :
    takePrintEnd l job s.redact = redactReply (takePrintEnd l job s) := by
  cases h : (s.lane l).fillingOf job <;> simp [takePrintEnd, h, modLane_eq]

@[simp] theorem takePrintCancel_redact (l : LaneId) (job : Byte) (s : State) :
    takePrintCancel l job s.redact = redactReply (takePrintCancel l job s) := by
  cases h : (s.lane l).job job.toNat <;> simp [takePrintCancel, h, modLane_eq, Lane.cancelJob_redact]

/-! ## Lane control and status (chapters 9 and 10) -/

@[simp] theorem Lane.modeRefusal_redact (n : Lane) (m : LaneMode) : n.redact.modeRefusal m = n.modeRefusal m := by
  unfold Lane.modeRefusal
  simp only [Lane.redact_basketState]
  rfl

@[simp] theorem modeAnswer_redact (l : LaneId) (s : State) : modeAnswer l s.redact = redactReply (modeAnswer l s) := by
  simp [modeAnswer]

@[simp] theorem takeLaneMode_redact (l : LaneId) (target : Byte) (s : State) :
    takeLaneMode l target s.redact = redactReply (takeLaneMode l target s) := by
  cases hm : laneModeOf target with
  | none => simp [takeLaneMode, hm]
  | some m =>
    cases hr : (s.lane l).modeRefusal m <;>
      simp -implicitDefEqProofs [takeLaneMode, hm, hr, ite_redactReply, modLane_eq, Lane.bagModeChange_redact]

@[simp] theorem laneAttention_redact (l : LaneId) (set : BitVec 16) (g : Attention → BitVec 16 → Attention) (s : State) :
    laneAttention l set g s.redact = redactReply (laneAttention l set g s) := by
  simp -implicitDefEqProofs [laneAttention, ite_redactReply]

@[simp] theorem Lane.withTerminal_redact (n : Lane) : n.redact.withTerminal = n.withTerminal := by
  unfold Lane.withTerminal
  rw [Lane.redact_slot]
  cases n.card.slot <;> rfl

theorem Lane.reset1_redact (n : Lane) : n.redact.reset1 = n.reset1.redact := by
  unfold Lane.reset1
  rw [← Lane.bagReset_redact]
  rfl

@[simp] theorem takeLaneReset_redact (l : LaneId) (s : State) :
    takeLaneReset l s.redact = redactReply (takeLaneReset l s) := by
  simp -implicitDefEqProofs [takeLaneReset, modLane_eq, Lane.reset1_redact, ite_redactReply]

@[simp] theorem takeStaffGrant_redact (l : LaneId) (number : BitVec 32) (s : State) :
    takeStaffGrant l number s.redact = redactReply (takeStaffGrant l number s) := by
  simp -implicitDefEqProofs [takeStaffGrant, ite_redactReply]

@[simp] theorem takeStaffWithdraw_redact (l : LaneId) (s : State) :
    takeStaffWithdraw l s.redact = redactReply (takeStaffWithdraw l s) := by
  simp [takeStaffWithdraw]

@[simp] theorem counted_redact (s : State) : s.redact.counted = s.counted.redact := rfl

@[simp] theorem towerLight_redact (s : State) (l : LaneId) : s.redact.towerLight l = s.towerLight l := by
  have lane : s.redact.lanes.get l = (s.lanes.get l).redact := lane_redact s l
  simp only [State.towerLight, lane]
  rfl

@[simp] theorem weighField_redact (s : State) (n : Lane) : weighField s.redact n.redact = weighField s n := rfl

@[simp] theorem bagCheckOctets_redact (s : State) (n : Lane) : bagCheckOctets s.redact n.redact = bagCheckOctets s n := rfl

@[simp] theorem drawerOctets_redact (s : State) (l : LaneId) (n : Lane) :
    drawerOctets s.redact l n.redact = drawerOctets s l n := rfl

/-- What the host reads of a slot is its masked form (R117). -/
@[simp] theorem slotOctets_redact (s : State) (l : LaneId) (n : Lane) :
    slotOctets s.redact l n.redact = slotOctets s l n := by
  unfold slotOctets
  rw [Lane.redact_slot]
  cases n.card.slot <;> rfl

@[simp] theorem takeLaneStatus_redact (l : LaneId) (part : Byte) (s : State) :
    takeLaneStatus l part s.redact = redactReply (takeLaneStatus l part s) := by
  have lane : laneSection s.redact l = laneSection s l := by simp [laneSection]
  have weighing : weighingSection s.redact l = weighingSection s l := by simp [weighingSection]
  have card : cardSection s.redact l = cardSection s l := by simp [cardSection]
  have print : printSection s.redact l = printSection s l := by simp [printSection]
  unfold takeLaneStatus
  split <;> simp [*]

end Sys2Proof.Machine
end

