-- ==== Sys2Proof/Proofs/RedactedTrunk.lean ====
section
/-! SUPPORT. The requests to the part and the trunk link at a state without the digits of its cards (R98, R99, R106): every
frame that leaves upstream is the same. -/

namespace Sys2Proof.Machine

/-! ## Requests to the part (chapters 9 and 10) -/

@[simp] theorem partAttention_redact (set : BitVec 16) (g : Attention → BitVec 16 → Attention) (s : State) :
    partAttention set g s.redact = redactReply (partAttention set g s) := by
  simp -implicitDefEqProofs [partAttention, ite_redactReply]

/-- The payment link tells the host of the hand-off and the stray, never of the transmit list (R173). -/
theorem partStatusDetail_redact (s : State) : partStatusDetail s.redact = partStatusDetail s := rfl

@[simp] theorem takePartStatus_redact (s : State) : takePartStatus s.redact = redactReply (takePartStatus s) := by
  rw [takePartStatus, partStatusDetail_redact, counted_redact, accept_redact, takePartStatus]

@[simp] theorem takeHello_redact (s : State) : takeHello s.redact = redactReply (takeHello s) := rfl

@[simp] theorem takeSettingsWrite_redact (raw : RawSettings) (s : State) :
    takeSettingsWrite raw s.redact = redactReply (takeSettingsWrite raw s) := by
  cases h : settingsOf raw <;> simp [takeSettingsWrite, h]

@[simp] theorem takeSettingsRead_redact (s : State) : takeSettingsRead s.redact = redactReply (takeSettingsRead s) := rfl

@[simp] theorem takeSetDate_redact (year month day : Byte) (s : State) :
    takeSetDate year month day s.redact = redactReply (takeSetDate year month day s) := by
  simp -implicitDefEqProofs [takeSetDate, ite_redactReply]

@[simp] theorem takeRestart_redact (s : State) : takeRestart s.redact = redactReply (takeRestart s) := by
  simp -implicitDefEqProofs [takeRestart, ite_redactReply]

@[simp] theorem loadAnswer_redact {α : Type} (x : Load α) (w : Nat) (s : State) :
    loadAnswer x w s.redact = redactReply (loadAnswer x w s) := by
  cases h : x.refusal <;> simp [loadAnswer, h]

@[simp] theorem takeItemPut_redact (records : List RawItem) (s : State) :
    takeItemPut records s.redact = redactReply (takeItemPut records s) := by
  simp [takeItemPut]

@[simp] theorem takeItemRemove_redact (code : BitVec 48) (s : State) :
    takeItemRemove code s.redact = redactReply (takeItemRemove code s) := by
  simp -implicitDefEqProofs [takeItemRemove, ite_redactReply]

@[simp] theorem takeItemClear_redact (s : State) : takeItemClear s.redact = redactReply (takeItemClear s) := rfl

@[simp] theorem takeItemGet_redact (code : BitVec 48) (s : State) :
    takeItemGet code s.redact = redactReply (takeItemGet code s) := by
  cases h : s.itemOf code.toNat <;> simp -implicitDefEqProofs [takeItemGet, h, ite_redactReply]

@[simp] theorem takeBinPut_redact (records : List RawRange) (s : State) :
    takeBinPut records s.redact = redactReply (takeBinPut records s) := by
  simp [takeBinPut]

@[simp] theorem takeBinRemove_redact (low : BitVec 32) (s : State) :
    takeBinRemove low s.redact = redactReply (takeBinRemove low s) := by
  simp -implicitDefEqProofs [takeBinRemove, ite_redactReply]

@[simp] theorem takeBinClear_redact (s : State) : takeBinClear s.redact = redactReply (takeBinClear s) := rfl

@[simp] theorem takeBinRead_redact (start : BitVec 32) (s : State) :
    takeBinRead start s.redact = redactReply (takeBinRead start s) := by
  simp -implicitDefEqProofs [takeBinRead, ite_redactReply]

@[simp] theorem glyphAnswer_redact (q : List Glyph) (s : State) :
    glyphAnswer q s.redact = redactReply (glyphAnswer q s) := rfl

@[simp] theorem takeGlyphPut_redact (code : Byte) (pattern : List Byte) (s : State) :
    takeGlyphPut code pattern s.redact = redactReply (takeGlyphPut code pattern s) := by
  simp -implicitDefEqProofs [takeGlyphPut, ite_redactReply]

@[simp] theorem takeGlyphClear_redact (code : Byte) (s : State) :
    takeGlyphClear code s.redact = redactReply (takeGlyphClear code s) := by
  simp -implicitDefEqProofs [takeGlyphClear, ite_redactReply]

@[simp] theorem takeCalWrite_redact (lane channel : Byte) (record : RawCal) (tag : Byte) (s : State) :
    takeCalWrite lane channel record tag s.redact = redactReply (takeCalWrite lane channel record tag s) := by
  cases hl : laneOf lane <;> cases hc : chanOf channel <;>
    simp -implicitDefEqProofs [takeCalWrite, hl, hc, ite_redactReply]

@[simp] theorem takeCalRead_redact (lane channel : Byte) (s : State) :
    takeCalRead lane channel s.redact = redactReply (takeCalRead lane channel s) := by
  cases hl : laneOf lane <;> cases hc : chanOf channel <;> simp [takeCalRead, hl, hc]

/-! ## Dispatch (R170) -/

@[simp] theorem toLane_redact (addr : Byte) (s : State) (g : LaneId → Reply × State) :
    toLane addr s.redact (fun l => redactReply (g l)) = redactReply (toLane addr s g) := by
  unfold toLane
  cases laneOf addr <;> rfl

@[simp] theorem toRecord_redact (addr : Byte) (set : BitVec 16) (g : Attention → BitVec 16 → Attention) (s : State) :
    toRecord addr set g s.redact = redactReply (toRecord addr set g s) := by
  simp -implicitDefEqProofs [toRecord, ite_redactReply]

@[simp] theorem take_redact (i : Instr) (s : State) : take i s.redact = redactReply (take i s) := by
  cases i <;> simp [take]

@[simp] theorem dispatchTests_redact (s : State) (f : Frame) : s.redact.dispatchTests f = s.dispatchTests f := rfl

@[simp] theorem replyTo_redact (s : State) (f : Frame) : s.redact.replyTo f = redactReply (s.replyTo f) := by
  cases h : s.dispatchTests f <;> simp [State.replyTo, h]

@[simp] theorem settle_redact (f : Frame) (place : Nat) (r : Reply × State) :
    settle f place (redactReply r) = (settle f place r).redact := by
  obtain ⟨reply, s⟩ := r
  cases reply <;> rfl

@[simp] theorem dispatch_redact (s : State) (f : Frame) : s.redact.dispatch f = (s.dispatch f).redact := by
  have reserved : s.redact.reserve = s.reserve.redact := rfl
  rw [State.dispatch, reserved, replyTo_redact, State.redact_upstream, settle_redact, State.dispatch]

@[simp] theorem drain_redact (n : Nat) (s : State) : State.drain n s.redact = (State.drain n s).redact := by
  induction n generalizing s with
  | zero => rfl
  | succ n ih =>
    have next (rest : List Frame) : s.redact.setBuffer rest = (s.setBuffer rest).redact := rfl
    cases h : s.receiveBuffer <;> simp -implicitDefEqProofs [State.drain, h, next, ih, ite_redact]

/-! ## The trunk link (R169, R171, R172) -/

@[simp] theorem discardFrame_redact (s : State) : s.redact.discardFrame = s.discardFrame.redact := by
  simp [State.discardFrame]

@[simp] theorem arrive_redact (s : State) (f : Frame) : s.redact.arrive f = (s.arrive f).redact := by
  have heard : s.redact.heardHost = s.heardHost.redact := rfl
  have next (u : State) (rest : List Frame) : u.redact.setBuffer rest = (u.setBuffer rest).redact := rfl
  simp -implicitDefEqProofs [State.arrive, heard, next, ite_redact]

@[simp] theorem frameSent_redact (s : State) : s.redact.frameSent = s.frameSent.redact := by
  cases hu : s.upstream with
  | nil => simp [State.frameSent, hu]
  | cons f rest =>
    cases hr : s.restart with
    | none => simp [State.frameSent, hu, hr]
    | some k => cases k <;> simp [State.frameSent, hu, hr]

@[simp] theorem linkExpires_redact (s : State) : s.redact.linkExpires = s.linkExpires.redact := by
  simp -implicitDefEqProofs [State.linkExpires, ite_redact]

@[simp] theorem request_redact (s : State) (i : Instr) : s.redact.request i = (s.request i).redact := by
  cases h : encodeRequest i <;> simp -implicitDefEqProofs [State.request, h, State.onPart, ite_redact]

@[simp] theorem withCalEn_redact (s : State) (level : Bool) : s.redact.withCalEn level = (s.withCalEn level).redact := rfl

end Sys2Proof.Machine
end

