-- ==== Sys2Proof/Proofs/RedactedPayment.lean ====
section
/-! SUPPORT. The payment link and the card reader at a state without the digits of its cards (R98, R99, R106). A grant reads
the digits of a slot for its HANDOFF, and an accepted swipe writes them into the slot: what such an operation leaves is the
same once the digits are erased again. -/

namespace Sys2Proof.Machine

/-! ## The digits erased twice -/

theorem redactFrame_redactFrame (f : Frame) : redactFrame (redactFrame f) = redactFrame f := by
  by_cases h : isHandoff f = true
  · have again : isHandoff { f with payload := [] } = true := h
    rw [redactFrame, redactFrame, if_pos h, if_pos again]
  · rw [redactFrame, redactFrame, if_neg h, if_neg h]

@[simp] theorem isHandoff_redactFrame (f : Frame) : isHandoff (redactFrame f) = isHandoff f := by
  unfold redactFrame
  split <;> rfl

theorem Lane.redact_redact (n : Lane) : n.redact.redact = n.redact := by
  have twice : (n.card.slot.map Slot.redact).map Slot.redact = n.card.slot.map Slot.redact := by
    cases n.card.slot <;> rfl
  exact congrArg n.setSlot twice

/-- The payment link without the payloads of its HANDOFF frames. -/
def PayLink.redact (p : PayLink) : PayLink := { p with transmit := p.transmit.map redactFrame }

/-- The payment link replaced: the digits of the lanes and those of the new link are erased apart. -/
theorem pay_redact (s : State) {p q : PayLink} (h : p.redact = q.redact) :
    State.redact { s.redact with pay := p } = State.redact { s with pay := q } := by
  have lanes : (Four.make fun l => (s.redact.lane l).redact) = Four.make fun l => (s.lane l).redact := by
    simp only [lane_redact, Lane.redact_redact]
  exact congrArg₂ (fun n x => ({ s with lanes := n, pay := x } : State)) lanes h

theorem State.redact_redact (s : State) : s.redact.redact = s.redact := by
  refine pay_redact s (p := s.pay.redact) (q := s.pay) ?_
  unfold PayLink.redact
  simp only [List.map_map, Function.comp_def, redactFrame_redactFrame]

/-! ## Operations that hide the digits -/

/-- What the operation leaves, but for the digits, does not depend on the digits. -/
def HidesDigits (g : State → State) : Prop := ∀ s, (g s.redact).redact = (g s).redact

theorem State.redact_eq {s u : State} (h : s = u.redact) : s.redact = u.redact := by
  rw [h, State.redact_redact]

/-- An operation that neither reads nor writes the digits. -/
theorem hidesDigits_of_redact {g : State → State} (h : ∀ s, g s.redact = (g s).redact) : HidesDigits g :=
  fun s => State.redact_eq (h s)

/-- Two states equal but for the digits go to two states equal but for the digits. -/
theorem HidesDigits.apply {g : State → State} (h : HidesDigits g) {s u : State} (he : s.redact = u.redact) :
    (g s).redact = (g u).redact := by
  rw [← h s, he, h u]

/-- A choice, when each branch is the same but for the digits. -/
theorem ite_sameRedact (c : Prop) [Decidable c] {s t u v : State} (h : s.redact = u.redact) (k : t.redact = v.redact) :
    (if c then s else t).redact = (if c then u else v).redact := by
  split <;> assumption

theorem HidesDigits.onLane {l : LaneId} {g : State → State} (h : HidesDigits g) : HidesDigits fun s => s.onLane l g :=
  fun s => ite_sameRedact _ (h s) s.redact_redact

theorem HidesDigits.onPart {g : State → State} (h : HidesDigits g) : HidesDigits fun s => s.onPart g :=
  fun s => ite_sameRedact _ (h s) s.redact_redact

/-! ## The payment link (chapter 6) -/

@[simp] theorem Lane.slotWaiting_redact (n : Lane) : n.redact.slotWaiting = n.slotWaiting := by
  unfold Lane.slotWaiting
  rw [Lane.redact_slot]
  cases n.card.slot <;> rfl

/-- The payload of a HANDOFF is erased (R106). -/
theorem redactFrame_handoff (l : LaneId) (num : Nat) (x y : Slot) :
    redactFrame (handoffFrame l num x) = redactFrame (handoffFrame l num y) := rfl

theorem grant_redact (s : State) (l : LaneId) (x : Slot) :
    (s.redact.grant l x.redact).redact = (s.grant l x).redact := by
  unfold State.grant
  rw [← modSlot_redact, ← modSlot_redact]
  refine congrArg₂ (fun u o => State.modLane u l fun n => n.setSlot o) (pay_redact s ?_) rfl
  unfold PayLink.redact
  simp only [State.redact_transmit, State.redact_counter, List.map_append, List.map_map, Function.comp_def,
    redactFrame_redactFrame, List.map_cons, List.map_nil, redactFrame_handoff l _ x.redact x]
  rfl

theorem tryGrant_redact : HidesDigits State.tryGrant := fun s => by
  have handoff : s.redact.pay.transmit.any isHandoff = s.pay.transmit.any isHandoff := by
    simp only [State.redact_transmit, List.any_map, Function.comp_def, isHandoff_redactFrame]
  unfold State.tryGrant
  simp only [State.redact_inFlight, State.redact_pointer, handoff, lane_redact, Lane.slotWaiting_redact, Lane.redact_slot]
  refine ite_sameRedact _ s.redact_redact ?_
  cases (circular s.pay.pointer).find? fun l => (s.lane l).slotWaiting with
  | none => exact s.redact_redact
  | some l =>
    dsimp only
    cases (s.lane l).card.slot with
    | none => exact s.redact_redact
    | some x => exact grant_redact s l x

/-- An ABORT is no HANDOFF: it is found in the transmit list with and without the digits. -/
theorem withdrawAbort_redact (l : LaneId) (num : Nat) (q : List Frame) :
    withdrawAbort (abortFrame l num) (q.map redactFrame) = (withdrawAbort (abortFrame l num) q).map redactFrame := by
  have differs (x : Frame) (h : isHandoff x = true) : (x != abortFrame l num) = true := by
    refine bne_iff_ne.mpr ?_
    rintro rfl
    exact absurd h Bool.false_ne_true
  have same (x : Frame) : (redactFrame x != abortFrame l num) = (x != abortFrame l num) := by
    by_cases h : isHandoff x = true
    · rw [differs x h, differs (redactFrame x) ((isHandoff_redactFrame x).trans h)]
    · rw [redactFrame, if_neg h]
  cases q with
  | nil => rfl
  | cons f q => simp only [withdrawAbort, List.map_cons, List.filter_map, Function.comp_def, same]

theorem handoffEnd_redact (s : State) (f : InFlight) (x : Slot) (o : HandoffOutcome) (rcv : Option Byte)
    (a : Option Approval) :
    (s.redact.handoffEnd f x.redact o rcv a).redact = (s.handoffEnd f x o rcv a).redact := by
  have freed (u : State) (q : List Frame) :
      ({ u.redact with
          pay := { u.redact.pay with response := none, inFlight := none, transmit := q.map redactFrame } } : State) =
        State.redact { u with pay := { u.pay with response := none, inFlight := none, transmit := q } } := rfl
  have withdrawn (u : State) :
      (if rcv.isSome then withdrawAbort (abortFrame f.lane f.number) u.redact.pay.transmit else u.redact.pay.transmit) =
        (if rcv.isSome then withdrawAbort (abortFrame f.lane f.number) u.pay.transmit else u.pay.transmit).map redactFrame := by
    rw [State.redact_transmit, withdrawAbort_redact, apply_ite (List.map redactFrame)]
  unfold State.handoffEnd
  simp only [modSlot_none_redact, withdrawn, freed, lane_redact, cardResultOf_redact, offerResult_redact]
  exact tryGrant_redact _

@[simp] theorem stray_redact (s : State) (r : ResultFrame) : s.redact.stray r = (s.stray r).redact := by
  have noted (u : State) (x : Option Stray) : ({ u.redact with pay := { u.redact.pay with lastStray := x } } : State) =
    State.redact { u with pay := { u.pay with lastStray := x } } := rfl
  simp only [State.stray, offerPart_redact, noted, raisePart_redact]

theorem verdict_redact (s : State) (f : InFlight) (x : Slot) (r : ResultFrame) :
    (s.redact.verdict f x.redact r).redact = (s.verdict f x r).redact := by
  have tendered (u : Tender) : (s.redact.modLane f.lane fun n => { n with tenders := n.tenders ++ [u] }) =
      (s.modLane f.lane fun n => { n with tenders := n.tenders ++ [u] }).redact := modLane_redact s f.lane fun _ => rfl
  unfold State.verdict
  cases r.used with
  | approved =>
    dsimp only
    rw [tendered]
    exact handoffEnd_redact ..
  | declined => exact handoffEnd_redact ..
  | failed => exact handoffEnd_redact ..
  | cancelled => exact s.redact_redact
  | timedOut => exact s.redact_redact

theorem takeResult_redact (r : ResultFrame) : HidesDigits fun s => s.takeResult r := fun s => by
  unfold State.takeResult
  simp only [State.redact_inFlight, lane_redact, Lane.redact_slot, stray_redact]
  cases s.pay.inFlight with
  | none => exact State.redact_redact _
  | some f =>
    refine ite_sameRedact _ ?_ (State.redact_redact _)
    cases (s.lane f.lane).card.slot with
    | none => exact s.redact_redact
    | some x => exact verdict_redact s f x r

theorem paymentDiscarded_redact (s : State) : s.redact.paymentDiscarded = s.paymentDiscarded.redact := rfl

theorem paymentArrive_redact (f : Frame) : HidesDigits fun s => s.paymentArrive f := fun s => by
  unfold State.paymentArrive
  cases readResult f with
  | none => exact State.redact_eq (paymentDiscarded_redact s)
  | some r => exact takeResult_redact r s

theorem paymentBroken_redact (cause : PaymentDiscard) : HidesDigits fun s => s.paymentBroken cause := fun s => by
  cases cause with
  | gap => exact State.redact_eq (paymentDiscarded_redact s)
  | length => exact State.redact_eq (paymentDiscarded_redact s)
  | check => exact State.redact_eq (paymentDiscarded_redact s)
  | kind f => exact paymentArrive_redact f s
  | payloadLength f => exact paymentArrive_redact f s

theorem responseExpires_redact : HidesDigits State.responseExpires := fun s => by
  unfold State.responseExpires
  simp only [State.redact_response, State.redact_inFlight, lane_redact, Lane.redact_slot]
  refine ite_sameRedact _ s.redact_redact ?_
  cases s.pay.inFlight with
  | none => exact s.redact_redact
  | some f =>
    dsimp only
    cases (s.lane f.lane).card.slot with
    | none => exact s.redact_redact
    | some x =>
      have sent : (if x.redact.phase = .inFlight then s.redact.transmit (abortFrame f.lane f.number) else s.redact) =
          (if x.phase = .inFlight then s.transmit (abortFrame f.lane f.number) else s).redact := by
        rw [transmit_abort_redact]
        exact ite_redact ..
      simp only [Option.map_some, sent]
      exact handoffEnd_redact ..

theorem paymentSent_redact : HidesDigits State.paymentSent := fun s => by
  have taken (q : List Frame) : ({ s.redact with pay := { s.redact.pay with transmit := q.map redactFrame } } : State) =
    State.redact { s with pay := { s.pay with transmit := q } } := rfl
  unfold State.paymentSent
  rw [State.redact_transmit]
  cases s.pay.transmit with
  | nil => exact s.redact_redact
  | cons f q =>
    simp only [List.map_cons, isHandoff_redactFrame, taken]
    exact ite_sameRedact _ (tryGrant_redact _) (State.redact_redact _)

/-! ## The end of a swipe (chapter 5) -/

@[simp] theorem reportSwipe_redact (s : State) (l : LaneId) (e : CardEvent) :
    s.redact.reportSwipe l e = (s.reportSwipe l e).redact := by
  have last : (s.redact.modLane l fun n => { n with card := { n.card with lastSwipe := some e } }) =
      (s.modLane l fun n => { n with card := { n.card with lastSwipe := some e } }).redact := modLane_redact s l fun _ => rfl
  simp only [State.reportSwipe, last, offerLane_redact]

/-- A swipe that is only reported. -/
theorem reportSwipe_hides (l : LaneId) (e : CardEvent) : HidesDigits fun s => s.reportSwipe l e :=
  hidesDigits_of_redact fun s => reportSwipe_redact s l e

theorem refuseSwipe_hides (l : LaneId) (why : CardReason) : HidesDigits fun s => s.refuseSwipe l why :=
  reportSwipe_hides l _

@[simp] theorem paymentTests_redact (s : State) (l : LaneId) : s.redact.paymentTests l = s.paymentTests l := by
  simp [State.paymentTests]

/-- Swipes with one masked form are accepted alike: the slot shows no more of them, nor does the CARD_EVENT (R98, R99). -/
theorem paymentSwipe_redact (s : State) (l : LaneId) {w w' : Swipe} {r : CardRange}
    (h : maskAccount w.account r = maskAccount w'.account r) :
    (s.redact.paymentSwipe l w r).redact = (s.paymentSwipe l w' r).redact := by
  have filled (m : Masked) (amount : Nat) :
      (s.redact.modLane l fun n => n.setSlot (some (newSlot w m amount))).redact =
        (s.modLane l fun n => n.setSlot (some (newSlot w' m amount))).redact := by
    rw [← modSlot_redact, ← modSlot_redact, State.redact_redact]
    rfl
  unfold State.paymentSwipe
  simp only [paymentTests_redact, lane_redact, Lane.redact_bagCheck, Lane.redact_due, h]
  cases s.paymentTests l with
  | some why => exact reportSwipe_hides l _ s
  | none => exact tryGrant_redact.apply ((reportSwipe_hides l _).apply (filled _ _))

theorem staffSwipe_redact (s : State) (l : LaneId) (w : Swipe) (r : CardRange) :
    s.redact.staffSwipe l w r = (s.staffSwipe l w r).redact := by
  simp -implicitDefEqProofs [State.staffSwipe, ite_redact]

theorem classRule_redact (l : LaneId) (w : Swipe) (r : CardRange) : HidesDigits fun s => s.classRule l w r := fun s => by
  have expiry : s.redact.expiryTest w = s.expiryTest w := rfl
  unfold State.classRule
  cases r.cardClass with
  | loyalty => exact reportSwipe_hides l _ s
  | blocked => exact reportSwipe_hides l _ s
  | noClass => exact reportSwipe_hides l _ s
  | payment =>
    simp only [expiry]
    cases s.expiryTest w with
    | some why => exact reportSwipe_hides l _ s
    | none => exact paymentSwipe_redact s l rfl
  | staff =>
    simp only [expiry]
    cases s.expiryTest w with
    | some why => exact reportSwipe_hides l _ s
    | none => exact State.redact_eq (staffSwipe_redact s l w r)

theorem checkDigitStep_redact (l : LaneId) (w : Swipe) (r : CardRange) : HidesDigits fun s => s.checkDigitStep l w r :=
  fun s => ite_sameRedact _ (reportSwipe_hides l _ s) (classRule_redact l w r s)

theorem secondSwipe_redact (s : State) (l : LaneId) (x : Slot) :
    s.redact.secondSwipe l x.redact = (s.secondSwipe l x).redact := modSlot_redact s l (some { x with second := true })

theorem classify_redact (l : LaneId) (w : Swipe) : HidesDigits fun s => s.classify l w := fun s => by
  have range : s.redact.rangeFor (prefixOf w.account) = s.rangeFor (prefixOf w.account) := rfl
  unfold State.classify
  simp only [range, lane_redact, Lane.redact_slot]
  cases s.rangeFor (prefixOf w.account) with
  | none => exact reportSwipe_hides l _ s
  | some r =>
    refine ite_sameRedact _ (reportSwipe_hides l _ s) ?_
    cases r.cardClass with
    | payment =>
      cases (s.lane l).card.slot with
      | none => exact checkDigitStep_redact l w r s
      | some x => exact State.redact_eq (secondSwipe_redact s l x)
    | loyalty => exact checkDigitStep_redact l w r s
    | staff => exact checkDigitStep_redact l w r s
    | blocked => exact checkDigitStep_redact l w r s
    | noClass => exact checkDigitStep_redact l w r s

theorem judge_redact (l : LaneId) (body : List (BitVec 4)) (lrc : BitVec 4) (parityError : Bool) :
    HidesDigits fun s => s.judge l body lrc parityError := fun s => by
  refine ite_sameRedact _ (refuseSwipe_hides l _ s) (ite_sameRedact _ (refuseSwipe_hides l _ s) ?_)
  cases parseSwipe body with
  | none => exact refuseSwipe_hides l _ s
  | some w => exact classify_redact l w s

/-! ## The reader (R86 to R88) -/

/-- A card unit without the digits of its slot. -/
def CardUnit.redact (u : CardUnit) : CardUnit := { u with slot := u.slot.map Slot.redact }

theorem Lane.redact_card (n : Lane) : n.redact.card = n.card.redact := rfl

theorem setCard_redact (s : State) (l : LaneId) {u v : CardUnit} (h : v = u.redact) :
    (s.redact.setCard l v).redact = (s.setCard l u).redact := by
  refine State.redact_eq ?_
  rw [h, State.setCard, State.setCard, modLane_eq, lane_redact, modLane_eq]
  exact setLane_redact s l { s.lane l with card := u }

theorem readerChar_redact (l : LaneId) (v : BitVec 4) (p : Bool) : HidesDigits fun s => s.readerChar l v p := fun s => by
  unfold State.readerChar
  dsimp only
  rw [lane_redact, Lane.redact_card]
  refine ite_sameRedact _ (ite_sameRedact _ (setCard_redact s l rfl) s.redact_redact)
    (ite_sameRedact _ ?_ (ite_sameRedact _ ?_ (setCard_redact s l rfl)))
  · exact (refuseSwipe_hides l .tooLong).apply (setCard_redact s l rfl)
  · exact (judge_redact l _ _ _).apply (setCard_redact s l rfl)

theorem gapExpires_redact (l : LaneId) : HidesDigits fun s => s.gapExpires l := fun s => by
  unfold State.gapExpires
  dsimp only
  rw [lane_redact, Lane.redact_card]
  exact ite_sameRedact _ ((refuseSwipe_hides l .incomplete).apply (setCard_redact s l rfl)) s.redact_redact

end Sys2Proof.Machine
end

