-- ==== Sys2Proof/Proofs/HiddenDigits.lean ====
section
/-! What the host may not learn of a card (R98, R99, R102, R106, R117): every command hides the digits, the masked form shows
no more than its range allows, and the obligation. -/

namespace Sys2Proof.Machine

/-- Each command goes on to a state that, but for the digits, does not depend on the digits. -/
theorem exec_hides (c : Instr) : ∃ g : State → State, (∀ s, exec c s = .next (g s)) ∧ HidesDigits g := by
  have part {g : State → State} (h : ∀ s, g s.redact = (g s).redact) : HidesDigits fun s => s.onPart g :=
    (hidesDigits_of_redact h).onPart
  have lane (l : LaneId) {g : State → State} (h : ∀ s, g s.redact = (g s).redact) : HidesDigits fun s => s.onLane l g :=
    (hidesDigits_of_redact h).onLane
  have level (en : Bool) {g : State → State} (h : HidesDigits g) : HidesDigits fun s => g (s.withCalEn en) :=
    fun s => h (s.withCalEn en)
  have request (i : Instr) : HidesDigits fun s => s.request i := hidesDigits_of_redact fun s => request_redact s i
  cases c with
  | calWrite _ _ _ _ en => exact ⟨_, fun _ => rfl, level en (request _)⟩
  | calWriteComplete => exact ⟨_, fun _ => rfl, part calWriteCompletes_redact⟩
  | goodFrame f en => exact ⟨_, fun _ => rfl, level en (part fun s => arrive_redact s f)⟩
  | frameError _ => exact ⟨_, fun _ => rfl, part discardFrame_redact⟩
  | upstreamFrameSent en => exact ⟨_, fun _ => rfl, level en (part frameSent_redact)⟩
  | restartReset check => exact ⟨_, fun _ => rfl, hidesDigits_of_redact fun s => restartReset_redact s check⟩
  | linkSilenceExpiry => exact ⟨_, fun _ => rfl, part linkExpires_redact⟩
  | powerOn inputs => exact ⟨_, fun _ => rfl, hidesDigits_of_redact fun s => powerOn_redact s inputs⟩
  | brownOut => exact ⟨_, fun _ => rfl, hidesDigits_of_redact brownOut_redact⟩
  | supplyLowSet => exact ⟨_, fun _ => rfl, hidesDigits_of_redact supplyFalls_redact⟩
  | supplyLowClear => exact ⟨_, fun _ => rfl, hidesDigits_of_redact supplyRises_redact⟩
  | sampleArrival l ch raw => exact ⟨_, fun _ => rfl, lane l fun s => sample_redact s l ch raw.toNat⟩
  | channelSilenceExpiry l ch => exact ⟨_, fun _ => rfl, lane l fun s => silenceExpires_redact s l ch⟩
  | initialZeroExpiry l ch => exact ⟨_, fun _ => rfl, lane l fun s => initialZeroExpires_redact s l ch⟩
  | displayTimerExpiry l ch => exact ⟨_, fun _ => rfl, lane l fun s => displayExpires_redact s l ch⟩
  | weighTimerExpiry l => exact ⟨_, fun _ => rfl, lane l fun s => weighExpires_redact s l⟩
  | placementTimerExpiry l => exact ⟨_, fun _ => rfl, lane l fun s => placementExpires_redact s l⟩
  | removalTimerExpiry l => exact ⟨_, fun _ => rfl, lane l fun s => removalExpires_redact s l⟩
  | readerCharacter l v p => exact ⟨_, fun _ => rfl, (readerChar_redact l v p).onLane⟩
  | gapTimerExpiry l => exact ⟨_, fun _ => rfl, (gapExpires_redact l).onLane⟩
  | result addr tag outcome amount approval =>
    exact ⟨_, fun _ => rfl, (paymentArrive_redact (resultOnLine addr tag outcome amount approval)).onPart⟩
  | paymentFrameSent => exact ⟨_, fun _ => rfl, paymentSent_redact.onPart⟩
  | responseTimerExpiry => exact ⟨_, fun _ => rfl, responseExpires_redact.onPart⟩
  | drawerSensorLevel l high =>
    exact ⟨_, fun _ => rfl, fun s => by
      rw [sensorPin_redact]
      exact lane l (fun s => debounceUpdate_redact s l) (s.sensorPin l high)⟩
  | debounceTimerExpiry l => exact ⟨_, fun _ => rfl, lane l fun s => debounceExpires_redact s l⟩
  | pulseTimerExpiry l => exact ⟨_, fun _ => rfl, lane l fun s => pulseExpires_redact s l⟩
  | checkTimerExpiry l => exact ⟨_, fun _ => rfl, lane l fun s => checkExpires_redact s l⟩
  | leftOpenExpiry l => exact ⟨_, fun _ => rfl, lane l fun s => leftOpenExpires_redact s l⟩
  | lineDone l _ => exact ⟨_, fun _ => rfl, lane l fun s => printerArrive_redact s l _⟩
  | lineFailed l _ => exact ⟨_, fun _ => rfl, lane l fun s => printerArrive_redact s l _⟩
  | printerStatus l report => exact ⟨_, fun _ => rfl, lane l fun s => printerArrive_redact s l (statusOnLine report)⟩
  | printerSilenceExpiry l => exact ⟨_, fun _ => rfl, lane l fun s => printerSilent_redact s l⟩
  | answerTimerExpiry l => exact ⟨_, fun _ => rfl, lane l fun s => answerExpires_redact s l⟩
  | staffHoldExpiry l => exact ⟨_, fun _ => rfl, lane l fun s => staffExpires_redact s l⟩
  | supplyAboveBrownOut inputs => exact ⟨_, fun _ => rfl, hidesDigits_of_redact fun s => aboveBrownOut_redact s inputs⟩
  | paymentFrameDiscarded cause => exact ⟨_, fun _ => rfl, (paymentBroken_redact cause).onPart⟩
  | printerFrameDiscarded l cause => exact ⟨_, fun _ => rfl, lane l fun s => printerBroken_redact s l cause⟩
  | _ => exact ⟨_, fun _ => rfl, request _⟩

/-- The trail is the last digits of the account, as many as the range keeps (R99). -/
theorem maskAccount_trail_length {account : List Nat} {r : CardRange} (h : r.keepLast ≤ account.length) :
    (maskAccount account r).trail.length = r.keepLast := by
  rw [maskAccount, List.length_drop, Nat.sub_sub_self h]

/-- Settles O16: a command neither reads nor writes the digits but for the HANDOFF of a grant and the slot of an accepted swipe,
where they are erased; the bounds of the masked form are arithmetic on the range's at most 8 and 4 digits kept. -/
theorem hiddenDigitsStayHidden : Obligations.HiddenDigitsStayHidden := by
  refine ⟨?_, ?_, ?_⟩
  · intro c s s' h
    obtain ⟨g, hg, hides⟩ := exec_hides c
    exact ⟨g s, g s', hg s, hg s', hides.apply h⟩
  · intro s l w w' r h
    rw [← paymentSwipe_redact s l (rfl : maskAccount w.account r = _), paymentSwipe_redact s l h]
  · intro account r hlen hr m
    obtain ⟨⟨-, hfirst⟩, hlast⟩ : ((_ ∧ _) ∧ r.keepFirst ≤ 8) ∧ r.keepLast ≤ 4 := by
      simpa only [CardRange.valid, Bool.and_eq_true, decide_eq_true_eq] using hr
    have lead : m.lead.length = min (min r.keepFirst (account.length - r.keepLast - 3)) account.length :=
      maskAccount_lead_length account r
    have trail : m.trail.length = r.keepLast := maskAccount_trail_length (by omega)
    have hidden : m.hidden = account.length - min r.keepFirst (account.length - r.keepLast - 3) - r.keepLast := rfl
    refine ⟨rfl, by omega, by omega, maskAccount_lead account r, ?_, by omega, trail⟩
    rw [trail]
    rfl

end Sys2Proof.Machine
end

