-- ==== Sys2Proof/Proofs/LinkFrame.lean ====
section
/-! SUPPORT. What the law of the payment link reads of the part (R103, R104), and the operations of the other blocks that leave
it alone. -/

namespace Sys2Proof.Machine

/-! ## What the law reads -/

/-- What is with the terminal for a lane: the phase and the amount of a slot that is not WAITING (R103). -/
def Lane.handed (n : Lane) : Option (SlotPhase × Nat) :=
  n.card.slot.bind fun x => if x.phase = .waiting then none else some (x.phase, x.amount)

/-- What the law of the payment link reads of the part: the hand-off in flight, whether the response timer runs, the
counter, the transmit list, and what is with the terminal for each lane. -/
@[ext] structure Link where
  inFlight : Option InFlight
  timed : Bool
  counter : Nat
  transmit : List Frame
  handed : LaneId → Option (SlotPhase × Nat)

/-- The payment link and the slots as the law reads them. -/
def State.link (s : State) : Link :=
  { inFlight := s.pay.inFlight, timed := s.pay.response.isSome, counter := s.pay.counter, transmit := s.pay.transmit,
    handed := fun l => (s.lane l).handed }

theorem handed_of_slot {n m : Lane} (h : m.card.slot = n.card.slot) : m.handed = n.handed := by
  rw [Lane.handed, Lane.handed, h]

theorem handed_eq_none {n : Lane} : n.handed = none ↔ ∀ x ∈ n.card.slot, x.phase = .waiting := by
  unfold Lane.handed
  cases n.card.slot with
  | none => simp
  | some x => simp

theorem handed_eq_some {n : Lane} {p : SlotPhase} {k : Nat} :
    n.handed = some (p, k) ↔ ∃ x, n.card.slot = some x ∧ x.out ∧ x.phase = p ∧ x.amount = k := by
  unfold Lane.handed
  cases n.card.slot with
  | none => simp
  | some x => simp [Slot.out]

/-- A lane replaced: what is with the terminal for it is replaced. -/
theorem setLane_link_update (s : State) (l : LaneId) (n : Lane) :
    (s.setLane l n).link = { s.link with handed := Function.update s.link.handed l n.handed } := by
  refine Link.ext rfl rfl rfl rfl (funext fun m => ?_)
  change ((s.setLane l n).lane m).handed = Function.update s.link.handed l n.handed m
  by_cases hm : m = l
  · rw [hm, lane_setLane_same, Function.update_self]
  · rw [lane_setLane_ne s l m n hm, Function.update_of_ne hm]
    rfl

/-- A lane replaced by one for which the same is with the terminal. -/
theorem setLane_handed (s : State) (l : LaneId) (n : Lane) (h : n.handed = (s.lane l).handed) :
    (s.setLane l n).link = s.link := by
  rw [setLane_link_update, h]
  exact Link.ext rfl rfl rfl rfl (Function.update_eq_self ..)

theorem setLane_link (s : State) (l : LaneId) (n : Lane) (h : n.card.slot = (s.lane l).card.slot) :
    (s.setLane l n).link = s.link := setLane_handed s l n (handed_of_slot h)

@[simp] theorem modLane_link (s : State) (l : LaneId) (g : Lane → Lane)
    (h : (g (s.lane l)).card.slot = (s.lane l).card.slot) : (s.modLane l g).link = s.link := setLane_link s l _ h

@[simp] theorem setTill_link (s : State) (l : LaneId) (x : Till) : (s.setTill l x).link = s.link := modLane_link s l _ rfl

@[simp] theorem setBag_link (s : State) (l : LaneId) (x : BagCheck) : (s.setBag l x).link = s.link := modLane_link s l _ rfl

@[simp] theorem setPort_link (s : State) (l : LaneId) (x : Port) : (s.setPort l x).link = s.link := modLane_link s l _ rfl

@[simp] theorem setAttention_link (s : State) (l : LaneId) (x : Attention) : (s.setAttention l x).link = s.link :=
  modLane_link s l _ rfl

@[simp] theorem setChan_link (s : State) (l : LaneId) (c : Chan) (x : Channel) : (s.setChan l c x).link = s.link :=
  modLane_link s l _ (by simp)

@[simp] theorem modChan_link (s : State) (l : LaneId) (c : Chan) (g : Channel → Channel) :
    (s.modChan l c g).link = s.link := setChan_link s l c _

theorem setCard_link (s : State) (l : LaneId) (u : CardUnit) (h : u.slot = (s.lane l).card.slot) :
    (s.setCard l u).link = s.link := modLane_link s l _ h

/-! ## Conditions and notices -/

@[simp] theorem enqueue_link (s : State) (f : Frame) : (s.enqueue f).link = s.link := rfl

@[simp] theorem raiseLane_link (s : State) (l : LaneId) (c : LaneCond) : (s.raiseLane l c).link = s.link := by
  obtain h | ⟨a, h | ⟨f, -, h⟩⟩ := raiseLane_cases s l c <;> simp [h]

@[simp] theorem raisePart_link (s : State) (c : PartCond) : (s.raisePart c).link = s.link := by
  obtain h | ⟨a, h | ⟨f, -, h⟩⟩ := raisePart_cases s c <;> rw [h] <;> rfl

@[simp] theorem offerLane_link (s : State) (l : LaneId) (k : Byte) (p : List Byte) : (s.offerLane l k p).link = s.link := by
  unfold State.offerLane
  split <;> simp

@[simp] theorem offerPart_link (s : State) (k : Byte) (p : List Byte) : (s.offerPart k p).link = s.link := by
  unfold State.offerPart
  split <;> simp

@[simp] theorem displayCheck_link (s : State) (l : LaneId) (c : Chan) : (s.displayCheck l c).link = s.link := by
  obtain ⟨q, hq, -⟩ := offerDisplay_cases s l c (s.chan l c).shown
  unfold State.displayCheck
  dsimp only
  split
  · rfl
  · rw [hq, modChan_link]
    rfl

/-! ## The drawers (chapter 7) -/

@[simp] theorem offerDrawer_link (s : State) (l : LaneId) (e : DrawerEvent) (k : Option Nat) :
    (s.offerDrawer l e k).link = s.link := offerLane_link ..

@[simp] theorem admission_link (s : State) : s.admission.link = s.link := by
  have heads (k : Nat) (s : State) : (State.admitHeads k s).link = s.link := by
    induction k generalizing s with
    | zero => rfl
    | succ k ih =>
      unfold State.admitHeads
      split
      · rfl
      · exact (ih _).trans (setTill_link ..)
  exact heads 4 s

@[simp] theorem confirmRelease_link (s : State) (l : LaneId) : (s.confirmRelease l).link = s.link := by
  simp [State.confirmRelease]

@[simp] theorem toChecking_link (s : State) (l : LaneId) (cut : Bool) : (s.toChecking l cut).link = s.link := by
  unfold State.toChecking
  dsimp only
  rw [admission_link]
  split
  · exact (confirmRelease_link ..).trans (setTill_link ..)
  · exact setTill_link ..

@[simp] theorem cutDrawers_link (ls : List LaneId) (s : State) : (ls.foldl State.cutDrawer s).link = s.link := by
  induction ls generalizing s with
  | nil => rfl
  | cons l ls ih => exact (ih _).trans (toChecking_link s l true)

@[simp] theorem pulseExpires_link (s : State) (l : LaneId) : (s.pulseExpires l).link = s.link := by
  unfold State.pulseExpires
  split <;> simp

@[simp] theorem checkExpires_link (s : State) (l : LaneId) : (s.checkExpires l).link = s.link := by
  unfold State.checkExpires
  dsimp only
  split_ifs
  · rfl
  · exact (admission_link _).trans (setTill_link ..)
  · simp
  · exact (admission_link _).trans ((offerDrawer_link ..).trans (setTill_link ..))

@[simp] theorem sensorChange_link (s : State) (l : LaneId) : (s.sensorChange l).link = s.link := by
  have forced : (s.forcedOpening l).link = s.link :=
    (raiseLane_link ..).trans ((offerDrawer_link ..).trans (setTill_link ..))
  unfold State.sensorChange
  dsimp only
  split <;> simp [forced, State.foundOpen, State.drawerCloses]

@[simp] theorem debounceExpires_link (s : State) (l : LaneId) : (s.debounceExpires l).link = s.link := by
  unfold State.debounceExpires
  dsimp only
  split <;> simp

@[simp] theorem leftOpenExpires_link (s : State) (l : LaneId) : (s.leftOpenExpires l).link = s.link := by
  unfold State.leftOpenExpires
  dsimp only
  split <;> simp

@[simp] theorem joinQueue_link (s : State) (l : LaneId) (token : Bool) : (s.joinQueue l token).link = s.link :=
  (admission_link _).trans (modLane_link s l (fun n =>
    { n with token := if token then false else n.token, till := { n.till with state := .waitingPower, retry := false } }) rfl)

/-! ## Print jobs and the printer port (chapter 8) -/

/-- A lane that keeps its sale keeps its card slot. -/
theorem SameSale.slot {n m : Lane} (h : SameSale n m) : m.card.slot = n.card.slot := congrArg (·.2.2) h

@[simp] theorem suspend_link (s : State) (l : LaneId) (j : Job) (why : SuspendReason) : (s.suspend l j why).link = s.link := by
  simp [State.suspend, State.offerPrint, Lane.modJob]

@[simp] theorem selectJob_link (s : State) (l : LaneId) : (s.selectJob l).link = s.link := by
  unfold State.selectJob
  dsimp only
  split
  · rfl
  · split
    · rfl
    · split <;> simp [Lane.modJob]

@[simp] theorem port_link (s : State) (l : LaneId) : (s.port l).link = s.link := by
  have sent (s : State) (j : Job) (f : JobFrame) : (s.sendJobFrame l j f).link = s.link := modLane_link s l _ rfl
  have completed (s : State) (j : Job) : (s.completeJob l j).link = s.link :=
    (offerLane_link ..).trans (modLane_link s l _ rfl)
  have pump (k : Nat) (s : State) : (State.pump l k s).link = s.link := by
    induction k generalizing s with
    | zero => rfl
    | succ k ih =>
      unfold State.pump
      dsimp only
      repeat' split
      all_goals simp [sent, completed, ih]
  exact pump _ s

@[simp] theorem exchangeDone_link (s : State) (l : LaneId) (o : ExchangeOwner) : (s.exchangeDone l o).link = s.link := by
  cases o with
  | owedCut => exact modLane_link s l _ rfl
  | nobody => exact modLane_link s l _ rfl
  | job num => exact modLane_link s l _ ((s.lane l).frameDone_sameSale num).slot

@[simp] theorem exchangeFailed_link (s : State) (l : LaneId) (o : ExchangeOwner) (why : SuspendReason) :
    (s.exchangeFailed l o why).link = s.link := by
  unfold State.exchangeFailed
  dsimp only
  repeat' split
  all_goals simp

@[simp] theorem printerArrive_link (s : State) (l : LaneId) (f : Frame) : (s.printerArrive l f).link = s.link := by
  have stops (st : PrinterState) (why : SuspendReason) : (s.statusStops l st why).link = s.link := by
    unfold State.statusStops
    dsimp only
    split <;> simp
  have runs (st : PrinterState) : (s.statusRuns l st).link = s.link := by
    unfold State.statusRuns
    dsimp only
    split <;> simp [State.offerPrint, Lane.modJob]
  unfold State.printerArrive
  split
  · exact setPort_link s l _
  · unfold State.lineDone
    dsimp only
    split <;> simp
  · unfold State.lineFailed
    dsimp only
    split <;> simp
  · rename_i report _
    cases report <;> simp [State.printerStatus, stops, runs]

@[simp] theorem printerBroken_link (s : State) (l : LaneId) (cause : PrinterDiscard) :
    (s.printerBroken l cause).link = s.link := by
  cases cause <;> simp [State.printerBroken, State.printerDiscarded]

@[simp] theorem answerExpires_link (s : State) (l : LaneId) : (s.answerExpires l).link = s.link := by
  unfold State.answerExpires
  dsimp only
  repeat' split
  all_goals simp

@[simp] theorem printerSilent_link (s : State) (l : LaneId) : (s.printerSilent l).link = s.link := by
  unfold State.printerSilent
  dsimp only
  repeat' split
  all_goals simp

@[simp] theorem noteMissing_link (s : State) (l : LaneId) (refs : List Reference) : (s.noteMissing l refs).link = s.link := by
  unfold State.noteMissing
  split <;> simp

/-! ## The bag check (chapter 4) -/

@[simp] theorem offerBag_link (s : State) (l : LaneId) (e : BagEvent) (d : Option Int) (k : Nat) :
    (s.offerBag l e d k).link = s.link := offerLane_link ..

@[simp] theorem bagHold_link (s : State) (l : LaneId) (b d : Option Int) : (s.bagHold l b d).link = s.link := by
  simp [State.bagHold]

@[simp] theorem bagExpecting_link (s : State) (l : LaneId) (g m : Int) (after : BagState) (ev : BagEvent) :
    (s.bagExpecting l g m after ev).link = s.link := by
  unfold State.bagExpecting
  dsimp only
  split_ifs <;> simp [Lane.setEntryBag]

@[simp] theorem bagReading_link (s : State) (l : LaneId) (g : Int) (stable : Bool) :
    (s.bagReading l g stable).link = s.link := by
  have judged (s : State) : (s.bagStable l g).link = s.link := by
    unfold State.bagStable State.bagArmed State.bagSettled State.bagUnexpected
    dsimp only
    repeat' split
    all_goals simp
  unfold State.bagReading
  dsimp only
  split <;> simp [judged]

@[simp] theorem placementExpires_link (s : State) (l : LaneId) : (s.placementExpires l).link = s.link := by
  unfold State.placementExpires
  split <;> simp

@[simp] theorem removalExpires_link (s : State) (l : LaneId) : (s.removalExpires l).link = s.link := by
  unfold State.removalExpires
  split <;> simp

@[simp] theorem bagCancel_link (s : State) (l : LaneId) (pos : Nat) : (s.bagCancel l pos).link = s.link := by
  unfold State.bagCancel
  dsimp only
  repeat' split
  all_goals simp

@[simp] theorem bagOverridden_link (s : State) (l : LaneId) : (s.bagOverridden l).link = s.link := by
  have ended (x : BagCheck) : (s.setLane l { (s.lane l).endAwaited with bagCheck := x }).link = s.link :=
    setLane_link s l _ (Lane.endAwaited_sameSale (s.lane l)).slot
  unfold State.bagOverridden
  dsimp only
  split
  · exact ended _
  · exact (offerBag_link ..).trans (ended _)

@[simp] theorem bagLoss_link (s : State) (l : LaneId) : (s.bagLoss l).link = s.link := by
  unfold State.bagLoss
  dsimp only
  split <;> simp

@[simp] theorem bagRecovery_link (s : State) (l : LaneId) : (s.bagRecovery l).link = s.link := by
  unfold State.bagRecovery
  dsimp only
  split <;> simp

/-! ## Entries, captures and the weigh request (chapters 2 and 3) -/

@[simp] theorem endWeigh_link (s : State) (l : LaneId) (o : WeighOutcome) : (s.endWeigh l o).link = s.link := by
  unfold State.endWeigh
  split <;> simp

@[simp] theorem weighExpires_link (s : State) (l : LaneId) : (s.weighExpires l).link = s.link := by
  unfold State.weighExpires
  repeat' split
  all_goals simp

@[simp] theorem appendEntry_link (s : State) (l : LaneId) (e : Entry) : (s.appendEntry l e).link = s.link := by
  unfold State.appendEntry
  dsimp only
  split <;> simp [State.expectPlacement]

@[simp] theorem platterReading_link (s : State) (l : LaneId) (c : Calib) (r : Reading) (g : Int) :
    (s.platterReading l c r g).link = s.link := by
  have noted (s : State) (w : WeighRequest) (f : FailedTest) : (s.noteFailure l w f).link = s.link := by
    unfold State.noteFailure
    dsimp only
    split <;> simp
  have taken (s : State) (w : WeighRequest) (t : CaptureTare) (p : Nat) : (s.takeCapture l w t p).link = s.link := by
    simp only [State.takeCapture, offerLane_link, appendEntry_link]
    exact setLane_link s l _ rfl
  have armed : (if g ≤ ((5 * c.d1 : Nat) : Int) then s.modLane l fun n => { n with armed := true } else s).link = s.link := by
    split <;> simp
  unfold State.platterReading
  dsimp only
  rw [← armed]
  split
  · rfl
  · split <;> simp [noted, taken]

/-! ## The weighing channels (chapter 1) -/

@[simp] theorem handReading_link (s : State) (l : LaneId) (ch : Chan) (c : Calib) (r : Reading) (g : Int) :
    (s.handReading l ch c r g).link = s.link := by
  cases ch <;> simp [State.handReading]

@[simp] theorem enterFault_link (s : State) (l : LaneId) (c : Chan) (cause : FaultCause) (ret : Option ReturnState) :
    (s.enterFault l c cause ret).link = s.link := by
  unfold State.enterFault
  dsimp only
  split <;> simp

@[simp] theorem evaluate_link (s : State) (l : LaneId) (ch : Chan) (raw : Nat) : (s.evaluate l ch raw).link = s.link := by
  have running (s : State) : (s.reportRunning l ch).link = s.link := by cases ch <;> simp [State.reportRunning]
  unfold State.evaluate
  dsimp only
  repeat' split
  all_goals simp [State.finishEvaluation, running]

@[simp] theorem sample_link (s : State) (l : LaneId) (ch : Chan) (raw : Nat) : (s.sample l ch raw).link = s.link := by
  unfold State.sample State.sensorReturn
  dsimp only
  repeat' split
  all_goals simp

@[simp] theorem silenceExpires_link (s : State) (l : LaneId) (ch : Chan) : (s.silenceExpires l ch).link = s.link := by
  unfold State.silenceExpires
  dsimp only
  repeat' split
  all_goals simp

@[simp] theorem initialZeroExpires_link (s : State) (l : LaneId) (ch : Chan) :
    (s.initialZeroExpires l ch).link = s.link := by
  unfold State.initialZeroExpires
  dsimp only
  split <;> simp

@[simp] theorem displayExpires_link (s : State) (l : LaneId) (ch : Chan) : (s.displayExpires l ch).link = s.link := by
  unfold State.displayExpires
  split <;> simp

@[simp] theorem calWriteCompletes_link (s : State) : s.calWriteCompletes.link = s.link := by
  have copied (s : State) (l : LaneId) (c : Chan) (k : Calib) : (s.takeCopy l c k).link = s.link := by
    unfold State.takeCopy
    dsimp only
    split <;> simp
  unfold State.calWriteCompletes
  split
  · rfl
  · exact copied ..

@[simp] theorem startLane_link (s : State) (l : LaneId) : (s.startLane l).link = s.link := by
  have start (s : State) (c : Chan) (copy : Option Calib) : (s.startChannel l c copy).link = s.link := by
    unfold State.startChannel
    split <;> simp
  unfold State.startLane
  split <;> simp [start]

/-! ## Staff authority, settings, the supply, the trunk link's own (chapters 9 and 10) -/

@[simp] theorem grantStaff_link (s : State) (l : LaneId) (src : AuthoritySource) (number : Nat) :
    (s.grantStaff l src number).link = s.link := modLane_link s l _ rfl

@[simp] theorem dropStaff_link (s : State) (l : LaneId) : (s.dropStaff l).link = s.link := modLane_link s l _ rfl

@[simp] theorem staffExpires_link (s : State) (l : LaneId) : (s.staffExpires l).link = s.link := by
  unfold State.staffExpires
  repeat' split
  all_goals simp

@[simp] theorem writeSettings_link (s : State) (r : Settings) : (s.writeSettings r).link = s.link := by
  have timer (s : State) (old : Settings) : (s.linkSetting old).link = s.link := by
    unfold State.linkSetting
    split <;> rfl
  have polarity (old : Settings) (s : State) (l : LaneId) : (State.polaritySetting old s l).link = s.link := by
    unfold State.polaritySetting
    split <;> simp
  have budget (s : State) (old : Settings) : (s.budgetSetting old).link = s.link := by
    unfold State.budgetSetting
    split_ifs
    · exact admission_link s
    · exact cutDrawers_link _ s
    · rfl
  simp only [State.writeSettings, allLanes, List.foldl_cons, List.foldl_nil, budget, polarity, timer]
  rfl

@[simp] theorem supplyFalls_link (s : State) : s.supplyFalls.link = s.link := by
  unfold State.supplyFalls State.cutAll
  dsimp only
  split
  · rw [cutDrawers_link, raisePart_link]
    rfl
  · rfl

@[simp] theorem supplyRises_link (s : State) : s.supplyRises.link = s.link := by
  unfold State.supplyRises
  dsimp only
  split
  · rw [admission_link]
    rfl
  · rfl

@[simp] theorem discardFrame_link (s : State) : s.discardFrame.link = s.link := raisePart_link ..

@[simp] theorem linkExpires_link (s : State) : s.linkExpires.link = s.link := by
  unfold State.linkExpires
  split
  · rfl
  · rw [raisePart_link]
    rfl

@[simp] theorem compareSupply_link (s : State) : s.compareSupply.link = s.link := by
  unfold State.compareSupply
  split
  · rw [raisePart_link]
    rfl
  · rfl

end Sys2Proof.Machine
end

