-- ==== Sys2Proof/Proofs/LinkRequests.lean ====
section
/-! SUPPORT. The requests of the host that leave the payment link and what is with the terminal: all but CANCEL_CARD. -/

namespace Sys2Proof.Machine

theorem toLane_link {s : State} {addr : Byte} {g : LaneId → Reply × State} (h : ∀ l, (g l).2.link = s.link) :
    (toLane addr s g).2.link = s.link := by
  obtain ⟨l, hl⟩ | hl := toLane_cases addr s g <;> rw [hl]
  · exact h l
  · rfl

theorem withChannel_link {s : State} {b : Byte} {g : Chan → Reply × State} (h : ∀ c, (g c).2.link = s.link) :
    (withChannel b s g).2.link = s.link := by
  unfold withChannel
  split
  · rfl
  · exact h _

/-- A test of a request that chooses between two outcomes. -/
theorem link_ite {s : State} {p : Prop} [Decidable p] {a b : Reply × State} (ha : a.2.link = s.link)
    (hb : b.2.link = s.link) : (if p then a else b).2.link = s.link := by
  split <;> assumption

/-! ## Requests to the basket and the bag check (chapters 3 and 4) -/

theorem takeItem_link (l : LaneId) (code : BitVec 48) (q : Byte) (price : BitVec 32) (skip : Byte) (s : State) :
    (takeItem l code q price skip s).2.link = s.link := by
  have entered (e : Entry) : (itemCounted l e s).2.link = s.link := setLane_link s l _ (by
    unfold Lane.withEntry
    split <;> rfl)
  rw [takeItem_eq]
  dsimp only
  iterate 11 refine link_ite rfl ?_
  split
  · exact link_ite (setLane_link s l _ rfl) (entered _)
  · exact entered _

theorem takeVoid_link (l : LaneId) (p : Byte) (s : State) : (takeVoid l p s).2.link = s.link := by
  unfold takeVoid State.expectRemoval
  dsimp only
  repeat' split
  all_goals simp [Lane.setEntryBag]

theorem takeTender_link (l : LaneId) (k : Byte) (m : BitVec 32) (s : State) : (takeTender l k m s).2.link = s.link := by
  unfold takeTender
  dsimp only
  repeat' split
  all_goals simp [setLane_link, Lane.addTender]

theorem basketClear_link (l : LaneId) (s : State) : (basketClear l s).2.link = s.link :=
  (endWeigh_link ..).trans (modLane_link s l Lane.clearBasket rfl)

theorem takeNewBasket_link (l : LaneId) (s : State) : (takeNewBasket l s).2.link = s.link := by
  rw [takeNewBasket_eq]
  exact link_ite rfl (link_ite (endWeigh_link ..) (link_ite rfl (basketClear_link l s)))

theorem takeAbandonBasket_link (l : LaneId) (s : State) : (takeAbandonBasket l s).2.link = s.link := by
  rw [takeAbandonBasket_eq]
  iterate 5 refine link_ite rfl ?_
  exact basketClear_link l s

theorem takeLaneMode_link (l : LaneId) (m : Byte) (s : State) : (takeLaneMode l m s).2.link = s.link := by
  have changed (m : LaneMode) : (s.modLane l fun n => { n.bagModeChange n.mode m with mode := m }).link = s.link :=
    modLane_link s l _ (Lane.bagModeChange_sameSale (s.lane l) _ m).slot
  unfold takeLaneMode
  dsimp only
  repeat' split
  · rfl
  · rfl
  · rfl
  · exact changed _

theorem takeBagOverride_link (l : LaneId) (s : State) : (takeBagOverride l s).2.link = s.link := by
  unfold takeBagOverride
  dsimp only
  split_ifs <;> simp

/-! ## Requests to the weighing channels (chapter 1) -/

theorem takeChannelStart_link (l : LaneId) (b : Byte) (s : State) : (takeChannelStart l b s).2.link = s.link := by
  have started (c : Chan) : (takeChannelStart.started l s c).2.link = s.link :=
    (displayCheck_link ..).trans (modChan_link ..)
  refine withChannel_link fun c => ?_
  dsimp only
  repeat' split
  all_goals simp [started]

theorem takeChannelStop_link (l : LaneId) (b : Byte) (s : State) : (takeChannelStop l b s).2.link = s.link := by
  refine withChannel_link fun c => ?_
  dsimp only
  repeat' split
  all_goals simp

theorem takeZeroRequest_link (l : LaneId) (b : Byte) (s : State) : (takeZeroRequest l b s).2.link = s.link := by
  refine withChannel_link fun c => ?_
  dsimp only
  repeat' split
  all_goals simp

theorem takeTareWeighed_link (l : LaneId) (b : Byte) (s : State) : (takeTareWeighed l b s).2.link = s.link := by
  refine withChannel_link fun c => ?_
  dsimp only
  repeat' split
  all_goals simp [tareTaken]

theorem takeTarePreset_link (l : LaneId) (b f : Byte) (v : BitVec 32) (s : State) :
    (takeTarePreset l b f v s).2.link = s.link := by
  refine withChannel_link fun c => ?_
  dsimp only
  repeat' split
  all_goals simp [tareTaken]

/-! ## Requests to the drawer, the printer and the attention records (chapters 7, 8 and 9) -/

theorem takeDrawerOpen_link (l : LaneId) (s : State) : (takeDrawerOpen l s).2.link = s.link := by
  unfold takeDrawerOpen
  dsimp only
  repeat' split
  all_goals simp [drawerOpened]

theorem takeDrawerClear_link (l : LaneId) (s : State) : (takeDrawerClear l s).2.link = s.link := by
  unfold takeDrawerClear
  split <;> simp

theorem takePrintBegin_link (l : LaneId) (s : State) : (takePrintBegin l s).2.link = s.link := by
  unfold takePrintBegin
  dsimp only
  split_ifs <;> simp [setLane_link]

theorem takePrintData_link (l : LaneId) (job : Byte) (octets : List Byte) (s : State) :
    (takePrintData l job octets s).2.link = s.link := by
  unfold takePrintData
  dsimp only
  repeat' split
  · rfl
  · rfl
  · exact (noteMissing_link ..).trans (setLane_link s l _ (scanOctets_sameSale (s.lane l) _ octets).slot)

theorem takePrintEnd_link (l : LaneId) (job : Byte) (s : State) : (takePrintEnd l job s).2.link = s.link := by
  unfold takePrintEnd
  dsimp only
  split
  · rfl
  · simp [Lane.modJob]

theorem takePrintCancel_link (l : LaneId) (job : Byte) (s : State) : (takePrintCancel l job s).2.link = s.link := by
  unfold takePrintCancel State.offerPrint
  split
  · rfl
  · simp [Lane.cancelJob_eq, Lane.without]

theorem toRecord_link (addr : Byte) (set : BitVec 16) (g : Attention → BitVec 16 → Attention) (s : State) :
    (toRecord addr set g s).2.link = s.link := by
  unfold toRecord partAttention
  split_ifs
  · rfl
  · rfl
  · refine toLane_link fun l => ?_
    unfold laneAttention
    split <;> simp

/-! ## Requests to the part (chapters 3, 5, 8 and 10) -/

theorem takeItemPut_link (r : List RawItem) (s : State) : (takeItemPut r s).2.link = s.link := by
  rw [takeItemPut, loadAnswer_snd]
  rfl

theorem takeItemRemove_link (c : BitVec 48) (s : State) : (takeItemRemove c s).2.link = s.link := by
  unfold takeItemRemove
  exact link_ite rfl (link_ite rfl rfl)

theorem takeItemGet_link (c : BitVec 48) (s : State) : (takeItemGet c s).2.link = s.link := by
  unfold takeItemGet
  refine link_ite rfl ?_
  split <;> rfl

theorem takeBinPut_link (r : List RawRange) (s : State) : (takeBinPut r s).2.link = s.link := by
  rw [takeBinPut, loadAnswer_snd]
  rfl

theorem takeCalWrite_link (a c : Byte) (r : RawCal) (tag : Byte) (s : State) : (takeCalWrite a c r tag s).2.link = s.link := by
  unfold takeCalWrite
  split
  · iterate 7 refine link_ite rfl ?_
    rfl
  all_goals rfl

theorem takeCalRead_link (a c : Byte) (s : State) : (takeCalRead a c s).2.link = s.link := by
  unfold takeCalRead
  split <;> rfl

theorem takeSettingsWrite_link (r : RawSettings) (s : State) : (takeSettingsWrite r s).2.link = s.link := by
  unfold takeSettingsWrite
  split
  · rfl
  · dsimp only
    exact writeSettings_link s _

theorem takeLaneStatus_link (l : LaneId) (part : Byte) (s : State) : (takeLaneStatus l part s).2.link = s.link := by
  unfold takeLaneStatus
  split <;> rfl

/-! ## Every request but CANCEL_CARD -/

/-- LANE_RESET empties the slot, which it finds EMPTY or WAITING (R167). -/
theorem takeLaneReset_link (l : LaneId) (s : State) : (takeLaneReset l s).2.link = s.link := by
  rw [takeLaneReset_eq]
  dsimp only
  split
  · rfl
  · rename_i hx
    have waiting : (s.lane l).handed = none := handed_eq_none.mpr fun x hm => not_not.mp fun hp => hx ⟨x, hm, hp⟩
    have empty : (s.lane l).resetAll.handed = none := handed_eq_none.mpr nofun
    exact setLane_handed s l _ (empty.trans waiting.symm)

/-- Every request of the host but CANCEL_CARD leaves the payment link and what is with the terminal. -/
theorem take_link (i : Instr) (s : State) (hi : ∀ addr tag, i ≠ .cancelCard addr tag) : (take i s).2.link = s.link := by
  cases i with
  | item a _ c q p k => exact toLane_link fun l => takeItem_link l c q p k s
  | void a _ p => exact toLane_link fun l => takeVoid_link l p s
  | cancelWeigh a _ => exact toLane_link fun l => link_ite (endWeigh_link ..) rfl
  | tender a _ k m => exact toLane_link fun l => takeTender_link l k m s
  | newBasket a _ => exact toLane_link fun l => takeNewBasket_link l s
  | abandonBasket a _ => exact toLane_link fun l => takeAbandonBasket_link l s
  | basketRead a _ p => exact toLane_link fun l => link_ite rfl rfl
  | laneMode a _ m => exact toLane_link fun l => takeLaneMode_link l m s
  | channelStart a _ c => exact toLane_link fun l => takeChannelStart_link l c s
  | channelStop a _ c => exact toLane_link fun l => takeChannelStop_link l c s
  | channelSetup a _ c f m => exact toLane_link fun l => withChannel_link fun c => link_ite rfl (setChan_link ..)
  | zero a _ c => exact toLane_link fun l => takeZeroRequest_link l c s
  | tareWeighed a _ c _ => exact toLane_link fun l => takeTareWeighed_link l c s
  | tarePreset a _ c f v => exact toLane_link fun l => takeTarePreset_link l c f v s
  | clearTare a _ c => exact toLane_link fun l => withChannel_link fun c => link_ite rfl (modChan_link ..)
  | bagOverride a _ => exact toLane_link fun l => takeBagOverride_link l s
  | cancelCard a t => exact absurd rfl (hi a t)
  | drawerOpen a _ => exact toLane_link fun l => takeDrawerOpen_link l s
  | drawerClear a _ => exact toLane_link fun l => takeDrawerClear_link l s
  | printBegin a _ => exact toLane_link fun l => takePrintBegin_link l s
  | printData a _ j o => exact toLane_link fun l => takePrintData_link l j o s
  | printEnd a _ j => exact toLane_link fun l => takePrintEnd_link l j s
  | printCancel a _ j => exact toLane_link fun l => takePrintCancel_link l j s
  | laneStatus a _ n => exact toLane_link fun l => takeLaneStatus_link l n s
  | laneReset a _ => exact toLane_link fun l => takeLaneReset_link l s
  | staffGrant a _ n => exact toLane_link fun l => link_ite rfl (grantStaff_link ..)
  | staffWithdraw a _ => exact toLane_link fun l => dropStaff_link s l
  | clearAttention a _ c => exact toRecord_link a c _ s
  | attentionMask a _ c => exact toRecord_link a c _ s
  | settingsWrite _ r => exact takeSettingsWrite_link r s
  | setDate _ y m d => exact link_ite rfl rfl
  | restart _ => exact link_ite rfl rfl
  | itemPut _ r => exact takeItemPut_link r s
  | itemRemove _ c => exact takeItemRemove_link c s
  | itemGet _ c => exact takeItemGet_link c s
  | binPut _ r => exact takeBinPut_link r s
  | binRemove _ n => exact link_ite rfl (link_ite rfl rfl)
  | binRead _ n => exact link_ite rfl rfl
  | glyphPut _ c p => exact link_ite rfl rfl
  | glyphClear _ c => exact link_ite rfl rfl
  | calWrite t a c r _ => exact takeCalWrite_link a c r t s
  | calRead _ a c => exact takeCalRead_link a c s
  | _ => exact rfl

end Sys2Proof.Machine
end

