-- ==== Sys2Proof/Proofs/PaymentLink.lean ====
section
/-! The law of the payment link (R103, R104, R105, R112): its transmit list in three parts, the link IDLE and BUSY, and the
steps of the link itself. -/

namespace Sys2Proof.Machine

/-! ## The transmit list (R104) -/

/-- The three parts of the transmit list: the ABORT of the hand-off before the last grant, the HANDOFF of that grant, and the
ABORT of its own hand-off. `c` is the counter. -/
structure Sends (c : Nat) (before handoff after : List Frame) : Prop where
  before_le : before.length ≤ 1
  handoff_le : handoff.length ≤ 1
  after_le : after.length ≤ 1
  first : handoff = [] → before = []
  earlier : ∀ x ∈ before, ∃ num : Fin 256, nextHandoff num = c ∧ isAbort num x
  granted : ∀ x ∈ handoff, isHandoff x = true ∧ x.tag = octet c
  own : ∀ x ∈ after, isAbort c x ∧ ∀ h ∈ handoff, x.addr = h.addr

section
variable {c : Nat} {b h a : List Frame} (hs : Sends c b h a)
include hs

theorem Sends.sublist {a' : List Frame} (ha : a'.Sublist a) : Sends c b h a' :=
  { hs with after_le := ha.length_le.trans hs.after_le, own := fun x hx => hs.own x (ha.subset hx) }

/-- The last octet of the head is sent: the first part that is left loses its frame. -/
theorem Sends.tail {x : Frame} {q : List Frame} (hq : b ++ h ++ a = x :: q) :
    ∃ b' h' a', q = b' ++ h' ++ a' ∧ Sends c b' h' a' ∧ (∀ y ∈ h' ++ a', y ∈ h ++ a) ∧ (a = [] → a' = []) := by
  have handed (b' : List Frame) (hb : b' = []) : Sends c b' h a :=
    { hs with before_le := by simp [hb], first := fun _ => hb, earlier := by simp [hb] }
  have left : Sends c [] [] a :=
    { before_le := by simp, handoff_le := by simp, after_le := hs.after_le, first := fun _ => rfl, earlier := nofun,
      granted := nofun, own := fun y hy => ⟨(hs.own y hy).1, nofun⟩ }
  cases b with
  | cons y b =>
    obtain rfl : b = [] := List.length_eq_zero_iff.mp (by simpa using hs.before_le)
    exact ⟨[], h, a, (List.cons.inj hq).2.symm, handed [] rfl, fun _ hy => hy, id⟩
  | nil =>
    cases h with
    | cons y h =>
      obtain rfl : h = [] := List.length_eq_zero_iff.mp (by simpa using hs.handoff_le)
      exact ⟨[], [], a, (List.cons.inj hq).2.symm, left, fun _ hy => List.mem_cons_of_mem _ hy, id⟩
    | nil =>
      obtain rfl : a = x :: q := hq
      obtain rfl : q = [] := List.length_eq_zero_iff.mp (by simpa using hs.after_le)
      exact ⟨[], [], [], rfl, left.sublist (List.nil_sublist _), nofun, fun _ => rfl⟩

/-- A RESULT withdraws the ABORT of its hand-off, unless it stands at the head (R112 step 4, log 3). -/
theorem Sends.withdrawn (l : LaneId) (num : Nat) :
    ∃ a', withdrawAbort (abortFrame l num) (b ++ h ++ a) = b ++ h ++ a' ∧ a'.Sublist a := by
  have stays : h.filter (fun x => x != abortFrame l num) = h := List.filter_eq_self.mpr fun x hx => by
    refine bne_iff_ne.mpr ?_
    rintro rfl
    exact absurd (hs.granted _ hx).1 Bool.false_ne_true
  cases b with
  | cons y b =>
    obtain rfl : b = [] := List.length_eq_zero_iff.mp (by simpa using hs.before_le)
    refine ⟨a.filter fun x => x != abortFrame l num, ?_, List.filter_sublist⟩
    simp [withdrawAbort, stays]
  | nil =>
    cases h with
    | cons y h =>
      obtain rfl : h = [] := List.length_eq_zero_iff.mp (by simpa using hs.handoff_le)
      exact ⟨a.filter fun x => x != abortFrame l num, rfl, List.filter_sublist⟩
    | nil =>
      cases a with
      | nil => exact ⟨[], rfl, List.Sublist.refl []⟩
      | cons y a => exact ⟨y :: a.filter fun x => x != abortFrame l num, rfl, List.filter_sublist.cons_cons y⟩

/-- With no HANDOFF left, the ABORT of the last hand-off is the one before the hand-off that is granted now (R105). -/
theorem Sends.grant {f : Frame} (hc : c ≤ 255) (hn : ∀ x ∈ b ++ h ++ a, isHandoff x = false) (hf : isHandoff f = true)
    (ht : f.tag = octet (nextHandoff c)) : b ++ h ++ a = a ∧ Sends (nextHandoff c) a [f] [] := by
  have hh : h = [] := List.eq_nil_iff_forall_not_mem.mpr fun x hx =>
    Bool.false_ne_true ((hn x (by simp [hx])).symm.trans (hs.granted x hx).1)
  obtain rfl := hh
  obtain rfl := hs.first rfl
  refine ⟨rfl, ⟨hs.after_le, le_rfl, by simp, nofun, fun x hx => ?_, ?_, nofun⟩⟩
  · exact ⟨⟨c, by omega⟩, rfl, (hs.own x hx).1⟩
  · rintro x hx
    obtain rfl := List.mem_singleton.mp hx
    exact ⟨hf, ht⟩

omit hs in
/-- The ABORT of the hand-off joins the list (R113, R115). -/
theorem Sends.abort (hs : Sends c b h []) {l : LaneId} (hl : ∀ x ∈ h, x.addr = laneAddr l) :
    Sends c b h [abortFrame l c] :=
  { hs with
    after_le := le_rfl
    own := fun x hx => by
      obtain rfl := List.mem_singleton.mp hx
      exact ⟨⟨rfl, rfl, rfl⟩, fun y hy => (hl y hy).symm⟩ }

end

/-! ## The law by the state of the link (R103) -/

/-- The link is IDLE: nothing is with the terminal, and no timer runs. -/
structure Link.Idle (k : Link) : Prop where
  inFlight : k.inFlight = none
  timed : k.timed = false
  counter : k.counter ≤ 255
  handed : k.handed = fun _ => none
  sends : ∃ b h a, k.transmit = b ++ h ++ a ∧ Sends k.counter b h a

/-- The link is BUSY with a hand-off: the slot of its lane alone is with the terminal, in phase `p`. -/
structure Link.Busy (k : Link) (f : InFlight) (p : SlotPhase) : Prop where
  inFlight : k.inFlight = some f
  timed : k.timed = true
  counter : k.counter ≤ 255
  number : f.number = k.counter
  handed : k.handed = Function.update (fun _ => none) f.lane (some (p, f.amount))
  sends : ∃ b h a, k.transmit = b ++ h ++ a ∧ Sends k.counter b h a ∧ (∀ x ∈ h ++ a, x.addr = laneAddr f.lane) ∧
    (p = .inFlight → a = [])

section
variable {s t : State}

theorem LinkLaw.cases (hs : LinkLaw s) : s.link.Idle ∨ ∃ f p, s.link.Busy f p := by
  obtain ⟨hout, hin, hc, htimed, b, h, a, hq, hb, hh, ha, hfirst, hearlier, hgranted, hown, haddr, hnone⟩ := hs
  have sends : Sends s.link.counter b h a := ⟨hb, hh, ha, hfirst, hearlier, hgranted, hown⟩
  cases hf : s.pay.inFlight with
  | none =>
    refine .inl ⟨hf, htimed.trans (by rw [hf]; rfl), hc, funext fun l => handed_eq_none.mpr fun x hx => ?_,
      b, h, a, hq, sends⟩
    by_contra hp
    obtain ⟨f, hm, -⟩ := hout l x hx hp
    rw [hf] at hm
    exact nomatch hm
  | some f =>
    obtain ⟨hnum, x, hx, hp, hamount⟩ := hin f hf
    refine .inr ⟨f, x.phase, hf, htimed.trans (by rw [hf]; rfl), hc, hnum, funext fun l => ?_, b, h, a, hq, sends,
      haddr f hf, fun hphase => hnone ⟨f, hf, x, hx, hphase⟩⟩
    by_cases hl : l = f.lane
    · subst hl
      rw [Function.update_self]
      exact handed_eq_some.mpr ⟨x, hx, hp, rfl, hamount⟩
    · rw [Function.update_of_ne hl]
      refine handed_eq_none.mpr fun y hy => ?_
      by_contra hout'
      obtain ⟨f', hf', rfl⟩ := hout l y hy hout'
      rw [hf] at hf'
      exact hl (congrArg InFlight.lane (Option.some.inj hf').symm)

theorem Link.Idle.linkLaw (k : s.link.Idle) : LinkLaw s := by
  obtain ⟨b, h, a, hq, ⟨hb, hh, ha, hfirst, hearlier, hgranted, hown⟩⟩ := k.sends
  have hf : s.pay.inFlight = none := k.inFlight
  have notOut (l : LaneId) (x : Slot) (hx : x ∈ (s.lane l).card.slot) : ¬ x.out :=
    not_not.mpr (handed_eq_none.mp (congrFun k.handed l) x hx)
  refine ⟨fun l x hx hout => absurd hout (notOut l x hx), ?_, k.counter, ?_,
    b, h, a, hq, hb, hh, ha, hfirst, hearlier, hgranted, hown, ?_, ?_⟩
  · rw [hf]
    exact nofun
  · rw [hf]
    exact k.timed
  · rw [hf]
    exact nofun
  · rw [hf]
    exact fun ⟨_, hm, _⟩ => nomatch hm

theorem Link.Busy.linkLaw {f : InFlight} {p : SlotPhase} (k : s.link.Busy f p) : LinkLaw s := by
  obtain ⟨b, h, a, hq, ⟨hb, hh, ha, hfirst, hearlier, hgranted, hown⟩, haddr, hnone⟩ := k.sends
  have hf : s.pay.inFlight = some f := k.inFlight
  obtain ⟨x, hx, hp, hphase, hamount⟩ := handed_eq_some.mp ((congrFun k.handed f.lane).trans (Function.update_self ..))
  refine ⟨fun l y hy hout => ⟨f, hf, ?_⟩, ?_, k.counter, ?_,
    b, h, a, hq, hb, hh, ha, hfirst, hearlier, hgranted, hown, ?_, ?_⟩
  · by_contra hl
    exact hout (handed_eq_none.mp ((congrFun k.handed l).trans (Function.update_of_ne (Ne.symm hl) ..)) y hy)
  · rw [hf]
    rintro _ ⟨⟩
    exact ⟨k.number, x, hx, hp, hamount⟩
  · rw [hf]
    exact k.timed
  · rw [hf]
    rintro _ ⟨⟩
    exact haddr
  · rw [hf]
    rintro ⟨_, ⟨⟩, y, hy, hin⟩
    rw [hx] at hy
    obtain rfl := Option.some.inj hy
    exact hnone (hphase.symm.trans hin)

/-- The law reads no more than the link. -/
theorem LinkLaw.of_link (hs : LinkLaw s) (h : t.link = s.link) : LinkLaw t := by
  obtain k | ⟨f, p, k⟩ := hs.cases <;> rw [← h] at k
  · exact k.linkLaw
  · exact k.linkLaw

/-- A slot that is not WAITING is that of the hand-off in flight. -/
theorem LinkLaw.busy {l : LaneId} {x : Slot} (hs : LinkLaw s) (hx : (s.lane l).card.slot = some x) (hp : x.out) :
    ∃ f, l = f.lane ∧ x.amount = f.amount ∧ s.link.Busy f x.phase := by
  have handed : s.link.handed l = some (x.phase, x.amount) := handed_eq_some.mpr ⟨x, hx, hp, rfl, rfl⟩
  obtain k | ⟨f, p, k⟩ := hs.cases <;> rw [k.handed] at handed
  · exact nomatch handed
  · by_cases hl : l = f.lane
    · subst hl
      rw [Function.update_self, Option.some.injEq, Prod.mk.injEq] at handed
      obtain ⟨rfl, hamount⟩ := handed
      exact ⟨f, rfl, hamount.symm, k⟩
    · rw [Function.update_of_ne hl] at handed
      exact nomatch handed

/-- The hand-off in flight has its slot, which is not WAITING. -/
theorem LinkLaw.slot {f : InFlight} (hs : LinkLaw s) (hf : s.pay.inFlight = some f) :
    ∃ x, (s.lane f.lane).card.slot = some x ∧ s.link.Busy f x.phase := by
  obtain k | ⟨f', p, k⟩ := hs.cases
  · exact nomatch hf.symm.trans k.inFlight
  · obtain rfl : f = f' := Option.some.inj (hf.symm.trans k.inFlight)
    obtain ⟨x, hx, -, rfl, -⟩ := handed_eq_some.mp ((congrFun k.handed f.lane).trans (Function.update_self ..))
    exact ⟨x, hx, k⟩

/-! ## The grant test (R105) -/

theorem any_isHandoff_eq_false {q : List Frame} : q.any isHandoff = false ↔ ∀ x ∈ q, isHandoff x = false := by
  simp

/-- A grant finds the link IDLE with no HANDOFF in the transmit list, and makes it BUSY. -/
theorem Link.Idle.grant (k : s.link.Idle) (hn : s.pay.transmit.any isHandoff = false) (l : LaneId) (x : Slot) :
    LinkLaw (s.grant l x) := by
  obtain ⟨b, h, a, hq, hs⟩ := k.sends
  have hq' : s.pay.transmit = b ++ h ++ a := hq
  rw [hq', any_isHandoff_eq_false] at hn
  obtain ⟨hlist, hsends⟩ := hs.grant (f := handoffFrame l (nextHandoff s.pay.counter) x) k.counter hn rfl rfl
  have hnext : nextHandoff s.pay.counter ≤ 255 := by
    unfold nextHandoff
    split <;> omega
  have granted : (s.grant l x).link =
      ⟨some ⟨l, nextHandoff s.pay.counter, x.amount⟩, true, nextHandoff s.pay.counter,
        s.pay.transmit ++ [handoffFrame l (nextHandoff s.pay.counter) x],
        Function.update s.link.handed l (some (.inFlight, x.amount))⟩ := setLane_link_update ..
  refine Link.Busy.linkLaw (f := ⟨l, nextHandoff s.pay.counter, x.amount⟩) (p := .inFlight) ?_
  rw [granted]
  refine ⟨rfl, rfl, hnext, rfl, ?_, a, [handoffFrame l (nextHandoff s.pay.counter) x], [], ?_, hsends, ?_, fun _ => rfl⟩
  · rw [k.handed]
  · rw [hq', hlist, List.append_nil]
  · rintro y hy
    obtain rfl := List.mem_singleton.mp hy
    rfl

theorem LinkLaw.tryGrant (hs : LinkLaw s) : LinkLaw s.tryGrant := by
  unfold State.tryGrant
  split
  · exact hs
  · rename_i hfree
    obtain ⟨hidle, hn⟩ := by simpa only [Bool.not_eq_true, Bool.or_eq_false_iff] using hfree
    split
    · exact hs
    · split
      · exact hs
      · obtain k | ⟨f, p, k⟩ := hs.cases
        · exact k.grant hn _ _
        · have hbusy : s.pay.inFlight = some f := k.inFlight
          rw [hbusy] at hidle
          exact nomatch hidle

/-! ## The end of a hand-off (R112) -/

/-- The link falls IDLE with the hand-off's slot emptied, and is granted again. -/
theorem Link.Busy.ended {f : InFlight} {p : SlotPhase} (k : s.link.Busy f p) {m : Lane} (hm : m.card.slot = none)
    {q : List Frame} (hq : ∃ b h a, q = b ++ h ++ a ∧ Sends s.link.counter b h a) (r : CardResult) :
    LinkLaw (s.ended f.lane m (s.pay.freed q) r) := by
  have empty : Lane.handed { m with lastResult := some r } = none := handed_eq_none.mpr (by rw [hm]; exact nofun)
  have freed : (State.withPay (s.setLane f.lane { m with lastResult := some r }) (s.pay.freed q)).link.Idle := by
    refine ⟨rfl, rfl, k.counter, ?_, hq⟩
    have handed := congrArg Link.handed (setLane_link_update s f.lane { m with lastResult := some r })
    refine handed.trans ?_
    dsimp only
    rw [empty, k.handed, Function.update_idem, Function.update_eq_self]
  exact LinkLaw.tryGrant (freed.linkLaw.of_link (offerLane_link ..))

/-- A RESULT ends the hand-off (R110, R111). -/
theorem Link.Busy.verdict {f : InFlight} {p : SlotPhase} (k : s.link.Busy f p) (x : Slot) (r : ResultFrame) :
    LinkLaw (s.verdict f x r) := by
  have withdrawn : ∃ b h a, withdrawAbort (abortFrame f.lane f.number) s.pay.transmit = b ++ h ++ a ∧
      Sends s.link.counter b h a := by
    obtain ⟨b, h, a, hq, hs, -⟩ := k.sends
    obtain ⟨a', ha, hsub⟩ := hs.withdrawn f.lane f.number
    have hq' : s.pay.transmit = b ++ h ++ a := hq
    exact ⟨b, h, a', by rw [hq', ha], hs.sublist hsub⟩
  cases hu : r.used with
  | approved =>
    rw [verdict_approved hu rfl]
    exact k.ended rfl withdrawn _
  | declined =>
    rw [verdict_refused (.inl hu)]
    exact k.ended rfl withdrawn _
  | failed =>
    rw [verdict_refused (.inr hu)]
    exact k.ended rfl withdrawn _
  | cancelled =>
    rw [State.verdict, hu]
    exact k.linkLaw
  | timedOut =>
    rw [State.verdict, hu]
    exact k.linkLaw

theorem stray_link (s : State) (r : ResultFrame) : (s.stray r).link = s.link := by
  rw [stray_eq s rfl, raisePart_link, offerPart_link]
  rfl

theorem LinkLaw.paymentArrive (hs : LinkLaw s) (f : Frame) : LinkLaw (s.paymentArrive f) := by
  unfold State.paymentArrive
  split
  · exact hs.of_link rfl
  · unfold State.takeResult
    split
    · exact hs.of_link (stray_link ..)
    · rename_i g hg
      split
      · obtain ⟨x, hx, k⟩ := hs.slot hg
        rw [hx]
        exact k.verdict x _
      · exact hs.of_link (stray_link ..)

theorem LinkLaw.paymentBroken (hs : LinkLaw s) (cause : PaymentDiscard) : LinkLaw (s.paymentBroken cause) := by
  cases cause with
  | gap => exact hs.of_link rfl
  | length => exact hs.of_link rfl
  | check => exact hs.of_link rfl
  | kind f => exact hs.paymentArrive f
  | payloadLength f => exact hs.paymentArrive f

/-- The response timer ends the hand-off, after the ABORT of a slot that is IN_FLIGHT (R113). -/
theorem LinkLaw.responseExpires (hs : LinkLaw s) : LinkLaw s.responseExpires := by
  unfold State.responseExpires
  split
  · exact hs
  · split
    · exact hs
    · rename_i f hf
      obtain ⟨x, hx, k⟩ := hs.slot hf
      obtain ⟨b, h, a, hq, hsends, haddr, hnone⟩ := k.sends
      rw [hx]
      dsimp only
      split
      · rename_i hp
        obtain rfl := hnone hp
        have aborted : Sends s.link.counter b h [abortFrame f.lane f.number] :=
          k.number ▸ hsends.abort fun y hy => haddr y (List.mem_append_left _ hy)
        have hq' : s.pay.transmit = b ++ h := hq.trans (List.append_nil _)
        rw [handoffEnd_eq]
        exact k.ended (q := s.pay.transmit ++ [abortFrame f.lane f.number]) rfl ⟨b, h, _, by rw [hq'], aborted⟩ _
      · rw [handoffEnd_eq]
        exact k.ended rfl ⟨b, h, a, hq, hsends⟩ _

/-- The last octet of the head of the transmit list is sent (R104, R105). -/
theorem LinkLaw.paymentSent (hs : LinkLaw s) : LinkLaw s.paymentSent := by
  unfold State.paymentSent
  split
  · exact hs
  · rename_i x q hq
    have sent : LinkLaw (s.withPay { s.pay with transmit := q }) := by
      obtain k | ⟨f, p, k⟩ := hs.cases
      · obtain ⟨b, h, a, hparts, hsends⟩ := k.sends
        obtain ⟨b', h', a', hrest, hsends', -⟩ := hsends.tail (hparts.symm.trans hq)
        exact Link.Idle.linkLaw ⟨k.inFlight, k.timed, k.counter, k.handed, b', h', a', hrest, hsends'⟩
      · obtain ⟨b, h, a, hparts, hsends, haddr, hnone⟩ := k.sends
        obtain ⟨b', h', a', hrest, hsends', hmem, hnil⟩ := hsends.tail (hparts.symm.trans hq)
        exact Link.Busy.linkLaw ⟨k.inFlight, k.timed, k.counter, k.number, k.handed, b', h', a', hrest, hsends',
          fun y hy => haddr y (hmem y hy), fun hp => hnil (hnone hp)⟩
    dsimp only
    split
    · exact sent.tryGrant
    · exact sent

/-! ## CANCEL_CARD (R115) -/

theorem LinkLaw.takeCancelCard (hs : LinkLaw s) (l : LaneId) : LinkLaw (takeCancelCard l s).2 := by
  cases hx : (s.lane l).card.slot with
  | none =>
    rw [Machine.takeCancelCard, hx]
    exact hs
  | some x =>
    cases hp : x.phase with
    | waiting =>
      rw [takeCancelCard_waiting hx hp]
      refine hs.of_link ((offerLane_link ..).trans (setLane_handed s l _ ?_))
      have waiting : (s.lane l).handed = none := handed_eq_none.mpr fun y hy => by
        rw [hx] at hy
        obtain rfl := Option.some.inj hy
        exact hp
      rw [waiting]
      rfl
    | inFlight =>
      obtain ⟨f, rfl, hamount, k⟩ := hs.busy hx (by simp [Slot.out, hp])
      obtain ⟨b, h, a, hq, hsends, haddr, hnone⟩ := k.sends
      obtain rfl := hnone hp
      have handoff (y : Frame) (hy : y ∈ h) : y.addr = laneAddr f.lane := haddr y (List.mem_append_left _ hy)
      have aborted : Sends s.link.counter b h [abortFrame f.lane f.number] := k.number ▸ hsends.abort handoff
      have hq' : s.pay.transmit = b ++ h := hq.trans (List.append_nil _)
      rw [takeCancelCard_inFlight hx hp k.inFlight rfl]
      refine Link.Busy.linkLaw (f := f) (p := .aborting) ⟨k.inFlight, k.timed, k.counter, k.number, ?_, b, h,
        [abortFrame f.lane f.number], congrArg (· ++ _) hq', aborted, ?_, nofun⟩
      · have handed := congrArg Link.handed (setLane_link_update (s.transmit (abortFrame f.lane f.number)) f.lane
          ((s.lane f.lane).setSlot (some { x with phase := .aborting })))
        refine handed.trans ?_
        change Function.update s.link.handed f.lane (some (.aborting, x.amount)) = _
        rw [k.handed, Function.update_idem, hamount]
      · intro y hy
        obtain hy | hy := List.mem_append.mp hy
        · exact handoff y hy
        · obtain rfl := List.mem_singleton.mp hy
          rfl
    | aborting =>
      rw [takeCancelCard_aborting hx hp]
      exact hs

end
end Sys2Proof.Machine
end

