-- ==== Sys2Proof/Proofs/LinkLaw.lean ====
section
/-! The law of the payment link, kept by every command (R95, R98, R103, R104, R105, R112, R180), and the obligation. -/

namespace Sys2Proof.Machine

section
variable {s t : State}

/-! ## Cards (R94 to R102) -/

theorem reportSwipe_link (s : State) (l : LaneId) (e : CardEvent) : (s.reportSwipe l e).link = s.link :=
  (offerLane_link ..).trans (modLane_link s l _ rfl)

/-- An accepted payment swipe puts a WAITING slot where the slot was EMPTY (R95, R98). -/
theorem LinkLaw.paymentSwipe (hs : LinkLaw s) {l : LaneId} (hl : (s.lane l).card.slot = none) (w : Swipe) (r : CardRange) :
    LinkLaw (s.paymentSwipe l w r) := by
  have filled (m : Masked) (amount : Nat) : (s.modLane l fun n => n.setSlot (some (newSlot w m amount))).link = s.link := by
    refine setLane_handed s l _ ?_
    have empty : (s.lane l).handed = none := handed_eq_none.mpr (by rw [hl]; exact nofun)
    rw [empty]
    rfl
  unfold State.paymentSwipe
  dsimp only
  split
  · exact hs.of_link (reportSwipe_link ..)
  · exact LinkLaw.tryGrant (hs.of_link ((reportSwipe_link ..).trans (filled _ _)))

theorem LinkLaw.checkDigitStep (hs : LinkLaw s) {l : LaneId} (w : Swipe) {r : CardRange}
    (hl : r.cardClass = .payment → (s.lane l).card.slot = none) : LinkLaw (s.checkDigitStep l w r) := by
  have reported (e : CardEvent) : LinkLaw (s.reportSwipe l e) := hs.of_link (reportSwipe_link ..)
  unfold State.checkDigitStep
  split
  · exact reported _
  · unfold State.classRule
    split
    · exact reported _
    · rename_i hr
      split
      · exact reported _
      · exact hs.paymentSwipe (hl hr) w r
    · split
      · exact reported _
      · unfold State.staffSwipe
        dsimp only
        split
        · exact reported _
        · exact hs.of_link ((reportSwipe_link ..).trans (grantStaff_link ..))
    · exact reported _
    · exact reported _

/-- A second swipe sets a flag of the slot that the law does not read (R95). -/
theorem secondSwipe_link {l : LaneId} {x : Slot} (hx : (s.lane l).card.slot = some x) : (s.secondSwipe l x).link = s.link := by
  refine setLane_handed s l _ ?_
  rw [Lane.handed, Lane.handed, hx]
  rfl

theorem LinkLaw.classify (hs : LinkLaw s) (l : LaneId) (w : Swipe) : LinkLaw (s.classify l w) := by
  unfold State.classify
  split
  · exact hs.of_link (reportSwipe_link ..)
  · split
    · exact hs.of_link (reportSwipe_link ..)
    · split
      · rename_i x _ hx
        exact hs.of_link (secondSwipe_link hx)
      · rename_i hx
        exact hs.checkDigitStep w fun _ => hx
      all_goals
        rename_i hr
        exact hs.checkDigitStep w fun hp => nomatch hr.symm.trans hp

theorem LinkLaw.judge (hs : LinkLaw s) (l : LaneId) (body : List (BitVec 4)) (lrc : BitVec 4) (bad : Bool) :
    LinkLaw (s.judge l body lrc bad) := by
  unfold State.judge
  split_ifs
  · exact hs.of_link (reportSwipe_link ..)
  · exact hs.of_link (reportSwipe_link ..)
  · split
    · exact hs.of_link (reportSwipe_link ..)
    · exact hs.classify l _

theorem LinkLaw.readerChar (hs : LinkLaw s) (l : LaneId) (v : BitVec 4) (p : Bool) : LinkLaw (s.readerChar l v p) := by
  have hunting : LinkLaw (s.setCard l (s.lane l).card.hunt) := hs.of_link (setCard_link s l _ rfl)
  unfold State.readerChar
  dsimp only
  split_ifs
  · exact hs.of_link (setCard_link s l _ rfl)
  · exact hs
  · exact hunting.of_link (reportSwipe_link ..)
  · exact hunting.judge l _ _ _
  · exact hs.of_link (setCard_link s l _ rfl)

theorem gapExpires_link (s : State) (l : LaneId) : (s.gapExpires l).link = s.link := by
  unfold State.gapExpires
  dsimp only
  split
  · exact (reportSwipe_link ..).trans (setCard_link s l _ rfl)
  · rfl

/-! ## The trunk link (R169, R170) -/

theorem LinkLaw.take (hs : LinkLaw s) (i : Instr) : LinkLaw (take i s).2 := by
  by_cases hi : ∃ addr tag, i = .cancelCard addr tag
  · obtain ⟨addr, tag, rfl⟩ := hi
    change LinkLaw (toLane addr s fun l => Machine.takeCancelCard l s).2
    obtain ⟨l, hl⟩ | hl := toLane_cases addr s fun l => Machine.takeCancelCard l s <;> rw [hl]
    · exact hs.takeCancelCard l
    · exact hs
  · exact hs.of_link (take_link i s fun addr tag h => hi ⟨addr, tag, h⟩)

theorem LinkLaw.dispatch (hs : LinkLaw s) (f : Frame) : LinkLaw (s.dispatch f) := by
  have reserved : LinkLaw s.reserve := hs.of_link rfl
  have replied : LinkLaw (s.reserve.replyTo f).2 := by
    unfold State.replyTo
    split
    · exact reserved
    · exact reserved.take _
  unfold State.dispatch settle
  split
  · exact replied.of_link rfl
  · exact replied

theorem LinkLaw.drain (n : Nat) (hs : LinkLaw s) : LinkLaw (State.drain n s) := by
  induction n generalizing s with
  | zero => exact hs
  | succ n ih =>
    unfold State.drain
    split
    · exact hs
    · rename_i f rest _
      split
      · exact hs
      · exact ih (LinkLaw.dispatch (s := s.setBuffer rest) (hs.of_link rfl) f)

theorem LinkLaw.arrive (hs : LinkLaw s) (f : Frame) : LinkLaw (s.arrive f) := by
  unfold State.arrive
  dsimp only
  split_ifs
  · exact hs.of_link (discardFrame_link s)
  · exact hs.of_link (raisePart_link ..)
  · exact LinkLaw.drain _ (hs.of_link rfl)

theorem LinkLaw.frameSent (hs : LinkLaw s) : LinkLaw s.frameSent := by
  unfold State.frameSent
  split
  · exact hs
  · split
    · exact LinkLaw.drain _ (hs.of_link rfl)
    · exact hs
    · exact hs.of_link rfl

theorem LinkLaw.onPart (hs : LinkLaw s) {g : State → State} (hg : LinkLaw (g s)) : LinkLaw (s.onPart g) := by
  unfold State.onPart
  split <;> assumption

theorem LinkLaw.onLane (hs : LinkLaw s) {l : LaneId} {g : State → State} (hg : LinkLaw (g s)) : LinkLaw (s.onLane l g) := by
  unfold State.onLane
  split <;> assumption

theorem LinkLaw.request (hs : LinkLaw s) (i : Instr) : LinkLaw (s.request i) := by
  unfold State.request
  split
  · exact hs
  · exact hs.onPart (hs.arrive _)

/-! ## Start-up (R180) -/

theorem linkLaw_blank (s : State) (cause : ResetCause) (check : SelfCheck) : LinkLaw (s.blank cause check) := by
  refine Link.Idle.linkLaw ⟨rfl, rfl, Nat.zero_le _, funext fun l => ?_, [], [], [], rfl,
    ⟨by simp, by simp, by simp, fun _ => rfl, nofun, nofun, nofun⟩⟩
  have hl : (s.blank cause check).lane l = Lane.blank (s.lane l).till.rawHigh := Four.get_make _ l
  exact (congrArg Lane.handed hl).trans rfl

theorem linkLaw_startUp (s : State) (cause : ResetCause) (check : SelfCheck) : LinkLaw (s.startUp cause check) := by
  refine (linkLaw_blank s cause check).of_link ?_
  simp only [State.startUp, allLanes, List.foldl_cons, List.foldl_nil, compareSupply_link, startLane_link, enqueue_link]

/-! ## Every command -/

theorem LinkLaw.exec (hs : LinkLaw s) (i : Instr) (he : exec i s = .next t) : LinkLaw t := by
  have next {u : State} (hu : Machine.exec i s = .next u) (hl : LinkLaw u) : LinkLaw t := by
    obtain rfl : u = t := Host.Outcome.next.inj (hu.symm.trans he)
    exact hl
  have part {g : State → State} (hu : Machine.exec i s = .next (s.onPart g)) (hg : (g s).link = s.link) : LinkLaw t :=
    next hu (hs.onPart (hs.of_link hg))
  have lane {l : LaneId} {g : State → State} (hu : Machine.exec i s = .next (s.onLane l g)) (hg : (g s).link = s.link) :
      LinkLaw t := next hu (hs.onLane (hs.of_link hg))
  have level (en : Bool) : LinkLaw (s.withCalEn en) := hs.of_link rfl
  cases i with
  | calWrite _ _ _ _ en => exact next rfl ((level en).request _)
  | calWriteComplete => exact part rfl (calWriteCompletes_link s)
  | goodFrame f en => exact next rfl ((level en).onPart ((level en).arrive f))
  | frameError _ => exact part rfl (discardFrame_link s)
  | upstreamFrameSent en => exact next rfl ((level en).onPart (level en).frameSent)
  | restartReset check =>
    refine next rfl ?_
    unfold State.restartReset
    split
    · exact linkLaw_startUp s _ _
    · exact hs
  | linkSilenceExpiry => exact part rfl (linkExpires_link s)
  | powerOn inputs => exact next rfl (linkLaw_startUp (s.readInputs inputs) _ _)
  | brownOut => exact next rfl ((linkLaw_blank s .brownOut s.selfCheck).of_link rfl)
  | supplyLowSet => exact next rfl (hs.of_link (supplyFalls_link s))
  | supplyLowClear => exact next rfl (hs.of_link (supplyRises_link s))
  | sampleArrival l c raw => exact lane rfl (sample_link s l c raw.toNat)
  | channelSilenceExpiry l c => exact lane rfl (silenceExpires_link s l c)
  | initialZeroExpiry l c => exact lane rfl (initialZeroExpires_link s l c)
  | displayTimerExpiry l c => exact lane rfl (displayExpires_link s l c)
  | weighTimerExpiry l => exact lane rfl (weighExpires_link s l)
  | placementTimerExpiry l => exact lane rfl (placementExpires_link s l)
  | removalTimerExpiry l => exact lane rfl (removalExpires_link s l)
  | readerCharacter l v p => exact next rfl (hs.onLane (hs.readerChar l v p))
  | gapTimerExpiry l => exact lane rfl (gapExpires_link s l)
  | result a tag o m ap => exact next rfl (hs.onPart (hs.paymentArrive _))
  | paymentFrameSent => exact next rfl (hs.onPart hs.paymentSent)
  | responseTimerExpiry => exact next rfl (hs.onPart hs.responseExpires)
  | drawerSensorLevel l high =>
    have pin : LinkLaw (s.sensorPin l high) := hs.of_link (setTill_link ..)
    exact next rfl (pin.onLane (pin.of_link (setTill_link ..)))
  | debounceTimerExpiry l => exact lane rfl (debounceExpires_link s l)
  | pulseTimerExpiry l => exact lane rfl (pulseExpires_link s l)
  | checkTimerExpiry l => exact lane rfl (checkExpires_link s l)
  | leftOpenExpiry l => exact lane rfl (leftOpenExpires_link s l)
  | lineDone l _ => exact lane rfl (printerArrive_link s l _)
  | lineFailed l _ => exact lane rfl (printerArrive_link s l _)
  | printerStatus l _ => exact lane rfl (printerArrive_link s l _)
  | printerSilenceExpiry l => exact lane rfl (printerSilent_link s l)
  | answerTimerExpiry l => exact lane rfl (answerExpires_link s l)
  | staffHoldExpiry l => exact lane rfl (staffExpires_link s l)
  | supplyAboveBrownOut inputs =>
    refine next rfl ?_
    unfold State.aboveBrownOut
    split
    · exact hs
    · exact linkLaw_startUp (s.readInputs inputs) _ _
  | paymentFrameDiscarded cause => exact next rfl (hs.onPart (hs.paymentBroken cause))
  | printerFrameDiscarded l cause => exact lane rfl (printerBroken_link s l cause)
  | _ => exact next rfl (hs.request _)

end

/-- Settles O9: a grant finds the link IDLE and makes it BUSY, CANCEL_CARD and the response timer add the ABORT of the hand-off in
flight, the end of a hand-off makes the link IDLE again, and no other command touches the link or a slot with the terminal. -/
theorem linkLawKept : Obligations.LinkLawKept := by
  intro s t h hs
  unfold step at hs
  split at hs
  · obtain rfl : s = t := Host.Outcome.next.inj hs
    exact h
  · rename_i c rest _
    exact LinkLaw.exec (s := { s with pending := rest }) (h.of_link rfl) c hs

end Sys2Proof.Machine
end

