-- ==== Sys2Proof/Proofs/PaymentGrant.lean ====
section
/-! The grant of the payment link in circular order (R104 to R107), and the obligation. -/

namespace Sys2Proof.Machine

/-! ## The circular order (R105) -/

/-- The lanes after the pointer, by their distance from it. -/
theorem circular_eq (p : LaneId) : circular p = ([0, 1, 2, 3] : List LaneId).map (p + 1 + ·) := by
  revert p
  decide

/-- The first distance at which a test holds is found. -/
theorem find?_least (w : LaneId → Bool) (d : LaneId) (hd : w d = true) (hmin : ∀ j, w j = true → d.val ≤ j.val) :
    ([0, 1, 2, 3] : List LaneId).find? w = some d := by
  have earlier (j : LaneId) (hj : j.val < d.val) : w j = false :=
    Bool.eq_false_iff.mpr fun h => absurd (hmin j h) (Nat.not_le.mpr hj)
  match d with
  | 0 => simp [hd]
  | 1 => simp [hd, earlier 0 (by decide)]
  | 2 => simp [hd, earlier 0 (by decide), earlier 1 (by decide)]
  | 3 => simp [hd, earlier 0 (by decide), earlier 1 (by decide), earlier 2 (by decide)]

/-- The lane at the least distance after the pointer comes first in the circular order. -/
theorem find?_circular {w : LaneId → Bool} {p l : LaneId} (hl : w l = true)
    (hmin : ∀ k, w k = true → (l - p - 1).val ≤ (k - p - 1).val) : (circular p).find? w = some l := by
  have back (k : LaneId) : p + 1 + (k - p - 1) = k := by abel
  have distance (j : LaneId) : p + 1 + j - p - 1 = j := by abel
  rw [circular_eq, List.find?_map, find?_least (w ∘ (p + 1 + ·)) (l - p - 1)]
  · exact congrArg some (back l)
  · rw [Function.comp_apply, back]
    exact hl
  · intro j hj
    have := hmin _ hj
    rwa [distance] at this

/-! ## The grant test (R105) -/

theorem isHandoff_iff (f : Frame) : isHandoff f = true ↔ f.kind = 0xA0 := by
  rw [isHandoff, beq_iff_eq, kindHandoff]

theorem slotWaiting_of_slot {n : Lane} {x : Slot} (hx : n.card.slot = some x) (hp : x.phase = .waiting) :
    n.slotWaiting = true := by
  simp [Lane.slotWaiting, hx, hp]

theorem tryGrant_blocked {s : State} (h : s.pay.inFlight.isSome = true ∨ ∃ f ∈ s.pay.transmit, f.kind = 0xA0) :
    s.tryGrant = s := by
  have blocked : (s.pay.inFlight.isSome || s.pay.transmit.any isHandoff) = true := by
    simpa only [Bool.or_eq_true, List.any_eq_true, isHandoff_iff] using h
  rw [State.tryGrant, if_pos blocked]

theorem tryGrant_granted {s : State} {l : LaneId} {x : Slot} (hidle : s.pay.inFlight = none)
    (hn : ∀ f ∈ s.pay.transmit, f.kind ≠ 0xA0)
    (hl : (circular s.pay.pointer).find? (fun k => (s.lane k).slotWaiting) = some l)
    (hx : (s.lane l).card.slot = some x) : s.tryGrant = s.grant l x := by
  have free : ¬ (s.pay.inFlight.isSome || s.pay.transmit.any isHandoff) = true := by
    simpa only [Bool.or_eq_true, List.any_eq_true, isHandoff_iff, hidle, Option.isSome_none, Bool.false_eq_true, false_or,
      not_exists, not_and] using hn
  rw [State.tryGrant, if_neg free, hl]
  dsimp only
  rw [hx]

/-- Settles O20: the circular order lists the lanes by their distance from the pointer, so the first WAITING lane found is
the one at the least distance. -/
theorem linkIsGrantedInCircularOrder : Obligations.LinkIsGrantedInCircularOrder := by
  refine ⟨fun s l x hidle hn hx hp hmin => ?_, fun s h => tryGrant_blocked h, fun s h t hr hq => ?_⟩
  · have first := find?_circular (w := fun k => (s.lane k).slotWaiting) (slotWaiting_of_slot hx hp) hmin
    rw [tryGrant_granted hidle hn first hx]
    rfl
  · have sent : exec .paymentFrameSent s = .next (s.onPart State.paymentSent) := rfl
    rw [sent, onPart_running s _ hr, State.paymentSent, hq]
    simp only [isHandoff_iff]

end Sys2Proof.Machine
end

