-- ==== Sys2Proof/Proofs/DiscardedFrames.lean ====
section
/-! Frames that a receiver discards (R104, R148, R169), the condition FRAME_ERROR (R161), and the obligation. -/

namespace Sys2Proof.Machine

/-! ## Raising a part condition (R161) -/

/-- A part condition already set stays. -/
theorem raisePart_set (s : State) (c : PartCond) (h : hasCond s.attention.set c.bit = true) : s.raisePart c = s := by
  simp [State.raisePart, h]

/-- A clear, masked part condition becomes set without a notice. -/
theorem raisePart_masked (s : State) (c : PartCond) (h : hasCond s.attention.set c.bit = false)
    (hm : hasCond s.attention.mask c.bit = true) :
    s.raisePart c = { s with attention := ⟨addCond s.attention.set c.bit, s.attention.mask⟩ } := by
  simp [State.raisePart, h, hm]

/-- A clear, unmasked part condition whose notice finds no record becomes set with NOTICE_WITHHELD. -/
theorem raisePart_withheld (s : State) (c : PartCond) (h : hasCond s.attention.set c.bit = false)
    (hm : hasCond s.attention.mask c.bit = false) (hr : 64 ≤ s.upstream.length + s.reserved) :
    s.raisePart c = { s with
      attention := ⟨addCond (addCond s.attention.set c.bit) PartCond.noticeWithheld.bit, s.attention.mask⟩ } := by
  have hf : ¬ 1 ≤ s.freeRecords := by simp only [State.freeRecords]; omega
  simp [State.raisePart, h, hm, hf]

theorem addCond_frameError_withheld (a : BitVec 16) :
    addCond (addCond a PartCond.frameError.bit) PartCond.noticeWithheld.bit = a ||| 0x21 := BitVec.or_assoc a 1 0x20

/-! ## Discarded frames (R104, R148, R169) -/

theorem exec_frameError {s : State} (h : s.power = .running) (cause : TrunkDiscard) :
    exec (.frameError cause) s = .next (State.raisePart { s with receiver := .hunting } .frameError) := by
  have hx : exec (.frameError cause) s = .next (s.onPart State.discardFrame) := rfl
  rw [hx, onPart_running s _ h]
  rfl

theorem exec_paymentFrameDiscarded {s : State} {cause : PaymentDiscard} (h : s.power = .running)
    (hw : (Instr.paymentFrameDiscarded cause).wellFormed = true) :
    exec (.paymentFrameDiscarded cause) s = .next s.paymentDiscarded := by
  have hx : exec (.paymentFrameDiscarded cause) s = .next (s.onPart fun x => x.paymentBroken cause) := rfl
  rw [hx, onPart_running s _ h, paymentBroken_wellFormed s cause hw]

theorem exec_printerFrameDiscarded {s : State} {l : LaneId} {cause : PrinterDiscard} (h : s.Runs l)
    (hw : (Instr.printerFrameDiscarded l cause).wellFormed = true) :
    exec (.printerFrameDiscarded l cause) s = .next (s.printerDiscarded l) := by
  have hx : exec (.printerFrameDiscarded l cause) s = .next (s.onLane l fun x => x.printerBroken l cause) := rfl
  rw [hx, onLane_live s l _ (live_of_runs h), printerBroken_wellFormed s l cause hw]

/-! ## The receivers' tests (R104, R148, R194, R195) -/

theorem readResult_isSome (f : Frame) : (readResult f).isSome = true ↔ f.kind = 0xA8 ∧ f.payload.length = 11 := by
  unfold readResult
  split
  · rename_i h
    exact iff_of_true rfl h
  · rename_i h
    exact iff_of_false Bool.false_ne_true h

theorem paymentArrive_none {s : State} {f : Frame} (h : readResult f = none) : s.paymentArrive f = s.paymentDiscarded := by
  rw [State.paymentArrive, h]

theorem printerArrive_none {s : State} {l : LaneId} {f : Frame} (h : readPrinter f = none) :
    s.printerArrive l f = s.printerDiscarded l := by
  rw [State.printerArrive, h]

/-- The status octet of a PRINTER_STATUS (R195). -/
theorem printerReportOf_eq (b : Byte) :
    printerReportOf b =
      if b = 0 then some .ready
      else if b = 1 then some .paperLow
      else if b = 2 then some .paperOut
      else if b = 3 then some .coverOpen
      else none := by
  unfold printerReportOf
  split
  · rw [byte_eq (b := b) ‹_› (c := 0) rfl]
    rfl
  · rw [byte_eq (b := b) ‹_› (c := 1) rfl]
    rfl
  · rw [byte_eq (b := b) ‹_› (c := 2) rfl]
    rfl
  · rw [byte_eq (b := b) ‹_› (c := 3) rfl]
    rfl
  · rename_i h0 h1 h2 h3
    rw [if_neg fun h => h0 (congrArg BitVec.toNat h), if_neg fun h => h1 (congrArg BitVec.toNat h),
      if_neg fun h => h2 (congrArg BitVec.toNat h), if_neg fun h => h3 (congrArg BitVec.toNat h)]

/-- What a printer port keeps: its three frames at address 0, each with a payload of its own length (R148, R195). -/
theorem readPrinter_eq (f : Frame) :
    readPrinter f =
      if f.addr ≠ 0 then none
      else if f.kind = 0xC8 ∧ f.payload = [] then some (.lineDone f.tag)
      else if f.kind = 0xC9 ∧ f.payload = [] then some (.lineFailed f.tag)
      else if f.kind = 0xCA ∧ f.payload = [0] then some (.status .ready)
      else if f.kind = 0xCA ∧ f.payload = [1] then some (.status .paperLow)
      else if f.kind = 0xCA ∧ f.payload = [2] then some (.status .paperOut)
      else if f.kind = 0xCA ∧ f.payload = [3] then some (.status .coverOpen)
      else none := by
  obtain ⟨addr, kind, tag, payload⟩ := f
  unfold readPrinter
  dsimp only
  by_cases ha : addr = 0
  swap
  · rw [if_pos (.inl ha), if_pos ha]
  by_cases hdone : kind = 0xC8
  · cases payload <;> simp [ha, hdone, printerLength, kindLineDone]
  by_cases hfailed : kind = 0xC9
  · cases payload <;> simp [ha, hfailed, printerLength, kindLineDone, kindLineFailed]
  by_cases hstatus : kind = 0xCA
  swap
  · have other : printerLength kind = none := by
      simp only [printerLength, kindLineDone, kindLineFailed, kindPrinterStatus, hdone, hfailed, hstatus, or_self, if_false]
    simp only [ha, hdone, hfailed, hstatus, other, reduceCtorEq, ne_eq, not_true, not_false_iff, or_true, if_true, if_false,
      false_and]
  subst hstatus
  have one : printerLength 0xCA = some 1 := rfl
  match payload with
  | [] => simp [printerLength, kindLineDone, kindLineFailed, kindPrinterStatus]
  | [b] =>
    simp only [ha, one, octetAt, List.length_singleton, printerReportOf_eq, apply_ite (Option.map PrinterFrame.status)]
    simp [kindLineDone, kindLineFailed]
  | _ :: _ :: _ => simp [printerLength, kindLineDone, kindLineFailed, kindPrinterStatus]

/-- Settles O23: the four rows of raising on a state whose receiver hunts again, and the receivers' tests read off a frame's
address, kind and payload. -/
theorem discardedFramesAndTheirCondition : Obligations.DiscardedFramesAndTheirCondition := by
  refine ⟨?_, ?_, ?_, ?_, ?_, ?_, ?_, ?_, readPrinter_eq, ?_⟩
  · intro s cause h hset
    rw [exec_frameError h, raisePart_set { s with receiver := .hunting } .frameError hset]
  · intro s cause h hset hmask
    rw [exec_frameError h, raisePart_masked { s with receiver := .hunting } .frameError hset hmask]
    rfl
  · intro s cause h hset hmask hroom
    rw [exec_frameError h, raisePart_notified { s with receiver := .hunting } .frameError hset hmask hroom]
    rfl
  · intro s cause h hset hmask hfull
    rw [exec_frameError h, raisePart_withheld { s with receiver := .hunting } .frameError hset hmask hfull,
      addCond_frameError_withheld]
  · intro s cause h hw
    exact exec_paymentFrameDiscarded h hw
  · intro s l cause h hw
    exact exec_printerFrameDiscarded h hw
  · intro s f
    exact ⟨readResult_isSome f, paymentArrive_none⟩
  · intro s addr tag outcome amount approval h f
    refine ⟨readResult_resultOnLine addr tag outcome amount approval, ?_⟩
    have hx : exec (.result addr tag outcome amount approval) s = .next (s.onPart fun x => x.paymentArrive f) := rfl
    rw [hx, onPart_running s _ h]
  · intro s l tag report f h value
    have live := live_of_runs h
    have arrives (i : Instr) (g : Frame) (hx : exec i s = .next (s.onLane l fun x => x.printerArrive l g)) :
        exec i s = .next (s.printerArrive l g) := by rw [hx, onLane_live s l _ live]
    exact ⟨arrives _ _ rfl, arrives _ _ rfl, arrives _ _ (by cases report <;> rfl), printerArrive_none⟩

end Sys2Proof.Machine
end

