-- ==== Sys2Proof/Proofs/DrawerFrame.lean ====
section
/-! SUPPORT. What the law of the solenoid power queue reads of the part (R120, R123, R125), and the operations of the other blocks
that leave it alone. -/

namespace Sys2Proof.Machine

/-! ## What the law reads -/

/-- The drawers and what governs them: the settings, the supply-low flag, the solenoid power queue, the RELEASING drawers in
order of admission, and the drawer record of each lane. -/
@[ext] structure Drawers where
  settings : Settings
  supplyLow : Bool
  powerQueue : List LaneId
  releasing : List LaneId
  till : LaneId → Till

/-- The drawers of the part. -/
def State.drawers (s : State) : Drawers :=
  { settings := s.settings, supplyLow := s.supplyLow, powerQueue := s.powerQueue, releasing := s.releasing, till := s.till }

/-- The law of the solenoid power queue reads the drawers alone. -/
theorem SolenoidLaw.of_drawers {s t : State} (hs : SolenoidLaw s) (h : t.drawers = s.drawers) : SolenoidLaw t := by
  obtain ⟨hset, hlow, hqueue, hrel, htill⟩ := Drawers.mk.inj h
  unfold SolenoidLaw
  rw [hset, hlow, hqueue, hrel, htill]
  exact hs

/-- A lane replaced: its drawer record is replaced. -/
theorem setLane_drawers_update (s : State) (l : LaneId) (n : Lane) :
    (s.setLane l n).drawers = { s.drawers with till := Function.update s.drawers.till l n.till } := by
  refine Drawers.ext rfl rfl rfl rfl (funext fun m => ?_)
  change ((s.setLane l n).lane m).till = Function.update s.drawers.till l n.till m
  by_cases hm : m = l
  · rw [hm, lane_setLane_same, Function.update_self]
  · rw [lane_setLane_ne s l m n hm, Function.update_of_ne hm]
    rfl

/-- A lane replaced by one with the same drawer record. -/
theorem setLane_drawers (s : State) (l : LaneId) (n : Lane) (h : n.till = (s.lane l).till) :
    (s.setLane l n).drawers = s.drawers := by
  rw [setLane_drawers_update, h]
  exact Drawers.ext rfl rfl rfl rfl (Function.update_eq_self ..)

@[simp] theorem modLane_drawers (s : State) (l : LaneId) (g : Lane → Lane) (h : (g (s.lane l)).till = (s.lane l).till) :
    (s.modLane l g).drawers = s.drawers := setLane_drawers s l _ h

@[simp] theorem setBag_drawers (s : State) (l : LaneId) (x : BagCheck) : (s.setBag l x).drawers = s.drawers :=
  modLane_drawers s l _ rfl

@[simp] theorem setPort_drawers (s : State) (l : LaneId) (x : Port) : (s.setPort l x).drawers = s.drawers :=
  modLane_drawers s l _ rfl

@[simp] theorem setCard_drawers (s : State) (l : LaneId) (x : CardUnit) : (s.setCard l x).drawers = s.drawers :=
  modLane_drawers s l _ rfl

@[simp] theorem setAttention_drawers (s : State) (l : LaneId) (x : Attention) : (s.setAttention l x).drawers = s.drawers :=
  modLane_drawers s l _ rfl

@[simp] theorem setChan_drawers (s : State) (l : LaneId) (c : Chan) (x : Channel) : (s.setChan l c x).drawers = s.drawers :=
  modLane_drawers s l _ (by simp)

@[simp] theorem modChan_drawers (s : State) (l : LaneId) (c : Chan) (g : Channel → Channel) :
    (s.modChan l c g).drawers = s.drawers := setChan_drawers s l c _

/-! ## Lanes that keep their drawer -/

theorem Lane.frameDone_till (n : Lane) (num : Nat) : (n.frameDone num).till = n.till := by
  have block (m : Lane) (idx : Nat) : (Lane.frameDone.blockDone m num idx).till = m.till := by
    unfold Lane.frameDone.blockDone
    split
    · rfl
    · split
      · rfl
      · rw [Lane.releaseHolds_eq]
        rfl
  unfold Lane.frameDone
  split
  · rfl
  · split
    · rfl
    · rfl
    · dsimp only
      split
      · split
        · rfl
        · exact block (n.modJob num _) _
      · rfl

theorem scanOctets_till (n : Lane) (x : ScanState) (o : List Byte) : (scanOctets n x o).1.till = n.till := by
  induction o generalizing n x with
  | nil => rfl
  | cons b o ih =>
    unfold scanOctets
    split
    · exact ih n _
    · refine (ih (n.resolve _).1 _).trans ?_
      rw [resolve_eq]
      dsimp only
      split <;> rfl

theorem Lane.endAwaited_till (n : Lane) : n.endAwaited.till = n.till := by
  unfold Lane.endAwaited
  split
  · rfl
  · split <;> rfl

theorem Lane.bagModeChange_till (n : Lane) (a b : LaneMode) : (n.bagModeChange a b).till = n.till := by
  have leaves : (Lane.bagModeChange.leaveSelf n).till = n.till := by
    unfold Lane.bagModeChange.leaveSelf
    dsimp only
    split
    · rfl
    · split <;> rfl
  have enters : (Lane.bagModeChange.enterSelf n).till = n.till := by
    unfold Lane.bagModeChange.enterSelf
    split <;> rfl
  cases a <;> cases b
  case self.attended => exact leaves
  case self.closed => exact leaves
  case attended.self => exact enters
  case closed.self => exact enters
  all_goals rfl

theorem Lane.withEntry_till (n : Lane) (e : Entry) (k : LaneSettings) : (n.withEntry e k).till = n.till := by
  unfold Lane.withEntry
  split <;> rfl

/-! ## Conditions and notices -/

@[simp] theorem enqueue_drawers (s : State) (f : Frame) : (s.enqueue f).drawers = s.drawers := rfl

@[simp] theorem raiseLane_drawers (s : State) (l : LaneId) (c : LaneCond) : (s.raiseLane l c).drawers = s.drawers := by
  obtain h | ⟨a, h | ⟨f, -, h⟩⟩ := raiseLane_cases s l c <;> simp [h]

@[simp] theorem raisePart_drawers (s : State) (c : PartCond) : (s.raisePart c).drawers = s.drawers := by
  obtain h | ⟨a, h | ⟨f, -, h⟩⟩ := raisePart_cases s c <;> rw [h] <;> rfl

@[simp] theorem offerLane_drawers (s : State) (l : LaneId) (k : Byte) (p : List Byte) : (s.offerLane l k p).drawers = s.drawers := by
  unfold State.offerLane
  split <;> simp

@[simp] theorem offerPart_drawers (s : State) (k : Byte) (p : List Byte) : (s.offerPart k p).drawers = s.drawers := by
  unfold State.offerPart
  split <;> simp

@[simp] theorem displayCheck_drawers (s : State) (l : LaneId) (c : Chan) : (s.displayCheck l c).drawers = s.drawers := by
  obtain ⟨q, hq, -⟩ := offerDisplay_cases s l c (s.chan l c).shown
  unfold State.displayCheck
  dsimp only
  split
  · rfl
  · rw [hq, modChan_drawers]
    rfl

/-! ## Print jobs and the printer port (chapter 8) -/

@[simp] theorem suspend_drawers (s : State) (l : LaneId) (j : Job) (why : SuspendReason) : (s.suspend l j why).drawers = s.drawers := by
  simp [State.suspend, State.offerPrint, Lane.modJob]

@[simp] theorem selectJob_drawers (s : State) (l : LaneId) : (s.selectJob l).drawers = s.drawers := by
  unfold State.selectJob
  dsimp only
  split
  · rfl
  · split
    · rfl
    · split <;> simp [Lane.modJob]

@[simp] theorem port_drawers (s : State) (l : LaneId) : (s.port l).drawers = s.drawers := by
  have sent (s : State) (j : Job) (f : JobFrame) : (s.sendJobFrame l j f).drawers = s.drawers := modLane_drawers s l _ rfl
  have completed (s : State) (j : Job) : (s.completeJob l j).drawers = s.drawers :=
    (offerLane_drawers ..).trans (modLane_drawers s l _ rfl)
  have pump (k : Nat) (s : State) : (State.pump l k s).drawers = s.drawers := by
    induction k generalizing s with
    | zero => rfl
    | succ k ih =>
      unfold State.pump
      dsimp only
      repeat' split
      all_goals simp [sent, completed, ih]
  exact pump _ s

@[simp] theorem exchangeDone_drawers (s : State) (l : LaneId) (o : ExchangeOwner) : (s.exchangeDone l o).drawers = s.drawers := by
  cases o with
  | owedCut => exact modLane_drawers s l _ rfl
  | nobody => exact modLane_drawers s l _ rfl
  | job num => exact modLane_drawers s l _ (Lane.frameDone_till (s.lane l) num)

@[simp] theorem exchangeFailed_drawers (s : State) (l : LaneId) (o : ExchangeOwner) (why : SuspendReason) :
    (s.exchangeFailed l o why).drawers = s.drawers := by
  unfold State.exchangeFailed
  dsimp only
  repeat' split
  all_goals simp

@[simp] theorem printerArrive_drawers (s : State) (l : LaneId) (f : Frame) : (s.printerArrive l f).drawers = s.drawers := by
  have stops (st : PrinterState) (why : SuspendReason) : (s.statusStops l st why).drawers = s.drawers := by
    unfold State.statusStops
    dsimp only
    split <;> simp
  have runs (st : PrinterState) : (s.statusRuns l st).drawers = s.drawers := by
    unfold State.statusRuns
    dsimp only
    split <;> simp [State.offerPrint, Lane.modJob]
  unfold State.printerArrive
  split
  · exact setPort_drawers s l _
  · unfold State.lineDone
    dsimp only
    split <;> simp
  · unfold State.lineFailed
    dsimp only
    split <;> simp
  · rename_i report _
    cases report <;> simp [State.printerStatus, stops, runs]

@[simp] theorem printerBroken_drawers (s : State) (l : LaneId) (cause : PrinterDiscard) :
    (s.printerBroken l cause).drawers = s.drawers := by
  cases cause <;> simp [State.printerBroken, State.printerDiscarded]

@[simp] theorem answerExpires_drawers (s : State) (l : LaneId) : (s.answerExpires l).drawers = s.drawers := by
  unfold State.answerExpires
  dsimp only
  repeat' split
  all_goals simp

@[simp] theorem printerSilent_drawers (s : State) (l : LaneId) : (s.printerSilent l).drawers = s.drawers := by
  unfold State.printerSilent
  dsimp only
  repeat' split
  all_goals simp

@[simp] theorem noteMissing_drawers (s : State) (l : LaneId) (refs : List Reference) : (s.noteMissing l refs).drawers = s.drawers := by
  unfold State.noteMissing
  split <;> simp

/-! ## The bag check (chapter 4) -/

@[simp] theorem offerBag_drawers (s : State) (l : LaneId) (e : BagEvent) (d : Option Int) (k : Nat) :
    (s.offerBag l e d k).drawers = s.drawers := offerLane_drawers ..

@[simp] theorem bagHold_drawers (s : State) (l : LaneId) (b d : Option Int) : (s.bagHold l b d).drawers = s.drawers := by
  simp [State.bagHold]

@[simp] theorem bagExpecting_drawers (s : State) (l : LaneId) (g m : Int) (after : BagState) (ev : BagEvent) :
    (s.bagExpecting l g m after ev).drawers = s.drawers := by
  unfold State.bagExpecting
  dsimp only
  split_ifs <;> simp [Lane.setEntryBag]

@[simp] theorem bagReading_drawers (s : State) (l : LaneId) (g : Int) (stable : Bool) :
    (s.bagReading l g stable).drawers = s.drawers := by
  have judged (s : State) : (s.bagStable l g).drawers = s.drawers := by
    unfold State.bagStable State.bagArmed State.bagSettled State.bagUnexpected
    dsimp only
    repeat' split
    all_goals simp
  unfold State.bagReading
  dsimp only
  split <;> simp [judged]

@[simp] theorem placementExpires_drawers (s : State) (l : LaneId) : (s.placementExpires l).drawers = s.drawers := by
  unfold State.placementExpires
  split <;> simp

@[simp] theorem removalExpires_drawers (s : State) (l : LaneId) : (s.removalExpires l).drawers = s.drawers := by
  unfold State.removalExpires
  split <;> simp

@[simp] theorem bagCancel_drawers (s : State) (l : LaneId) (pos : Nat) : (s.bagCancel l pos).drawers = s.drawers := by
  unfold State.bagCancel
  dsimp only
  repeat' split
  all_goals simp

@[simp] theorem bagOverridden_drawers (s : State) (l : LaneId) : (s.bagOverridden l).drawers = s.drawers := by
  have ended (x : BagCheck) : (s.setLane l { (s.lane l).endAwaited with bagCheck := x }).drawers = s.drawers :=
    setLane_drawers s l _ (Lane.endAwaited_till (s.lane l))
  unfold State.bagOverridden
  dsimp only
  split
  · exact ended _
  · exact (offerBag_drawers ..).trans (ended _)

@[simp] theorem bagLoss_drawers (s : State) (l : LaneId) : (s.bagLoss l).drawers = s.drawers := by
  unfold State.bagLoss
  dsimp only
  split <;> simp

@[simp] theorem bagRecovery_drawers (s : State) (l : LaneId) : (s.bagRecovery l).drawers = s.drawers := by
  unfold State.bagRecovery
  dsimp only
  split <;> simp

/-! ## Entries, captures and the weigh request (chapters 2 and 3) -/

@[simp] theorem endWeigh_drawers (s : State) (l : LaneId) (o : WeighOutcome) : (s.endWeigh l o).drawers = s.drawers := by
  unfold State.endWeigh
  split <;> simp

@[simp] theorem weighExpires_drawers (s : State) (l : LaneId) : (s.weighExpires l).drawers = s.drawers := by
  unfold State.weighExpires
  repeat' split
  all_goals simp

@[simp] theorem appendEntry_drawers (s : State) (l : LaneId) (e : Entry) : (s.appendEntry l e).drawers = s.drawers := by
  unfold State.appendEntry
  dsimp only
  split <;> simp [State.expectPlacement]

@[simp] theorem platterReading_drawers (s : State) (l : LaneId) (c : Calib) (r : Reading) (g : Int) :
    (s.platterReading l c r g).drawers = s.drawers := by
  have noted (s : State) (w : WeighRequest) (f : FailedTest) : (s.noteFailure l w f).drawers = s.drawers := by
    unfold State.noteFailure
    dsimp only
    split <;> simp
  have taken (s : State) (w : WeighRequest) (t : CaptureTare) (p : Nat) : (s.takeCapture l w t p).drawers = s.drawers := by
    simp only [State.takeCapture, offerLane_drawers, appendEntry_drawers]
    exact setLane_drawers s l _ rfl
  have armed : (if g ≤ ((5 * c.d1 : Nat) : Int) then s.modLane l fun n => { n with armed := true } else s).drawers = s.drawers := by
    split <;> simp
  unfold State.platterReading
  dsimp only
  rw [← armed]
  split
  · rfl
  · split <;> simp [noted, taken]

/-! ## The weighing channels (chapter 1) -/

@[simp] theorem handReading_drawers (s : State) (l : LaneId) (ch : Chan) (c : Calib) (r : Reading) (g : Int) :
    (s.handReading l ch c r g).drawers = s.drawers := by
  cases ch <;> simp [State.handReading]

@[simp] theorem enterFault_drawers (s : State) (l : LaneId) (c : Chan) (cause : FaultCause) (ret : Option ReturnState) :
    (s.enterFault l c cause ret).drawers = s.drawers := by
  unfold State.enterFault
  dsimp only
  split <;> simp

@[simp] theorem evaluate_drawers (s : State) (l : LaneId) (ch : Chan) (raw : Nat) : (s.evaluate l ch raw).drawers = s.drawers := by
  have running (s : State) : (s.reportRunning l ch).drawers = s.drawers := by cases ch <;> simp [State.reportRunning]
  unfold State.evaluate
  dsimp only
  repeat' split
  all_goals simp [State.finishEvaluation, running]

@[simp] theorem sample_drawers (s : State) (l : LaneId) (ch : Chan) (raw : Nat) : (s.sample l ch raw).drawers = s.drawers := by
  unfold State.sample State.sensorReturn
  dsimp only
  repeat' split
  all_goals simp

@[simp] theorem silenceExpires_drawers (s : State) (l : LaneId) (ch : Chan) : (s.silenceExpires l ch).drawers = s.drawers := by
  unfold State.silenceExpires
  dsimp only
  repeat' split
  all_goals simp

@[simp] theorem initialZeroExpires_drawers (s : State) (l : LaneId) (ch : Chan) :
    (s.initialZeroExpires l ch).drawers = s.drawers := by
  unfold State.initialZeroExpires
  dsimp only
  split <;> simp

@[simp] theorem displayExpires_drawers (s : State) (l : LaneId) (ch : Chan) : (s.displayExpires l ch).drawers = s.drawers := by
  unfold State.displayExpires
  split <;> simp

@[simp] theorem calWriteCompletes_drawers (s : State) : s.calWriteCompletes.drawers = s.drawers := by
  have copied (s : State) (l : LaneId) (c : Chan) (k : Calib) : (s.takeCopy l c k).drawers = s.drawers := by
    unfold State.takeCopy
    dsimp only
    split <;> simp
  unfold State.calWriteCompletes
  split
  · rfl
  · exact copied ..

theorem startChannel_drawers (s : State) (l : LaneId) (c : Chan) (copy : Option Calib) :
    (s.startChannel l c copy).drawers = s.drawers := by
  unfold State.startChannel
  split <;> simp

/-! ## Staff authority and the trunk link's receiver (chapters 9 and 10) -/

@[simp] theorem grantStaff_drawers (s : State) (l : LaneId) (src : AuthoritySource) (number : Nat) :
    (s.grantStaff l src number).drawers = s.drawers := modLane_drawers s l _ rfl

@[simp] theorem dropStaff_drawers (s : State) (l : LaneId) : (s.dropStaff l).drawers = s.drawers := modLane_drawers s l _ rfl

@[simp] theorem staffExpires_drawers (s : State) (l : LaneId) : (s.staffExpires l).drawers = s.drawers := by
  unfold State.staffExpires
  repeat' split
  all_goals simp

@[simp] theorem discardFrame_drawers (s : State) : s.discardFrame.drawers = s.drawers := raisePart_drawers ..

@[simp] theorem linkExpires_drawers (s : State) : s.linkExpires.drawers = s.drawers := by
  unfold State.linkExpires
  split
  · rfl
  · rw [raisePart_drawers]
    rfl

/-! ## The payment link (chapter 6) -/

@[simp] theorem transmit_drawers (s : State) (f : Frame) : (s.transmit f).drawers = s.drawers := rfl

@[simp] theorem tryGrant_drawers (s : State) : s.tryGrant.drawers = s.drawers := by
  have granted (l : LaneId) (x : Slot) : (s.grant l x).drawers = s.drawers := modLane_drawers _ l _ rfl
  unfold State.tryGrant
  repeat' split
  all_goals simp [granted]

@[simp] theorem offerResult_drawers (s : State) (l : LaneId) (r : CardResult) : (s.offerResult l r).drawers = s.drawers := by
  simp [State.offerResult]

@[simp] theorem handoffEnd_drawers (s : State) (f : InFlight) (x : Slot) (o : HandoffOutcome) (rcv : Option Byte)
    (a : Option Approval) : (s.handoffEnd f x o rcv a).drawers = s.drawers := by
  unfold State.handoffEnd
  dsimp only
  rw [tryGrant_drawers, offerResult_drawers]
  exact modLane_drawers s f.lane (fun n => n.setSlot none) rfl

@[simp] theorem paymentArrive_drawers (s : State) (f : Frame) : (s.paymentArrive f).drawers = s.drawers := by
  have stray (r : ResultFrame) : (s.stray r).drawers = s.drawers := (raisePart_drawers ..).trans (offerPart_drawers ..)
  have judged (g : InFlight) (x : Slot) (r : ResultFrame) : (s.verdict g x r).drawers = s.drawers := by
    unfold State.verdict
    dsimp only
    split <;> simp
  unfold State.paymentArrive
  split
  · rfl
  · unfold State.takeResult
    repeat' split
    all_goals simp [stray, judged]

@[simp] theorem paymentBroken_drawers (s : State) (cause : PaymentDiscard) : (s.paymentBroken cause).drawers = s.drawers := by
  cases cause with
  | gap => rfl
  | length => rfl
  | check => rfl
  | kind f => exact paymentArrive_drawers s f
  | payloadLength f => exact paymentArrive_drawers s f

@[simp] theorem responseExpires_drawers (s : State) : s.responseExpires.drawers = s.drawers := by
  unfold State.responseExpires
  split
  · rfl
  · split
    · rfl
    · split
      · rfl
      · dsimp only
        rw [handoffEnd_drawers]
        split <;> rfl

@[simp] theorem paymentSent_drawers (s : State) : s.paymentSent.drawers = s.drawers := by
  unfold State.paymentSent
  split
  · rfl
  · dsimp only
    split
    · exact tryGrant_drawers _
    · rfl

/-! ## Cards (chapter 5) -/

@[simp] theorem reportSwipe_drawers (s : State) (l : LaneId) (e : CardEvent) : (s.reportSwipe l e).drawers = s.drawers :=
  (offerLane_drawers ..).trans (modLane_drawers s l _ rfl)

theorem classRule_drawers (s : State) (l : LaneId) (w : Swipe) (r : CardRange) : (s.classRule l w r).drawers = s.drawers := by
  have payment : (s.paymentSwipe l w r).drawers = s.drawers := by
    unfold State.paymentSwipe
    dsimp only
    split <;> simp [Lane.setSlot]
  have staff : (s.staffSwipe l w r).drawers = s.drawers := by
    unfold State.staffSwipe
    dsimp only
    split <;> simp
  unfold State.classRule
  split
  · exact reportSwipe_drawers ..
  · split
    · exact reportSwipe_drawers ..
    · exact payment
  · split
    · exact reportSwipe_drawers ..
    · exact staff
  · exact reportSwipe_drawers ..
  · exact reportSwipe_drawers ..

theorem classify_drawers (s : State) (l : LaneId) (w : Swipe) : (s.classify l w).drawers = s.drawers := by
  have digit (r : CardRange) : (s.checkDigitStep l w r).drawers = s.drawers := by
    unfold State.checkDigitStep
    split
    · exact reportSwipe_drawers ..
    · exact classRule_drawers s l w r
  unfold State.classify
  repeat' split
  all_goals simp [digit, State.secondSwipe, Lane.setSlot]

@[simp] theorem readerChar_drawers (s : State) (l : LaneId) (v : BitVec 4) (p : Bool) :
    (s.readerChar l v p).drawers = s.drawers := by
  have judged (s : State) (body : List (BitVec 4)) (lrc : BitVec 4) (bad : Bool) :
      (s.judge l body lrc bad).drawers = s.drawers := by
    unfold State.judge
    repeat' split
    all_goals simp [State.refuseSwipe, classify_drawers]
  unfold State.readerChar
  dsimp only
  split_ifs <;> simp [State.refuseSwipe, judged]

@[simp] theorem gapExpires_drawers (s : State) (l : LaneId) : (s.gapExpires l).drawers = s.drawers := by
  unfold State.gapExpires
  dsimp only
  split <;> simp [State.refuseSwipe]

end Sys2Proof.Machine
end

