-- ==== Sys2Proof/Proofs/DrawerFrameRequests.lean ====
section
/-! SUPPORT. The requests of the host that leave the drawers alone: all but DRAWER_OPEN, DRAWER_CLEAR, LANE_RESET and
SETTINGS_WRITE. -/

namespace Sys2Proof.Machine

theorem toLane_drawers {s : State} {addr : Byte} {g : LaneId → Reply × State} (h : ∀ l, (g l).2.drawers = s.drawers) :
    (toLane addr s g).2.drawers = s.drawers := by
  obtain ⟨l, hl⟩ | hl := toLane_cases addr s g <;> rw [hl]
  · exact h l
  · rfl

theorem withChannel_drawers {s : State} {b : Byte} {g : Chan → Reply × State} (h : ∀ c, (g c).2.drawers = s.drawers) :
    (withChannel b s g).2.drawers = s.drawers := by
  unfold withChannel
  split
  · rfl
  · exact h _

/-- A test of a request that chooses between two outcomes. -/
theorem drawers_ite {s : State} {p : Prop} [Decidable p] {a b : Reply × State} (ha : a.2.drawers = s.drawers)
    (hb : b.2.drawers = s.drawers) : (if p then a else b).2.drawers = s.drawers := by
  split <;> assumption

/-! ## Requests to the basket and the bag check (chapters 3 and 4) -/

theorem takeItem_drawers (l : LaneId) (code : BitVec 48) (q : Byte) (price : BitVec 32) (skip : Byte) (s : State) :
    (takeItem l code q price skip s).2.drawers = s.drawers := by
  have entered (e : Entry) : (itemCounted l e s).2.drawers = s.drawers := setLane_drawers s l _ (Lane.withEntry_till ..)
  rw [takeItem_eq]
  dsimp only
  iterate 11 refine drawers_ite rfl ?_
  split
  · exact drawers_ite (setLane_drawers s l _ rfl) (entered _)
  · exact entered _

theorem takeVoid_drawers (l : LaneId) (p : Byte) (s : State) : (takeVoid l p s).2.drawers = s.drawers := by
  unfold takeVoid State.expectRemoval
  dsimp only
  repeat' split
  all_goals simp [Lane.setEntryBag]

theorem takeTender_drawers (l : LaneId) (k : Byte) (m : BitVec 32) (s : State) : (takeTender l k m s).2.drawers = s.drawers := by
  unfold takeTender
  dsimp only
  repeat' split
  all_goals simp [setLane_drawers, Lane.addTender]

theorem basketClear_drawers (l : LaneId) (s : State) : (basketClear l s).2.drawers = s.drawers :=
  (endWeigh_drawers ..).trans (modLane_drawers s l Lane.clearBasket rfl)

theorem takeNewBasket_drawers (l : LaneId) (s : State) : (takeNewBasket l s).2.drawers = s.drawers := by
  rw [takeNewBasket_eq]
  exact drawers_ite rfl (drawers_ite (endWeigh_drawers ..) (drawers_ite rfl (basketClear_drawers l s)))

theorem takeAbandonBasket_drawers (l : LaneId) (s : State) : (takeAbandonBasket l s).2.drawers = s.drawers := by
  rw [takeAbandonBasket_eq]
  iterate 5 refine drawers_ite rfl ?_
  exact basketClear_drawers l s

theorem takeLaneMode_drawers (l : LaneId) (m : Byte) (s : State) : (takeLaneMode l m s).2.drawers = s.drawers := by
  have changed (m : LaneMode) : (s.modLane l fun n => { n.bagModeChange n.mode m with mode := m }).drawers = s.drawers :=
    modLane_drawers s l _ (Lane.bagModeChange_till (s.lane l) _ m)
  unfold takeLaneMode
  dsimp only
  repeat' split
  · rfl
  · rfl
  · rfl
  · exact changed _

theorem takeBagOverride_drawers (l : LaneId) (s : State) : (takeBagOverride l s).2.drawers = s.drawers := by
  unfold takeBagOverride
  dsimp only
  split_ifs <;> simp

/-! ## Requests to the weighing channels (chapter 1) -/

theorem takeChannelStart_drawers (l : LaneId) (b : Byte) (s : State) : (takeChannelStart l b s).2.drawers = s.drawers := by
  have started (c : Chan) : (takeChannelStart.started l s c).2.drawers = s.drawers :=
    (displayCheck_drawers ..).trans (modChan_drawers ..)
  refine withChannel_drawers fun c => ?_
  dsimp only
  repeat' split
  all_goals simp [started]

theorem takeChannelStop_drawers (l : LaneId) (b : Byte) (s : State) : (takeChannelStop l b s).2.drawers = s.drawers := by
  refine withChannel_drawers fun c => ?_
  dsimp only
  repeat' split
  all_goals simp

theorem takeZeroRequest_drawers (l : LaneId) (b : Byte) (s : State) : (takeZeroRequest l b s).2.drawers = s.drawers := by
  refine withChannel_drawers fun c => ?_
  dsimp only
  repeat' split
  all_goals simp

theorem takeTareWeighed_drawers (l : LaneId) (b : Byte) (s : State) : (takeTareWeighed l b s).2.drawers = s.drawers := by
  refine withChannel_drawers fun c => ?_
  dsimp only
  repeat' split
  all_goals simp [tareTaken]

theorem takeTarePreset_drawers (l : LaneId) (b f : Byte) (v : BitVec 32) (s : State) :
    (takeTarePreset l b f v s).2.drawers = s.drawers := by
  refine withChannel_drawers fun c => ?_
  dsimp only
  repeat' split
  all_goals simp [tareTaken]

/-! ## Requests to the card slot, the printer and the attention records (chapters 6, 8 and 9) -/

theorem takeCancelCard_drawers (l : LaneId) (s : State) : (takeCancelCard l s).2.drawers = s.drawers := by
  unfold takeCancelCard
  repeat' split
  all_goals simp [slotAnswer, Lane.setSlot]

theorem takePrintBegin_drawers (l : LaneId) (s : State) : (takePrintBegin l s).2.drawers = s.drawers := by
  unfold takePrintBegin
  dsimp only
  split_ifs <;> simp [setLane_drawers]

theorem takePrintData_drawers (l : LaneId) (job : Byte) (octets : List Byte) (s : State) :
    (takePrintData l job octets s).2.drawers = s.drawers := by
  unfold takePrintData
  dsimp only
  repeat' split
  · rfl
  · rfl
  · exact (noteMissing_drawers ..).trans (setLane_drawers s l _ (scanOctets_till (s.lane l) _ octets))

theorem takePrintEnd_drawers (l : LaneId) (job : Byte) (s : State) : (takePrintEnd l job s).2.drawers = s.drawers := by
  unfold takePrintEnd
  dsimp only
  split
  · rfl
  · simp [Lane.modJob]

theorem takePrintCancel_drawers (l : LaneId) (job : Byte) (s : State) : (takePrintCancel l job s).2.drawers = s.drawers := by
  unfold takePrintCancel State.offerPrint
  split
  · rfl
  · simp [Lane.cancelJob_eq, Lane.without]

theorem toRecord_drawers (addr : Byte) (set : BitVec 16) (g : Attention → BitVec 16 → Attention) (s : State) :
    (toRecord addr set g s).2.drawers = s.drawers := by
  unfold toRecord partAttention
  split_ifs
  · rfl
  · rfl
  · refine toLane_drawers fun l => ?_
    unfold laneAttention
    split <;> simp

/-! ## Requests to the part (chapters 3, 5, 8 and 10) -/

theorem takeItemPut_drawers (r : List RawItem) (s : State) : (takeItemPut r s).2.drawers = s.drawers := by
  rw [takeItemPut, loadAnswer_snd]
  rfl

theorem takeItemRemove_drawers (c : BitVec 48) (s : State) : (takeItemRemove c s).2.drawers = s.drawers := by
  unfold takeItemRemove
  exact drawers_ite rfl (drawers_ite rfl rfl)

theorem takeItemGet_drawers (c : BitVec 48) (s : State) : (takeItemGet c s).2.drawers = s.drawers := by
  unfold takeItemGet
  refine drawers_ite rfl ?_
  split <;> rfl

theorem takeBinPut_drawers (r : List RawRange) (s : State) : (takeBinPut r s).2.drawers = s.drawers := by
  rw [takeBinPut, loadAnswer_snd]
  rfl

theorem takeCalWrite_drawers (a c : Byte) (r : RawCal) (tag : Byte) (s : State) : (takeCalWrite a c r tag s).2.drawers = s.drawers := by
  unfold takeCalWrite
  split
  · iterate 7 refine drawers_ite rfl ?_
    rfl
  all_goals rfl

theorem takeCalRead_drawers (a c : Byte) (s : State) : (takeCalRead a c s).2.drawers = s.drawers := by
  unfold takeCalRead
  split <;> rfl

theorem takeLaneStatus_drawers (l : LaneId) (part : Byte) (s : State) : (takeLaneStatus l part s).2.drawers = s.drawers := by
  unfold takeLaneStatus
  split <;> rfl

end Sys2Proof.Machine
end

