-- ==== Sys2Proof/Proofs/PowerQueue.lean ====
section
/-! The solenoid power queue (R123, R124, R125): the admission test, the drawers it admits, the end of a release and the cuts,
and the obligation. -/

namespace Sys2Proof.Machine

/-! ## The admission test (R123) -/

theorem admissible_eq_none {s : State} :
    s.admissible = none ↔
      s.powerQueue = [] ∨ s.settings.solenoidBudget ≤ s.releasing.length ∨ s.supplyLow = true := by
  unfold State.admissible
  cases s.powerQueue with
  | nil => simp
  | cons l q => simp [imp_iff_not_or]

theorem admissible_eq_some {s : State} {l : LaneId} (h : s.admissible = some l) :
    (∃ q, s.powerQueue = l :: q) ∧ s.releasing.length < s.settings.solenoidBudget ∧ s.supplyLow = false := by
  have hsome : ¬ s.admissible = none := by simp [h]
  simp only [admissible_eq_none, not_or, Nat.not_le, Bool.not_eq_true] at hsome
  exact ⟨admissible_head h, hsome.2.1, hsome.2.2⟩

/-- With the supply low or the budget used up, no drawer is admitted. -/
theorem admission_blocked {s : State} (h : s.settings.solenoidBudget ≤ s.releasing.length ∨ s.supplyLow = true) :
    s.admission = s := by
  rw [State.admission, State.admitHeads, admissible_eq_none.mpr (.inr h)]

/-- What no admission changes. -/
theorem admitHeads_frame (n : Nat) (s : State) :
    (State.admitHeads n s).settings = s.settings ∧ (State.admitHeads n s).supplyLow = s.supplyLow ∧
      (State.admitHeads n s).upstream = s.upstream := by
  induction n generalizing s with
  | zero => exact ⟨rfl, rfl, rfl⟩
  | succ n ih =>
    unfold State.admitHeads
    split
    · exact ⟨rfl, rfl, rfl⟩
    · exact ih (s.admitOne _)

/-- The drawer of an admitted lane: RELEASING, its pulse timer started (R124). -/
def Till.admitted (t : Till) (pulseTime : Nat) : Till := { t with state := .releasing, pulse := some pulseTime }

theorem till_admitOne (s : State) (l m : LaneId) :
    (s.admitOne l).till m = if m = l then (s.till m).admitted (s.laneSettings m).pulseTime else s.till m := by
  split
  · rename_i h
    rw [h]
    exact till_setTill_same _ l _
  · rename_i h
    exact till_setTill_ne _ _ h

/-- The admissions of `n` tests: a number `k` of lanes from the head of the queue, in order. -/
theorem admitHeads_takes (n : Nat) (s : State) :
    ∃ k, (State.admitHeads n s).powerQueue = s.powerQueue.drop k ∧
      (State.admitHeads n s).releasing = s.releasing ++ s.powerQueue.take k ∧
      (∀ l, (State.admitHeads n s).till l =
        if l ∈ s.powerQueue.take k then (s.till l).admitted (s.laneSettings l).pulseTime else s.till l) ∧
      (s.supplyLow = true → k = 0) := by
  have none (s : State) : ∃ k, s.powerQueue = s.powerQueue.drop k ∧ s.releasing = s.releasing ++ s.powerQueue.take k ∧
      (∀ l, s.till l =
        if l ∈ s.powerQueue.take k then (s.till l).admitted (s.laneSettings l).pulseTime else s.till l) ∧
      (s.supplyLow = true → k = 0) := ⟨0, by simp⟩
  induction n generalizing s with
  | zero => exact none s
  | succ n ih =>
    unfold State.admitHeads
    split
    · exact none s
    · rename_i l hl
      obtain ⟨⟨q, hq⟩, -, hlow⟩ := admissible_eq_some hl
      have htail : (s.admitOne l).powerQueue = q := congrArg List.tail hq
      obtain ⟨k, hqueue, hrel, htill, -⟩ := ih (s.admitOne l)
      rw [htail] at hqueue hrel htill
      refine ⟨k + 1, ?_, ?_, fun m => ?_, fun h => nomatch hlow.symm.trans h⟩
      · rw [hqueue, hq, List.drop_succ_cons]
      · rw [hrel, hq, List.take_succ_cons]
        exact List.append_assoc s.releasing [l] _
      · rw [htill, till_admitOne, hq, List.take_succ_cons]
        by_cases hm : m = l
        · simp only [hm, List.mem_cons, true_or, if_true]
          split <;> rfl
        · simp only [hm, List.mem_cons, false_or, if_false]
          rfl

/-- The admissions stay within the budget. -/
theorem admitHeads_within (n : Nat) {s : State} (h : s.releasing.length ≤ s.settings.solenoidBudget) :
    (State.admitHeads n s).releasing.length ≤ s.settings.solenoidBudget := by
  induction n generalizing s with
  | zero => exact h
  | succ n ih =>
    unfold State.admitHeads
    split
    · exact h
    · rename_i l hl
      obtain ⟨-, hroom, -⟩ := admissible_eq_some hl
      refine ih (s := s.admitOne l) ?_
      change (s.releasing ++ [l]).length ≤ s.settings.solenoidBudget
      simpa using hroom

/-- As many tests as lanes wait leave the next test nothing to admit. -/
theorem admitHeads_admissible (n : Nat) {s : State} (h : s.powerQueue.length ≤ n) :
    (State.admitHeads n s).admissible = none := by
  induction n generalizing s with
  | zero => exact admissible_nil (List.eq_nil_of_length_eq_zero (Nat.le_zero.mp h))
  | succ n ih =>
    unfold State.admitHeads
    split
    · assumption
    · rename_i l hl
      obtain ⟨⟨q, hq⟩, -, -⟩ := admissible_eq_some hl
      have htail : (s.admitOne l).powerQueue = q := congrArg List.tail hq
      rw [hq, List.length_cons] at h
      exact ih (by rw [htail]; omega)

/-- Settles O19: each test that passes takes the head, and with four lanes at most waiting once each the fourth admission
leaves none. -/
theorem admissionTakesTheHead : Obligations.AdmissionTakesTheHead := by
  intro s hlaw
  obtain ⟨hbudget, -, -, honce, -, -, -⟩ := hlaw
  have hfour : s.powerQueue.length ≤ 4 := by simpa using honce.length_le_card
  obtain ⟨hsettings, hlow, hupstream⟩ := admitHeads_frame 4 s
  have hwithin : s.admission.releasing.length ≤ s.settings.solenoidBudget := admitHeads_within 4 hbudget
  have hend := admissible_eq_none.mp (admitHeads_admissible 4 hfour)
  rw [hsettings, hlow] at hend
  obtain ⟨k, hqueue, hrel, htill, hk⟩ := admitHeads_takes 4 s
  exact ⟨k, hqueue, hrel, htill, hwithin, hk, hend.imp_right (Or.imp_left fun hfull => Nat.le_antisymm hwithin hfull),
    hupstream⟩

/-! ## The list of RELEASING drawers (R125) -/

/-- The state with the list of the RELEASING drawers replaced. -/
def State.setReleasing (s : State) (r : List LaneId) : State := { s with releasing := r }

theorem raiseLane_setReleasing (s : State) (r : List LaneId) (l : LaneId) (c : LaneCond) :
    (s.setReleasing r).raiseLane l c = (s.raiseLane l c).setReleasing r := by
  simp only [State.raiseLane, apply_ite (State.setReleasing · r)]
  rfl

theorem offerDrawer_setReleasing (s : State) (r : List LaneId) (l : LaneId) (e : DrawerEvent) (k : Option Nat) :
    (s.setReleasing r).offerDrawer l e k = (s.offerDrawer l e k).setReleasing r := by
  simp only [State.offerDrawer, State.offerLane, raiseLane_setReleasing, apply_ite (State.setReleasing · r)]
  rfl

/-! ## The end of a release (R124, R125, R126) -/

theorem setTill_setTill (s : State) (l : LaneId) (t u : Till) : (s.setTill l t).setTill l u = s.setTill l u := by
  simp only [setTill_eq, lane_setLane_same, setLane_setLane]

/-- The drawer whose release is confirmed (R126, R127, R130). -/
def Till.confirmed (t : Till) (leftOpenTime : Nat) : Till :=
  { t with
    state := .opened, retry := false, cut := false, forced := false, openCount := nextOpen t.openCount, check := none
    leftOpen := seconds leftOpenTime }

theorem confirmRelease_eq (s : State) (l : LaneId) :
    s.confirmRelease l = (s.setTill l ((s.till l).confirmed (s.laneSettings l).leftOpenTime)).offerDrawer l .opened
      (some (if (s.till l).retry then 2 else 1)) := rfl

/-- The drawer that leaves RELEASING: confirmed when its sensor shows OPEN, else CHECKING (R126). -/
def Till.released (t : Till) (leftOpenTime : Nat) (cut : Bool) : Till :=
  if t.sensorOpen then { t with pulse := none }.confirmed leftOpenTime
  else { t with state := .checking, pulse := none, cut := cut, check := some checkTime }

/-- A release ends at its drawer, with the DRAWER_EVENT of a confirmation (R126, R133). -/
def State.endRelease (cut : Bool) (s : State) (l : LaneId) : State :=
  let s1 := s.setTill l ((s.till l).released (s.laneSettings l).leftOpenTime cut)
  if (s.till l).sensorOpen then s1.offerDrawer l .opened (some (if (s.till l).retry then 2 else 1)) else s1

/-- A DRAWER_EVENT about a lane whose blocks have just been written (R133). -/
theorem offerDrawer_setLane (s : State) (l : LaneId) (n : Lane) (e : DrawerEvent) (k : Option Nat) :
    (s.setLane l n).offerDrawer l e k = (s.setLane l n).offerLane l 0x88 (drawerEventPayload l n e k) := by
  rw [State.offerDrawer, lane_setLane_same]
  rfl

/-- The octets of a confirmation, with its attempt (R133). -/
theorem drawerEventPayload_attempt (l : LaneId) (n : Lane) (e : DrawerEvent) (retry : Bool) :
    drawerEventPayload l n e (some (if retry then 2 else 1)) =
      [laneAddr l, e.value, n.till.state.value] ++ be 2 n.till.openCount ++ [flagOctet n.token, flagOctet n.till.forced] ++
        [1, if retry then 2 else 1] := by
  cases retry <;> rfl

/-- The end of a release with its fields written out. -/
theorem endRelease_eq (cut : Bool) (s : State) (l : LaneId) :
    s.endRelease cut l =
      let n := s.lane l
      let count := if 65535 ≤ n.till.openCount then 0 else n.till.openCount + 1
      if n.till.sensorOpen then
        (s.setLane l { n with till := { n.till with
          state := .opened, pulse := none, check := none, retry := false, cut := false, forced := false, openCount := count
          leftOpen := some ((s.laneSettings l).leftOpenTime * 1000) } }).offerLane l 0x88
          ([laneAddr l, 0, 4] ++ be 2 count ++ [flagOctet n.token, 0] ++ [1, if n.till.retry then 2 else 1])
      else s.setLane l { n with till := { n.till with state := .checking, pulse := none, cut := cut, check := some 150 } } := by
  unfold State.endRelease Till.released State.till
  cases ho : (s.lane l).till.sensorOpen with
  | true =>
    simp only [ho, ↓reduceIte, setTill_eq, offerDrawer_setLane, drawerEventPayload_attempt]
    rfl
  | false =>
    simp only [ho, Bool.false_eq_true, ↓reduceIte]
    rfl

/-- A drawer leaves RELEASING as its sensor says, and the admission test follows. -/
theorem toChecking_eq (s : State) (l : LaneId) (cut : Bool) :
    s.toChecking l cut = ((s.endRelease cut l).setReleasing (s.releasing.filter (· != l))).admission := by
  unfold State.toChecking State.endRelease Till.released
  dsimp only
  refine congrArg State.admission ?_
  by_cases ho : (s.till l).sensorOpen = true
  · rw [if_pos ho, if_pos ho, if_pos ho, ← offerDrawer_setReleasing, confirmRelease_eq, till_setTill_same, setTill_setTill]
    rfl
  · rw [if_neg ho, if_neg ho, if_neg ho]
    rfl

theorem endRelease_setReleasing (cut : Bool) (s : State) (r : List LaneId) (l : LaneId) :
    (s.setReleasing r).endRelease cut l = (s.endRelease cut l).setReleasing r := by
  simp only [State.endRelease, apply_ite (State.setReleasing · r), ← offerDrawer_setReleasing]
  rfl

theorem endReleases_setReleasing (cut : Bool) (ls : List LaneId) (s : State) (r : List LaneId) :
    ls.foldl (State.endRelease cut) (s.setReleasing r) = (ls.foldl (State.endRelease cut) s).setReleasing r := by
  induction ls generalizing s with
  | nil => rfl
  | cons l ls ih => rw [List.foldl_cons, endRelease_setReleasing, ih, List.foldl_cons]

/-- The end of a release changes one drawer record and nothing else of the drawers. -/
theorem endRelease_drawers (cut : Bool) (s : State) (l : LaneId) :
    (s.endRelease cut l).drawers = (s.setTill l ((s.till l).released (s.laneSettings l).leftOpenTime cut)).drawers := by
  unfold State.endRelease
  dsimp only
  split
  · exact offerLane_drawers ..
  · rfl

/-! ## Cuts (R125) -/

/-- A drawer is cut while no lane can be admitted: its release ends, and none begins. -/
theorem cutDrawer_blocked {s : State} {l : LaneId}
    (h : s.settings.solenoidBudget ≤ (s.releasing.filter (· != l)).length ∨ s.supplyLow = true) :
    s.cutDrawer l = (s.endRelease true l).setReleasing (s.releasing.filter (· != l)) := by
  have hset : (s.endRelease true l).settings = s.settings := congrArg Drawers.settings (endRelease_drawers true s l)
  have hlow : (s.endRelease true l).supplyLow = s.supplyLow := congrArg Drawers.supplyLow (endRelease_drawers true s l)
  refine (toChecking_eq s l true).trans (admission_blocked ?_)
  change (s.endRelease true l).settings.solenoidBudget ≤ (s.releasing.filter (· != l)).length ∨
    (s.endRelease true l).supplyLow = true
  rw [hset, hlow]
  exact h

theorem filter_notMem_cons (r : List LaneId) (l : LaneId) (ls : List LaneId) :
    (r.filter (· != l)).filter (· ∉ ls) = r.filter (· ∉ l :: ls) := by
  rw [List.filter_filter]
  refine List.filter_congr fun m _ => ?_
  by_cases hm : m = l <;> simp [hm]

/-- Drawers are cut in turn while no lane can be admitted: each release ends, and none begins. -/
theorem cutDrawers_blocked (ls : List LaneId) (s : State)
    (h : s.settings.solenoidBudget ≤ (s.releasing.filter (· ∉ ls)).length ∨ s.supplyLow = true) :
    ls.foldl State.cutDrawer s =
      (ls.foldl (State.endRelease true) s).setReleasing (s.releasing.filter (· ∉ ls)) := by
  induction ls generalizing s with
  | nil =>
    have hall : s.releasing.filter (· ∉ ([] : List LaneId)) = s.releasing := by simp
    rw [hall]
    rfl
  | cons l ls ih =>
    rw [← filter_notMem_cons] at h ⊢
    have hset : (s.endRelease true l).settings = s.settings := congrArg Drawers.settings (endRelease_drawers true s l)
    have hlow : (s.endRelease true l).supplyLow = s.supplyLow := congrArg Drawers.supplyLow (endRelease_drawers true s l)
    have hless := List.length_filter_le (· ∉ ls) (s.releasing.filter (· != l))
    rw [List.foldl_cons, cutDrawer_blocked (h.imp_left fun hb => Nat.le_trans hb hless), ih, endReleases_setReleasing]
    · rfl
    · change (s.endRelease true l).settings.solenoidBudget ≤ _ ∨ (s.endRelease true l).supplyLow = true
      rw [hset, hlow]
      exact h

/-- A low supply cuts every RELEASING drawer (R125, R179). -/
theorem cutAll_eq {s : State} (h : s.supplyLow = true) :
    s.cutAll = (s.releasing.foldl (State.endRelease true) s).setReleasing [] := by
  have hnone : s.releasing.filter (· ∉ s.releasing) = [] := by simp
  rw [State.cutAll, cutDrawers_blocked _ _ (.inr h), hnone]

theorem filter_notMem_drop {r : List LaneId} (h : r.Nodup) (n : Nat) : r.filter (· ∉ (r.drop n).reverse) = r.take n := by
  have hkept : (r.take n).filter (· ∉ (r.drop n).reverse) = r.take n := by
    refine List.filter_eq_self.mpr fun m hm => ?_
    simpa using List.disjoint_left.mp (List.disjoint_take_drop h (Nat.le_refl n)) hm
  have hcut : (r.drop n).filter (· ∉ (r.drop n).reverse) = [] := by simp
  conv_lhs =>
    arg 2
    rw [← List.take_append_drop n r]
  rw [List.filter_append, hkept, hcut, List.append_nil]

/-- A lowered budget cuts the drawers admitted last (R125). -/
theorem cutToBudget_eq {s : State} (h : s.releasing.Nodup) :
    s.cutToBudget = ((s.releasing.drop s.settings.solenoidBudget).reverse.foldl (State.endRelease true) s).setReleasing
      (s.releasing.take s.settings.solenoidBudget) := by
  rw [State.cutToBudget]
  rcases Nat.lt_or_ge s.releasing.length s.settings.solenoidBudget with hlt | hge
  · rw [List.drop_of_length_le hlt.le, List.take_of_length_le hlt.le]
    rfl
  · rw [cutDrawers_blocked, filter_notMem_drop h]
    rw [filter_notMem_drop h, List.length_take, Nat.min_eq_left hge]
    exact .inl (Nat.le_refl _)

end Sys2Proof.Machine
end

