-- ==== Sys2Proof/Proofs/SolenoidLaw.lean ====
section
/-! The law of the solenoid power queue (R120, R123, R124, R125): what each operation of the drawers does to it, every command,
and the obligation. -/

namespace Sys2Proof.Machine

/-! ## The law on the drawers -/

/-- Each drawer is where the lists and its timers say: RELEASING in its list, WAITING_POWER in the queue, each once (R123), and
the timers running in their states (R120). -/
structure Drawers.Placed (d : Drawers) : Prop where
  releasingOnce : d.releasing.Nodup
  queuedOnce : d.powerQueue.Nodup
  releasing (l : LaneId) : l ∈ d.releasing ↔ (d.till l).state = .releasing
  queued (l : LaneId) : l ∈ d.powerQueue ↔ (d.till l).state = .waitingPower
  timed (l : LaneId) : TillLaw (d.till l)

theorem solenoidLaw_iff (s : State) :
    SolenoidLaw s ↔
      s.releasing.length ≤ s.settings.solenoidBudget ∧ (s.supplyLow = true → s.releasing = []) ∧ s.drawers.Placed :=
  and_congr_right fun _ => and_congr_right fun _ =>
    ⟨fun ⟨hr, hq, hrel, hqueue, ht⟩ => ⟨hr, hq, hrel, hqueue, ht⟩,
      fun h => ⟨h.releasingOnce, h.queuedOnce, h.releasing, h.queued, h.timed⟩⟩

/-- One drawer record replaced, with the lists that then hold its lane; they hold the other lanes as before. -/
theorem Drawers.Placed.replace {d : Drawers} (h : d.Placed) {l : LaneId} {x : Till} {r q : List LaneId} (hr : r.Nodup)
    (hq : q.Nodup) (hrl : l ∈ r ↔ x.state = .releasing) (hql : l ∈ q ↔ x.state = .waitingPower)
    (hrm : ∀ m, m ≠ l → (m ∈ r ↔ m ∈ d.releasing)) (hqm : ∀ m, m ≠ l → (m ∈ q ↔ m ∈ d.powerQueue)) (hx : TillLaw x) :
    Drawers.Placed { d with releasing := r, powerQueue := q, till := Function.update d.till l x } := by
  refine ⟨hr, hq, fun m => ?_, fun m => ?_, fun m => ?_⟩ <;> by_cases hm : m = l
  case pos => simpa [hm] using hrl
  case neg => simpa [hm] using (hrm m hm).trans (h.releasing m)
  case pos => simpa [hm] using hql
  case neg => simpa [hm] using (hqm m hm).trans (h.queued m)
  case pos => simpa [hm] using hx
  case neg => simpa [hm] using h.timed m

/-! ## Drawer records (R120) -/

/-- No timer runs outside its state. -/
theorem TillLaw.stopped {t : Till} (h : TillLaw t) :
    (t.state ≠ .releasing → t.pulse = none) ∧ (t.state ≠ .checking → t.check = none) ∧
      (t.state ≠ .opened → t.leftOpen = none) := by
  obtain ⟨hp, hc, ho⟩ := h
  have stopped {u : Timer} {p : Prop} (hu : u.isSome = true ↔ p) (hn : ¬ p) : u = none := by
    simpa using fun h : u.isSome = true => hn (hu.mp h)
  exact ⟨stopped hp, stopped hc, stopped ho⟩

section
variable {t : Till}

theorem tillLaw_releasing (hs : t.state = .releasing) (hp : t.pulse.isSome = true) (hc : t.check = none)
    (ho : t.leftOpen = none) : TillLaw t := by simp [TillLaw, hs, hp, hc, ho]

theorem tillLaw_checking (hs : t.state = .checking) (hp : t.pulse = none) (hc : t.check.isSome = true)
    (ho : t.leftOpen = none) : TillLaw t := by simp [TillLaw, hs, hp, hc, ho]

theorem tillLaw_opened (hs : t.state = .opened) (hp : t.pulse = none) (hc : t.check = none)
    (ho : t.leftOpen.isSome = true) : TillLaw t := by simp [TillLaw, hs, hp, hc, ho]

theorem tillLaw_idle (hs : t.state = .closed ∨ t.state = .waitingPower ∨ t.state = .fault ∨ t.state = .leftOpen)
    (hp : t.pulse = none) (hc : t.check = none) (ho : t.leftOpen = none) : TillLaw t := by
  obtain hs | hs | hs | hs := hs <;> simp [TillLaw, hs, hp, hc, ho]

end

section
variable {s t : State} {l : LaneId}

theorem SolenoidLaw.placed (hs : SolenoidLaw s) : s.drawers.Placed := ((solenoidLaw_iff s).mp hs).2.2

theorem SolenoidLaw.timed (hs : SolenoidLaw s) (l : LaneId) : TillLaw (s.till l) := hs.placed.timed l

theorem SolenoidLaw.mem_releasing (hs : SolenoidLaw s) : l ∈ s.releasing ↔ (s.till l).state = .releasing :=
  hs.placed.releasing l

theorem SolenoidLaw.mem_powerQueue (hs : SolenoidLaw s) : l ∈ s.powerQueue ↔ (s.till l).state = .waitingPower :=
  hs.placed.queued l

/-! ## A drawer moves -/

/-- A drawer that neither enters nor leaves RELEASING, with a queue that holds it while it is WAITING_POWER. -/
theorem SolenoidLaw.requeue (hs : SolenoidLaw s) {x : Till} {q : List LaneId} (hx : TillLaw x)
    (hr : x.state = .releasing ↔ (s.till l).state = .releasing) (hq : q.Nodup) (hql : l ∈ q ↔ x.state = .waitingPower)
    (hqm : ∀ m, m ≠ l → (m ∈ q ↔ m ∈ s.powerQueue)) : SolenoidLaw (State.setTill { s with powerQueue := q } l x) := by
  obtain ⟨hwithin, hsupply, hplaced⟩ := (solenoidLaw_iff s).mp hs
  refine (solenoidLaw_iff _).mpr ⟨hwithin, hsupply, ?_⟩
  rw [setTill_eq, setLane_drawers_update]
  exact hplaced.replace hplaced.releasingOnce hq ((hplaced.releasing l).trans hr.symm) hql (fun _ _ => Iff.rfl) hqm hx

/-- A drawer that neither enters nor leaves RELEASING or WAITING_POWER. -/
theorem SolenoidLaw.setTill (hs : SolenoidLaw s) {x : Till} (hx : TillLaw x)
    (hr : x.state = .releasing ↔ (s.till l).state = .releasing)
    (hq : x.state = .waitingPower ↔ (s.till l).state = .waitingPower) : SolenoidLaw (s.setTill l x) :=
  hs.requeue hx hr hs.placed.queuedOnce ((hs.placed.queued l).trans hq.symm) fun _ _ => Iff.rfl

/-- A drawer whose state and timers stay. -/
theorem SolenoidLaw.setTill_same (hs : SolenoidLaw s) {x : Till} (h : x.state = (s.till l).state)
    (hp : x.pulse = (s.till l).pulse) (hc : x.check = (s.till l).check) (ho : x.leftOpen = (s.till l).leftOpen) :
    SolenoidLaw (s.setTill l x) := by
  have hx : TillLaw x := by
    unfold TillLaw
    rw [h, hp, hc, ho]
    exact hs.placed.timed l
  exact hs.setTill hx (by rw [h]) (by rw [h])

/-- A drawer that is not RELEASING leaves the queue, or was not in it. -/
theorem SolenoidLaw.leaveQueue (hs : SolenoidLaw s) {x : Till} (hx : TillLaw x) (hr : (s.till l).state ≠ .releasing)
    (hxr : x.state ≠ .releasing) (hxq : x.state ≠ .waitingPower) :
    SolenoidLaw (State.setTill { s with powerQueue := s.powerQueue.filter (· != l) } l x) := by
  refine hs.requeue hx (iff_of_false hxr hr) (hs.placed.queuedOnce.filter _) (iff_of_false ?_ hxq) fun m hm => ?_
  · simp
  · simp [hm]

/-! ## The sensor and the open drawer (R121, R127, R128, R129) -/

/-- The debounce timer after a change of the level or of the polarity, the rest of the record as it was (R121). -/
theorem debounced_eq (x : Till) (p : Polarity) :
    x.debounced p = { x with
      debounce := if sensesOpen p x.rawHigh = x.sensorOpen then none
        else if x.debounce.isSome then x.debounce else some debounceTime } := by
  unfold Till.debounced
  split_ifs <;> rfl

theorem SolenoidLaw.debounced (hs : SolenoidLaw s) (p : Polarity) : SolenoidLaw (s.setTill l ((s.till l).debounced p)) := by
  rw [debounced_eq]
  exact hs.setTill_same rfl rfl rfl rfl

theorem SolenoidLaw.forcedOpening (hs : SolenoidLaw s) (h : (s.till l).state = .closed ∨ (s.till l).state = .waitingPower) :
    SolenoidLaw (s.forcedOpening l) := by
  obtain ⟨hp, hc, -⟩ := (hs.timed l).stopped
  have hne : (s.till l).state ≠ .releasing ∧ (s.till l).state ≠ .checking := by obtain h | h := h <;> simp [h]
  obtain ⟨hr, hk⟩ := hne
  refine (hs.leaveQueue (l := l) (x := { s.till l with retry := false }.toOpen (s.laneSettings l).leftOpenTime true)
    (tillLaw_opened rfl (hp hr) (hc hk) rfl) hr (by simp [Till.toOpen]) (by simp [Till.toOpen])).of_drawers ?_
  exact (raiseLane_drawers ..).trans (offerLane_drawers ..)

theorem SolenoidLaw.confirmRelease (hs : SolenoidLaw s) (h : (s.till l).state = .checking) :
    SolenoidLaw (s.confirmRelease l) := by
  obtain ⟨hp, -, -⟩ := (hs.timed l).stopped
  refine (hs.setTill (l := l) (x := (s.till l).confirmed (s.laneSettings l).leftOpenTime)
    (tillLaw_opened rfl (hp (by simp [h])) rfl rfl) (by simp [h, Till.confirmed]) (by simp [h, Till.confirmed])).of_drawers ?_
  exact offerLane_drawers ..

theorem SolenoidLaw.foundOpen (hs : SolenoidLaw s) (h : (s.till l).state = .fault) : SolenoidLaw (s.foundOpen l) := by
  obtain ⟨hp, hc, -⟩ := (hs.timed l).stopped
  refine (hs.setTill (l := l) (x := { s.till l with openCount := nextOpen (s.till l).openCount }.toOpen
    (s.laneSettings l).leftOpenTime false) (tillLaw_opened rfl (hp (by simp [h])) (hc (by simp [h])) rfl)
    (by simp [h, Till.toOpen]) (by simp [h, Till.toOpen])).of_drawers ?_
  exact offerLane_drawers ..

theorem SolenoidLaw.drawerCloses (hs : SolenoidLaw s) (h : (s.till l).state = .opened ∨ (s.till l).state = .leftOpen) :
    SolenoidLaw (s.drawerCloses l) := by
  obtain ⟨hp, hc, -⟩ := (hs.timed l).stopped
  have hne : (s.till l).state ≠ .releasing ∧ (s.till l).state ≠ .checking ∧ (s.till l).state ≠ .waitingPower := by
    obtain h | h := h <;> simp [h]
  obtain ⟨hr, hk, hw⟩ := hne
  refine (hs.setTill (l := l) (x := { s.till l with state := .closed, leftOpen := none, forced := false })
    (tillLaw_idle (.inl rfl) (hp hr) (hc hk) rfl) (by simp [hr]) (by simp [hw])).of_drawers ?_
  exact offerLane_drawers ..

theorem SolenoidLaw.sensorChange (hs : SolenoidLaw s) : SolenoidLaw (s.sensorChange l) := by
  unfold State.sensorChange
  dsimp only
  split
  case h_1 h _ => exact hs.forcedOpening (.inl h)
  case h_2 h _ => exact hs.forcedOpening (.inr h)
  case h_3 h _ => exact hs.confirmRelease h
  case h_4 h _ => exact hs.foundOpen h
  case h_5 h _ => exact hs.drawerCloses (.inl h)
  case h_6 h _ => exact hs.drawerCloses (.inr h)
  all_goals exact hs

theorem SolenoidLaw.debounceExpires (hs : SolenoidLaw s) : SolenoidLaw (s.debounceExpires l) := by
  unfold State.debounceExpires
  dsimp only
  split
  · exact SolenoidLaw.sensorChange (hs.setTill_same rfl rfl rfl rfl)
  · exact hs

theorem SolenoidLaw.leftOpenExpires (hs : SolenoidLaw s) : SolenoidLaw (s.leftOpenExpires l) := by
  unfold State.leftOpenExpires
  dsimp only
  split
  · rename_i ho
    obtain ⟨hp, hc, -⟩ := (hs.timed l).stopped
    have h : (s.till l).state = .opened := (hs.timed l).2.2.mp ho
    refine (hs.setTill (l := l) (x := { s.till l with state := .leftOpen, leftOpen := none })
      (tillLaw_idle (.inr (.inr (.inr rfl))) (hp (by simp [h])) (hc (by simp [h])) rfl) (by simp [h]) (by simp [h])).of_drawers ?_
    exact (raiseLane_drawers ..).trans (offerLane_drawers ..)
  · exact hs

/-! ## Admissions and the end of a release (R123, R124, R125, R126) -/

theorem SolenoidLaw.admitOne (hs : SolenoidLaw s) (h : s.admissible = some l) : SolenoidLaw (s.admitOne l) := by
  have hplaced := hs.placed
  obtain ⟨⟨q, hq⟩, hroom, hlow⟩ := admissible_eq_some h
  have hw : (s.till l).state = .waitingPower := hs.mem_powerQueue.mp (by simp [hq])
  have hlr : l ∉ s.releasing := fun hl => nomatch hw.symm.trans (hs.mem_releasing.mp hl)
  obtain ⟨hlq, hqonce⟩ := List.nodup_cons.mp (hq ▸ hplaced.queuedOnce : (l :: q).Nodup)
  obtain ⟨-, hc, ho⟩ := (hs.timed l).stopped
  have hdrawers : (s.admitOne l).drawers = { s.drawers with
      releasing := s.releasing ++ [l], powerQueue := q
      till := Function.update s.drawers.till l ((s.till l).admitted (s.laneSettings l).pulseTime) } := by
    rw [State.admitOne, hq]
    exact setLane_drawers_update _ l _
  refine (solenoidLaw_iff _).mpr ⟨?_, fun (hl : s.supplyLow = true) => (nomatch hlow.symm.trans hl), ?_⟩
  · change (s.releasing ++ [l]).length ≤ s.settings.solenoidBudget
    simpa using hroom
  · rw [hdrawers]
    refine hplaced.replace ?_ hqonce (iff_of_true (by simp) rfl) (iff_of_false hlq nofun) (fun m hm => ?_) (fun m hm => ?_)
      (tillLaw_releasing rfl rfl (hc (by simp [hw])) (ho (by simp [hw])))
    · exact List.concat_eq_append ▸ hplaced.releasingOnce.concat hlr
    · simp [hm, State.drawers]
    · simp [hm, hq, State.drawers]

theorem SolenoidLaw.admission (hs : SolenoidLaw s) : SolenoidLaw s.admission := by
  have heads (n : Nat) {s : State} (hs : SolenoidLaw s) : SolenoidLaw (State.admitHeads n s) := by
    induction n generalizing s with
    | zero => exact hs
    | succ n ih =>
      unfold State.admitHeads
      split
      · exact hs
      · rename_i h
        exact ih (hs.admitOne h)
  exact heads 4 hs

/-- A RELEASING drawer whose release ends is out of the list. -/
theorem Drawers.Placed.endRelease (h : s.drawers.Placed) (hl : l ∈ s.releasing) (cut : Bool) :
    ((s.endRelease cut l).setReleasing (s.releasing.filter (· != l))).drawers.Placed := by
  have hstate : (s.till l).state = .releasing := (h.releasing l).mp hl
  have hlq : l ∉ s.powerQueue := fun hq => nomatch hstate.symm.trans ((h.queued l).mp hq)
  obtain ⟨-, -, ho⟩ := (h.timed l).stopped
  have ho : (s.till l).leftOpen = none := ho (by simp [State.drawers, hstate])
  generalize hx : (s.till l).released (s.laneSettings l).leftOpenTime cut = x
  have hdrawers : ((s.endRelease cut l).setReleasing (s.releasing.filter (· != l))).drawers =
      { s.drawers with releasing := s.releasing.filter (· != l), till := Function.update s.drawers.till l x } := by
    have he := (endRelease_drawers cut s l).trans (setLane_drawers_update s l _)
    rw [hx] at he
    exact congrArg (fun d : Drawers => { d with releasing := s.releasing.filter (· != l) }) he
  have hout : TillLaw x ∧ x.state ≠ .releasing ∧ x.state ≠ .waitingPower := by
    rw [← hx]
    unfold Till.released
    split
    · exact ⟨tillLaw_opened rfl rfl rfl rfl, nofun, nofun⟩
    · exact ⟨tillLaw_checking rfl rfl rfl ho, nofun, nofun⟩
  obtain ⟨hlaw, hr, hw⟩ := hout
  rw [hdrawers]
  exact h.replace (h.releasingOnce.filter _) h.queuedOnce (iff_of_false (by simp) hr) (iff_of_false hlq hw)
    (fun m hm => by simp [hm, State.drawers]) (fun _ _ => Iff.rfl) hlaw

theorem SolenoidLaw.toChecking (hs : SolenoidLaw s) (hl : l ∈ s.releasing) (cut : Bool) : SolenoidLaw (s.toChecking l cut) := by
  obtain ⟨hwithin, hsupply, hplaced⟩ := (solenoidLaw_iff s).mp hs
  have hset : (s.endRelease cut l).settings = s.settings := congrArg Drawers.settings (endRelease_drawers cut s l)
  have hlow : (s.endRelease cut l).supplyLow = s.supplyLow := congrArg Drawers.supplyLow (endRelease_drawers cut s l)
  rw [toChecking_eq]
  refine SolenoidLaw.admission ((solenoidLaw_iff _).mpr ⟨?_, fun h => ?_, hplaced.endRelease hl cut⟩)
  · change (s.releasing.filter (· != l)).length ≤ (s.endRelease cut l).settings.solenoidBudget
    rw [hset]
    exact Nat.le_trans (List.length_filter_le ..) hwithin
  · have hnone : s.releasing = [] := hsupply (hlow.symm.trans h)
    rw [hnone] at hl
    exact nomatch hl

theorem SolenoidLaw.pulseExpires (hs : SolenoidLaw s) : SolenoidLaw (s.pulseExpires l) := by
  unfold State.pulseExpires
  split
  · rename_i hp
    exact hs.toChecking (hs.mem_releasing.mpr ((hs.timed l).1.mp hp)) false
  · exact hs

theorem SolenoidLaw.checkExpires (hs : SolenoidLaw s) : SolenoidLaw (s.checkExpires l) := by
  unfold State.checkExpires
  dsimp only
  split
  · exact hs
  · rename_i hrun
    have h : (s.till l).state = .checking := (hs.timed l).2.1.mp (Option.isSome_iff_ne_none.mpr (by simpa using hrun))
    obtain ⟨hp, -, ho⟩ := (hs.timed l).stopped
    have hp : (s.till l).pulse = none := hp (by simp [h])
    have ho : (s.till l).leftOpen = none := ho (by simp [h])
    have hlq : l ∉ s.powerQueue := fun hq => nomatch h.symm.trans (hs.mem_powerQueue.mp hq)
    have honce : s.powerQueue.Nodup := hs.placed.queuedOnce
    split
    · exact SolenoidLaw.admission (hs.requeue (tillLaw_idle (.inr (.inl rfl)) hp rfl ho) (by simp [h])
        (List.nodup_cons.mpr ⟨hlq, honce⟩) (by simp) fun m hm => by simp [hm])
    · split
      · refine (hs.setTill (l := l) (x := { s.till l with check := none, retry := false, state := .fault })
          (tillLaw_idle (.inr (.inr (.inl rfl))) hp rfl ho) (by simp [h]) (by simp [h])).of_drawers ?_
        exact (raiseLane_drawers ..).trans (offerLane_drawers ..)
      · refine SolenoidLaw.admission ((hs.requeue (l := l) (q := s.powerQueue ++ [l])
          (x := { s.till l with check := none, retry := true, state := .waitingPower })
          (tillLaw_idle (.inr (.inl rfl)) hp rfl ho) (by simp [h]) ?_ (by simp) fun m hm => by simp [hm]).of_drawers
            (offerLane_drawers ..))
        exact List.concat_eq_append ▸ honce.concat hlq

/-! ## Cuts, the supply and the settings (R121, R123, R125, R174, R179) -/

/-- RELEASING drawers cut in turn are out of the list, and nothing else governs the drawers otherwise. -/
theorem Drawers.Placed.endReleases {ls : List LaneId} (hls : ls.Nodup) :
    ∀ {s : State}, s.drawers.Placed → (∀ l ∈ ls, l ∈ s.releasing) →
      ((ls.foldl (State.endRelease true) s).setReleasing (s.releasing.filter (· ∉ ls))).drawers.Placed := by
  induction ls with
  | nil =>
    intro s h _
    have hall : s.releasing.filter (· ∉ ([] : List LaneId)) = s.releasing := by simp
    rw [hall]
    exact h
  | cons l ls ih =>
    intro s h hin
    obtain ⟨hl, hls⟩ := List.nodup_cons.mp hls
    have hrest : ∀ m ∈ ls, m ∈ s.releasing.filter (· != l) := fun m hm => by
      have hne : m ≠ l := fun heq => hl (heq ▸ hm)
      simp [hin m (List.mem_cons_of_mem l hm), hne]
    have hone := h.endRelease (hin l List.mem_cons_self) true
    have hall := ih hls hone hrest
    rw [endReleases_setReleasing] at hall
    rw [List.foldl_cons, ← filter_notMem_cons]
    exact hall

/-- The end of releases leaves the settings, the supply-low flag and the queue. -/
theorem endReleases_frame (cut : Bool) (ls : List LaneId) (s : State) :
    (ls.foldl (State.endRelease cut) s).settings = s.settings ∧
      (ls.foldl (State.endRelease cut) s).supplyLow = s.supplyLow ∧
      (ls.foldl (State.endRelease cut) s).powerQueue = s.powerQueue := by
  induction ls generalizing s with
  | nil => exact ⟨rfl, rfl, rfl⟩
  | cons l ls ih =>
    have hd := endRelease_drawers cut s l
    obtain ⟨hset, hlow, hqueue⟩ := ih (s.endRelease cut l)
    exact ⟨hset.trans (congrArg Drawers.settings hd), hlow.trans (congrArg Drawers.supplyLow hd),
      hqueue.trans (congrArg Drawers.powerQueue hd)⟩

/-- A low supply leaves no drawer RELEASING (R179). -/
theorem Drawers.Placed.cutAll (h : s.drawers.Placed) (hlow : s.supplyLow = true) : SolenoidLaw s.cutAll := by
  have hplaced := h.endReleases h.releasingOnce fun _ => id
  have hnone : s.releasing.filter (· ∉ s.releasing) = [] := by simp
  rw [cutAll_eq hlow]
  refine (solenoidLaw_iff _).mpr ⟨Nat.zero_le _, fun _ => rfl, ?_⟩
  rw [← hnone]
  exact hplaced

/-- A lowered budget leaves no more drawers RELEASING than it allows (R125). -/
theorem Drawers.Placed.cutToBudget (h : s.drawers.Placed) (hsupply : s.supplyLow = true → s.releasing = []) :
    SolenoidLaw s.cutToBudget := by
  have honce : s.releasing.Nodup := h.releasingOnce
  have hcut : (s.releasing.drop s.settings.solenoidBudget).reverse.Nodup :=
    List.nodup_reverse.mpr (honce.sublist (List.drop_sublist _ _))
  have hplaced := h.endReleases hcut fun l hl => List.mem_of_mem_drop (List.mem_reverse.mp hl)
  obtain ⟨hset, hlow, -⟩ := endReleases_frame true (s.releasing.drop s.settings.solenoidBudget).reverse s
  rw [filter_notMem_drop honce] at hplaced
  rw [cutToBudget_eq honce]
  refine (solenoidLaw_iff _).mpr ⟨?_, fun hl => ?_, hplaced⟩
  · refine Nat.le_trans (List.length_take_le _ _) (Nat.le_of_eq ?_)
    exact congrArg Settings.solenoidBudget hset.symm
  · change s.releasing.take s.settings.solenoidBudget = []
    rw [hsupply (hlow.symm.trans hl), List.take_nil]

theorem SolenoidLaw.supplyFalls (hs : SolenoidLaw s) : SolenoidLaw s.supplyFalls := by
  unfold State.supplyFalls
  dsimp only
  split
  · have hlow : (State.raisePart { s with supplyBelow := true, supplyLow := true } .supplyLow).drawers =
        { s.drawers with supplyLow := true } := raisePart_drawers ..
    refine Drawers.Placed.cutAll ?_ (congrArg Drawers.supplyLow hlow)
    rw [hlow]
    exact ⟨hs.placed.releasingOnce, hs.placed.queuedOnce, hs.placed.releasing, hs.placed.queued, hs.placed.timed⟩
  · exact hs.of_drawers rfl

theorem SolenoidLaw.supplyRises (hs : SolenoidLaw s) : SolenoidLaw s.supplyRises := by
  unfold State.supplyRises
  dsimp only
  split
  · obtain ⟨hwithin, -, hplaced⟩ := (solenoidLaw_iff s).mp hs
    refine SolenoidLaw.admission ((solenoidLaw_iff _).mpr ⟨hwithin, nofun, ?_⟩)
    exact ⟨hplaced.releasingOnce, hplaced.queuedOnce, hplaced.releasing, hplaced.queued, hplaced.timed⟩
  · exact hs.of_drawers rfl

/-- A drawer whose debounce follows the polarity is where it was. -/
theorem Drawers.Placed.polaritySettings (old : Settings) (ls : List LaneId) (h : s.drawers.Placed) :
    (ls.foldl (State.polaritySetting old) s).drawers.Placed := by
  induction ls generalizing s with
  | nil => exact h
  | cons l ls ih =>
    refine ih ?_
    unfold State.polaritySetting
    split
    · rw [debounced_eq, setTill_eq, setLane_drawers_update]
      exact h.replace h.releasingOnce h.queuedOnce (h.releasing l) (h.queued l) (fun _ _ => Iff.rfl) (fun _ _ => Iff.rfl)
        (h.timed l)
    · exact h

theorem polaritySettings_frame (old : Settings) (ls : List LaneId) (s : State) :
    (ls.foldl (State.polaritySetting old) s).settings = s.settings ∧
      (ls.foldl (State.polaritySetting old) s).supplyLow = s.supplyLow ∧
      (ls.foldl (State.polaritySetting old) s).releasing = s.releasing := by
  induction ls generalizing s with
  | nil => exact ⟨rfl, rfl, rfl⟩
  | cons l ls ih =>
    have hone : (State.polaritySetting old s l).settings = s.settings ∧
        (State.polaritySetting old s l).supplyLow = s.supplyLow ∧
        (State.polaritySetting old s l).releasing = s.releasing := by
      unfold State.polaritySetting
      split <;> exact ⟨rfl, rfl, rfl⟩
    obtain ⟨hset, hlow, hrel⟩ := hone
    obtain ⟨hsets, hlows, hrels⟩ := ih (State.polaritySetting old s l)
    exact ⟨hsets.trans hset, hlows.trans hlow, hrels.trans hrel⟩

theorem linkSetting_drawers (s : State) (old : Settings) : (s.linkSetting old).drawers = s.drawers := by
  unfold State.linkSetting
  split <;> rfl

/-- A new budget is met from within the old one (R123, R125). -/
theorem Drawers.Placed.budgetSetting {old : Settings} (h : s.drawers.Placed)
    (hwithin : s.releasing.length ≤ old.solenoidBudget) (hsupply : s.supplyLow = true → s.releasing = []) :
    SolenoidLaw (s.budgetSetting old) := by
  have law (hb : old.solenoidBudget ≤ s.settings.solenoidBudget) : SolenoidLaw s :=
    (solenoidLaw_iff s).mpr ⟨Nat.le_trans hwithin hb, hsupply, h⟩
  unfold State.budgetSetting
  split_ifs with hraised hlowered
  · exact (law hraised.le).admission
  · exact h.cutToBudget hsupply
  · exact law (Nat.le_of_not_lt hlowered)

/-- The drawers follow a written settings record: their debounce, then the budget (R121, R123, R125). -/
theorem SolenoidLaw.writeSettings (hs : SolenoidLaw s) (r : Settings) : SolenoidLaw (s.writeSettings r) := by
  obtain ⟨hwithin, hsupply, hp⟩ := (solenoidLaw_iff s).mp hs
  have hwritten : (State.linkSetting { s with settings := r } s.settings).drawers = { s.drawers with settings := r } :=
    linkSetting_drawers ..
  have hplaced : (State.linkSetting { s with settings := r } s.settings).drawers.Placed := by
    rw [hwritten]
    exact ⟨hp.releasingOnce, hp.queuedOnce, hp.releasing, hp.queued, hp.timed⟩
  obtain ⟨-, hlow, hrel⟩ := polaritySettings_frame s.settings allLanes (State.linkSetting { s with settings := r } s.settings)
  have hlow := hlow.trans (congrArg Drawers.supplyLow hwritten)
  have hrel := hrel.trans (congrArg Drawers.releasing hwritten)
  refine (hplaced.polaritySettings s.settings allLanes).budgetSetting ?_ fun h => ?_
  · rw [hrel]
    exact hwithin
  · rw [hrel]
    exact hsupply (hlow.symm.trans h)

/-! ## Start-up (R132, R180) -/

/-- A part with no drawer in either list. -/
structure Rested (s : State) : Prop where
  law : SolenoidLaw s
  releasing : s.releasing = []
  powerQueue : s.powerQueue = []

theorem rested_blank (s : State) (cause : ResetCause) (check : SelfCheck) : Rested (s.blank cause check) := by
  have htill (l : LaneId) : (s.blank cause check).till l = Till.blank (s.lane l).till.rawHigh :=
    congrArg Lane.till (Four.get_make _ l)
  refine ⟨(solenoidLaw_iff _).mpr ⟨Nat.zero_le _, fun _ => rfl, ?_⟩, rfl, rfl⟩
  refine ⟨List.nodup_nil, List.nodup_nil, fun l => ?_, fun l => ?_, fun l => ?_⟩
  · exact iff_of_false List.not_mem_nil (by simp [State.drawers, htill, Till.blank])
  · exact iff_of_false List.not_mem_nil (by simp [State.drawers, htill, Till.blank])
  · change TillLaw ((s.blank cause check).till l)
    rw [htill]
    exact tillLaw_idle (.inl rfl) rfl rfl rfl

theorem Rested.of_drawers (h : Rested s) (ht : t.drawers = s.drawers) : Rested t :=
  ⟨h.law.of_drawers ht, (congrArg Drawers.releasing ht).trans h.releasing,
    (congrArg Drawers.powerQueue ht).trans h.powerQueue⟩

theorem Rested.startLane (h : Rested s) (l : LaneId) : Rested (s.startLane l) := by
  unfold State.startLane
  split
  · dsimp only
    generalize hx : Till.start (s.lane l).till.rawHigh (s.laneSettings l).leftOpenTime = x
    have hmod : (s.modLane l fun n => { n with
        till := Till.start n.till.rawHigh (s.laneSettings l).leftOpenTime
        port := { n.port with silence := some 2000 } }).drawers = (s.setTill l x).drawers := by
      rw [modLane_eq, setTill_eq, setLane_drawers_update, setLane_drawers_update, hx]
    have hstart : TillLaw x ∧ x.state ≠ .releasing ∧ x.state ≠ .waitingPower := by
      rw [← hx]
      unfold Till.start
      dsimp only
      split
      · exact ⟨tillLaw_opened rfl rfl rfl rfl, nofun, nofun⟩
      · exact ⟨tillLaw_idle (.inl rfl) rfl rfl rfl, nofun, nofun⟩
    obtain ⟨hlaw, hr, hw⟩ := hstart
    have hrel : (s.till l).state ≠ .releasing := fun hs => by
      have := h.law.mem_releasing.mpr hs
      simp [h.releasing] at this
    have hqueue : (s.till l).state ≠ .waitingPower := fun hs => by
      have := h.law.mem_powerQueue.mpr hs
      simp [h.powerQueue] at this
    have hset : Rested (s.setTill l x) :=
      ⟨h.law.setTill hlaw (iff_of_false hr hrel) (iff_of_false hw hqueue), h.releasing, h.powerQueue⟩
    exact hset.of_drawers ((startChannel_drawers ..).trans ((startChannel_drawers ..).trans hmod))
  · exact h

theorem solenoidLaw_startUp (s : State) (cause : ResetCause) (check : SelfCheck) : SolenoidLaw (s.startUp cause check) := by
  have supply {u : State} (h : Rested u) : SolenoidLaw u.compareSupply := by
    unfold State.compareSupply
    split
    · obtain ⟨hwithin, -, hp⟩ := (solenoidLaw_iff u).mp h.law
      refine SolenoidLaw.of_drawers (s := { u with supplyLow := true }) ?_ (raisePart_drawers ..)
      exact (solenoidLaw_iff _).mpr ⟨hwithin, fun _ => h.releasing,
        ⟨hp.releasingOnce, hp.queuedOnce, hp.releasing, hp.queued, hp.timed⟩⟩
    · exact h.law
  have lanes (ls : List LaneId) {u : State} (h : Rested u) : Rested (ls.foldl State.startLane u) := by
    induction ls generalizing u with
    | nil => exact h
    | cons l ls ih => exact ih (h.startLane l)
  exact supply (lanes allLanes ((rested_blank s cause check).of_drawers (enqueue_drawers ..)))

/-! ## Requests (R122, R129, R131) -/

theorem SolenoidLaw.takeDrawerOpen (hs : SolenoidLaw s) : SolenoidLaw (takeDrawerOpen l s).2 := by
  have joined (h : (s.till l).state = .closed) (token : Bool) : SolenoidLaw (s.joinQueue l token) := by
    obtain ⟨hp, hc, ho⟩ := (hs.timed l).stopped
    have hlq : l ∉ s.powerQueue := fun hq => nomatch h.symm.trans (hs.mem_powerQueue.mp hq)
    refine SolenoidLaw.admission ((hs.requeue (l := l) (q := s.powerQueue ++ [l])
      (x := { s.till l with state := .waitingPower, retry := false })
      (tillLaw_idle (.inr (.inl rfl)) (hp (by simp [h])) (hc (by simp [h])) (ho (by simp [h]))) (by simp [h])
      (List.concat_eq_append ▸ hs.placed.queuedOnce.concat hlq) (by simp) fun m hm => by simp [hm]).of_drawers ?_)
    rw [setTill_eq, setLane_drawers_update]
    exact congrArg (fun d : Drawers => { d with powerQueue := s.powerQueue ++ [l] }) (setLane_drawers_update s l _)
  unfold Machine.takeDrawerOpen
  dsimp only
  split
  case h_7 h =>
    split
    · exact joined h _
    · exact hs
  all_goals exact hs

theorem SolenoidLaw.takeDrawerClear (hs : SolenoidLaw s) : SolenoidLaw (takeDrawerClear l s).2 := by
  unfold Machine.takeDrawerClear
  split
  · rename_i h
    obtain ⟨hp, hc, ho⟩ := (hs.timed l).stopped
    refine (hs.setTill (l := l) (x := { s.till l with state := .closed })
      (tillLaw_idle (.inl rfl) (hp (by simp [h])) (hc (by simp [h])) (ho (by simp [h]))) (by simp [h]) (by simp [h])).of_drawers ?_
    exact offerLane_drawers ..
  · exact hs

theorem SolenoidLaw.takeLaneReset (hs : SolenoidLaw s) : SolenoidLaw (takeLaneReset l s).2 := by
  rw [takeLaneReset_eq]
  dsimp only
  split
  · exact hs
  · have hdrawers (q : List LaneId) : State.drawers { s.setLane l (s.lane l).resetAll with powerQueue := q } =
        (State.setTill { s with powerQueue := q } l (s.till l).afterReset).drawers := by
      rw [setTill_eq, setLane_drawers_update]
      exact congrArg (fun d : Drawers => { d with powerQueue := q }) (setLane_drawers_update s l _)
    refine SolenoidLaw.of_drawers ?_ (hdrawers _)
    change SolenoidLaw (State.setTill { s with powerQueue :=
      if (s.till l).state = .waitingPower then s.powerQueue.filter (· != l) else s.powerQueue } l (s.till l).afterReset)
    unfold Till.afterReset
    by_cases h : (s.till l).state = .waitingPower
    · obtain ⟨hp, hc, ho⟩ := (hs.timed l).stopped
      rw [if_pos h, if_pos h]
      exact hs.leaveQueue (tillLaw_idle (.inl rfl) (hp (by simp [h])) (hc (by simp [h])) (ho (by simp [h])))
        (by simp [h]) nofun nofun
    · rw [if_neg h, if_neg h]
      exact hs.setTill_same rfl rfl rfl rfl

theorem SolenoidLaw.takeSettingsWrite (hs : SolenoidLaw s) (r : RawSettings) : SolenoidLaw (takeSettingsWrite r s).2 := by
  unfold Machine.takeSettingsWrite
  split
  · exact hs
  · dsimp only
    exact hs.writeSettings _

/-! ## The trunk link (R169, R170) -/

/-- Every request keeps the law at its owner. -/
theorem SolenoidLaw.take (hs : SolenoidLaw s) (i : Instr) : SolenoidLaw (take i s).2 := by
  have lane {addr : Byte} {g : LaneId → Reply × State} (hg : ∀ l, SolenoidLaw (g l).2) :
      SolenoidLaw (toLane addr s g).2 := by
    obtain ⟨l, hl⟩ | hl := toLane_cases addr s g <;> rw [hl]
    · exact hg l
    · exact hs
  have other {addr : Byte} {g : LaneId → Reply × State} (hg : ∀ l, (g l).2.drawers = s.drawers) :
      SolenoidLaw (toLane addr s g).2 := hs.of_drawers (toLane_drawers hg)
  cases i with
  | item a _ c q p k => exact other fun l => takeItem_drawers l c q p k s
  | void a _ p => exact other fun l => takeVoid_drawers l p s
  | cancelWeigh a _ => exact other fun l => drawers_ite (endWeigh_drawers ..) rfl
  | tender a _ k m => exact other fun l => takeTender_drawers l k m s
  | newBasket a _ => exact other fun l => takeNewBasket_drawers l s
  | abandonBasket a _ => exact other fun l => takeAbandonBasket_drawers l s
  | basketRead a _ p => exact other fun l => drawers_ite rfl rfl
  | laneMode a _ m => exact other fun l => takeLaneMode_drawers l m s
  | channelStart a _ c => exact other fun l => takeChannelStart_drawers l c s
  | channelStop a _ c => exact other fun l => takeChannelStop_drawers l c s
  | channelSetup a _ c f m => exact other fun l => withChannel_drawers fun c => drawers_ite rfl (setChan_drawers ..)
  | zero a _ c => exact other fun l => takeZeroRequest_drawers l c s
  | tareWeighed a _ c _ => exact other fun l => takeTareWeighed_drawers l c s
  | tarePreset a _ c f v => exact other fun l => takeTarePreset_drawers l c f v s
  | clearTare a _ c => exact other fun l => withChannel_drawers fun c => drawers_ite rfl (modChan_drawers ..)
  | bagOverride a _ => exact other fun l => takeBagOverride_drawers l s
  | cancelCard a _ => exact other fun l => takeCancelCard_drawers l s
  | drawerOpen a _ => exact lane fun l => hs.takeDrawerOpen
  | drawerClear a _ => exact lane fun l => hs.takeDrawerClear
  | printBegin a _ => exact other fun l => takePrintBegin_drawers l s
  | printData a _ j o => exact other fun l => takePrintData_drawers l j o s
  | printEnd a _ j => exact other fun l => takePrintEnd_drawers l j s
  | printCancel a _ j => exact other fun l => takePrintCancel_drawers l j s
  | laneStatus a _ n => exact other fun l => takeLaneStatus_drawers l n s
  | laneReset a _ => exact lane fun l => hs.takeLaneReset
  | staffGrant a _ n => exact other fun l => drawers_ite rfl (grantStaff_drawers ..)
  | staffWithdraw a _ => exact other fun l => dropStaff_drawers s l
  | clearAttention a _ c => exact hs.of_drawers (toRecord_drawers a c _ s)
  | attentionMask a _ c => exact hs.of_drawers (toRecord_drawers a c _ s)
  | settingsWrite _ r => exact hs.takeSettingsWrite r
  | setDate _ y m d => exact hs.of_drawers (drawers_ite rfl rfl)
  | restart _ => exact hs.of_drawers (drawers_ite rfl rfl)
  | itemPut _ r => exact hs.of_drawers (takeItemPut_drawers r s)
  | itemRemove _ c => exact hs.of_drawers (takeItemRemove_drawers c s)
  | itemGet _ c => exact hs.of_drawers (takeItemGet_drawers c s)
  | binPut _ r => exact hs.of_drawers (takeBinPut_drawers r s)
  | binRemove _ n => exact hs.of_drawers (drawers_ite rfl (drawers_ite rfl rfl))
  | binRead _ n => exact hs.of_drawers (drawers_ite rfl rfl)
  | glyphPut _ c p => exact hs.of_drawers (drawers_ite rfl rfl)
  | glyphClear _ c => exact hs.of_drawers (drawers_ite rfl rfl)
  | calWrite t a c r _ => exact hs.of_drawers (takeCalWrite_drawers a c r t s)
  | calRead _ a c => exact hs.of_drawers (takeCalRead_drawers a c s)
  | _ => exact hs.of_drawers rfl

theorem SolenoidLaw.dispatch (hs : SolenoidLaw s) (f : Frame) : SolenoidLaw (s.dispatch f) := by
  have reserved : SolenoidLaw s.reserve := hs.of_drawers rfl
  have replied : SolenoidLaw (s.reserve.replyTo f).2 := by
    unfold State.replyTo
    split
    · exact reserved
    · exact reserved.take _
  unfold State.dispatch settle
  split
  · exact replied.of_drawers rfl
  · exact replied

theorem SolenoidLaw.drain (n : Nat) (hs : SolenoidLaw s) : SolenoidLaw (State.drain n s) := by
  induction n generalizing s with
  | zero => exact hs
  | succ n ih =>
    unfold State.drain
    split
    · exact hs
    · rename_i f rest _
      split
      · exact hs
      · exact ih (SolenoidLaw.dispatch (s := s.setBuffer rest) (hs.of_drawers rfl) f)

theorem SolenoidLaw.arrive (hs : SolenoidLaw s) (f : Frame) : SolenoidLaw (s.arrive f) := by
  unfold State.arrive
  dsimp only
  split_ifs
  · exact hs.of_drawers (discardFrame_drawers s)
  · exact hs.of_drawers (raisePart_drawers ..)
  · exact SolenoidLaw.drain _ (hs.of_drawers rfl)

theorem SolenoidLaw.frameSent (hs : SolenoidLaw s) : SolenoidLaw s.frameSent := by
  unfold State.frameSent
  split
  · exact hs
  · split
    · exact SolenoidLaw.drain _ (hs.of_drawers rfl)
    · exact hs
    · exact hs.of_drawers rfl

theorem SolenoidLaw.onPart (hs : SolenoidLaw s) {g : State → State} (hg : SolenoidLaw (g s)) : SolenoidLaw (s.onPart g) := by
  unfold State.onPart
  split <;> assumption

theorem SolenoidLaw.onLane (hs : SolenoidLaw s) {g : State → State} (hg : SolenoidLaw (g s)) :
    SolenoidLaw (s.onLane l g) := by
  unfold State.onLane
  split <;> assumption

theorem SolenoidLaw.request (hs : SolenoidLaw s) (i : Instr) : SolenoidLaw (s.request i) := by
  unfold State.request
  split
  · exact hs
  · exact hs.onPart (hs.arrive _)

/-! ## Every command -/

theorem SolenoidLaw.exec (hs : SolenoidLaw s) (i : Instr) (he : exec i s = .next t) : SolenoidLaw t := by
  have next {u : State} (hu : Machine.exec i s = .next u) (hl : SolenoidLaw u) : SolenoidLaw t := by
    obtain rfl : u = t := Host.Outcome.next.inj (hu.symm.trans he)
    exact hl
  have part {g : State → State} (hu : Machine.exec i s = .next (s.onPart g)) (hg : (g s).drawers = s.drawers) :
      SolenoidLaw t := next hu (hs.onPart (hs.of_drawers hg))
  have lane {l : LaneId} {g : State → State} (hu : Machine.exec i s = .next (s.onLane l g))
      (hg : (g s).drawers = s.drawers) : SolenoidLaw t := next hu (hs.onLane (hs.of_drawers hg))
  have level (en : Bool) : SolenoidLaw (s.withCalEn en) := hs.of_drawers rfl
  cases i with
  | calWrite _ _ _ _ en => exact next rfl ((level en).request _)
  | calWriteComplete => exact part rfl (calWriteCompletes_drawers s)
  | goodFrame f en => exact next rfl ((level en).onPart ((level en).arrive f))
  | frameError _ => exact part rfl (discardFrame_drawers s)
  | upstreamFrameSent en => exact next rfl ((level en).onPart (level en).frameSent)
  | restartReset check =>
    refine next rfl ?_
    unfold State.restartReset
    split
    · exact solenoidLaw_startUp s _ _
    · exact hs
  | linkSilenceExpiry => exact part rfl (linkExpires_drawers s)
  | powerOn inputs => exact next rfl (solenoidLaw_startUp (s.readInputs inputs) _ _)
  | brownOut => exact next rfl ((rested_blank s .brownOut s.selfCheck).law.of_drawers rfl)
  | supplyLowSet => exact next rfl hs.supplyFalls
  | supplyLowClear => exact next rfl hs.supplyRises
  | sampleArrival l c raw => exact lane rfl (sample_drawers s l c raw.toNat)
  | channelSilenceExpiry l c => exact lane rfl (silenceExpires_drawers s l c)
  | initialZeroExpiry l c => exact lane rfl (initialZeroExpires_drawers s l c)
  | displayTimerExpiry l c => exact lane rfl (displayExpires_drawers s l c)
  | weighTimerExpiry l => exact lane rfl (weighExpires_drawers s l)
  | placementTimerExpiry l => exact lane rfl (placementExpires_drawers s l)
  | removalTimerExpiry l => exact lane rfl (removalExpires_drawers s l)
  | readerCharacter l v p => exact lane rfl (readerChar_drawers s l v p)
  | gapTimerExpiry l => exact lane rfl (gapExpires_drawers s l)
  | result a tag o m ap => exact part rfl (paymentArrive_drawers s _)
  | paymentFrameSent => exact part rfl (paymentSent_drawers s)
  | responseTimerExpiry => exact part rfl (responseExpires_drawers s)
  | drawerSensorLevel l high =>
    have pin : SolenoidLaw (s.sensorPin l high) := hs.setTill_same rfl rfl rfl rfl
    exact next rfl (pin.onLane (pin.debounced _))
  | debounceTimerExpiry l => exact next rfl (hs.onLane hs.debounceExpires)
  | pulseTimerExpiry l => exact next rfl (hs.onLane hs.pulseExpires)
  | checkTimerExpiry l => exact next rfl (hs.onLane hs.checkExpires)
  | leftOpenExpiry l => exact next rfl (hs.onLane hs.leftOpenExpires)
  | lineDone l _ => exact lane rfl (printerArrive_drawers s l _)
  | lineFailed l _ => exact lane rfl (printerArrive_drawers s l _)
  | printerStatus l _ => exact lane rfl (printerArrive_drawers s l _)
  | printerSilenceExpiry l => exact lane rfl (printerSilent_drawers s l)
  | answerTimerExpiry l => exact lane rfl (answerExpires_drawers s l)
  | staffHoldExpiry l => exact lane rfl (staffExpires_drawers s l)
  | supplyAboveBrownOut inputs =>
    refine next rfl ?_
    unfold State.aboveBrownOut
    split
    · exact hs
    · exact solenoidLaw_startUp (s.readInputs inputs) _ _
  | paymentFrameDiscarded cause => exact part rfl (paymentBroken_drawers s cause)
  | printerFrameDiscarded l cause => exact lane rfl (printerBroken_drawers s l cause)
  | _ => exact next rfl (hs.request _)

end

/-- Settles O8: a drawer enters and leaves the two lists with its state, an admission finds room and the supply good, and cuts
let none in for the drawers they end. -/
theorem solenoidLawKept : Obligations.SolenoidLawKept := by
  intro s t h hs
  unfold step at hs
  split at hs
  · obtain rfl : s = t := Host.Outcome.next.inj hs
    exact h
  · rename_i c rest _
    exact SolenoidLaw.exec (s := { s with pending := rest }) (h.of_drawers rfl) c hs

end Sys2Proof.Machine
end

