-- ==== Sys2Proof/Proofs/DrawerTimers.lean ====
section
/-! The sensor and the timers of a drawer (R121, R124, R126 to R130, R133): what each event makes of its drawer, and the
obligation. -/

namespace Sys2Proof.Machine

section
variable {s : State} {l : LaneId}

/-! ## The sensor (R121) -/

/-- The interpreted level, as the statements write it. -/
theorem sensesOpen_eq (p : Polarity) (high : Bool) : sensesOpen p high = if p = .openHigh then high else !high := by
  cases p <;> rfl

theorem exec_drawerSensorLevel (h : s.Runs l) (high : Bool) :
    exec (.drawerSensorLevel l high) s =
      .next (s.setTill l ({ s.till l with rawHigh := high }.debounced (s.polarity l))) := by
  have hruns : (s.sensorPin l high).Runs l := h
  refine congrArg Host.Outcome.next ((onLane_runs hruns _).trans ?_)
  rw [State.debounceUpdate, State.sensorPin, till_setTill_same, setTill_setTill]
  rfl

theorem exec_debounceTimerExpiry (h : s.Runs l) (ht : (s.till l).debounce.isSome = true) :
    exec (.debounceTimerExpiry l) s = .next ((s.setTill l { s.till l with
      debounce := none, sensorOpen := sensesOpen (s.polarity l) (s.till l).rawHigh }).sensorChange l) :=
  congrArg Host.Outcome.next ((onLane_runs h _).trans (if_pos ht))

/-- A sensor change by the state of the drawer (R121, R126 to R129). -/
theorem sensorChange_setLane (s : State) (l : LaneId) (n : Lane) :
    (s.setLane l n).sensorChange l =
      if n.till.sensorOpen = true ∧ (n.till.state = .closed ∨ n.till.state = .waitingPower) then
        (s.setLane l n).forcedOpening l
      else if n.till.sensorOpen = true ∧ n.till.state = .checking then (s.setLane l n).confirmRelease l
      else if n.till.sensorOpen = true ∧ n.till.state = .fault then (s.setLane l n).foundOpen l
      else if n.till.sensorOpen = false ∧ (n.till.state = .opened ∨ n.till.state = .leftOpen) then
        (s.setLane l n).drawerCloses l
      else s.setLane l n := by
  unfold State.sensorChange State.till
  rw [lane_setLane_same]
  dsimp only
  split <;> simp [*]

theorem forcedOpening_setLane (s : State) (l : LaneId) (n : Lane) :
    (s.setLane l n).forcedOpening l =
      (({ s.setLane l { n with till := { n.till with
          state := .opened, retry := false, forced := true, leftOpen := some ((s.laneSettings l).leftOpenTime * 1000) } } with
        powerQueue := s.powerQueue.filter (· != l) } : State).offerLane l 0x88
        ([laneAddr l, 0, 4] ++ be 2 n.till.openCount ++ [flagOctet n.token, flagOctet true] ++ [1, 0])).raiseLane l
          .drawerForced := by
  have hn (q : List LaneId) : State.lane { s.setLane l n with powerQueue := q } l = n := lane_setLane_same s l n
  have hset (q : List LaneId) (m : Lane) :
      State.setLane { s.setLane l n with powerQueue := q } l m = { s.setLane l m with powerQueue := q } :=
    setLane_setLane { s with powerQueue := q } l n m
  unfold State.forcedOpening
  dsimp only
  rw [State.till, lane_setLane_same, setTill_eq, hn, offerDrawer_setLane, hset]
  rfl

theorem confirmRelease_setLane (s : State) (l : LaneId) (n : Lane) :
    (s.setLane l n).confirmRelease l =
      let count := if 65535 ≤ n.till.openCount then 0 else n.till.openCount + 1
      (s.setLane l { n with till := { n.till with
        state := .opened, retry := false, cut := false, forced := false, openCount := count, check := none
        leftOpen := some ((s.laneSettings l).leftOpenTime * 1000) } }).offerLane l 0x88
        ([laneAddr l, 0, 4] ++ be 2 count ++ [flagOctet n.token, flagOctet false] ++ [1, if n.till.retry then 2 else 1]) := by
  rw [confirmRelease_eq, State.till, lane_setLane_same, setTill_eq, lane_setLane_same, setLane_setLane, offerDrawer_setLane,
    drawerEventPayload_attempt]
  rfl

theorem foundOpen_setLane (s : State) (l : LaneId) (n : Lane) :
    (s.setLane l n).foundOpen l =
      let count := if 65535 ≤ n.till.openCount then 0 else n.till.openCount + 1
      (s.setLane l { n with till := { n.till with
        state := .opened, forced := false, openCount := count
        leftOpen := some ((s.laneSettings l).leftOpenTime * 1000) } }).offerLane l 0x88
        ([laneAddr l, 0, 4] ++ be 2 count ++ [flagOctet n.token, flagOctet false] ++ [1, 0]) := by
  unfold State.foundOpen
  dsimp only
  rw [State.till, lane_setLane_same, setTill_eq, lane_setLane_same, setLane_setLane, offerDrawer_setLane]
  rfl

theorem drawerCloses_setLane (s : State) (l : LaneId) (n : Lane) :
    (s.setLane l n).drawerCloses l =
      (s.setLane l { n with till := { n.till with state := .closed, leftOpen := none, forced := false } }).offerLane l 0x88
        ([laneAddr l, 4, 0] ++ be 2 n.till.openCount ++ [flagOctet n.token, flagOctet false] ++ [0, 0]) := by
  rw [State.drawerCloses, State.till, lane_setLane_same, setTill_eq, lane_setLane_same, setLane_setLane, offerDrawer_setLane]
  rfl

/-! ## The timers of the release and of the open drawer (R124, R126, R127) -/

theorem exec_pulseTimerExpiry (h : s.Runs l) (ht : (s.till l).pulse.isSome = true) :
    exec (.pulseTimerExpiry l) s = .next (((s.setReleasing (s.releasing.filter (· != l))).endRelease false l).admission) := by
  rw [endRelease_setReleasing, ← toChecking_eq]
  exact congrArg Host.Outcome.next ((onLane_runs h _).trans (if_pos ht))

theorem exec_checkTimerExpiry (h : s.Runs l) (ht : (s.till l).check.isSome = true) :
    exec (.checkTimerExpiry l) s = .next
      (let n := s.lane l
      if n.till.cut = true then
        State.admission { s.setLane l { n with till := { n.till with check := none, cut := false, state := .waitingPower } } with
          powerQueue := l :: s.powerQueue }
      else if n.till.retry = true then
        ((s.setLane l { n with till := { n.till with check := none, retry := false, state := .fault } }).offerLane l 0x88
          ([laneAddr l, 2, 6] ++ be 2 n.till.openCount ++ [flagOctet n.token, flagOctet n.till.forced] ++ [1, 2])).raiseLane l
          .drawerFault
      else
        (State.offerLane { s.setLane l { n with till := { n.till with check := none, retry := true, state := .waitingPower } } with
          powerQueue := s.powerQueue ++ [l] } l 0x88
          ([laneAddr l, 1, 1] ++ be 2 n.till.openCount ++ [flagOctet n.token, flagOctet n.till.forced] ++ [1, 1])).admission) := by
  have hrun : (s.till l).check.isNone = false := by simpa [Option.isSome_iff_ne_none] using ht
  refine congrArg Host.Outcome.next ((onLane_runs h _).trans ?_)
  unfold State.checkExpires
  dsimp only
  rw [hrun, if_neg Bool.false_ne_true, State.till, setTill_eq, setTill_eq, setTill_eq, offerDrawer_setLane, offerDrawer_setLane]
  rfl

theorem exec_leftOpenExpiry (h : s.Runs l) (ht : (s.till l).leftOpen.isSome = true) :
    exec (.leftOpenExpiry l) s = .next
      (let n := s.lane l
      ((s.setLane l { n with till := { n.till with state := .leftOpen, leftOpen := none } }).offerLane l 0x88
        ([laneAddr l, 3, 5] ++ be 2 n.till.openCount ++ [flagOctet n.token, flagOctet n.till.forced] ++ [0, 0])).raiseLane l
        .drawerLeftOpen) := by
  refine congrArg Host.Outcome.next ((onLane_runs h _).trans ((if_pos ht).trans ?_))
  rw [setTill_eq, offerDrawer_setLane]
  rfl

end

/-- Settles O57: a sensor change and each expiry by the state and the flags of the drawer, with the fields written out. -/
theorem drawerReleasesRunTheirTimers : Obligations.DrawerReleasesRunTheirTimers := by
  refine ⟨?_, ?_, ?_, fun s l h ht => exec_checkTimerExpiry h ht, fun s l h ht => exec_leftOpenExpiry h ht⟩
  · intro s l high h n isOpen
    have hopen : sensesOpen (s.polarity l) high = isOpen := sensesOpen_eq ..
    rw [exec_drawerSensorLevel h, debounced_eq, hopen]
    rfl
  · intro s l h ht n isOpen count t
    have hopen : sensesOpen (s.polarity l) (s.till l).rawHigh = isOpen := sensesOpen_eq ..
    rw [exec_debounceTimerExpiry h ht, hopen, setTill_eq, sensorChange_setLane, forcedOpening_setLane, confirmRelease_setLane,
      foundOpen_setLane, drawerCloses_setLane]
    rfl
  · intro s l h ht n count freed
    rw [exec_pulseTimerExpiry h ht, endRelease_eq]
    exact congrArg Host.Outcome.next (apply_ite State.admission ..)

end Sys2Proof.Machine
end

