-- ==== Sys2Proof/Proofs/SupplyWarnings.lean ====
section
/-! The supply warning (R125, R126, R161, R179): the condition SUPPLY_LOW, the drawers it cuts, the admissions at its end, and the
obligation. -/

namespace Sys2Proof.Machine

section
variable {s : State}

/-! ## The condition (R161) -/

theorem addCond_supplyLow_withheld (a : BitVec 16) :
    addCond (addCond a PartCond.supplyLow.bit) PartCond.noticeWithheld.bit = a ||| 0x28 := BitVec.or_assoc a 8 0x20

/-- SUPPLY_LOW raised in the part record: already set, masked, notified or withheld. -/
theorem raisePart_supplyLow (s : State) :
    s.raisePart .supplyLow =
      let set := s.attention.set ||| 8
      let known := s.attention.set.getLsbD 3 = true
      let masked := s.attention.mask.getLsbD 3 = true
      let room := s.upstream.length + s.reserved < 64
      { s with
        attention := ⟨if known then s.attention.set else if masked ∨ room then set else s.attention.set ||| 0x28,
          s.attention.mask⟩
        upstream := if ¬ known ∧ ¬ masked ∧ room then
            s.upstream ++ [⟨15, 0x8A, 0, [15, 3] ++ be 2 set.toNat ++ be 2 s.attention.mask.toNat⟩]
          else s.upstream } := by
  dsimp only
  by_cases hk : s.attention.set.getLsbD 3 = true
  · rw [raisePart_set s .supplyLow hk]
    simp only [hk, not_true_eq_false, false_and, ↓reduceIte]
  · have hclear : hasCond s.attention.set PartCond.supplyLow.bit = false := Bool.eq_false_iff.mpr hk
    by_cases hm : s.attention.mask.getLsbD 3 = true
    · rw [raisePart_masked s .supplyLow hclear hm]
      simp only [hk, hm, not_true_eq_false, false_and, and_false, true_or, ↓reduceIte]
      rfl
    · have hopen : hasCond s.attention.mask PartCond.supplyLow.bit = false := Bool.eq_false_iff.mpr hm
      by_cases hr : s.upstream.length + s.reserved < 64
      · rw [raisePart_notified s .supplyLow hclear hopen hr]
        simp only [hk, hm, hr, or_true, ↓reduceIte]
        rfl
      · rw [raisePart_withheld s .supplyLow hclear hopen (Nat.le_of_not_lt hr), addCond_supplyLow_withheld]
        simp only [hk, hm, hr, and_false, or_self, Bool.false_eq_true, ↓reduceIte]

/-! ## The cuts (R125) -/

theorem setReleasing_self {r : List LaneId} (h : s.releasing = r) : s.setReleasing r = s := by
  subst h
  rfl

/-- Releases of different drawers end each at its own record. -/
theorem endReleases_till (cut : Bool) {ls : List LaneId} (h : ls.Nodup) (s : State) (m : LaneId) :
    (ls.foldl (State.endRelease cut) s).till m =
      if m ∈ ls then (s.till m).released (s.laneSettings m).leftOpenTime cut else s.till m := by
  induction ls generalizing s with
  | nil => simp
  | cons l ls ih =>
    obtain ⟨hl, hls⟩ := List.nodup_cons.mp h
    have hd := (endRelease_drawers cut s l).trans (setLane_drawers_update s l _)
    have hset : (s.endRelease cut l).settings = s.settings := congrArg Drawers.settings hd
    have htill : (s.endRelease cut l).till =
        Function.update s.till l ((s.till l).released (s.laneSettings l).leftOpenTime cut) := congrArg Drawers.till hd
    rw [List.foldl_cons, ih hls, State.laneSettings, hset, htill]
    by_cases hm : m = l
    · subst hm
      simp [hl]
    · simp [hm, State.laneSettings]

/-- The part with its supply-low flag and its condition set, before the cuts. -/
def State.warned (s : State) : State := State.raisePart { s with supplyBelow := true, supplyLow := true } .supplyLow

theorem warned_drawers (s : State) : s.warned.drawers = { s.drawers with supplyLow := true } := raisePart_drawers ..

/-- The supply warning at a running part: the condition first, then every RELEASING drawer is cut (log 20). -/
theorem exec_supplyLowSet (hp : s.power = .running) (hl : s.supplyLow = false) :
    exec .supplyLowSet s = .next ((s.releasing.foldl (State.endRelease true) s.warned).setReleasing []) := by
  have hrel : s.warned.releasing = s.releasing := congrArg Drawers.releasing (warned_drawers s)
  refine congrArg Host.Outcome.next ((if_pos ⟨hp, hl⟩).trans ?_)
  refine (cutAll_eq (s := s.warned) (congrArg Drawers.supplyLow (warned_drawers s))).trans ?_
  rw [hrel]

end

/-- Settles O26: the flag bars every admission, so the cuts end the releases and begin none. -/
theorem supplyWarningCutsAndReadmits : Obligations.SupplyWarningCutsAndReadmits := by
  refine ⟨fun s hp hl hnone => ?_, fun s hp hl hlaw => ?_, fun s hp hl => ?_, fun s hp hl => ?_⟩
  · have hrel : s.warned.releasing = [] := (congrArg Drawers.releasing (warned_drawers s)).trans hnone
    have huncut : (s.releasing.foldl (State.endRelease true) s.warned).setReleasing [] = s.warned := by
      rw [hnone, List.foldl_nil, setReleasing_self hrel]
    rw [exec_supplyLowSet hp hl, huncut]
    rfl
  · have honce : s.releasing.Nodup := hlaw.placed.releasingOnce
    have hw := warned_drawers s
    have hset : s.warned.settings = s.settings := congrArg Drawers.settings hw
    have htill : s.warned.till = s.till := congrArg Drawers.till hw
    have hends := endReleases_frame true s.releasing s.warned
    refine ⟨_, exec_supplyLowSet hp hl, ?_, rfl, ?_, fun l => ?_⟩
    · exact hends.2.1.trans (congrArg Drawers.supplyLow hw)
    · exact hends.2.2.trans (congrArg Drawers.powerQueue hw)
    · refine (endReleases_till true honce s.warned l).trans ?_
      rw [State.laneSettings, hset, htill]
      rfl
  · have hfold := funext fun z => funext fun l => endRelease_eq true z l
    intro set known masked room warned
    have hwarned : s.warned.setReleasing [] = warned := by
      rw [State.warned, raisePart_supplyLow]
      rfl
    rw [exec_supplyLowSet hp hl, ← endReleases_setReleasing, hwarned]
    exact congrArg (fun f => Host.Outcome.next (s.releasing.foldl f warned)) hfold
  · exact congrArg Host.Outcome.next (if_pos ⟨hp, hl⟩)

end Sys2Proof.Machine
end

