-- ==== Sys2Proof/Proofs/SettingsWrites.lean ====
section
/-! SETTINGS_WRITE (R121, R125, R172, R174): the ranges, the settings record read back from its octets, the blocks that take a
changed setting up, and the obligation. -/

namespace Sys2Proof.Machine

/-! ## The ranges (R174) -/

theorem clampTo_within {lo hi : Nat} (h : lo ≤ hi) (n : Nat) : lo ≤ clampTo lo hi n ∧ clampTo lo hi n ≤ hi := by
  unfold clampTo
  split_ifs <;> omega

theorem clampTo_of_within {lo hi n : Nat} (hlo : lo ≤ n) (hhi : n ≤ hi) : clampTo lo hi n = n := by
  unfold clampTo
  split_ifs <;> omega

theorem clampDecimals_valid (n : Nat) : clampDecimals n = 0 ∨ clampDecimals n = 2 ∨ clampDecimals n = 3 := by
  unfold clampDecimals
  split_ifs <;> omega

theorem clampDecimals_of_valid {n : Nat} (h : n = 0 ∨ n = 2 ∨ n = 3) : clampDecimals n = n := by
  obtain rfl | rfl | rfl := h <;> rfl

/-- A lane block with every number in its range (R174). -/
def LaneSettings.InRange (b : LaneSettings) : Prop :=
  50 ≤ b.displayInterval ∧ b.displayInterval ≤ 1000 ∧ 5 ≤ b.weighTime ∧ b.weighTime ≤ 120 ∧ b.baseTolerance ≤ 100000 ∧
  2 ≤ b.placementTime ∧ b.placementTime ≤ 60 ∧ 2 ≤ b.removalTime ∧ b.removalTime ≤ 60 ∧ 5 ≤ b.staffHold ∧
    b.staffHold ≤ 300 ∧
  20 ≤ b.pulseTime ∧ b.pulseTime ≤ 200 ∧ 5 ≤ b.leftOpenTime ∧ b.leftOpenTime ≤ 600

theorem LaneSettings.clamp_inRange (b : LaneSettings) : b.clamp.InRange := by
  obtain ⟨hd, hd'⟩ := clampTo_within (lo := 50) (hi := 1000) (by decide) b.displayInterval
  obtain ⟨hw, hw'⟩ := clampTo_within (lo := 5) (hi := 120) (by decide) b.weighTime
  obtain ⟨-, hb⟩ := clampTo_within (lo := 0) (hi := 100000) (by decide) b.baseTolerance
  obtain ⟨hp, hp'⟩ := clampTo_within (lo := 2) (hi := 60) (by decide) b.placementTime
  obtain ⟨hr, hr'⟩ := clampTo_within (lo := 2) (hi := 60) (by decide) b.removalTime
  obtain ⟨hs, hs'⟩ := clampTo_within (lo := 5) (hi := 300) (by decide) b.staffHold
  obtain ⟨hu, hu'⟩ := clampTo_within (lo := 20) (hi := 200) (by decide) b.pulseTime
  obtain ⟨ho, ho'⟩ := clampTo_within (lo := 5) (hi := 600) (by decide) b.leftOpenTime
  exact ⟨hd, hd', hw, hw', hb, hp, hp', hr, hr', hs, hs', hu, hu', ho, ho'⟩

theorem LaneSettings.InRange.clamp_eq {b : LaneSettings} (h : b.InRange) : b.clamp = b := by
  obtain ⟨hd, hd', hw, hw', hb, hp, hp', hr, hr', hs, hs', hu, hu', ho, ho'⟩ := h
  rw [LaneSettings.clamp, clampTo_of_within hd hd', clampTo_of_within hw hw', clampTo_of_within (Nat.zero_le _) hb,
    clampTo_of_within hp hp', clampTo_of_within hr hr', clampTo_of_within hs hs', clampTo_of_within hu hu',
    clampTo_of_within ho ho']

/-- A settings record with every value in its range (R174). -/
def Settings.InRange (t : Settings) : Prop :=
  (t.moneyDecimals = 0 ∨ t.moneyDecimals = 2 ∨ t.moneyDecimals = 3) ∧ t.linkSilence ≤ 60 ∧
    5 ≤ t.responseTime ∧ t.responseTime ≤ 120 ∧
    1 ≤ t.solenoidBudget ∧ t.solenoidBudget ≤ 4 ∧ ∀ l, (t.lanes.get l).InRange

theorem lanes_clamp (t : Settings) (l : LaneId) : t.clamp.lanes.get l = (t.lanes.get l).clamp := by
  fin_cases l <;> rfl

theorem Settings.clamp_inRange (t : Settings) : t.clamp.InRange := by
  obtain ⟨-, hl⟩ := clampTo_within (lo := 0) (hi := 60) (by decide) t.linkSilence
  obtain ⟨hr, hr'⟩ := clampTo_within (lo := 5) (hi := 120) (by decide) t.responseTime
  obtain ⟨hb, hb'⟩ := clampTo_within (lo := 1) (hi := 4) (by decide) t.solenoidBudget
  refine ⟨clampDecimals_valid t.moneyDecimals, hl, hr, hr', hb, hb', fun l => ?_⟩
  rw [lanes_clamp]
  exact (t.lanes.get l).clamp_inRange

theorem Settings.InRange.clamp_eq {t : Settings} (h : t.InRange) : t.clamp = t := by
  obtain ⟨hm, hl, hr, hr', hb, hb', hlane⟩ := h
  have lane (l : LaneId) : (t.lanes.get l).clamp = t.lanes.get l := (hlane l).clamp_eq
  rw [Settings.clamp, clampDecimals_of_valid hm, clampTo_of_within (Nat.zero_le _) hl, clampTo_of_within hr hr',
    clampTo_of_within hb hb', show t.lanes.l0.clamp = _ from lane 0, show t.lanes.l1.clamp = _ from lane 1,
    show t.lanes.l2.clamp = _ from lane 2, show t.lanes.l3.clamp = _ from lane 3]
  rfl

/-! ## The record (R174, R193) -/

/-- A polarity octet that is neither value leaves no record (R174). -/
theorem settingsOf_foreign {raw : RawSettings} (h : ∃ l, 1 < (raw.lanes.get l).polarity.toNat) : settingsOf raw = none := by
  have foreign {b : Byte} (hb : 1 < b.toNat) : polarityOf b = none := by
    unfold polarityOf
    split
    · omega
    · omega
    · rfl
  obtain ⟨l, hl⟩ := h
  have hnone := foreign hl
  unfold settingsOf
  split
  · rename_i h0 h1 h2 h3
    fin_cases l
    · exact nomatch h0.symm.trans hnone
    · exact nomatch h1.symm.trans hnone
    · exact nomatch h2.symm.trans hnone
    · exact nomatch h3.symm.trans hnone
  · rfl

theorem rawLaneSettingsAt_octets (r : RawLaneSettings) (q : List Byte) :
    rawLaneSettingsAt (rawLaneSettingsOctets r ++ q) = r := by
  simp [rawLaneSettingsAt, rawLaneSettingsOctets, fieldAt_append_of_le, octetAt_append_of_le, fieldAt_cons, octetAt_cons,
    octetAt_cons_zero, ofNat_fieldAt_be]

theorem rawSettingsAt_octets (r : RawSettings) : rawSettingsAt (rawSettingsOctets r) = r := by
  have hlen (b : RawLaneSettings) : (rawLaneSettingsOctets b).length = 15 := Laws.requestSize.rawLaneSettings_length b
  have skip (n : Nat) (b : RawLaneSettings) (q : List Byte) :
      (rawLaneSettingsOctets b ++ q).drop (n + 15) = q.drop n := by
    rw [Nat.add_comm, ← hlen b, List.drop_length_add_append]
  have last (b : RawLaneSettings) : rawLaneSettingsAt (rawLaneSettingsOctets b) = b := by
    simpa using rawLaneSettingsAt_octets b []
  simp [rawSettingsAt, rawSettingsOctets, octetAt_cons, octetAt_cons_zero, skip 0, skip 15, skip 30, rawLaneSettingsAt_octets,
    last]

theorem requestOf_settingsWrite (en : Bool) (tag : Byte) (raw : RawSettings) :
    requestOf en .settingsWrite (requestFrame 15 .settingsWrite tag (rawSettingsOctets raw)) = .settingsWrite tag raw :=
  congrArg (Instr.settingsWrite tag) (rawSettingsAt_octets raw)

section
variable {s : State}

/-! ## What takes a setting up (R121, R123, R125, R172) -/

theorem endRelease_receiveBuffer (cut : Bool) (s : State) (l : LaneId) :
    (s.endRelease cut l).receiveBuffer = s.receiveBuffer := by
  unfold State.endRelease
  dsimp only
  split
  · exact offerLane_receiveBuffer ..
  · rfl

theorem cutDrawer_receiveBuffer (s : State) (l : LaneId) : (s.cutDrawer l).receiveBuffer = s.receiveBuffer := by
  rw [State.cutDrawer, toChecking_eq]
  exact (admitHeads_receiveBuffer ..).trans (endRelease_receiveBuffer ..)

theorem cutToBudget_receiveBuffer (s : State) : s.cutToBudget.receiveBuffer = s.receiveBuffer := by
  unfold State.cutToBudget
  generalize (s.releasing.drop s.settings.solenoidBudget).reverse = ls
  induction ls generalizing s with
  | nil => rfl
  | cons l ls ih => exact (ih (s.cutDrawer l)).trans (cutDrawer_receiveBuffer s l)

theorem budgetSetting_receiveBuffer (s : State) (old : Settings) :
    (s.budgetSetting old).receiveBuffer = s.receiveBuffer := by
  unfold State.budgetSetting
  split_ifs
  · exact admitHeads_receiveBuffer ..
  · exact cutToBudget_receiveBuffer s
  · rfl

theorem polaritySettings_receiveBuffer (old : Settings) (ls : List LaneId) (s : State) :
    (ls.foldl (State.polaritySetting old) s).receiveBuffer = s.receiveBuffer := by
  induction ls generalizing s with
  | nil => rfl
  | cons l ls ih =>
    refine (ih (State.polaritySetting old s l)).trans ?_
    unfold State.polaritySetting
    split <;> rfl

theorem linkSetting_receiveBuffer (s : State) (old : Settings) : (s.linkSetting old).receiveBuffer = s.receiveBuffer := by
  unfold State.linkSetting
  split <;> rfl

theorem writeSettings_receiveBuffer (s : State) (t : Settings) : (s.writeSettings t).receiveBuffer = s.receiveBuffer := by
  unfold State.writeSettings
  dsimp only
  rw [budgetSetting_receiveBuffer, polaritySettings_receiveBuffer, linkSetting_receiveBuffer]

theorem takeSettingsWrite_receiveBuffer (raw : RawSettings) (s : State) :
    (takeSettingsWrite raw s).2.receiveBuffer = s.receiveBuffer := by
  unfold takeSettingsWrite
  split
  · rfl
  · dsimp only
    exact writeSettings_receiveBuffer ..

theorem exec_settingsWrite (h : s.ServesPart) (tag : Byte) (raw : RawSettings) :
    exec (.settingsWrite tag raw) s = .next (settle (requestFrame 15 .settingsWrite tag (rawSettingsOctets raw))
      s.upstream.length (takeSettingsWrite raw s.taken)) := by
  refine exec_part .settingsWrite tag _ h.1 (.inl h.2) rfl rfl rfl ?_ (requestOf_settingsWrite _ tag raw) rfl
    (takeSettingsWrite_receiveBuffer raw s.taken)
  rw [Laws.requestSize.rawSettings_length]
  rfl

/-- Dispatch has just restarted the link-silence timer, so a silence time that did not change leaves it at its length too
(R172). -/
theorem taken_linkSetting (s : State) (c : Settings) :
    State.linkSetting { s.taken with settings := c } s.settings =
      { s.taken with settings := c, linkTimer := if c.linkSilence = 0 then none else some (c.linkSilence * 1000) } := by
  unfold State.linkSetting
  split
  · rename_i hsame
    have hlength : c.linkSilence = s.settings.linkSilence := hsame
    rw [hlength]
    rfl
  · rfl

/-- Each enabled lane whose polarity was changed follows the new one (R121). -/
theorem polaritySettings_eq {old c : Settings} (ls : List LaneId) {t : State} (hset : t.settings = c)
    (hlanes : t.enabled = s.enabled) :
    ls.foldl (State.polaritySetting old) t = ls.foldl (fun (z : State) l =>
      if s.enabled l = true ∧ (old.lanes.get l).polarity ≠ (c.lanes.get l).polarity then
        z.setTill l ((z.till l).debounced (c.lanes.get l).polarity)
      else z) t := by
  induction ls generalizing t with
  | nil => rfl
  | cons l ls ih =>
    have hone : State.polaritySetting old t l =
        if s.enabled l = true ∧ (old.lanes.get l).polarity ≠ (c.lanes.get l).polarity then
          t.setTill l ((t.till l).debounced (c.lanes.get l).polarity)
        else t := by
      rw [State.polaritySetting, State.polarity, State.laneSettings, hset, hlanes]
    rw [List.foldl_cons, List.foldl_cons, hone]
    split
    · exact ih hset hlanes
    · exact ih hset hlanes

/-- A settings record written at dispatch (R174). -/
theorem taken_writeSettings (s : State) (c : Settings) :
    s.taken.writeSettings c =
      let y := [0, 1, 2, 3].foldl (fun (z : State) l =>
          if s.enabled l = true ∧ (s.settings.lanes.get l).polarity ≠ (c.lanes.get l).polarity then
            z.setTill l ((z.till l).debounced (c.lanes.get l).polarity)
          else z)
        { s.taken with settings := c, linkTimer := if c.linkSilence = 0 then none else some (c.linkSilence * 1000) }
      if s.settings.solenoidBudget < c.solenoidBudget then y.admission
      else if c.solenoidBudget < s.settings.solenoidBudget then y.cutToBudget else y := by
  have hold : s.taken.settings = s.settings := rfl
  obtain ⟨hset, -, -⟩ := polaritySettings_frame s.settings allLanes
    { s.taken with settings := c, linkTimer := if c.linkSilence = 0 then none else some (c.linkSilence * 1000) }
  rw [State.writeSettings, hold, taken_linkSetting, State.budgetSetting, hset, polaritySettings_eq allLanes rfl rfl]
  rfl

end

/-- Settles O29: dispatch restarts the timer the write hands on, and a lowered budget is met by the cuts alone. -/
theorem settingsAreClampedAndTakenUp : Obligations.SettingsAreClampedAndTakenUp := by
  refine ⟨fun s tag raw t h ht => ?_, fun s tag raw h hforeign => ?_, fun raw => ?_, fun y h => ?_,
    fun t h => Settings.InRange.clamp_eq h⟩
  · intro c old
    rw [exec_settingsWrite h, takeSettingsWrite, ht]
    dsimp only
    rw [taken_writeSettings]
    rfl
  · rw [exec_settingsWrite h, takeSettingsWrite, settingsOf_foreign hforeign]
    rfl
  · exact ⟨raw.clamp_inRange.clamp_eq, raw.clamp_inRange⟩
  · have hfold := funext fun z => funext fun l => endRelease_eq true z l
    rw [cutToBudget_eq h, ← endReleases_setReleasing, hfold]
    rfl

end Sys2Proof.Machine
end
